-- ==== Sys2Proof/Word.lean ====
section
/-!
DEFINITION. The words of the KS-860: a byte of a car line or of a port, a car number, and nothing more.
-/

namespace Sys2Proof

/-- One byte of a car line (R19) or of a port transaction (R184). -/
abbrev Byte := BitVec 8

/-- A car number: "Cars are numbered 0 to 7" (00_scope.md, Conventions). -/
abbrev Car := Fin 8

/-- The eight cars in the order of their numbers. -/
def allCars : List Car := [0, 1, 2, 3, 4, 5, 6, 7]

end Sys2Proof
end

