-- ==== Sys2Proof/Config.lean ====
section
/-!
DEFINITION. The configuration of the KS-860 (R1): the parameters of one car (Table 4), the global parameters (Table 5),
the state-of-charge table (R10) and the sixteen policy rules (Table 15), with the stored image that holds them (R12);
and the free values, which the manual leaves open.

Every figure is held as the number the manual gives it, in the manual's unit. Which figures are in range is judged by
the checks of Machine/Validate.lean, at the places where the manual judges it.
-/

namespace Sys2Proof

/-- The two host ports (R183). -/
inductive Port where
  | station
  | panel
deriving DecidableEq, Repr

/-- A direction in the hoistway (00_scope.md, Conventions). -/
inductive Dir where
  | up
  | down
deriving DecidableEq, Repr

/-- The car line rate of Table 5, in baud. -/
inductive LineRate where
  | b9600
  | b19200
  | b38400
  | b57600
deriving DecidableEq, Repr

/-- Channel B mode of Table 4 (R162). -/
inductive ChannelBMode where
  | follow
  | own
  | closed
deriving DecidableEq, Repr

/-- Output polarity of a brake-release output (Table 4, R161). -/
inductive Polarity where
  | activeHigh
  | activeLow
deriving DecidableEq, Repr

/-- The five methods a method mask may hold (R109); their order is that of Table 15. -/
inductive Method where
  | gravityDown
  | gravityUp
  | poweredUp
  | poweredDown
  | probe
deriving DecidableEq, Repr

/-- The cause of a stall (Tables 7, 9 and 15). -/
inductive StallCause where
  | power
  | driveFault
  | safety
  | unknown
deriving DecidableEq, Repr

/-- The quantity a policy rule tests (Table 16). -/
inductive Quantity where
  | loadKg
  | trappedS
  | landing
  | alarms
  | usableEu
  | urgency
deriving DecidableEq, Repr

/-- The compare of a policy rule (R105). -/
inductive Compare where
  | off
  | inRange
  | outOfRange
  | atBound
deriving DecidableEq, Repr

/-- The line condition of a policy rule (R105). -/
inductive LineCondition where
  | any
  | alive
  | lost
deriving DecidableEq, Repr

/-- The weight action of a policy rule (R108). -/
inductive WeightAction where
  | none
  | raise
  | lower
  | set
deriving DecidableEq, Repr

/-- The method action of a policy rule (R109). -/
inductive MethodAction where
  | none
  | add
  | keepOnly
  | set
deriving DecidableEq, Repr

/-- The count action of a policy rule (R110). -/
inductive CountAction where
  | none
  | countUp
  | countDown
deriving DecidableEq, Repr

/-- The count unit of a policy rule (R110). -/
inductive CountUnit where
  | seconds
  | minutes
deriving DecidableEq, Repr

/-- A set of methods, one bit per member in the order of Table 15: GRAVITY_DOWN is bit 0, PROBE bit 4. -/
abbrev MethodSet := BitVec 5

/-- A set of stall causes, one bit per member in the order of Table 15: POWER is bit 0, UNKNOWN bit 3. -/
abbrev CauseSet := BitVec 4

/-- A set of policy rules, rule r at bit r. -/
abbrev RuleSet := BitVec 16

/-- One policy rule: the fourteen fields of Table 15 (R102). -/
structure Rule where
  enabled       : Bool
  quantity      : Quantity
  compare       : Compare
  low           : Nat
  high          : Nat
  causes        : CauseSet
  lineCondition : LineCondition
  weightAction  : WeightAction
  weightValue   : Nat
  methodAction  : MethodAction
  methods       : MethodSet
  countAction   : CountAction
  countUnit     : CountUnit
  countLimit    : Nat
deriving DecidableEq, Repr

/-- One car entry: the per-car parameters of Table 4 and the car's rule set (R1). -/
structure CarEntry where
  present    : Bool
  landings   : Nat
  heights    : List Nat
  halfWidth  : Nat
  ratedLoad  : Nat
  balance    : Nat
  margin     : Nat
  coilPower  : Nat
  drivePower : Nat
  efficiency : Nat
  speed      : Nat
  overspeed  : Nat
  ppm        : Nat
  baseWeight : Nat
  bMode      : ChannelBMode
  bShare     : Nat
  polarityA  : Polarity
  polarityB  : Polarity
  ruleSet    : RuleSet
deriving DecidableEq, Repr

/-- The global parameters, in the order of Table 5 and in its units. -/
structure Globals where
  lineRate       : LineRate
  lostTimeout    : Nat
  filterTime     : Nat
  confirmTime    : Nat
  frame          : Nat
  window         : Nat
  band           : Nat
  stepUp         : Nat
  stepDown       : Nat
  startShare     : Nat
  maxShare       : Nat
  probeShare     : Nat
  probeFrames    : Nat
  probeThreshold : Nat
  reversal       : Nat
  runMargin      : Nat
  stopDwell      : Nat
  slipLimit      : Nat
  tolerance      : Nat
  missPenalty    : Nat
  threshold      : Nat
  kOcc           : Nat
  defaultOcc     : Nat
  kAlarm         : Nat
  brakeSlots     : Nat
  driveSlots     : Nat
  ackTimeout     : Nat
  gateTimeout    : Nat
  unlockPulse    : Nat
  retryDelay     : Nat
  reserveFloor   : Nat
  wakeLimit      : Nat
  standbyDwell   : Nat
  mainsStable    : Nat
  toneHigh       : Nat
  toneLow        : Nat
  reassurance    : Nat
deriving DecidableEq, Repr

/-- One point of the state-of-charge table: a battery voltage in mV and an energy in EU (R10). -/
structure SocPoint where
  voltage : Nat
  energy  : Nat
deriving DecidableEq, Repr

/-- The working configuration (R1): eight car entries, the global parameters, the state-of-charge table, sixteen rules. -/
structure Settings where
  cars    : Vector CarEntry 8
  globals : Globals
  soc     : List SocPoint
  rules   : Vector Rule 16
deriving DecidableEq, Repr

/-- The stored image (R12): the items of the working configuration and a 16-bit checksum. -/
structure StoredImage where
  contents : Settings
  checksum : BitVec 16
deriving DecidableEq, Repr

/-- FREE VALUE (log 13). The code with which the part sends the cause UNKNOWN of a STATUS record: Table 28 gives codes
for the other three causes and says "other UNKNOWN" of what the part receives, and no code for what it sends. -/
opaque Config.unknownCauseCode : Byte

/-- FREE VALUE (log 23). What the converter of the battery input reads at the n-th sample the part takes on its own clock
(R143): what stands at the input is no part of the machine. -/
opaque Config.batteryReading : Nat → BitVec 12

/-- FREE VALUE (log 29). What the address-select inputs read as at the start of a soft reset that a station-port transaction
begins (R183, R190), when the machine has taken n samples: what stands at the inputs is no part of the machine. -/
opaque Config.addressInputs : Nat → Fin 4

end Sys2Proof
end

