-- ==== Sys2Proof/Syntax.lean ====
section
/-!
DEFINITION. The commands of the KS-860: one constructor of `Instr` for each row of spec/opcode_table.json, in the
table's order, with the operands the row's event carries.

A port request carries its port and the bytes of its frame after the command code (R192: length, payload, checksum);
the code is the constructor's own. What the bytes spell is judged by R185 when the command is run. A command of a car
line, an input or a timer names its car, which is 0 to 7 because there are eight lines and eight sets of inputs.
-/

namespace Sys2Proof

/-- A level input of the Input Conditioner (R36). A level `true` is the first meaning of the table of section 3.2
(active, closed, on, present, ready), `false` the second. -/
inductive LevelInput where
  | zone (c : Car)
  | chain (c : Car)
  | lockout (c : Car)
  | mains
  | converter
deriving DecidableEq, Repr

/-- The kind of a zone edge (R44). -/
inductive EdgeKind where
  | enter
  | leave
deriving DecidableEq, Repr

/-- A brake-release channel of a car (R159). -/
inductive Channel where
  | a
  | b
deriving DecidableEq, Repr

/-- One byte as it arrives on a car line (R19): data bits, mark bit, parity bit, and the level of the stop bit
(`true`: the idle level of the line). -/
structure LineByte where
  data   : Byte
  mark   : Bool
  parity : Bool
  stop   : Bool
deriving DecidableEq, Repr

/-- The payload of a STATUS frame as it stands on the line (Table 28), before the treatment of R22. -/
structure StatusFrame where
  mode           : Byte
  cause          : Byte
  load           : BitVec 16
  zone           : Byte
  offset         : BitVec 16
  gate           : Byte
  alarmCount     : Byte
  driveAvailable : Byte
deriving DecidableEq, Repr

/-- The commands: one per row of spec/opcode_table.json. -/
inductive Instr where
  /-- POWER_ON: the address-select inputs as sampled (R183). -/
  | powerOn (address : Fin 4)
  /-- SOFT_RESET: the address-select inputs as sampled (R183). -/
  | softReset (address : Fin 4)
  | responseRead (port : Port)
  | readCar (port : Port) (body : List Byte)
  | readTracker (port : Port) (body : List Byte)
  | readSupply (port : Port) (body : List Byte)
  | readRule (port : Port) (body : List Byte)
  | readStage (port : Port) (body : List Byte)
  | readConfig (port : Port) (body : List Byte)
  | readNotices (port : Port) (body : List Byte)
  | ackNotices (port : Port) (body : List Byte)
  | setNoticeEnable (port : Port) (body : List Byte)
  | stageRule (port : Port) (body : List Byte)
  | clearStage (port : Port) (body : List Byte)
  | commitRule (port : Port) (body : List Byte)
  | clearCar (port : Port) (body : List Byte)
  | clearSupplyFault (port : Port) (body : List Byte)
  | readLine (port : Port) (body : List Byte)
  | clearLineCounts (port : Port) (body : List Byte)
  | writeCarParams (port : Port) (body : List Byte)
  | writeMap (port : Port) (body : List Byte)
  | writeRuleset (port : Port) (body : List Byte)
  | writeGlobal (port : Port) (body : List Byte)
  | writeSocTable (port : Port) (body : List Byte)
  | saveSettings (port : Port) (body : List Byte)
  | saveWriteComplete
  /-- SAVE_VERIFY_COMPLETE: what the read-back of the image found (R14). -/
  | saveVerifyComplete (found : StoredImage)
  | reset (port : Port) (body : List Byte)
  | inhibitCar (port : Port) (body : List Byte)
  | restoreCar (port : Port) (body : List Byte)
  | confirmPosition (port : Port) (body : List Byte)
  | releaseHold (port : Port) (body : List Byte)
  | clearFailed (port : Port) (body : List Byte)
  | setFirst (port : Port) (body : List Byte)
  | clearFirst (port : Port) (body : List Byte)
  | silenceTone (port : Port) (body : List Byte)
  | carLineByte (c : Car) (byte : LineByte)
  | status (c : Car) (frame : StatusFrame)
  | driveAck (c : Car) (moveId : Byte)
  | moveDone (c : Car) (moveId landing : Byte)
  | moveFail (c : Car) (moveId reason : Byte)
  | gateReport (c : Car) (landing gate : Byte)
  | lostTimeout (c : Car)
  | transmitComplete (c : Car)
  | oneSecondTick
  | passEnd
  | rawLevelChange (input : LevelInput) (level : Bool)
  | firstLevelAcceptance (input : LevelInput) (level : Bool)
  | zoneEdge (c : Car) (kind : EdgeKind)
  | chainOpen (c : Car)
  | chainClosed (c : Car)
  | lockoutOn (c : Car)
  | lockoutOff (c : Car)
  | mainsLevelChange (present : Bool)
  | mainsStableExpiry
  | converterReady
  | converterNotReady
  | wakeTimeout
  | standbyDwellExpiry
  /-- BATTERY_SAMPLE: the 12-bit reading (R143). -/
  | batterySample (reading : BitVec 12)
  /-- ENCODER_STEP: the new sample of the encoder pair (R39). -/
  | encoderStep (c : Car) (a b : Bool)
  | frameBoundary
  | brakeShareEnd (c : Car) (channel : Channel)
  | confirmTimerExpiry (c : Car)
  | retryTimerExpiry (c : Car)
  | ackTimerExpiry (c : Car)
  | moveTimerExpiry (c : Car)
  | dwellTimerExpiry (c : Car)
  | slipTimerExpiry (c : Car)
  | gateTimerExpiry (c : Car)
  | unlockTimerExpiry (c : Car)
  | reassuranceTimerExpiry (c : Car)
  | toneSegmentEnd (c : Car)
  | lampFlashPhase
  /-- POWER_FAIL: what the non-volatile memory holds after it if a write of it was under way (R16). -/
  | powerFail (left : StoredImage)
  | toneHighLowToggle (c : Car)
  /-- UNKNOWN_COMMAND_REQUEST: the command code, and the bytes of the frame after it. -/
  | unknownCommandRequest (port : Port) (code : Byte) (body : List Byte)
deriving DecidableEq, Repr

end Sys2Proof
end

