-- ==== Sys2Proof/WellFormed.lean ====
section
/-!
DEFINITION. The well-formed commands: the terms of `Instr` that spell a command of their row. Every operand is of a type
that holds exactly the values it may take, so there is one check: an UNKNOWN_COMMAND_REQUEST spells a request whose code is
no code of Table 26, and on the station port a first byte of 0 begins a response read, not a request (R184, R185).
-/

namespace Sys2Proof

/-- The command codes of Table 26. -/
def tableCodes : List Nat :=
  [1, 2, 3, 4, 5, 6, 7, 8, 9, 10, 11, 12, 13, 14, 20, 21, 22, 23, 24, 25, 26, 27, 28, 40, 41, 42, 43, 44, 45, 46, 47]

/-- A command is well-formed. -/
def Instr.wellFormed : Instr → Bool
  | .unknownCommandRequest port code _ => !tableCodes.contains code.toNat && !(port == .station && code == 0)
  | _ => true

end Sys2Proof
end

