-- ==== Sys2Proof/Decode.lean ====
section
/-!
DEFINITION. The commands a word spells by the bits of spec/opcode_table.json. No row of the table has bits (every row's
"fields" is empty), so no word spells a command.
-/

namespace Sys2Proof

/-- The command that a word of the table's bits spells: none, as no row has bits. -/
def decodeTableWord (_nbits _w : Nat) : Option Instr := none

end Sys2Proof
end

