-- ==== Sys2Proof/Machine/Defaults.lean ====
section
/-!
DEFINITION. The default configuration: the Default columns of Tables 4, 5 and 15 and the default state-of-charge
table (R10), which the Settings Store loads when the stored image is invalid (R16).
-/

namespace Sys2Proof.Machine

/-- The Default column of Table 4; the rule set is empty. -/
def defaultCarEntry : CarEntry where
  present    := false
  landings   := 2
  heights    := [0, 4000]
  halfWidth  := 75
  ratedLoad  := 1000
  balance    := 45
  margin     := 5
  coilPower  := 150
  drivePower := 1500
  efficiency := 80
  speed      := 150
  overspeed  := 300
  ppm        := 1000
  baseWeight := 16
  bMode      := .follow
  bShare     := 0
  polarityA  := .activeHigh
  polarityB  := .activeHigh
  ruleSet    := 0

/-- The Default column of Table 5. -/
def defaultGlobals : Globals where
  lineRate       := .b19200
  lostTimeout    := 3000
  filterTime     := 4
  confirmTime    := 10
  frame          := 40
  window         := 8
  band           := 10
  stepUp         := 2
  stepDown       := 5
  startShare     := 40
  maxShare       := 100
  probeShare     := 30
  probeFrames    := 10
  probeThreshold := 10
  reversal       := 30
  runMargin      := 600
  stopDwell      := 500
  slipLimit      := 5
  tolerance      := 8
  missPenalty    := 200
  threshold      := 64
  kOcc           := 8
  defaultOcc     := 4
  kAlarm         := 20
  brakeSlots     := 2
  driveSlots     := 1
  ackTimeout     := 2000
  gateTimeout    := 20
  unlockPulse    := 1000
  retryDelay     := 30
  reserveFloor   := 1000
  wakeLimit      := 1500
  standbyDwell   := 60
  mainsStable    := 5
  toneHigh       := 250
  toneLow        := 250
  reassurance    := 30

/-- The default state-of-charge table (section 1.5). -/
def defaultSoc : List SocPoint := [⟨44000, 0⟩, ⟨52000, 30000⟩]

/-- The Default column of Table 15. -/
def defaultRule : Rule where
  enabled       := false
  quantity      := .trappedS
  compare       := .off
  low           := 0
  high          := 0
  causes        := 0
  lineCondition := .any
  weightAction  := .none
  weightValue   := 0
  methodAction  := .none
  methods       := 0
  countAction   := .none
  countUnit     := .seconds
  countLimit    := 1

/-- The defaults the Settings Store loads when the stored image is invalid (R16). -/
def defaultSettings : Settings where
  cars    := Vector.replicate 8 defaultCarEntry
  globals := defaultGlobals
  soc     := defaultSoc
  rules   := Vector.replicate 16 defaultRule

/-- All five methods (R107, R122). -/
def allMethods : MethodSet := BitVec.allOnes 5

end Sys2Proof.Machine
end

