-- ==== Sys2Proof/Machine/State.lean ====
section
/-!
DEFINITION. The state of the KS-860, block by block as the manual's tables give it, and the state right after
power-on. `Part` is everything the part holds; `State` is the part and the queue of the commands that wait for it.

A timer is `none` when stopped and `some` of the milliseconds left when running: its duration is fixed at its start
(R8, R51), so only what is left of it needs to be held.
-/

namespace Sys2Proof.Machine

/-! ## Car Line Interface (R18) -/

/-- The part's judgement of a car controller (R24). -/
inductive LineState where
  | silent
  | alive
  | lost
deriving DecidableEq, Repr

/-- The assembly state of a line (R18, R20). -/
inductive AssemblyState where
  | hunt
  | header
  | payload
  | check
deriving DecidableEq, Repr

/-- The assembly state and the frame in assembly: kind, length, payload bytes so far, running sum (R18). -/
structure Assembly where
  state   : AssemblyState
  kind    : Byte
  length  : Nat
  payload : List Byte
  sum     : Byte
deriving DecidableEq, Repr

/-- The mode of a STATUS (Table 7). -/
inductive StatusMode where
  | inService
  | stalled
  | outOfService
deriving DecidableEq, Repr

/-- The gate of a STATUS or GATE_REPORT (Table 7). -/
inductive GateState where
  | closed
  | opening
  | open
  | unknown
deriving DecidableEq, Repr

/-- The last STATUS record: the fields after the treatment of R22, with their absent markers. -/
structure StatusRecord where
  mode           : StatusMode
  cause          : StallCause
  load           : Option Nat
  zone           : Option Nat
  offset         : Option Nat
  gate           : GateState
  alarmCount     : Nat
  driveAvailable : Bool
deriving DecidableEq, Repr

/-- A frame of a car controller that has passed R21 and its field checks and is being handed over (R20, R23 to R26). -/
inductive ControllerFrame where
  | status (frame : StatusFrame)
  | driveAck (moveId : Byte)
  | moveDone (moveId landing : Byte)
  | moveFail (moveId reason : Byte)
  | gateReport (landing gate : Byte)
deriving DecidableEq, Repr

/-- The fourteen states of a car (Table 10), in the order of Table 28. -/
inductive RescueState where
  | unconfigured
  | normal
  | confirming
  | assessing
  | ready
  | probing
  | lowering
  | levelling
  | driving
  | releasing
  | rescued
  | held
  | failed
  | inhibited
deriving DecidableEq, Repr

/-- The cause of HELD (Table 9). -/
inductive HeldCause where
  | safety
  | lockout
  | noMethod
  | position
deriving DecidableEq, Repr

/-- A frame the part sends (Table 28). -/
inductive PartFrame where
  | grant (moveId : Nat) (dir : Dir) (target energyCap speedLimit : Nat)
  | cancel (moveId : Nat)
  | gateRelease (landing : Nat)
  | rescueState (state : RescueState) (held : Option HeldCause)
deriving DecidableEq, Repr

/-- One Car Line Interface (R18). `lostLimit` is the lost timeout the running lost timer began with (R8);
`handover` is the completed frame being handed over (R20). -/
structure CarLine where
  state         : LineState
  lostTimer     : Nat
  lostLimit     : Nat
  fifo          : List (Byte × Bool)
  assembly      : Assembly
  handover      : Option ControllerFrame
  parityErrors  : Nat
  framingErrors : Nat
  overruns      : Nat
  badFrames     : Nat
  lastStatus    : Option StatusRecord
  nextMoveId    : Nat
  queue         : List PartFrame
  overflow      : Option PartFrame
  transmitting  : Option PartFrame
deriving DecidableEq, Repr

/-! ## Input Conditioner (R35, Table 8) -/

/-- The filter of one level input (R36). `candidate` is the raw level last seen; `accepted` is `none` while the level
reads UNKNOWN (R37); `holding` is what is left of the filter time while the candidate is being timed. -/
structure LevelFilter where
  candidate : Bool
  accepted  : Option Bool
  holding   : Option Nat
deriving DecidableEq, Repr

/-- The move record (R42), with the direction of the last step counted since the move began (R44). -/
structure MoveRecord where
  dir      : Option Dir
  travel   : Int
  peak     : Int
  armed    : Bool
  lastStep : Option Dir
deriving DecidableEq, Repr

/-- One car's Input Conditioner (Table 8). `encoder` is `none` until the first sample after the reset. -/
structure CarInputs where
  zone          : LevelFilter
  chain         : LevelFilter
  lockout       : LevelFilter
  encoder       : Option (Bool × Bool)
  encoderErrors : Nat
  odometry      : Int
  move          : MoveRecord
  frameCount    : Int
  window        : List Nat
deriving DecidableEq, Repr

/-! ## Car Rescue Table (R51, Table 9) -/

/-- The last abort cause (Table 9). -/
inductive AbortCause where
  | chainOpen
  | lockout
  | supplyLost
  | inhibit
  | reversal
  | overspeed
  | runLimit
  | brakeSlip
  | noAck
  | driveFail
  | driveTimeout
  | gateTimeout
  | stopOutsideZone
deriving DecidableEq, Repr

/-- The probe result (R61). -/
inductive ProbeResult where
  | up
  | down
  | noDrift
deriving DecidableEq, Repr

/-- The method used of the rescue summary (Table 9). -/
inductive MethodUsed where
  | gravityDown
  | gravityUp
  | poweredUp
  | poweredDown
  | none
deriving DecidableEq, Repr

/-- The rescue summary (R178). -/
structure RescueSummary where
  methodUsed  : Option MethodUsed
  landing     : Option Nat
  releaseTime : Option Nat
deriving DecidableEq, Repr

/-- One car record (Table 9). `motionAge` is the time since the last motion count of the present LEVELLING, which
R64 weighs; it is `none` before the first. -/
structure CarRecord where
  state           : RescueState
  heldCause       : Option HeldCause
  stallCause      : Option StallCause
  lastAbort       : Option AbortCause
  driveFailReason : Option Nat
  trappedTime     : Nat
  attempts        : Nat
  probeResult     : Option ProbeResult
  confirmTimer    : Option Nat
  retryTimer      : Option Nat
  ackTimer        : Option Nat
  moveTimer       : Option Nat
  dwellTimer      : Option Nat
  slipTimer       : Option Nat
  gateTimer       : Option Nat
  motionAge       : Option Nat
  first           : Bool
  energyShort     : Bool
  moveId          : Option Nat
  lastEscalation  : Option Nat
  summary         : RescueSummary
deriving DecidableEq, Repr

/-! ## Position Tracker (R82, Table 12) -/

/-- The anchor detail under EDGE (Table 12). -/
inductive EdgeDetail where
  | enter (d : Dir)
  | leave (d : Dir)
  | level
deriving DecidableEq, Repr

/-- The anchor with its detail (Table 12). -/
inductive Anchor where
  | none
  | edge (detail : EdgeDetail)
  | seed (zone offset : Nat)
deriving DecidableEq, Repr

/-- One car's Position Tracker (Table 12). -/
structure Tracker where
  costs      : List Nat
  anchor     : Anchor
  confidence : Nat
  bestZone   : Nat
  confirmed  : Bool
deriving DecidableEq, Repr

/-! ## Planner (R122, Tables 17 and 18) -/

/-- The method of a plan (Table 18). -/
inductive PlanMethod where
  | gravityDown
  | gravityUp
  | poweredUp
  | poweredDown
  | probe
  | none
deriving DecidableEq, Repr

/-- The natural direction (R135). -/
inductive NaturalDir where
  | up
  | down
  | balanced
  | unknown
deriving DecidableEq, Repr

/-- The position basis (R133, R134). -/
inductive PositionBasis where
  | landing
  | known
  | worstCase
  | noSpan
deriving DecidableEq, Repr

/-- A plan record (Table 18). The record is empty when `planned` is clear: every other field is then absent. -/
structure PlanRecord where
  planned      : Bool
  method       : Option PlanMethod
  natural      : Option NaturalDir
  basis        : Option PositionBasis
  dir          : Option Dir
  target       : Option Nat
  distance     : Option Nat
  travelTime   : Option Nat
  estimate     : Option Nat
  upDistance   : Option Nat
  downDistance : Option Nat
deriving DecidableEq, Repr

/-- The Planner's figures of one car (Table 17). -/
structure CarPlanner where
  urgency   : Nat
  weight    : Nat
  mask      : MethodSet
  alarmMark : Option Nat
  plan      : PlanRecord
deriving DecidableEq, Repr

/-- The kind of a plan pass (R125). -/
inductive PassKind where
  | timed
  | requested
deriving DecidableEq, Repr

/-- The planning view of a car (R98, R99). -/
structure View where
  least      : Nat
  bestZone   : Option Nat
  confidence : Nat
  resolved   : Bool
  offset     : Option Nat
deriving DecidableEq, Repr

/-- The figures of one car in the snapshot of a pass (R126). -/
structure CarSnapshot where
  car            : Car
  entry          : CarEntry
  stallCause     : Option StallCause
  trappedTime    : Nat
  probeResult    : Option ProbeResult
  locked         : Bool
  lineState      : LineState
  load           : Option Nat
  alarmCount     : Option Nat
  driveAvailable : Option Bool
  alarmTally     : Nat
  alarmReference : Option Nat
  urgency        : Nat
  weight         : Nat
  bestZone       : Nat
  zoneLevel      : Option Bool
  view           : View
deriving DecidableEq, Repr

/-- A pass in flight: its kind and its snapshot (R126). -/
structure Pass where
  kind    : PassKind
  cars    : List CarSnapshot
  globals : Globals
  usable  : Option Nat
deriving DecidableEq, Repr

/-! ## Rescue Policy Table (R102) -/

/-- The state of a rule counter (R110). -/
inductive CounterState where
  | idle
  | counting
  | reached
deriving DecidableEq, Repr

/-- The counter of one rule for one car (R110). -/
structure RuleCounter where
  state   : CounterState
  value   : Nat
  minutes : Nat
deriving DecidableEq, Repr

/-- What the Policy Table holds for one car: alarm tally and reference (R106), and the sixteen counters. -/
structure CarPolicy where
  alarmTally     : Nat
  alarmReference : Option Nat
  counters       : Vector RuleCounter 16
deriving DecidableEq, Repr

/-- A set of rule fields, field number n of Table 15 (R186) at bit n - 1. -/
abbrev FieldSet := BitVec 14

/-- A port's staging record (R115). -/
structure Staging where
  image    : Rule
  selected : FieldSet
deriving DecidableEq, Repr

/-- An entry of the pending commit list (R119). -/
structure PendingCommit where
  port     : Port
  rule     : Fin 16
  image    : Rule
  selected : FieldSet
deriving DecidableEq, Repr

/-! ## Grant Arbiter (R153, Table 21) -/

/-- What one car holds of the Arbiter: a brake slot, a drive slot, a reservation. -/
structure CarSlots where
  brake       : Bool
  drive       : Bool
  reservation : Option Nat
deriving DecidableEq, Repr

/-! ## Brake Drive (R159, Table 22) -/

/-- The state of a brake channel. -/
inductive ChannelState where
  | closed
  | open
  | locked
deriving DecidableEq, Repr

/-- The kind of an opening (Table 22). -/
inductive OpeningKind where
  | lowering
  | probe
deriving DecidableEq, Repr

/-- The Brake Drive's items of one car (Table 22). `insideA` and `insideB` say whether the present moment of the frame
lies inside the channel's active share (R161). -/
structure CarBrake where
  channelA   : ChannelState
  channelB   : ChannelState
  opening    : Option OpeningKind
  started    : Bool
  shadowA    : Nat
  activeA    : Nat
  shadowB    : Nat
  activeB    : Nat
  insideA    : Bool
  insideB    : Bool
  framesOpen : Nat
  lastSpeed  : Option Nat
deriving DecidableEq, Repr

/-! ## Car Signals (R174, Table 23) -/

/-- The release method (R175). -/
inductive ReleaseMethod where
  | frame
  | pulse
deriving DecidableEq, Repr

/-- The lamp mode (R180). -/
inductive LampMode where
  | off
  | steady
  | flash
deriving DecidableEq, Repr

/-- The tone patterns (R181). -/
inductive TonePattern where
  | moveStart
  | levelled
  | release
  | reassure
deriving DecidableEq, Repr

/-- A playing pattern: its position (the segment, and the milliseconds left of it), the high and low times in µs it
started with, and the tone output. -/
structure Playing where
  pattern : TonePattern
  segment : Nat
  left    : Nat
  high    : Nat
  low     : Nat
  output  : Bool
deriving DecidableEq, Repr

/-- One car's Car Signals (Table 23). -/
structure CarSignals where
  releaseMethod : Option ReleaseMethod
  unlockTimer   : Option Nat
  unlockOutput  : Bool
  lamp          : LampMode
  playing       : Option Playing
  waiting       : Option TonePattern
  reassurance   : Option Nat
  silenced      : Bool
deriving DecidableEq, Repr

/-- Everything the part holds for one car, block by block. -/
structure CarBlock where
  line    : CarLine
  inputs  : CarInputs
  record  : CarRecord
  tracker : Tracker
  planner : CarPlanner
  policy  : CarPolicy
  slots   : CarSlots
  brake   : CarBrake
  signals : CarSignals
deriving DecidableEq, Repr

/-! ## Settings Store (R11) -/

/-- The save state (R11). -/
inductive SaveState where
  | idle
  | writing
  | verifying
deriving DecidableEq, Repr

/-- The settings source (R11). -/
inductive SettingsSource where
  | stored
  | defaults
deriving DecidableEq, Repr

/-- The Settings Store (R11). -/
structure Store where
  image    : StoredImage
  save     : SaveState
  snapshot : Option StoredImage
  source   : SettingsSource
  unsaved  : Bool
deriving DecidableEq, Repr

/-! ## Supply Monitor (R141, Table 19) -/

/-- The mains belief (R142). -/
inductive MainsBelief where
  | unknown
  | present
  | absent
deriving DecidableEq, Repr

/-- The converter state (R146). -/
inductive ConverterState where
  | off
  | standby
  | waking
  | on
  | fault
deriving DecidableEq, Repr

/-- The Supply Monitor (Table 19). `sampled` is the first-sample flag: clear is pending, set is taken. -/
structure Supply where
  belief       : MainsBelief
  stableTimer  : Option Nat
  sample       : Option Nat
  sampled      : Bool
  charge       : Option Nat
  usable       : Option Nat
  converter    : ConverterState
  enable       : Bool
  wakeTimer    : Option Nat
  standbyTimer : Option Nat
  wakeErrors   : Nat
  wakeFailures : Nat
deriving DecidableEq, Repr

/-! ## Ports (R183, Table 24) -/

/-- The seventeen notice kinds, in the code order of Table 27. -/
inductive NoticeKind where
  | carStalled
  | carReturned
  | rescueStarted
  | carLevelled
  | carRescued
  | carHeld
  | carFailed
  | escalation
  | energyShort
  | lineLost
  | positionLost
  | supplyFault
  | urgencyRebased
  | commitDone
  | saveDone
  | saveFailed
  | settingsInvalid
deriving DecidableEq, Repr

/-- A notice pair: a kind and its car, or no car (R188). -/
structure Notice where
  kind : NoticeKind
  car  : Option Car
deriving DecidableEq, Repr

/-- The result codes of Table 25. -/
inductive ResultCode where
  | ok
  | pending
  | busy
  | badCommand
  | badValue
  | badCar
  | notAllowed
  | badChecksum
deriving DecidableEq, Repr

/-- A port's response buffer (Table 24); HANDLING holds the request being handled, its code and the bytes after it. -/
inductive ResponseBuffer where
  | empty
  | handling (code : Byte) (body : List Byte)
  | ready (result : ResultCode) (payload : List Byte)
deriving DecidableEq, Repr

/-- A set of notice kinds, the kind with code n of Table 27 at bit n - 1. -/
abbrev KindSet := BitVec 17

/-- One port (Table 24), with its staging record (R115). `clocked` is the model's own record of the bytes the port's last
transaction clocked out before the filler (log 25). -/
structure PortState where
  reception : List Byte
  buffer    : ResponseBuffer
  notices   : List Notice
  mask      : KindSet
  cursor    : Option (Car × Nat)
  staging   : Staging
  clocked   : List Byte
deriving DecidableEq, Repr

/-- The Time Base (R124), the shared brake frame counter (R160) and the count to the next battery sample (R143), in ms since
the last 1 s tick, the last frame boundary and the last sample, and the phase of the flashing lamps (R180). -/
structure TimeBase where
  sinceTick  : Nat
  flashLit   : Bool
  sinceFrame : Nat
  sinceSample : Nat
deriving DecidableEq, Repr

/-- Everything the part holds. `samples` is the model's own count of the samples taken of the battery and of the
address-select inputs; it picks the free values those inputs read as (logs 23, 29). -/
structure Part where
  powered          : Bool
  config           : Settings
  store            : Store
  cars             : Vector CarBlock 8
  mainsInput       : LevelFilter
  converterInput   : LevelFilter
  pass             : Option Pass
  timedPending     : Bool
  requestPending   : Bool
  commits          : List PendingCommit
  supply           : Supply
  time             : TimeBase
  station          : PortState
  panel            : PortState
  panelAddress     : Nat
  resetArmed       : Bool
  samples          : Nat
deriving DecidableEq, Repr

/-- The machine: the part, and the commands that wait for it, first in, first out. -/
structure State extends Part where
  pending : List Instr
deriving DecidableEq, Repr

/-- No command stops the machine: what the manual calls an error is state (a result code, a notice, an error counter,
a HELD or FAILED state, a converter FAULT). -/
inductive Fault where
deriving DecidableEq, Repr

/-- Why a term of `Instr` has no meaning. -/
inductive Refusal where
  /-- An instruction that has no meaning yet; no arm of `exec` uses it. Safe: the machine stops. -/
  | notModelled (mnemonic : String)
  /-- The term spells no command of its row: an UNKNOWN_COMMAND_REQUEST whose code is one of Table 26, or the byte 0
  on the station port, which begins a response read (R184). Raised by `execUnknownCommandRequest` alone. Safe: no
  transaction of the part is such a term. -/
  | illFormed
deriving DecidableEq, Repr

/-! ## The state after power-on -/

/-- An idle counter (R110). -/
def RuleCounter.idle : RuleCounter := ⟨.idle, 0, 0⟩

/-- A line after a reset (R18), its lost timer started with the lost timeout. -/
def CarLine.fresh (lostTimeout : Nat) : CarLine where
  state         := .silent
  lostTimer     := 0
  lostLimit     := lostTimeout
  fifo          := []
  assembly      := ⟨.hunt, 0, 0, [], 0⟩
  handover      := none
  parityErrors  := 0
  framingErrors := 0
  overruns      := 0
  badFrames     := 0
  lastStatus    := none
  nextMoveId    := 0
  queue         := []
  overflow      := none
  transmitting  := none

/-- A level input after a reset: UNKNOWN, with the filter timing started from the reset (R35). -/
def LevelFilter.fresh (raw : Bool) (filterTime : Nat) : LevelFilter := ⟨raw, none, some filterTime⟩

/-- The Input Conditioner of a car after a reset (Table 8), over the raw levels it finds. -/
def CarInputs.fresh (zone chain lockout : Bool) (filterTime : Nat) : CarInputs where
  zone          := .fresh zone filterTime
  chain         := .fresh chain filterTime
  lockout       := .fresh lockout filterTime
  encoder       := none
  encoderErrors := 0
  odometry      := 0
  move          := ⟨none, 0, 0, false, none⟩
  frameCount    := 0
  window        := []

/-- An empty rescue summary. -/
def RescueSummary.absent : RescueSummary := ⟨none, none, none⟩

/-- A car record as the last column of Table 9 gives it. -/
def CarRecord.fresh (present : Bool) : CarRecord where
  state           := if present then .normal else .unconfigured
  heldCause       := none
  stallCause      := none
  lastAbort       := none
  driveFailReason := none
  trappedTime     := 0
  attempts        := 0
  probeResult     := none
  confirmTimer    := none
  retryTimer      := none
  ackTimer        := none
  moveTimer       := none
  dwellTimer      := none
  slipTimer       := none
  gateTimer       := none
  motionAge       := none
  first           := false
  energyShort     := false
  moveId          := none
  lastEscalation  := none
  summary         := .absent

/-- The uniform tracker over `zones` zones (Table 12). -/
def Tracker.uniform (zones : Nat) : Tracker := ⟨List.replicate zones 0, .none, 0, 0, false⟩

/-- The empty plan record (Table 17). -/
def PlanRecord.empty : PlanRecord :=
  ⟨false, none, none, none, none, none, none, none, none, none, none⟩

/-- The Planner's figures of a car after a reset (Table 17). -/
def CarPlanner.fresh (baseWeight : Nat) : CarPlanner := ⟨0, baseWeight, allMethods, none, .empty⟩

/-- The Policy Table's figures of a car after a reset (R106, R110). -/
def CarPolicy.fresh : CarPolicy := ⟨0, none, Vector.replicate 16 .idle⟩

/-- The Brake Drive of a car after a reset (Table 22). -/
def CarBrake.fresh : CarBrake := ⟨.closed, .closed, none, false, 0, 0, 0, 0, false, false, 0, none⟩

/-- The Car Signals of a car after a reset (Table 23). -/
def CarSignals.fresh : CarSignals := ⟨none, none, false, .off, none, none, none, false⟩

/-- Every block of a car after a reset, for its entry in the configuration just loaded and the raw levels found. -/
def CarBlock.fresh (e : CarEntry) (g : Globals) (zone chain lockout : Bool) : CarBlock where
  line    := .fresh g.lostTimeout
  inputs  := .fresh zone chain lockout g.filterTime
  record  := .fresh e.present
  tracker := .uniform (2 * e.landings - 1)
  planner := .fresh e.baseWeight
  policy  := .fresh
  slots   := ⟨false, false, none⟩
  brake   := .fresh
  signals := .fresh

/-- The Supply Monitor after power-on (Table 19). -/
def Supply.fresh : Supply where
  belief       := .unknown
  stableTimer  := none
  sample       := none
  sampled      := false
  charge       := none
  usable       := none
  converter    := .off
  enable       := false
  wakeTimer    := none
  standbyTimer := none
  wakeErrors   := 0
  wakeFailures := 0

/-- A port after a reset, with the notices the load has raised (Table 24, R17). -/
def PortState.fresh (notices : List Notice) : PortState where
  reception := []
  buffer    := .empty
  notices   := notices
  mask      := BitVec.allOnes 17
  cursor    := none
  staging   := ⟨defaultRule, 0⟩
  clocked   := []

/-- The Time Base at the completion of the load (R124). -/
def TimeBase.fresh : TimeBase := ⟨0, false, 0, 0⟩

/-- The panel port's I2C address for the address-select inputs read as a number (R183). -/
def panelAddressOf (address : Fin 4) : Nat := 52 + address.val

/-- What stands in the non-volatile memory of a part that has never been saved to: an invalid image, whose checksum
is not the sum of its contents. DESIGN CHOICE, unsafe (log 8). -/
def blankImage : StoredImage := ⟨defaultSettings, 0xFFFF⟩

/-- The machine right after power-on of a part whose stored image is invalid (R16, log 8): the load has put the
defaults in the working configuration, made every car UNCONFIGURED and raised SETTINGS_INVALID at both ports; every
block has its power-on values; no command waits. -/
def State.reset : State where
  powered        := true
  config         := defaultSettings
  store          := ⟨blankImage, .idle, none, .defaults, true⟩
  cars           := Vector.replicate 8 (.fresh defaultCarEntry defaultGlobals false false false)
  mainsInput     := .fresh false defaultGlobals.filterTime
  converterInput := .fresh false defaultGlobals.filterTime
  pass           := none
  timedPending   := false
  requestPending := false
  commits        := []
  supply         := .fresh
  time           := .fresh
  station        := .fresh [⟨.settingsInvalid, none⟩]
  panel          := .fresh [⟨.settingsInvalid, none⟩]
  panelAddress   := panelAddressOf 0
  resetArmed     := false
  samples        := 0
  pending        := []

end Sys2Proof.Machine
end

