-- ==== Sys2Proof/Machine/Geometry.lean ====
section
/-!
DEFINITION. Arithmetic and hoistway geometry: roundings (00_scope.md), the zones and spans of a car (R2), directions in
the hoistway (R83), and the conversion of encoder counts to millimetres (R40).
-/

namespace Sys2Proof.Machine

/-- ceil(a / b): the least integer not below a / b (00_scope.md, Arithmetic). -/
def ceilDiv (a b : Nat) : Nat := (a + b - 1) / b

/-- (new − old) mod 256 of two figures in 0 to 255 (00_scope.md, Arithmetic). -/
def diffMod256 (new old : Nat) : Nat := (new + 256 - old) % 256

/-- The height Hj of landing j, in mm (R2). -/
def heightOf (e : CarEntry) (j : Nat) : Nat := e.heights.getD j 0

/-- The number of zones of the hoistway, 2L − 1 (R2). -/
def zoneCount (e : CarEntry) : Nat := 2 * e.landings - 1

/-- The length G_j of the span above landing j (R2). -/
def spanLength (e : CarEntry) (j : Nat) : Nat := heightOf e (j + 1) - heightOf e j - 2 * e.halfWidth

/-- Whether zone z is a landing zone: "Even zones are landing zones and odd zones are the spans" (R2). -/
def isLandingZone (z : Nat) : Bool := z % 2 == 0

/-- The landing of zone z, floor(z / 2) (R2). -/
def landingOf (z : Nat) : Nat := z / 2

/-- The length of zone z: 2W for a landing zone, G_j for span 2j + 1 (R83). -/
def zoneLength (e : CarEntry) (z : Nat) : Nat :=
  if isLandingZone z then 2 * e.halfWidth else spanLength e (z / 2)

/-- The largest span of the car (R2). -/
def largestSpan (e : CarEntry) : Nat :=
  (List.range (e.landings - 1)).foldl (fun m j => max m (spanLength e j)) 0

/-- The opposite direction. -/
def opposite : Dir → Dir
  | .up => .down
  | .down => .up

/-- The zone ahead of z in direction d, among n zones; `none` where it does not exist (R83). -/
def zoneAhead (n : Nat) (d : Dir) (z : Nat) : Option Nat :=
  match d with
  | .up => if z + 1 < n then some (z + 1) else none
  | .down => if z = 0 then none else some (z - 1)

/-- The zone behind z in direction d: the zone ahead of it in the opposite direction (R83). -/
def zoneBehind (n : Nat) (d : Dir) (z : Nat) : Option Nat := zoneAhead n (opposite d) z

/-- A count in millimetres: floor(|c| × 1000 / ppm) with the sign of c (R40). -/
def countToMm (ppm : Nat) (c : Int) : Int :=
  let mm : Int := ((c.natAbs * 1000 / ppm : Nat) : Int)
  if c < 0 then -mm else mm

/-- The forward progress of a travel count in a direction (R42). -/
def forwardProgress (d : Dir) (travel : Int) : Int :=
  match d with
  | .up => travel
  | .down => -travel

/-- The direction of a signed count, taken from its sign (R40, R44). -/
def signDir (c : Int) : Option Dir :=
  if 0 < c then some .up else if c < 0 then some .down else none

/-- D saturates at −8388607 and +8388607 (R41). -/
def clampOdometry (d : Int) : Int := max (-8388607) (min 8388607 d)

end Sys2Proof.Machine
end

