-- ==== Sys2Proof/Machine/Codes.lean ====
section
/-!
DEFINITION. The codes of the fields that ports and lines carry (R186, R191, R192, Tables 25 to 28), and the writing of
fields as bytes: most significant byte first, each field in the fewest whole bytes that hold its range (R186).

Enumerated fields whose codes chapter 11 gives use them (car state, held cause, the fields of STATUS); every other one
is coded by its position in its owning table (R186). What R186 leaves open is said in log 12.
-/

namespace Sys2Proof.Machine

/-! ## Writing figures -/

/-- The fewest whole bytes that hold 0 to `hi` (R186). -/
def bytesFor (hi : Nat) : Nat :=
  if hi < 256 then 1 else if hi < 65536 then 2 else if hi < 16777216 then 3 else 4

/-- `width` bytes of a number, most significant byte first (R186). -/
def putNat : Nat → Nat → List Byte
  | 0, _ => []
  | width + 1, n => BitVec.ofNat 8 (n / 256 ^ width) :: putNat width n

/-- A field whose range ends at `hi`. -/
def put (hi n : Nat) : List Byte := putNat (bytesFor hi) n

/-- A signed figure in `width` bytes, two's complement (log 12). -/
def putInt (width : Nat) (n : Int) : List Byte := putNat width (n % (256 ^ width : Nat)).toNat

/-- A yes/no or set/clear field: 1 for yes or set, 0 for no or clear (R186). -/
def putBool (b : Bool) : List Byte := [if b then 1 else 0]

/-- An output, coded by its position in "active, inactive" (Tables 19 and 23, R186). -/
def putActive (b : Bool) : List Byte := [if b then 0 else 1]

/-- A field that may be absent and has no absent code of its own: one byte 1 before the value when present, 0 before
value bytes of 0 when absent (R186). -/
def putOption (hi : Nat) (n : Option Nat) : List Byte :=
  match n with
  | some n => 1 :: put hi n
  | none => 0 :: put hi 0

/-- A number read from bytes, most significant byte first (R186). -/
def getNat (bytes : List Byte) : Nat := bytes.foldl (fun n b => n * 256 + b.toNat) 0

/-! ## Enumerated fields -/

/-- Position of the direction in "UP, DOWN". -/
def dirCode : Dir → Nat
  | .up => 0
  | .down => 1

/-- Direction codes of a GRANT: 1 UP, 2 DOWN (Table 28). -/
def grantDirCode : Dir → Nat
  | .up => 1
  | .down => 2

/-- Car state codes (Table 28). -/
def stateCode : RescueState → Nat
  | .unconfigured => 0
  | .normal => 1
  | .confirming => 2
  | .assessing => 3
  | .ready => 4
  | .probing => 5
  | .lowering => 6
  | .levelling => 7
  | .driving => 8
  | .releasing => 9
  | .rescued => 10
  | .held => 11
  | .failed => 12
  | .inhibited => 13

/-- Held cause codes, 0 for absent (Table 28). -/
def heldCode : Option HeldCause → Nat
  | none => 0
  | some .safety => 1
  | some .lockout => 2
  | some .noMethod => 3
  | some .position => 4

/-- Mode codes of STATUS (Table 28). -/
def modeCode : StatusMode → Nat
  | .inService => 1
  | .stalled => 2
  | .outOfService => 3

/-- Mode of a STATUS code; any other code names no mode (Tables 7 and 28). -/
def modeOf (code : Byte) : Option StatusMode :=
  if code = 1 then some .inService
  else if code = 2 then some .stalled
  else if code = 3 then some .outOfService
  else none

/-- Cause of a STATUS code: "any other code is taken as UNKNOWN" (Table 7). -/
def causeOf (code : Byte) : StallCause :=
  if code = 1 then .power
  else if code = 2 then .driveFault
  else if code = 3 then .safety
  else .unknown

/-- Cause codes of a STATUS record as the part sends them: Table 28 for three, a free value for UNKNOWN (log 13). -/
def causeByte : StallCause → Byte
  | .power => 1
  | .driveFault => 2
  | .safety => 3
  | .unknown => Config.unknownCauseCode

/-- Gate of a STATUS or GATE_REPORT code: "any other code is taken as UNKNOWN" (Table 7, R26). -/
def gateOf (code : Byte) : GateState :=
  if code = 1 then .closed
  else if code = 2 then .opening
  else if code = 3 then .open
  else .unknown

/-- Gate codes as the part sends them, 0 for UNKNOWN (section 11.8). -/
def gateCode : GateState → Nat
  | .unknown => 0
  | .closed => 1
  | .opening => 2
  | .open => 3

/-- Position in Table 9's list of stall causes. -/
def stallCauseCode : StallCause → Nat
  | .power => 0
  | .driveFault => 1
  | .safety => 2
  | .unknown => 3

/-- Position in Table 9's list of abort causes. -/
def abortCode : AbortCause → Nat
  | .chainOpen => 0
  | .lockout => 1
  | .supplyLost => 2
  | .inhibit => 3
  | .reversal => 4
  | .overspeed => 5
  | .runLimit => 6
  | .brakeSlip => 7
  | .noAck => 8
  | .driveFail => 9
  | .driveTimeout => 10
  | .gateTimeout => 11
  | .stopOutsideZone => 12

/-- Position in Table 9's list of probe results. -/
def probeCode : ProbeResult → Nat
  | .up => 0
  | .down => 1
  | .noDrift => 2

/-- Position in Table 9's list of methods used. -/
def methodUsedCode : MethodUsed → Nat
  | .gravityDown => 0
  | .gravityUp => 1
  | .poweredUp => 2
  | .poweredDown => 3
  | .none => 4

/-- Position in Table 18's list of methods. -/
def planMethodCode : PlanMethod → Nat
  | .gravityDown => 0
  | .gravityUp => 1
  | .poweredUp => 2
  | .poweredDown => 3
  | .probe => 4
  | .none => 5

/-- Position in Table 18's list of natural directions. -/
def naturalCode : NaturalDir → Nat
  | .up => 0
  | .down => 1
  | .balanced => 2
  | .unknown => 3

/-- Position in Table 18's list of position bases. -/
def basisCode : PositionBasis → Nat
  | .landing => 0
  | .known => 1
  | .worstCase => 2
  | .noSpan => 3

/-- Position in R18's list "SILENT, ALIVE or LOST". -/
def lineStateCode : LineState → Nat
  | .silent => 0
  | .alive => 1
  | .lost => 2

/-- A level: its meaning's position in the table of section 3.2, 2 for UNKNOWN (log 12). -/
def levelCode : Option Bool → Nat
  | some true => 0
  | some false => 1
  | none => 2

/-- Position in R110's list of counter states. -/
def counterStateCode : CounterState → Nat
  | .idle => 0
  | .counting => 1
  | .reached => 2

/-- Position in Table 22's list of channel states. -/
def channelCode : ChannelState → Nat
  | .closed => 0
  | .open => 1
  | .locked => 2

/-- Position in Table 22's list of opening kinds. -/
def openingCode : OpeningKind → Nat
  | .lowering => 0
  | .probe => 1

/-- Position in Table 23's list of release methods. -/
def releaseCode : ReleaseMethod → Nat
  | .frame => 0
  | .pulse => 1

/-- Position in Table 23's list of lamp modes. -/
def lampCode : LampMode → Nat
  | .off => 0
  | .steady => 1
  | .flash => 2

/-- Position in Table 23's list of patterns. -/
def patternCode : TonePattern → Nat
  | .moveStart => 0
  | .levelled => 1
  | .release => 2
  | .reassure => 3

/-- Position in R11's list of save states. -/
def saveCode : SaveState → Nat
  | .idle => 0
  | .writing => 1
  | .verifying => 2

/-- Position in R11's list of settings sources. -/
def sourceCode : SettingsSource → Nat
  | .stored => 0
  | .defaults => 1

/-- Position in Table 19's list of mains beliefs. -/
def beliefCode : MainsBelief → Nat
  | .unknown => 0
  | .present => 1
  | .absent => 2

/-- Position in Table 19's list of converter states. -/
def converterCode : ConverterState → Nat
  | .off => 0
  | .standby => 1
  | .waking => 2
  | .on => 3
  | .fault => 4

/-- Position in R122's list of pass kinds. -/
def passKindCode : PassKind → Nat
  | .timed => 0
  | .requested => 1

/-- Position in R183's list of ports (station, panel). -/
def portCode : Port → Nat
  | .station => 0
  | .panel => 1

/-- Anchor: position in Table 12's list NONE, EDGE, SEED. -/
def anchorCode : Anchor → Nat
  | .none => 0
  | .edge _ => 1
  | .seed _ _ => 2

/-- Anchor detail under EDGE: position in Table 12's list. -/
def detailCode : EdgeDetail → Nat
  | .enter .up => 0
  | .enter .down => 1
  | .leave .up => 2
  | .leave .down => 3
  | .level => 4

/-- Result codes (Table 25). -/
def resultCode : ResultCode → Byte
  | .ok => 0
  | .pending => 1
  | .busy => 2
  | .badCommand => 3
  | .badValue => 4
  | .badCar => 5
  | .notAllowed => 6
  | .badChecksum => 7

/-- Notice kind codes (Table 27). -/
def noticeCode : NoticeKind → Nat
  | .carStalled => 1
  | .carReturned => 2
  | .rescueStarted => 3
  | .carLevelled => 4
  | .carRescued => 5
  | .carHeld => 6
  | .carFailed => 7
  | .escalation => 8
  | .energyShort => 9
  | .lineLost => 10
  | .positionLost => 11
  | .supplyFault => 12
  | .urgencyRebased => 13
  | .commitDone => 14
  | .saveDone => 15
  | .saveFailed => 16
  | .settingsInvalid => 17

/-- The notice kinds in code order (Table 27). -/
def noticeKinds : List NoticeKind :=
  [.carStalled, .carReturned, .rescueStarted, .carLevelled, .carRescued, .carHeld, .carFailed, .escalation,
   .energyShort, .lineLost, .positionLost, .supplyFault, .urgencyRebased, .commitDone, .saveDone, .saveFailed,
   .settingsInvalid]

/-- "The first eleven kinds of Table 27 carry a car, and the other six carry none" (R188). -/
def carriesCar (k : NoticeKind) : Bool := noticeCode k ≤ 11

/-- The notice kind a code names (Table 27). -/
def noticeKindOf (code : Nat) : Option NoticeKind := noticeKinds.find? (fun k => noticeCode k == code)

/-! ## Configuration fields -/

/-- Position in Table 5's list of line rates (R186). -/
def lineRateCode : LineRate → Nat
  | .b9600 => 0
  | .b19200 => 1
  | .b38400 => 2
  | .b57600 => 3

def lineRateOf (n : Nat) : Option LineRate := [.b9600, .b19200, .b38400, .b57600][n]?

/-- Position in Table 4's list of channel B modes. -/
def bModeCode : ChannelBMode → Nat
  | .follow => 0
  | .own => 1
  | .closed => 2

def bModeOf (n : Nat) : Option ChannelBMode := [.follow, .own, .closed][n]?

/-- Position in Table 4's list of polarities. -/
def polarityCode : Polarity → Nat
  | .activeHigh => 0
  | .activeLow => 1

def polarityOf (n : Nat) : Option Polarity := [.activeHigh, .activeLow][n]?

/-- A yes/no code (R186). -/
def boolOf (n : Nat) : Option Bool := [false, true][n]?

/-- Position in Table 15's list of quantities. -/
def quantityCode : Quantity → Nat
  | .loadKg => 0
  | .trappedS => 1
  | .landing => 2
  | .alarms => 3
  | .usableEu => 4
  | .urgency => 5

def quantityOf (n : Nat) : Option Quantity := [.loadKg, .trappedS, .landing, .alarms, .usableEu, .urgency][n]?

/-- Position in Table 15's list of compares. -/
def compareCode : Compare → Nat
  | .off => 0
  | .inRange => 1
  | .outOfRange => 2
  | .atBound => 3

def compareOf (n : Nat) : Option Compare := [.off, .inRange, .outOfRange, .atBound][n]?

/-- Position in Table 15's list of line conditions. -/
def lineConditionCode : LineCondition → Nat
  | .any => 0
  | .alive => 1
  | .lost => 2

def lineConditionOf (n : Nat) : Option LineCondition := [.any, .alive, .lost][n]?

/-- Position in Table 15's list of weight actions. -/
def weightActionCode : WeightAction → Nat
  | .none => 0
  | .raise => 1
  | .lower => 2
  | .set => 3

def weightActionOf (n : Nat) : Option WeightAction := [.none, .raise, .lower, .set][n]?

/-- Position in Table 15's list of method actions. -/
def methodActionCode : MethodAction → Nat
  | .none => 0
  | .add => 1
  | .keepOnly => 2
  | .set => 3

def methodActionOf (n : Nat) : Option MethodAction := [.none, .add, .keepOnly, .set][n]?

/-- Position in Table 15's list of count actions. -/
def countActionCode : CountAction → Nat
  | .none => 0
  | .countUp => 1
  | .countDown => 2

def countActionOf (n : Nat) : Option CountAction := [.none, .countUp, .countDown][n]?

/-- Position in Table 15's list of count units. -/
def countUnitCode : CountUnit → Nat
  | .seconds => 0
  | .minutes => 1

def countUnitOf (n : Nat) : Option CountUnit := [.seconds, .minutes][n]?

/-- The value or code of a field of a rule, by its field number in the order of Table 15 (R186). -/
def ruleField (r : Rule) : Nat → Nat
  | 1 => if r.enabled then 1 else 0
  | 2 => quantityCode r.quantity
  | 3 => compareCode r.compare
  | 4 => r.low
  | 5 => r.high
  | 6 => r.causes.toNat
  | 7 => lineConditionCode r.lineCondition
  | 8 => weightActionCode r.weightAction
  | 9 => r.weightValue
  | 10 => methodActionCode r.methodAction
  | 11 => r.methods.toNat
  | 12 => countActionCode r.countAction
  | 13 => countUnitCode r.countUnit
  | 14 => r.countLimit
  | _ => 0

/-- Where the range of a field of Table 15 ends, by its field number: the largest value or code it admits. -/
def fieldRange : Nat → Nat
  | 1 => 1
  | 2 => 5
  | 3 => 3
  | 4 => 65535
  | 5 => 65535
  | 6 => 15
  | 7 => 2
  | 8 => 3
  | 9 => 4095
  | 10 => 3
  | 11 => 31
  | 12 => 2
  | 13 => 1
  | 14 => 4095
  | _ => 0

/-- The field numbers of Table 15. -/
def fieldNumbers : List Nat := [1, 2, 3, 4, 5, 6, 7, 8, 9, 10, 11, 12, 13, 14]

/-- A field of a rule in the fewest whole bytes that hold its range (R186). STAGE_RULE alone carries every field's value in
two bytes. -/
def putField (r : Rule) (n : Nat) : List Byte := put (fieldRange n) (ruleField r n)

/-- The bytes of a policy rule, field by field in the order of Table 15. -/
def putRule (r : Rule) : List Byte := fieldNumbers.flatMap (putField r)

/-- The bytes of a car entry, parameter by parameter in the order of Table 4; it holds exactly L heights. -/
def putCarEntry (e : CarEntry) : List Byte :=
  putBool e.present ++ put 8 e.landings ++ (e.heights.flatMap (put 120000)) ++ put 150 e.halfWidth
  ++ put 5000 e.ratedLoad ++ put 55 e.balance ++ put 15 e.margin ++ put 600 e.coilPower
  ++ put 8000 e.drivePower ++ put 95 e.efficiency ++ put 300 e.speed ++ put 630 e.overspeed
  ++ put 4000 e.ppm ++ put 4095 e.baseWeight ++ put 2 (bModeCode e.bMode) ++ put 100 e.bShare
  ++ put 1 (polarityCode e.polarityA) ++ put 1 (polarityCode e.polarityB) ++ put 65535 e.ruleSet.toNat

/-- The numeric global parameters with their ranges, in the order of Table 5 (the line rate, which comes first there,
is not among them). -/
def globalRanges (g : Globals) : List (Nat × Nat × Nat) :=
  [(g.lostTimeout, 1000, 10000), (g.filterTime, 1, 15), (g.confirmTime, 2, 60), (g.frame, 10, 100),
   (g.window, 1, 8), (g.band, 0, 50), (g.stepUp, 1, 20), (g.stepDown, 1, 20), (g.startShare, 10, 100),
   (g.maxShare, 20, 100), (g.probeShare, 10, 60), (g.probeFrames, 2, 25), (g.probeThreshold, 5, 50),
   (g.reversal, 10, 100), (g.runMargin, 100, 3000), (g.stopDwell, 200, 3000), (g.slipLimit, 1, 10),
   (g.tolerance, 1, 64), (g.missPenalty, 16, 1024), (g.threshold, 16, 255), (g.kOcc, 0, 100),
   (g.defaultOcc, 1, 20), (g.kAlarm, 0, 255), (g.brakeSlots, 1, 4), (g.driveSlots, 0, 2),
   (g.ackTimeout, 500, 5000), (g.gateTimeout, 5, 60), (g.unlockPulse, 200, 5000), (g.retryDelay, 10, 600),
   (g.reserveFloor, 0, 65535), (g.wakeLimit, 100, 5000), (g.standbyDwell, 5, 600), (g.mainsStable, 1, 60),
   (g.toneHigh, 100, 5000), (g.toneLow, 100, 5000), (g.reassurance, 10, 120)]

/-- The bytes of the global parameters, in the order of Table 5. -/
def putGlobals (g : Globals) : List Byte :=
  put 3 (lineRateCode g.lineRate) ++ (globalRanges g).flatMap (fun r => put r.2.2 r.1)

/-- The bytes of the state-of-charge table: point count, then each point as its voltage and its energy (R186). The manual
gives the point count for WRITE_SOC_TABLE alone; that the SOC section of a READ_CONFIG response begins with it too is the
model's choice (log 30), and that the image's sum holds it is log 9's. -/
def putSoc (t : List SocPoint) : List Byte :=
  put 8 t.length ++ t.flatMap (fun q => put 65535 q.voltage ++ put 65535 q.energy)

/-- The bytes of an image's contents, for its checksum; the layout is the model's (log 9). -/
def settingsBytes (s : Settings) : List Byte :=
  s.cars.toList.flatMap putCarEntry ++ putGlobals s.globals ++ putSoc s.soc ++ s.rules.toList.flatMap putRule

/-- The sum, modulo 65536, of every byte of an image's contents (R12). -/
def imageChecksum (s : Settings) : BitVec 16 :=
  BitVec.ofNat 16 ((settingsBytes s).foldl (fun n b => n + b.toNat) 0)

/-! ## The part's frames on a car line -/

/-- Kind code of a part frame (Table 28). -/
def frameKind : PartFrame → Byte
  | .grant .. => 33
  | .cancel _ => 34
  | .gateRelease _ => 35
  | .rescueState .. => 36

/-- Payload of a part frame (Table 28). -/
def framePayload : PartFrame → List Byte
  | .grant id d target cap speed =>
      putNat 1 id ++ putNat 1 (grantDirCode d) ++ putNat 1 target ++ putNat 2 cap ++ putNat 2 speed
  | .cancel id => putNat 1 id
  | .gateRelease landing => putNat 1 landing
  | .rescueState st held => putNat 1 (stateCode st) ++ putNat 1 (heldCode held)

/-- The checksum byte that makes the sum of all the bytes 0 modulo 256 (R31, R192). -/
def checksumOf (bytes : List Byte) : Byte := -(bytes.foldl (· + ·) 0)

/-- The data bytes of a part frame in the order in which they are sent: kind, length, payload, checksum (R31). -/
def frameBytes (f : PartFrame) : List Byte :=
  let body := frameKind f :: BitVec.ofNat 8 (framePayload f).length :: framePayload f
  body ++ [checksumOf body]

end Sys2Proof.Machine
end

