-- ==== Sys2Proof/Machine/Validate.lean ====
section
/-!
DEFINITION. What makes a configuration valid: the ranges of Tables 4, 5 and 15, the constraints of Table 6 and of R7,
the tests of R10, and the validity of a stored image (R12).
-/

namespace Sys2Proof.Machine

/-- A figure lies in a range, inclusive at both ends (00_scope.md). -/
def inRange (n lo hi : Nat) : Bool := decide (lo ≤ n) && decide (n ≤ hi)

/-- The fields of WRITE_CAR_PARAMS meet their ranges (Table 4) and the constraint "speed" (Table 6). -/
def validParams (e : CarEntry) : Bool :=
  inRange e.ratedLoad 300 5000 && inRange e.balance 35 55 && inRange e.margin 2 15
  && inRange e.coilPower 20 600 && inRange e.drivePower 100 8000 && inRange e.efficiency 50 95
  && inRange e.speed 50 300 && inRange e.overspeed (e.speed + 20) 630 && inRange e.ppm 100 4000
  && inRange e.baseWeight 0 4095 && inRange e.bShare 0 100

/-- The constraints "heights" and "gap" of Table 6, for each pair of adjacent landings. -/
def validGaps (halfWidth : Nat) : List Nat → Bool
  | h0 :: h1 :: rest => decide (h0 < h1) && decide (h0 + (2 * halfWidth + 200) ≤ h1) && validGaps halfWidth (h1 :: rest)
  | _ => true

/-- The fields of WRITE_MAP meet their ranges (Table 4) and the constraints "heights", "gap" and "count" (Table 6). -/
def validMap (e : CarEntry) : Bool :=
  inRange e.landings 2 8 && decide (e.heights.length = e.landings) && e.heights.all (fun h => inRange h 0 120000)
  && inRange e.halfWidth 30 150 && validGaps e.halfWidth e.heights

/-- A valid car entry (R5). The constraint "rule set" holds of every rule set, whose members are 0 to 15. -/
def validCarEntry (e : CarEntry) : Bool := validParams e && validMap e

/-- Valid global parameters: the ranges of Table 5, start share ≤ max share, probe share ≤ max share (R7). -/
def validGlobals (g : Globals) : Bool :=
  (globalRanges g).all (fun r => inRange r.1 r.2.1 r.2.2)
  && decide (g.startShare ≤ g.maxShare) && decide (g.probeShare ≤ g.maxShare)

/-- Voltages strictly increasing and energies non-decreasing from each point to the next (R10). -/
def risingSoc : List SocPoint → Bool
  | p :: q :: rest => decide (p.voltage < q.voltage) && decide (p.energy ≤ q.energy) && risingSoc (q :: rest)
  | _ => true

/-- A valid state-of-charge table (R10). -/
def validSoc (t : List SocPoint) : Bool :=
  inRange t.length 2 8 && t.all (fun p => inRange p.voltage 0 65535 && inRange p.energy 0 65535) && risingSoc t

/-- A valid policy rule: every field lies in the values of Table 15 and low ≤ high (R103). -/
def validRule (r : Rule) : Bool :=
  inRange r.low 0 65535 && inRange r.high 0 65535 && inRange r.weightValue 0 4095 && inRange r.countLimit 1 4095
  && decide (r.low ≤ r.high)

/-- Every part of a configuration is valid (R12). -/
def validSettings (s : Settings) : Bool :=
  s.cars.toList.all validCarEntry && validGlobals s.globals && validSoc s.soc && s.rules.toList.all validRule

/-- A valid stored image (R12): the checksum equals the sum, and every part satisfies its rule. -/
def validImage (i : StoredImage) : Bool := (i.checksum == imageChecksum i.contents) && validSettings i.contents

end Sys2Proof.Machine
end

