-- ==== Sys2Proof/Machine/Ops.lean ====
section
/-!
DEFINITION. The named operations on the part that every block uses: the blocks of a car, the raising of notices (R188),
the levels as blocks read them (R37), the groups of car states (R52), and the running of a command on the part.
-/

namespace Sys2Proof.Machine

/-! ## The blocks of a car -/

/-- The blocks of car c. -/
def Part.car (p : Part) (c : Car) : CarBlock := p.cars[c]

/-- Changes the blocks of car c and nothing else. -/
def Part.modCar (p : Part) (c : Car) (f : CarBlock → CarBlock) : Part :=
  { p with cars := p.cars.set c (f p.cars[c]) }

/-- Changes the blocks of every car. -/
def Part.mapCars (p : Part) (f : CarBlock → CarBlock) : Part := { p with cars := p.cars.map f }

def Part.modLine (p : Part) (c : Car) (f : CarLine → CarLine) : Part :=
  p.modCar c fun b => { b with line := f b.line }

def Part.modInputs (p : Part) (c : Car) (f : CarInputs → CarInputs) : Part :=
  p.modCar c fun b => { b with inputs := f b.inputs }

def Part.modRecord (p : Part) (c : Car) (f : CarRecord → CarRecord) : Part :=
  p.modCar c fun b => { b with record := f b.record }

def Part.modTracker (p : Part) (c : Car) (f : Tracker → Tracker) : Part :=
  p.modCar c fun b => { b with tracker := f b.tracker }

def Part.modPlanner (p : Part) (c : Car) (f : CarPlanner → CarPlanner) : Part :=
  p.modCar c fun b => { b with planner := f b.planner }

def Part.modPolicy (p : Part) (c : Car) (f : CarPolicy → CarPolicy) : Part :=
  p.modCar c fun b => { b with policy := f b.policy }

def Part.modSlots (p : Part) (c : Car) (f : CarSlots → CarSlots) : Part :=
  p.modCar c fun b => { b with slots := f b.slots }

def Part.modBrake (p : Part) (c : Car) (f : CarBrake → CarBrake) : Part :=
  p.modCar c fun b => { b with brake := f b.brake }

def Part.modSignals (p : Part) (c : Car) (f : CarSignals → CarSignals) : Part :=
  p.modCar c fun b => { b with signals := f b.signals }

/-- The state of car c. -/
def Part.stateOf (p : Part) (c : Car) : RescueState := (p.car c).record.state

/-- The entry of car c in the working configuration. -/
def Part.entry (p : Part) (c : Car) : CarEntry := p.config.cars[c]

/-- The global parameters of the working configuration. -/
def Part.globals (p : Part) : Globals := p.config.globals

/-- Changes the Supply Monitor and nothing else. -/
def Part.modSupply (p : Part) (f : Supply → Supply) : Part := { p with supply := f p.supply }

/-! ## Groups of car states (R52) -/

/-- The move states: PROBING, LOWERING, LEVELLING and DRIVING. -/
def isMoveState : RescueState → Bool
  | .probing | .lowering | .levelling | .driving => true
  | _ => false

/-- The trapped states: every state but UNCONFIGURED, NORMAL and CONFIRMING. -/
def isTrapped : RescueState → Bool
  | .unconfigured | .normal | .confirming => false
  | _ => true

/-- A trapped state other than RESCUED: the states in which trapped time counts (R52) and urgency grows (R129). -/
def isWaitingRescue (s : RescueState) : Bool := isTrapped s && s != .rescued

/-- The states in which a car's brake may be open: PROBING and LOWERING (R163). -/
def isBrakeState : RescueState → Bool
  | .probing | .lowering => true
  | _ => false

/-- The states in which the reassurance timer runs: ASSESSING, READY, HELD with any cause, FAILED (R182). -/
def isReassured : RescueState → Bool
  | .assessing | .ready | .held | .failed => true
  | _ => false

/-- The states that give the converter demand: READY and the move states (R146). -/
def isDemandState (s : RescueState) : Bool := s == .ready || isMoveState s

/-- The lamp mode of a car state (R180). -/
def lampOf : RescueState → LampMode
  | .unconfigured | .normal | .confirming | .rescued => .off
  | .probing | .lowering | .levelling | .driving | .releasing => .flash
  | .assessing | .ready | .held | .failed | .inhibited => .steady

/-- A car is planned in ASSESSING, READY or HELD(NO_METHOD) (R107, R126). -/
def isPlanned (r : CarRecord) : Bool :=
  r.state == .assessing || r.state == .ready || (r.state == .held && r.heldCause == some .noMethod)

/-! ## Levels (R36, R37) -/

/-- A level reads at its first meaning only when accepted there: "An UNKNOWN level meets neither meaning" (R37). -/
def LevelFilter.isOn (l : LevelFilter) : Bool := l.accepted == some true

/-- A level reads at its second meaning only when accepted there (R37). -/
def LevelFilter.isOff (l : LevelFilter) : Bool := l.accepted == some false

/-- The zone input of car c reads active. -/
def Part.zoneActive (p : Part) (c : Car) : Bool := (p.car c).inputs.zone.isOn

/-- The zone input of car c reads inactive. -/
def Part.zoneInactive (p : Part) (c : Car) : Bool := (p.car c).inputs.zone.isOff

/-- The chain of car c reads closed. -/
def Part.chainClosed (p : Part) (c : Car) : Bool := (p.car c).inputs.chain.isOn

/-- The chain of car c reads open. -/
def Part.chainOpen (p : Part) (c : Car) : Bool := (p.car c).inputs.chain.isOff

/-- The lockout of car c reads on. -/
def Part.lockoutOn (p : Part) (c : Car) : Bool := (p.car c).inputs.lockout.isOn

/-- The lockout of car c reads off. -/
def Part.lockoutOff (p : Part) (c : Car) : Bool := (p.car c).inputs.lockout.isOff

/-- The filter of an input. -/
def Part.filter (p : Part) : LevelInput → LevelFilter
  | .zone c => (p.car c).inputs.zone
  | .chain c => (p.car c).inputs.chain
  | .lockout c => (p.car c).inputs.lockout
  | .mains => p.mainsInput
  | .converter => p.converterInput

/-- Replaces the filter of an input. -/
def Part.setFilter (p : Part) (i : LevelInput) (l : LevelFilter) : Part :=
  match i with
  | .zone c => p.modInputs c fun x => { x with zone := l }
  | .chain c => p.modInputs c fun x => { x with chain := l }
  | .lockout c => p.modInputs c fun x => { x with lockout := l }
  | .mains => { p with mainsInput := l }
  | .converter => { p with converterInput := l }

/-! ## Ports and notices (R188) -/

/-- A port's state. -/
def Part.port (p : Part) : Port → PortState
  | .station => p.station
  | .panel => p.panel

/-- Changes a port's state and nothing else. -/
def Part.modPort (p : Part) (q : Port) (f : PortState → PortState) : Part :=
  match q with
  | .station => { p with station := f p.station }
  | .panel => { p with panel := f p.panel }

/-- The place of a pair in the order of READ_NOTICES: kind order, and within a kind car order (R189). -/
def noticeKey (n : Notice) : Nat :=
  noticeCode n.kind * 9 + (match n.car with | some c => c.val | none => 8)

/-- Adds a pair to a pending set; "a pair already in the set leaves the set unchanged" (R188). The set is kept in the
order of READ_NOTICES. -/
def addNotice (n : Notice) : List Notice → List Notice
  | [] => [n]
  | m :: rest =>
      if n = m then m :: rest
      else if noticeKey n < noticeKey m then n :: m :: rest
      else m :: addNotice n rest

/-- The enable mask of a port holds a kind (R188). -/
def maskHolds (mask : KindSet) (k : NoticeKind) : Bool := mask.getLsbD (noticeCode k - 1)

/-- A pair is offered to one port: "A port whose enable mask holds the kind adds the pair" (R188). -/
def PortState.offer (q : PortState) (n : Notice) : PortState :=
  if maskHolds q.mask n.kind then { q with notices := addNotice n q.notices } else q

/-- Raises a notice to one port: COMMIT_DONE, SAVE_DONE and SAVE_FAILED (R188). -/
def Part.raiseTo (p : Part) (q : Port) (n : Notice) : Part := p.modPort q (·.offer n)

/-- Raises a notice to both ports (R188). -/
def Part.raise (p : Part) (n : Notice) : Part :=
  { p with station := p.station.offer n, panel := p.panel.offer n }

/-- Raises a notice that carries a car. -/
def Part.raiseCar (p : Part) (k : NoticeKind) (c : Car) : Part := p.raise ⟨k, some c⟩

/-- Marks that the working configuration may differ from what the stored image will hold (R15). -/
def Part.markUnsaved (p : Part) : Part := { p with store := { p.store with unsaved := true } }

/-! ## Counters and timers -/

/-- A counter that increases by one and saturates. -/
def bump (limit n : Nat) : Nat := min limit (n + 1)

/-- Seconds in milliseconds. -/
def seconds (n : Nat) : Nat := n * 1000

end Sys2Proof.Machine
end

