-- ==== Sys2Proof/Machine/Tracker.lean ====
section
/-!
DEFINITION. The Position Tracker (chapter 5): remainders and mismatches (R85 to R87), the ENTER and LEAVE updates
(R88, R89), normalisation (R91), confidence and best zone (R92), seeds and forcing (R94 to R96), disturbance (R46) and
the planning view (R98, R99).
-/

namespace Sys2Proof.Machine

/-- The cost that marks a zone excluded (R82). -/
def excluded : Nat := 4095

/-- A sum of costs saturates at 4095 (R88). -/
def satCost (n : Nat) : Nat := min excluded n

/-- The least and the second-least of a list of costs, each 4095 where there is none (R92, R98). -/
def twoLeast (costs : List Nat) : Nat × Nat :=
  costs.foldl (fun (m : Nat × Nat) c => if c < m.1 then (c, m.1) else if c < m.2 then (m.1, c) else m)
    (excluded, excluded)

/-- Confidence: min(255, second-least − least) (R92). -/
def confidenceOf (costs : List Nat) : Nat := min 255 ((twoLeast costs).2 - (twoLeast costs).1)

/-- The lowest index whose cost is the least cost (R92). -/
def bestZoneOf (costs : List Nat) : Nat := costs.findIdx (fun c => c == (twoLeast costs).1)

/-- The cost of a zone of the array. -/
def costAt (costs : List Nat) (z : Nat) : Nat := costs.getD z excluded

/-- The remainder rem(p, d) of zone p in direction d under an anchor (R85). -/
def remainder (e : CarEntry) (a : Anchor) (p : Nat) (d : Dir) : Nat :=
  match a with
  | .edge (.enter d') => if d = d' then 2 * e.halfWidth else 0
  | .edge (.leave d') => if d = d' then zoneLength e p else 0
  | .edge .level => e.halfWidth
  | .seed _ o =>
      match d with
      | .up => zoneLength e p - o
      | .down => o
  | .none => zoneLength e p

/-- The mismatch m of a path that expects E against the magnitude |D| (R87). -/
def mismatch (tolerance : Nat) (a : Anchor) (dist expected : Nat) : Nat :=
  match a with
  | .none => if dist ≤ expected then 0 else min 255 ((dist - expected) / tolerance)
  | _ => min 255 ((max dist expected - min dist expected) / tolerance)

/-- The direct-entry candidate of landing zone z: from the span behind z (R86, R88). -/
def directCost (e : CarEntry) (g : Globals) (t : Tracker) (d : Dir) (dist z : Nat) : Option Nat :=
  (zoneBehind (zoneCount e) d z).map fun p =>
    satCost (costAt t.costs p + mismatch g.tolerance t.anchor dist (remainder e t.anchor p d))

/-- The missed-vane candidate of landing zone z: from the span three behind z, across a landing zone and the span
behind z (R86, R88). -/
def missedCost (e : CarEntry) (g : Globals) (t : Tracker) (d : Dir) (dist z : Nat) : Option Nat :=
  let n := zoneCount e
  (zoneBehind n d z).bind fun beyond =>
    (zoneBehind n d beyond).bind fun passed =>
      (zoneBehind n d passed).map fun p =>
        let expected := remainder e t.anchor p d + 2 * e.halfWidth + zoneLength e beyond
        satCost (costAt t.costs p + g.missPenalty + mismatch g.tolerance t.anchor dist expected)

/-- The new cost of zone z at an ENTER edge (R88). -/
def enterCost (e : CarEntry) (g : Globals) (t : Tracker) (d : Dir) (dist z : Nat) : Nat :=
  if isLandingZone z then
    min ((directCost e g t d dist z).getD excluded) ((missedCost e g t d dist z).getD excluded)
  else excluded

/-- The new cost of zone z at a LEAVE edge (R89). -/
def leaveCost (e : CarEntry) (g : Globals) (t : Tracker) (d : Dir) (dist z : Nat) : Nat :=
  if isLandingZone z then excluded
  else
    match zoneBehind (zoneCount e) d z with
    | some p => satCost (costAt t.costs p + mismatch g.tolerance t.anchor dist (remainder e t.anchor p d))
    | none => excluded

/-- The costs an edge gives, zone by zone, from the array as it stood before the edge (R88, R89). -/
def edgeCosts (e : CarEntry) (g : Globals) (t : Tracker) (k : EdgeKind) (d : Dir) (dist : Nat) : List Nat :=
  (List.range (zoneCount e)).map fun z =>
    match k with
    | .enter => enterCost e g t d dist z
    | .leave => leaveCost e g t d dist z

/-- The anchor an edge sets (R84, R90). -/
def edgeAnchor (k : EdgeKind) (d : Dir) : Anchor :=
  match k with
  | .enter => .edge (.enter d)
  | .leave => .edge (.leave d)

/-- Normalisation (R91): the least cost is subtracted from every entry below 4095. `none`: every entry is excluded. -/
def normalise (costs : List Nat) : Option (List Nat) :=
  let least := (twoLeast costs).1
  if least < excluded then some (costs.map fun c => if c < excluded then c - least else c) else none

/-- An ENTER or LEAVE update (R90). The flag tells that every hypothesis is dead, and POSITION_LOST is to be raised
(R91). -/
def trackerUpdate (e : CarEntry) (g : Globals) (t : Tracker) (k : EdgeKind) (d : Dir) (dist : Nat) : Tracker × Bool :=
  match normalise (edgeCosts e g t k d dist) with
  | some costs => (⟨costs, edgeAnchor k d, confidenceOf costs, bestZoneOf costs, false⟩, false)
  | none => (.uniform (zoneCount e), true)

/-- A disturbance (R46): uniform over the array's size, anchor NONE, confidence 0, confirmed clear. -/
def trackerDisturb (t : Tracker) : Tracker := .uniform t.costs.length

/-- A seed or forcing: one zone at cost 0 and every other excluded, confidence 255, that zone best (R94 to R96). -/
def trackerSeed (e : CarEntry) (z : Nat) (a : Anchor) (confirmed : Bool) : Tracker :=
  ⟨(List.range (zoneCount e)).map fun i => if i = z then 0 else excluded, a, 255, z, confirmed⟩

/-- The anchor of a STATUS seed (R94). -/
def statusAnchor (z : Nat) (offset : Option Nat) : Anchor :=
  match offset with
  | some o => .seed z o
  | none => .none

/-- The anchor of a CONFIRM_POSITION (R96). -/
def confirmAnchor (z : Nat) (offset : Option Nat) : Anchor :=
  match offset with
  | some o => .seed z o
  | none => if isLandingZone z then .edge .level else .none

/-- The tracker is resolved when its confidence is at least the confidence threshold (R93). -/
def Tracker.resolved (t : Tracker) (g : Globals) : Bool := decide (g.threshold ≤ t.confidence)

/-! ## The planning view (R98, R99) -/

/-- The zones a view considers: landing zones when the zone level reads active, spans otherwise (R98). -/
def consideredZones (e : CarEntry) (zoneLevel : Option Bool) : List Nat :=
  (List.range (zoneCount e)).filter fun z => isLandingZone z == (zoneLevel == some true)

/-- The span offset before clamping (R99), for a view whose best zone is span z; `dist` is D in mm. -/
def rawSpanOffset (e : CarEntry) (a : Anchor) (z : Nat) (dist : Int) : Option Int :=
  match a with
  | .edge (.leave .up) => some dist
  | .edge (.leave .down) => some ((zoneLength e z : Int) + dist)
  | .seed s o => if s = z then some ((o : Int) + dist) else none
  | _ => none

/-- The planning view of a car (R98, R99). -/
def planningView (e : CarEntry) (g : Globals) (t : Tracker) (zoneLevel : Option Bool) (dist : Int) : View :=
  let zones := consideredZones e zoneLevel
  let costs := zones.map (costAt t.costs)
  let two := twoLeast costs
  if two.1 < excluded then
    let best := zones[costs.findIdx (fun c => c == two.1)]?
    let confidence := min 255 (two.2 - two.1)
    let offset : Option Nat :=
      if zoneLevel == some true then none
      else best.bind fun z =>
        (rawSpanOffset e t.anchor z dist).map fun o => min (zoneLength e z) o.toNat
    ⟨two.1, best, confidence, decide (g.threshold ≤ confidence), offset⟩
  else ⟨excluded, none, 0, false, none⟩

end Sys2Proof.Machine
end

