-- ==== Sys2Proof/Machine/Lines.lean ====
section
/-!
DEFINITION. The Car Line Interface (chapter 2): bytes (R19), frame assembly (R20, R21), the treatment of STATUS (R22),
and the transmit queue with its overflow frame (R31 to R34).
-/

namespace Sys2Proof.Machine

/-! ## Receiving -/

/-- The assembly in HUNT, with no frame in assembly. -/
def Assembly.hunt : Assembly := ⟨.hunt, 0, 0, [], 0⟩

/-- The count of ones of a byte. -/
def onesOf (b : Byte) : Nat := (List.range 8).foldl (fun n i => if b.getLsbD i then n + 1 else n) 0

/-- Even parity: the count of ones among the data bits, the mark bit and the parity bit is even (R19). -/
def parityGood (b : LineByte) : Bool :=
  (onesOf b.data + (if b.mark then 1 else 0) + (if b.parity then 1 else 0)) % 2 == 0

/-- The kinds the part receives, with their payload lengths (R21, Table 28). -/
def receivedLength (kind : Byte) : Option Nat :=
  if kind = 17 then some 10
  else if kind = 18 then some 1
  else if kind = 19 then some 2
  else if kind = 20 then some 2
  else if kind = 21 then some 2
  else none

/-- A STATUS payload as its fields (Table 28). -/
def statusOfPayload (b : List Byte) : StatusFrame where
  mode           := b.getD 0 0
  cause          := b.getD 1 0
  load           := b.getD 2 0 ++ b.getD 3 0
  zone           := b.getD 4 0
  offset         := b.getD 5 0 ++ b.getD 6 0
  gate           := b.getD 7 0
  alarmCount     := b.getD 8 0
  driveAvailable := b.getD 9 0

/-- A well-formed frame as its kind's fields (R21, Table 28). -/
def frameOf (kind : Byte) (b : List Byte) : Option ControllerFrame :=
  if receivedLength kind = some b.length then
    if kind = 17 then some (.status (statusOfPayload b))
    else if kind = 18 then some (.driveAck (b.getD 0 0))
    else if kind = 19 then some (.moveDone (b.getD 0 0) (b.getD 1 0))
    else if kind = 20 then some (.moveFail (b.getD 0 0) (b.getD 1 0))
    else some (.gateReport (b.getD 0 0) (b.getD 1 0))
  else none

/-- The field checks that reject a well-formed frame (R22, R25, R26): the mode and drive available codes of STATUS, and
a landing not below the car's L. -/
def frameValid (e : CarEntry) : ControllerFrame → Bool
  | .status f => (modeOf f.mode).isSome && (f.driveAvailable == 0 || f.driveAvailable == 1)
  | .moveDone _ landing => decide (landing.toNat < e.landings)
  | .gateReport landing _ => decide (landing.toNat < e.landings)
  | .driveAck _ => true
  | .moveFail _ _ => true

/-- Counts a bad frame (R27). -/
def CarLine.countBad (l : CarLine) : CarLine := { l with badFrames := bump 255 l.badFrames }

/-- A marked byte starts a frame: it is the kind, and the running sum is its value (R20). -/
def Assembly.start (kind : Byte) : Assembly := ⟨.header, kind, 0, [], kind⟩

/-- A complete frame is judged by R21, then by the field checks of its kind; a frame that survives them is handed over,
any other is counted as a bad frame. -/
def CarLine.complete (l : CarLine) (e : CarEntry) (a : Assembly) (sum : Byte) : CarLine :=
  let l := { l with assembly := .hunt }
  if sum = 0 then
    match frameOf a.kind a.payload with
    | some f => if frameValid e f then { l with handover := some f } else l.countBad
    | none => l.countBad
  else l.countBad

/-- Frame assembly takes one byte with its mark bit (R20). -/
def CarLine.takeByte (l : CarLine) (e : CarEntry) (b : Byte) (mark : Bool) : CarLine :=
  let a := l.assembly
  if mark then
    match a.state with
    | .hunt => { l with assembly := .start b }
    | _ => { l.countBad with assembly := .start b }
  else
    match a.state with
    | .hunt => l
    | .header =>
        if 24 < b.toNat then { l.countBad with assembly := .hunt }
        else
          { l with assembly := { a with state := if b = 0 then .check else .payload, length := b.toNat, sum := a.sum + b } }
    | .payload =>
        let payload := a.payload ++ [b]
        { l with assembly :=
          { a with state := if payload.length = a.length then .check else .payload, payload := payload, sum := a.sum + b } }
    | .check => l.complete e a (a.sum + b)

/-- Takes waiting bytes, oldest first, until none waits or a completed frame is being handed over (R20). -/
def CarLine.drain (e : CarEntry) : Nat → CarLine → CarLine
  | 0, l => l
  | fuel + 1, l =>
      match l.handover, l.fifo with
      | none, (b, mark) :: rest => CarLine.drain e fuel (({ l with fifo := rest }).takeByte e b mark)
      | _, _ => l

/-- The frame in assembly is discarded with the bytes waiting in the receive FIFO (R19, R9). -/
def CarLine.discard (l : CarLine) : CarLine := { l with fifo := [], assembly := .hunt }

/-- A byte is judged at its stop bit and enters the receive FIFO, or discards the frame in assembly (R19). -/
def CarLine.receive (l : CarLine) (e : CarEntry) (b : LineByte) : CarLine :=
  if !b.stop then { l.discard with framingErrors := bump 255 l.framingErrors }
  else if !parityGood b then { l.discard with parityErrors := bump 255 l.parityErrors }
  else if 4 ≤ l.fifo.length then { l.discard with overruns := bump 255 l.overruns }
  else CarLine.drain e 5 { l with fifo := l.fifo ++ [(b.data, b.mark)] }

/-- The hand-over of a frame ends: the line takes up the bytes that waited meanwhile (R20). -/
def CarLine.endHandover (l : CarLine) (e : CarEntry) (f : ControllerFrame) : CarLine :=
  if l.handover = some f then CarLine.drain e 5 { l with handover := none } else l

/-! ## STATUS fields (R22, Table 7) -/

/-- A present load above floor(125 × Q / 100) is clamped to it; 65535 is load absent. -/
def treatLoad (e : CarEntry) (load : BitVec 16) : Option Nat :=
  if load.toNat = 65535 then none else some (min load.toNat (125 * e.ratedLoad / 100))

/-- A zone above 2L − 2 is taken as position zone absent. -/
def treatZone (e : CarEntry) (zone : Byte) : Option Nat :=
  if zone.toNat < zoneCount e ∧ zone.toNat ≤ 14 then some zone.toNat else none

/-- An offset is absent when its code says so, when the zone is absent, or when it exceeds the zone's length. -/
def treatOffset (e : CarEntry) (zone : Option Nat) (offset : BitVec 16) : Option Nat :=
  zone.bind fun z =>
    if offset.toNat = 65535 ∨ zoneLength e z < offset.toNat then none else some offset.toNat

/-- The record of a valid STATUS (R22); `none` for a mode code that names no mode. -/
def statusRecord (e : CarEntry) (f : StatusFrame) : Option StatusRecord :=
  (modeOf f.mode).map fun mode =>
    let zone := treatZone e f.zone
    { mode           := mode
      cause          := causeOf f.cause
      load           := treatLoad e f.load
      zone           := zone
      offset         := treatOffset e zone f.offset
      gate           := gateOf f.gate
      alarmCount     := f.alarmCount.toNat
      driveAvailable := f.driveAvailable == 1 }

/-! ## Transmitting (R31 to R34) -/

/-- The transmit queue holds 4 frames. -/
def CarLine.queueFull (l : CarLine) : Bool := decide (4 ≤ l.queue.length)

/-- An overflow frame joins the tail as soon as the queue has space (R34). -/
def CarLine.admitOverflow (l : CarLine) : CarLine :=
  match l.overflow with
  | some f => if l.queueFull then l else { l with queue := l.queue ++ [f], overflow := none }
  | none => l

/-- With no frame in transmission and a frame queued, the oldest leaves the queue and is sent (R31). -/
def CarLine.startNext (l : CarLine) : CarLine :=
  match l.transmitting, l.queue with
  | none, f :: rest => ({ l with transmitting := some f, queue := rest }).admitOverflow
  | _, _ => l

def isRescueStateFrame : PartFrame → Bool
  | .rescueState .. => true
  | _ => false

/-- A RESCUE_STATE is offered: lost when the queue holds 4 frames or an overflow frame is held (R32). -/
def CarLine.offerRescueState (l : CarLine) (f : PartFrame) : CarLine :=
  if l.queueFull || l.overflow.isSome then l else ({ l with queue := l.queue ++ [f] }).startNext

/-- A GRANT, CANCEL or GATE_RELEASE is offered (R32, R34). -/
def CarLine.offerCommand (l : CarLine) (f : PartFrame) : CarLine :=
  if !l.queueFull && l.overflow.isNone then ({ l with queue := l.queue ++ [f] }).startNext
  else if l.queue.any isRescueStateFrame then { l with queue := l.queue.eraseP isRescueStateFrame ++ [f] }
  else if l.overflow.isNone then { l with overflow := some f }
  else l

/-- A frame is the GRANT that carries a move id (R33). -/
def isGrantOf (id : Nat) : PartFrame → Bool
  | .grant i .. => i == id
  | _ => false

/-- A CANCEL is offered: it removes the GRANT of its own move if that is still queued or held as overflow, and is
otherwise offered like any other frame (R33). -/
def CarLine.offerCancel (l : CarLine) (id : Nat) : CarLine :=
  if l.queue.any (isGrantOf id) then ({ l with queue := l.queue.eraseP (isGrantOf id) }).admitOverflow
  else if l.overflow.any (isGrantOf id) then { l with overflow := none }
  else l.offerCommand (.cancel id)

/-- The frame in transmission ends, and the next queued frame starts (R31). -/
def CarLine.endTransmission (l : CarLine) : CarLine := ({ l with transmitting := none }).startNext

/-- The lost timer has reached the timeout it began with, and the line is not LOST already (R24, R8). -/
def CarLine.isLosing (l : CarLine) : Bool := l.state != .lost && decide (l.lostLimit ≤ l.lostTimer)

/-! ## The wire (R19, R31, R191) -/

/-- A byte as it is sent: its mark bit, the parity bit that makes the count of ones even, the stop bit at the idle level
(R19). -/
def sentByte (mark : Bool) (data : Byte) : LineByte := ⟨data, mark, (onesOf data + mark.toNat) % 2 == 1, true⟩

/-- The twelve bits of a byte in the order in which they stand on the wire, `true` for the idle level and for 1: the start
bit, D0 to D7, the mark bit, the parity bit, the stop bit (R19, R191; the start bit's level is log 28's). -/
def bitsOf (b : LineByte) : List Bool :=
  false :: ((List.range 8).map b.data.getLsbD ++ [b.mark, b.parity, b.stop])

/-- The bytes of a part frame as they are sent: the mark bit is set on the kind and clear on every byte after it (R31). -/
def sentFrame (f : PartFrame) : List LineByte :=
  match frameBytes f with
  | kind :: rest => sentByte true kind :: rest.map (sentByte false)
  | [] => []

/-- The bytes of the frame in transmission, for the wire (R31). -/
def CarLine.wire (l : CarLine) : List LineByte :=
  match l.transmitting with
  | some f => sentFrame f
  | none => []

/-- The bits of the frame in transmission: the bytes follow one another without gaps (R31). -/
def CarLine.wireBits (l : CarLine) : List Bool := l.wire.flatMap bitsOf

end Sys2Proof.Machine
end

