-- ==== Sys2Proof/Machine/Brake.lean ====
section
/-!
DEFINITION. The Brake Drive of one car (chapter 9): channel B's share (R162), opening (R164, R165), closing (R170),
locking (R171), the measured speed (R166), regulation (R167), the frame start (R160) and the outputs (R161, R163).
-/

namespace Sys2Proof.Machine

/-- Channel B's shadow share for a shadow share of channel A (R162). -/
def shareB (e : CarEntry) (shareA : Nat) : Nat :=
  match e.bMode with
  | .follow => shareA
  | .own => e.bShare
  | .closed => 0

/-- Writes channel A's shadow share, and channel B's with it (R162). -/
def CarBrake.setShadow (b : CarBrake) (e : CarEntry) (share : Nat) : CarBrake :=
  { b with shadowA := share, shadowB := shareB e share }

/-- "A LOCKED channel cannot be opened" (R171). -/
def openChannel : ChannelState → ChannelState
  | .locked => .locked
  | _ => .open

/-- Opens the channels for a probe or for regulation with a first share (R164, R165). -/
def CarBrake.openFor (b : CarBrake) (e : CarEntry) (kind : OpeningKind) (share : Nat) : CarBrake :=
  ({ b with
      channelA := openChannel b.channelA
      channelB := if e.bMode = ChannelBMode.closed then b.channelB else openChannel b.channelB
      opening := some kind
      started := false
      activeA := 0
      activeB := 0
      insideA := false
      insideB := false
      framesOpen := 0
      lastSpeed := none }).setShadow e share

/-- The four shares become 0, the opening kind absent, and the outputs inactive (R168 to R170). These rules do not name the
started flag; that it stands as it was, until the next opening clears it (R164), is the model's choice (log 35). -/
def CarBrake.still (b : CarBrake) : CarBrake :=
  { b with opening := none, shadowA := 0, activeA := 0, shadowB := 0, activeB := 0, insideA := false, insideB := false }

/-- An OPEN channel becomes CLOSED (R170). -/
def closeChannel : ChannelState → ChannelState
  | .open => .closed
  | c => c

/-- Either channel is OPEN. -/
def CarBrake.anyOpen (b : CarBrake) : Bool := b.channelA == .open || b.channelB == .open

/-- Either channel is LOCKED (R132). -/
def CarBrake.anyLocked (b : CarBrake) : Bool := b.channelA == .locked || b.channelB == .locked

/-- A close request (R170): it has no effect where both channels are CLOSED or LOCKED. -/
def CarBrake.close (b : CarBrake) : CarBrake :=
  if b.anyOpen then
    ({ b with channelA := closeChannel b.channelA, channelB := closeChannel b.channelB }).still
  else b

/-- Both channels become LOCKED together, whatever channel B's mode (R168, R171). -/
def CarBrake.lock (b : CarBrake) : CarBrake := ({ b with channelA := .locked, channelB := .locked }).still

/-- A LOCKED channel becomes CLOSED (R171). -/
def unlockChannel : ChannelState → ChannelState
  | .locked => .closed
  | c => c

/-- CLEAR_FAILED unlocks any LOCKED channel (R74, R171). -/
def CarBrake.unlock (b : CarBrake) : CarBrake :=
  { b with channelA := unlockChannel b.channelA, channelB := unlockChannel b.channelB }

/-- The measured speed in mm/s: floor(S × 1,000,000 / (ppm × F × n)) (R166). -/
def measuredSpeed (e : CarEntry) (g : Globals) (sum entries : Nat) : Nat :=
  sum * 1000000 / (e.ppm * g.frame * entries)

/-- Channel A's share after regulation at a measured speed not above vmax (R167): above v + band it is decreased by
step down, below v − band increased by step up, and a changed share is clamped to 0 to max share. -/
def regulatedShare (e : CarEntry) (g : Globals) (speed share : Nat) : Nat :=
  if e.speed + g.band < speed then min g.maxShare (share - g.stepDown)
  else if speed + g.band < e.speed then min g.maxShare (share + g.stepUp)
  else share

/-- The frame start (R160, step 3): the shadow shares of the OPEN channels become active. -/
def CarBrake.frameStart (b : CarBrake) : CarBrake :=
  if b.channelA = .open then
    let activeB := if b.channelB = .open then b.shadowB else b.activeB
    { b with
      activeA := b.shadowA
      activeB := activeB
      insideA := decide (0 < b.shadowA)
      insideB := b.channelB == .open && decide (0 < activeB)
      started := true }
  else b

/-- The time from the frame start for which a channel is active in a frame of F ms: F × share × 10 µs, in µs (R161). -/
def shareTime (frame share : Nat) : Nat := frame * share * 10

/-- The active share of a channel has run out at a moment of the frame, in ms since the frame boundary, and its output has
not yet been taken back (R161, log 28). -/
def CarBrake.shareOver (b : CarBrake) (ch : Channel) (frame sinceFrame : Nat) : Bool :=
  match ch with
  | .a => b.channelA == .open && b.insideA && decide (b.activeA < 100)
      && decide (shareTime frame b.activeA ≤ sinceFrame * 1000)
  | .b => b.channelB == .open && b.insideB && decide (b.activeB < 100)
      && decide (shareTime frame b.activeB ≤ sinceFrame * 1000)

/-- The active share of a channel ends within the frame (R161). -/
def CarBrake.shareEnd (b : CarBrake) (ch : Channel) : CarBrake :=
  match ch with
  | .a => if b.channelA = .open ∧ b.activeA < 100 then { b with insideA := false } else b
  | .b => if b.channelB = .open ∧ b.activeB < 100 then { b with insideB := false } else b

/-- A brake output is active (R163): its channel is OPEN, the moment lies inside its active share, the car is in PROBING
or LOWERING, its chain reads closed and its lockout off. -/
def CarBlock.brakeOutput (b : CarBlock) (ch : Channel) : Bool :=
  (match ch with
   | .a => b.brake.channelA == .open && b.brake.insideA
   | .b => b.brake.channelB == .open && b.brake.insideB)
  && isBrakeState b.record.state && b.inputs.chain.isOn && b.inputs.lockout.isOff

/-- The level a brake-release output is driven to, `true` for high (R161); `none` while the part has no power and drives
nothing (R159). -/
def Part.brakePin (p : Part) (c : Car) (ch : Channel) : Option Bool :=
  let polarity := match ch with
    | .a => (p.entry c).polarityA
    | .b => (p.entry c).polarityB
  if p.powered then some ((p.car c).brakeOutput ch == (polarity == .activeHigh)) else none

/-- The run limit: the plan's distance d plus the run margin (R169). -/
def runLimit (g : Globals) (plan : PlanRecord) : Nat := plan.distance.getD 0 + g.runMargin

end Sys2Proof.Machine
end

