-- ==== Sys2Proof/Machine/Signals.lean ====
section
/-!
DEFINITION. Car Signals of one car (chapter 10): the unlock pulse (R176), the lamp (R180), the tone patterns (R181), the
reassurance timer (R182), and the levels of the three outputs (R174).
-/

namespace Sys2Proof.Machine

/-! ## Tone patterns (R181) -/

/-- The segments of a pattern: whether each is a burst, and its length in ms. -/
def patternSegments : TonePattern → List (Bool × Nat)
  | .moveStart => [(true, 150), (false, 150), (true, 150)]
  | .levelled => [(true, 600)]
  | .release => [(true, 150), (false, 150), (true, 150), (false, 150), (true, 150)]
  | .reassure => [(true, 150)]

/-- A pattern at the start of one of its segments: the output is active at the start of a burst, inactive in a gap. -/
def playingAt (t : TonePattern) (segment high low : Nat) : Option Playing :=
  ((patternSegments t)[segment]?).map fun seg => ⟨t, segment, seg.2, high, low, seg.1⟩

/-- Starts a pattern, with the high and low times now in force (R8). -/
def CarSignals.startPattern (s : CarSignals) (g : Globals) (t : TonePattern) : CarSignals :=
  { s with playing := playingAt t 0 g.toneHigh g.toneLow }

/-- A pattern is requested: it starts at once, or becomes the waiting pattern. -/
def CarSignals.requestTone (s : CarSignals) (g : Globals) (t : TonePattern) : CarSignals :=
  if s.playing.isNone then s.startPattern g t else { s with waiting := some t }

/-- The playing pattern ends: a waiting pattern starts at once. -/
def CarSignals.endPattern (s : CarSignals) (g : Globals) : CarSignals :=
  match s.waiting with
  | some t => ({ s with waiting := none }).startPattern g t
  | none => { s with playing := none }

/-- A burst or gap of the playing pattern ends. -/
def CarSignals.segmentEnd (s : CarSignals) (g : Globals) : CarSignals :=
  match s.playing with
  | some q =>
      match playingAt q.pattern (q.segment + 1) q.high q.low with
      | some next => { s with playing := some next }
      | none => s.endPattern g
  | none => s

/-- The present segment of a playing pattern is a burst. -/
def Playing.inBurst (q : Playing) : Bool := ((patternSegments q.pattern)[q.segment]?).any (·.1)

/-- The high or low time of a burst has run, and the output switches. -/
def CarSignals.toggle (s : CarSignals) : CarSignals :=
  { s with playing := s.playing.map fun q => if q.inBurst then { q with output := !q.output } else q }

/-- SILENCE_TONE: the playing pattern stops, the waiting pattern is dropped, and suppression is set for a trapped
car (R182). -/
def CarSignals.silence (s : CarSignals) (trapped : Bool) : CarSignals :=
  { s with playing := none, waiting := none, silenced := trapped || s.silenced }

/-- The tone output (R181). -/
def CarSignals.toneOutput (s : CarSignals) : Bool := s.playing.any (·.output)

/-! ## Lamp, reassurance, unlock pulse -/

/-- The rescue lamp output: STEADY is active, FLASH follows the phase shared by all cars (R180). -/
def lampOutput (t : TimeBase) (s : CarSignals) : Bool :=
  match s.lamp with
  | .off => false
  | .steady => true
  | .flash => t.flashLit

/-- The lamp and the reassurance timer follow a change of the car's state (R180, R182). -/
def CarSignals.follow (s : CarSignals) (g : Globals) (old new : RescueState) : CarSignals :=
  { s with
    lamp := lampOf new
    reassurance :=
      if isReassured new then (if isReassured old then s.reassurance else some (seconds g.reassurance)) else none }

/-- The level an output of Car Signals is driven to, `true` for high: their polarity is fixed, high when active and low when
inactive (R174); `none` while the part has no power and drives nothing (log 10). -/
def Part.signalPin (p : Part) (active : Bool) : Option Bool := if p.powered then some active else none

/-- The level of the gate-unlock output of car c (R174, R176). -/
def Part.unlockPin (p : Part) (c : Car) : Option Bool := p.signalPin (p.car c).signals.unlockOutput

/-- The level of the rescue lamp output of car c (R174, R180). -/
def Part.lampPin (p : Part) (c : Car) : Option Bool := p.signalPin (lampOutput p.time (p.car c).signals)

/-- The level of the tone output of car c (R174, R181). -/
def Part.tonePin (p : Part) (c : Car) : Option Bool := p.signalPin (p.car c).signals.toneOutput

/-- An unlock pulse begins (R176). -/
def CarSignals.startPulse (s : CarSignals) (g : Globals) : CarSignals :=
  { s with releaseMethod := some .pulse, unlockTimer := some g.unlockPulse, unlockOutput := true }

/-- The unlock pulse ends: the output becomes inactive and the timer stops; the release method stays (R176). -/
def CarSignals.endPulse (s : CarSignals) : CarSignals := { s with unlockTimer := none, unlockOutput := false }

/-- The car has left RELEASING: the output is inactive, the timer stopped, the release method absent (R178, R179). -/
def CarSignals.endRelease (s : CarSignals) : CarSignals := { s.endPulse with releaseMethod := none }

end Sys2Proof.Machine
end

