-- ==== Sys2Proof/Machine/Flags.lean ====
section
/-!
DEFINITION. The conditions that several blocks judge: the stall condition (R53), resolution (R93), demand (R146),
supply ready (R152), the feed of the rescue bus (R146), the slots and the energy that are taken (R153), the attention lines
(R188), and the bound of the gate-unlock output (R176).
-/

namespace Sys2Proof.Machine

/-- The stall condition of a car (R53): the line is ALIVE and the last STATUS record's mode is STALLED, or the line is
LOST and the zone level reads inactive. -/
def CarBlock.stalled (b : CarBlock) : Bool :=
  match b.line.state with
  | .alive => b.line.lastStatus.any fun s => s.mode == .stalled
  | .lost => b.inputs.zone.isOff
  | .silent => false

/-- The line of car c is ALIVE. -/
def Part.lineAlive (p : Part) (c : Car) : Bool := (p.car c).line.state == .alive

/-- The tracker of car c is resolved, by the threshold in force, or confirmed (R65, R93). -/
def Part.resolvedOrConfirmed (p : Part) (c : Car) : Bool :=
  (p.car c).tracker.resolved p.globals || (p.car c).tracker.confirmed

/-- The converter has demand when any car is READY or in a move state (R146). -/
def Part.demand (p : Part) : Bool := allCars.any fun c => isDemandState (p.stateOf c)

/-- Supply ready (R152): the mains is believed present, or the converter is ON and the first sample is taken. -/
def Part.supplyReady (p : Part) : Bool :=
  p.supply.belief == .present || (p.supply.converter == .on && p.supply.sampled)

/-- What feeds the rescue bus (Table 20). -/
inductive BusFeed where
  | nothing
  | mains
  | converter
deriving DecidableEq, Repr

/-- The feed of the rescue bus follows the converter state (Table 20): in OFF the mains, when the mains is present, which is
read off the accepted level of its input (log 33); in ON the converter; in every other state nothing. A part without power
feeds nothing. -/
def Part.busFeed (p : Part) : BusFeed :=
  match p.powered, p.supply.converter with
  | true, .off => if p.mainsInput.isOn then .mains else .nothing
  | true, .on => .converter
  | _, _ => .nothing

/-- The number of cars that hold a brake slot. -/
def Part.brakeHeld (p : Part) : Nat := (allCars.filter fun c => (p.car c).slots.brake).length

/-- The number of cars that hold a drive slot. -/
def Part.driveHeld (p : Part) : Nat := (allCars.filter fun c => (p.car c).slots.drive).length

/-- Reserved energy: the sum of the reservations (R153). -/
def Part.reserved (p : Part) : Nat := (allCars.map fun c => ((p.car c).slots.reservation).getD 0).sum

/-- Any car is in a move state (R7). -/
def Part.anyMoving (p : Part) : Bool := allCars.any fun c => isMoveState (p.stateOf c)

/-- "A port's attention line is active while its pending set is not empty" (R188). -/
def PortState.attention (q : PortState) : Bool := !q.notices.isEmpty

/-- The bound of the gate-unlock output (R176): RELEASING, the zone input active, the tracker resolved or confirmed. -/
def Part.unlockBound (p : Part) (c : Car) : Bool :=
  p.stateOf c == .releasing && p.zoneActive c && p.resolvedOrConfirmed c

end Sys2Proof.Machine
end

