-- ==== Sys2Proof/Machine/Arbiter.lean ====
section
/-!
DEFINITION. Changes of a car's state with what always goes with them, and the Grant Arbiter: a grant (R59, R156), the
order of the READY cars, a selection (R156), ENERGY_SHORT (R157).
-/

namespace Sys2Proof.Machine

/-! ## A change of a car's state -/

/-- Leaving state s. -/
def leaves (s old new : RescueState) : Bool := old == s && new != s

/-- A timer that stops when `stop` holds. -/
def stopIf (stop : Bool) (t : Option Nat) : Option Nat := if stop then none else t

/-- The record's part of a change of state: the timers of the state that is left stop (R54, R60, R66, R73), and the held
cause belongs to HELD alone (R30, log 21). -/
def CarRecord.moveTo (r : CarRecord) (new : RescueState) (held : Option HeldCause) : CarRecord :=
  { r with
    state        := new
    heldCause    := held
    confirmTimer := stopIf (leaves .confirming r.state new) r.confirmTimer
    retryTimer   := stopIf (leaves .failed r.state new) r.retryTimer
    ackTimer     := stopIf (leaves .driving r.state new) r.ackTimer
    moveTimer    := stopIf (leaves .driving r.state new) r.moveTimer
    dwellTimer   := stopIf (leaves .levelling r.state new) r.dwellTimer
    slipTimer    := stopIf (leaves .levelling r.state new) r.slipTimer
    motionAge    := stopIf (leaves .levelling r.state new) r.motionAge
    gateTimer    := stopIf (leaves .releasing r.state new) r.gateTimer }

/-- A car goes to a state: its record, the reversal check (R47), the lamp and the reassurance timer (R180, R182), and the
end of a release (R178, R179) follow. -/
def Part.setState (p : Part) (c : Car) (new : RescueState) (held : Option HeldCause) : Part :=
  p.modCar c fun b =>
    let old := b.record.state
    { b with
      record := b.record.moveTo new held
      inputs :=
        if leaves .lowering old new || leaves .driving old new then
          { b.inputs with move := { b.inputs.move with armed := false } }
        else b.inputs
      signals :=
        let s := b.signals.follow p.globals old new
        if leaves .releasing old new then s.endRelease else s }

/-! ## A grant (R59) -/

/-- The state a granted method leads to (R59). -/
def moveStateOf : PlanMethod → Option RescueState
  | .probe => some .probing
  | .gravityDown | .gravityUp => some .lowering
  | .poweredUp | .poweredDown => some .driving
  | .none => none

/-- The direction of a granted method; a probe has none (R42). -/
def moveDirOf : PlanMethod → Option Dir
  | .gravityUp | .poweredUp => some .up
  | .gravityDown | .poweredDown => some .down
  | _ => none

/-- The method used that a grant sets (R59); a probe sets none. -/
def methodUsedOf : PlanMethod → Option MethodUsed
  | .gravityDown => some .gravityDown
  | .gravityUp => some .gravityUp
  | .poweredUp => some .poweredUp
  | .poweredDown => some .poweredDown
  | _ => none

/-- A method needs a brake slot (R156). -/
def needsBrakeSlot : PlanMethod → Bool
  | .probe | .gravityDown | .gravityUp => true
  | _ => false

/-- A method needs a drive slot (R156). -/
def needsDriveSlot : PlanMethod → Bool
  | .poweredUp | .poweredDown => true
  | _ => false

/-- The GRANT of a powered move is built and offered: it takes the line's next move id, which becomes the car's current
move id (R28), and the ack and move timers start (R59). -/
def Part.grantPowered (p : Part) (c : Car) (d : Dir) : Part :=
  let plan := (p.car c).planner.plan
  let id := (p.car c).line.nextMoveId
  let frame := PartFrame.grant id d (plan.target.getD 0) (plan.estimate.getD 0) (p.entry c).speed
  let p := p.modRecord c fun r =>
    { r with moveId := some id
             ackTimer := some p.globals.ackTimeout
             moveTimer := some (2 * plan.travelTime.getD 0 + 10000) }
  p.modLine c fun l => ({ l with nextMoveId := (id + 1) % 256 }).offerCommand frame

/-- A granted method begins its move: a probe and a gravity move open the brake (R164, R165), a powered move sends a
GRANT (R28). -/
def Part.beginMove (p : Part) (c : Car) (m : PlanMethod) : Part :=
  match m with
  | .probe => p.modBrake c (·.openFor (p.entry c) .probe p.globals.probeShare)
  | .gravityDown | .gravityUp => p.modBrake c (·.openFor (p.entry c) .lowering p.globals.startShare)
  | .poweredUp => p.grantPowered c .up
  | .poweredDown => p.grantPowered c .down
  | .none => p

/-- A move that can land the car sets method used, raises RESCUE_STARTED and sounds MOVE_START (R59, R181); a probe does
none of these. -/
def Part.announceMove (p : Part) (c : Car) (m : PlanMethod) : Part :=
  match methodUsedOf m with
  | some used =>
      let p := p.modRecord c fun r => { r with summary := { r.summary with methodUsed := some used } }
      let p := p.modSignals c (·.requestTone p.globals .moveStart)
      p.raiseCar .rescueStarted c
  | none => p

/-- A grant of method m to car c (R59, R156): reservation and slot, the car's move state, the move record (R42), the
move's beginning. -/
def Part.grant (p : Part) (c : Car) (m : PlanMethod) : Part :=
  match moveStateOf m with
  | some st =>
      let estimate := (p.car c).planner.plan.estimate.getD 0
      let p := p.modSlots c fun s =>
        { s with brake := s.brake || needsBrakeSlot m, drive := s.drive || needsDriveSlot m, reservation := some estimate }
      let p := p.modRecord c fun r => { r with first := false, energyShort := false }
      let p := p.setState c st none
      let p := p.modInputs c fun x => { x with move := ⟨moveDirOf m, 0, 0, (moveDirOf m).isSome, none⟩ }
      let p := p.beginMove c m
      p.announceMove c m
  | none => p

/-! ## Selection (R156) -/

/-- Car c goes before car d in the Arbiter's order: the FIRST override, then urgency, then car number (R156). -/
def Part.ordersBefore (p : Part) (c d : Car) : Bool :=
  let rc := (p.car c).record
  let rd := (p.car d).record
  let uc := (p.car c).planner.urgency
  let ud := (p.car d).planner.urgency
  if rc.first != rd.first then rc.first
  else if uc = ud then decide (c < d)
  else decide (ud < uc)

/-- Puts a car in its place among cars that are in the Arbiter's order. -/
def Part.insertCar (p : Part) (c : Car) : List Car → List Car
  | [] => [c]
  | d :: rest => if p.ordersBefore c d then c :: d :: rest else d :: p.insertCar c rest

/-- The READY cars in the Arbiter's order (R156). -/
def Part.readyOrder (p : Part) : List Car :=
  (allCars.filter fun c => p.stateOf c == .ready).foldl (fun l c => p.insertCar c l) []

/-- The slot kind a method needs has a free slot (R156). -/
def Part.slotFree (p : Part) (m : PlanMethod) : Bool :=
  if needsBrakeSlot m then decide (p.brakeHeld < p.globals.brakeSlots)
  else needsDriveSlot m && decide (p.driveHeld < p.globals.driveSlots)

/-- The plan estimate of a car fits: the mains is believed present, or the estimate is at most
max(0, usable energy − reserved energy) (R156). -/
def Part.affords (p : Part) (estimate : Nat) : Bool :=
  p.supply.belief == .present || decide (estimate ≤ p.supply.usable.getD 0 - p.reserved)

/-- A considered car that is short of energy: ENERGY_SHORT is set, with a notice if it was clear (R157). -/
def Part.flagShort (p : Part) (c : Car) : Part :=
  if (p.car c).record.energyShort then p
  else (p.modRecord c fun r => { r with energyShort := true }).raiseCar .energyShort c

/-- A READY car is taken in its turn: passed over, granted, or flagged (R156, R157). -/
def Part.consider (p : Part) (c : Car) : Part :=
  let plan := (p.car c).planner.plan
  match plan.method with
  | some m =>
      if p.slotFree m then (if p.affords (plan.estimate.getD 0) then p.grant c m else p.flagShort c) else p
  | none => p

/-- A selection (R152, R156). -/
def Part.select (p : Part) : Part :=
  if p.supplyReady then p.readyOrder.foldl (fun p c => p.consider c) p else p

end Sys2Proof.Machine
end

