-- ==== Sys2Proof/Machine/Policy.lean ====
section
/-!
DEFINITION. The Rescue Policy Table (chapter 6): what a rule tests (R104, R105), the evaluation of a car's rules (R107
to R109), the alarm tally (R106), the rule counters (R110 to R114), and the merging and applying of commits (R117 to
R120).
-/

namespace Sys2Proof.Machine

/-! ## Evaluation -/

/-- The bit of a method in a method set (Table 15). -/
def methodBit : Method → Nat
  | .gravityDown => 0
  | .gravityUp => 1
  | .poweredUp => 2
  | .poweredDown => 3
  | .probe => 4

/-- A method is in a mask. -/
def maskHas (mask : MethodSet) (m : Method) : Bool := mask.getLsbD (methodBit m)

/-- A quantity of Table 16, read from the snapshot; `none` where it is absent (R104). -/
def quantityValue (s : CarSnapshot) (usable : Option Nat) : Quantity → Option Nat
  | .loadKg => s.load
  | .trappedS => some s.trappedTime
  | .landing => some (landingOf s.bestZone)
  | .alarms => s.alarmReference.map fun _ => s.alarmTally
  | .usableEu => usable
  | .urgency => some s.urgency

/-- The compare of a rule passes for a quantity (R105, test 2). -/
def comparePasses (r : Rule) (q : Option Nat) : Bool :=
  match r.compare with
  | .off => true
  | .inRange => q.any fun q => decide (r.low ≤ q) && decide (q ≤ r.high)
  | .outOfRange => q.any fun q => decide (q < r.low) || decide (r.high < q)
  | .atBound => q.any fun q => q == r.low || q == r.high

/-- The cause set is empty, or the stall cause is a member (R105, test 3). -/
def causePasses (r : Rule) (cause : Option StallCause) : Bool :=
  r.causes == 0 || cause.any fun c => r.causes.getLsbD (stallCauseCode c)

/-- The line condition is ANY or equals the line state (R105, test 4). -/
def linePasses (r : Rule) (line : LineState) : Bool :=
  match r.lineCondition with
  | .any => true
  | .alive => line == .alive
  | .lost => line == .lost

/-- Rule i matches a car that is being planned (R105). -/
def ruleMatches (rules : Vector Rule 16) (i : Fin 16) (s : CarSnapshot) (usable : Option Nat) : Bool :=
  let r := rules[i]
  r.enabled && s.entry.ruleSet.getLsbD i.val && comparePasses r (quantityValue s usable r.quantity)
  && causePasses r s.stallCause && linePasses r s.lineState

/-- The weight action of a matching rule (R108). -/
def applyWeight (r : Rule) (w : Nat) : Nat :=
  match r.weightAction with
  | .none => w
  | .raise => max w r.weightValue
  | .lower => min w r.weightValue
  | .set => r.weightValue

/-- The method action of a matching rule (R109). -/
def applyMethods (r : Rule) (mask : MethodSet) : MethodSet :=
  match r.methodAction with
  | .none => mask
  | .add => mask ||| r.methods
  | .keepOnly => mask &&& r.methods
  | .set => r.methods

/-- The rule indices in order. -/
def allRules : List (Fin 16) := [0, 1, 2, 3, 4, 5, 6, 7, 8, 9, 10, 11, 12, 13, 14, 15]

/-- The evaluated weight and mask of a car (R107): base weight and all five methods, then each matching rule in index
order. -/
def evaluateRules (rules : Vector Rule 16) (s : CarSnapshot) (usable : Option Nat) : Nat × MethodSet :=
  allRules.foldl
    (fun (wm : Nat × MethodSet) i =>
      if ruleMatches rules i s usable then (applyWeight rules[i] wm.1, applyMethods rules[i] wm.2) else wm)
    (s.entry.baseWeight, allMethods)

/-! ## Alarm tally (R106) -/

/-- A valid STATUS reaching a car in a trapped state other than RESCUED (R106). -/
def CarPolicy.tallyAlarm (q : CarPolicy) (alarmCount : Nat) : CarPolicy :=
  match q.alarmReference with
  | some reference =>
      { q with alarmTally := min 65535 (q.alarmTally + diffMod256 alarmCount reference)
               alarmReference := some alarmCount }
  | none => { q with alarmReference := some alarmCount }

/-- The tally starts again with a reference (R106). -/
def CarPolicy.restartTally (q : CarPolicy) (reference : Option Nat) : CarPolicy :=
  { q with alarmTally := 0, alarmReference := reference }

/-- Every counter of the car returns to IDLE (R114). -/
def CarPolicy.idleCounters (q : CarPolicy) : CarPolicy := { q with counters := Vector.replicate 16 .idle }

/-! ## Counters (R110 to R113) -/

/-- One pass is counted toward a unit step: whether the unit step is taken, and the minute count after (R110). -/
def countPass (u : CountUnit) (minutes : Nat) : Bool × Nat :=
  match u with
  | .seconds => (true, minutes)
  | .minutes => if 60 ≤ minutes + 1 then (true, 0) else (false, minutes + 1)

/-- A COUNT_UP counter counts one pass (R111); it reaches its end when the value reaches the count limit. -/
def countUpPass (r : Rule) (c : RuleCounter) : RuleCounter :=
  let (step, minutes) := countPass r.countUnit c.minutes
  let value := if step then c.value + 1 else c.value
  if r.countLimit ≤ value then ⟨.reached, r.countLimit, minutes⟩ else ⟨.counting, value, minutes⟩

/-- A COUNT_DOWN counter counts one pass (R112); it reaches its end when the value reaches 0. -/
def countDownPass (r : Rule) (c : RuleCounter) : RuleCounter :=
  let (step, minutes) := countPass r.countUnit c.minutes
  let value := if step then c.value - 1 else c.value
  if value = 0 then ⟨.reached, 0, minutes⟩ else ⟨.counting, value, minutes⟩

/-- A rule's counter for a car at a pass end (R111, R112). `taken`: the car takes the pass's result; `matched`: the rule
matched it in the pass; `waiting`: the car is in a trapped state other than RESCUED at the pass end. -/
def stepCounter (r : Rule) (c : RuleCounter) (timed taken matched waiting : Bool) : RuleCounter :=
  match r.countAction with
  | .none => c
  | .countUp =>
      if timed && taken && matched then
        match c.state with
        | .idle => countUpPass r ⟨.counting, 0, 0⟩
        | .counting => countUpPass r c
        | .reached => c
      else c
  | .countDown =>
      match c.state with
      | .idle => if taken && matched then ⟨.counting, r.countLimit, 0⟩ else c
      | .counting => if timed && waiting then countDownPass r c else c
      | .reached => c

/-- A counter has reached its end in this step (R113). -/
def reachesEnd (before after : RuleCounter) : Bool := before.state != .reached && after.state == .reached

/-- The snapshot of a car in a pass, where the pass plans it. -/
def Pass.snapshotOf (pass : Pass) (c : Car) : Option CarSnapshot := pass.cars.find? fun s => s.car == c

/-- One rule's counter step for one car at the end of a pass, with its ESCALATION (R111 to R113). -/
def Part.stepRuleCounter (p : Part) (pass : Pass) (takers : List Car) (c : Car) (i : Fin 16) : Part :=
  let rule := p.config.rules[i]
  let before := (p.car c).policy.counters[i]
  let matched := (pass.snapshotOf c).any fun s => ruleMatches p.config.rules i s pass.usable
  let after := stepCounter rule before (pass.kind == .timed) (takers.contains c) matched
    (isWaitingRescue (p.stateOf c))
  let q := p.modPolicy c fun x => { x with counters := x.counters.set i after }
  if reachesEnd before after then
    (q.modRecord c fun r => { r with lastEscalation := some i.val }).raiseCar .escalation c
  else q

/-- The counter steps of a pass: rules 0 to 15 for each car (R110, R120 step 1). -/
def Part.stepCounters (p : Part) (pass : Pass) (takers : List Car) : Part :=
  allCars.foldl (fun p c => allRules.foldl (fun p i => p.stepRuleCounter pass takers c i) p) p

/-! ## Staging and commits (R115 to R120) -/

/-- A field of Table 15, by its field number (R186), is in a set. -/
def fieldIn (sel : FieldSet) (n : Nat) : Bool := sel.getLsbD (n - 1)

/-- The selected fields of an image replace those of a rule (R117, R118). -/
def mergeRule (sel : FieldSet) (image rule : Rule) : Rule where
  enabled       := if fieldIn sel 1 then image.enabled else rule.enabled
  quantity      := if fieldIn sel 2 then image.quantity else rule.quantity
  compare       := if fieldIn sel 3 then image.compare else rule.compare
  low           := if fieldIn sel 4 then image.low else rule.low
  high          := if fieldIn sel 5 then image.high else rule.high
  causes        := if fieldIn sel 6 then image.causes else rule.causes
  lineCondition := if fieldIn sel 7 then image.lineCondition else rule.lineCondition
  weightAction  := if fieldIn sel 8 then image.weightAction else rule.weightAction
  weightValue   := if fieldIn sel 9 then image.weightValue else rule.weightValue
  methodAction  := if fieldIn sel 10 then image.methodAction else rule.methodAction
  methods       := if fieldIn sel 11 then image.methods else rule.methods
  countAction   := if fieldIn sel 12 then image.countAction else rule.countAction
  countUnit     := if fieldIn sel 13 then image.countUnit else rule.countUnit
  countLimit    := if fieldIn sel 14 then image.countLimit else rule.countLimit

/-- A value of a field of Table 15 in two bytes, written into an image; `none` where the field number or the value names
nothing of Table 15 (R115, R186). -/
def setRuleField (image : Rule) (field value : Nat) : Option Rule :=
  match field with
  | 1 => (boolOf value).map fun v => { image with enabled := v }
  | 2 => (quantityOf value).map fun v => { image with quantity := v }
  | 3 => (compareOf value).map fun v => { image with compare := v }
  | 4 => some { image with low := value }
  | 5 => some { image with high := value }
  | 6 => if value < 16 then some { image with causes := BitVec.ofNat 4 value } else none
  | 7 => (lineConditionOf value).map fun v => { image with lineCondition := v }
  | 8 => (weightActionOf value).map fun v => { image with weightAction := v }
  | 9 => if value ≤ 4095 then some { image with weightValue := value } else none
  | 10 => (methodActionOf value).map fun v => { image with methodAction := v }
  | 11 => if value < 32 then some { image with methods := BitVec.ofNat 5 value } else none
  | 12 => (countActionOf value).map fun v => { image with countAction := v }
  | 13 => (countUnitOf value).map fun v => { image with countUnit := v }
  | 14 => if 1 ≤ value ∧ value ≤ 4095 then some { image with countLimit := value } else none
  | _ => none

/-- Writes the carried fields into a staging record and selects them; `none` where any value is out of range (R115). -/
def stageFields (s : Staging) : List (Nat × Nat) → Option Staging
  | [] => some s
  | (field, value) :: rest =>
      (setRuleField s.image field value).bind fun image =>
        stageFields ⟨image, s.selected ||| (1#14 <<< (field - 1))⟩ rest

/-- The fields of a commit replace those of rule k, and every counter of rule k returns to IDLE for all eight cars
(R118, R120, R114). -/
def Part.applyCommit (p : Part) (k : Fin 16) (sel : FieldSet) (image : Rule) : Part :=
  let p := { p with config := { p.config with rules := p.config.rules.set k (mergeRule sel image p.config.rules[k]) } }
  (p.mapCars fun b => { b with policy := { b.policy with counters := b.policy.counters.set k .idle } }).markUnsaved

/-- Rule k as it will stand when the pending commits of the list have been applied, in list order (R117). -/
def ruleAfter (commits : List PendingCommit) (k : Fin 16) (rule : Rule) : Rule :=
  commits.foldl (fun r c => if c.rule = k then mergeRule c.selected c.image r else r) rule

/-- The entries of the pending commit list are applied in list order, each with COMMIT_DONE to its own port, and the list
is emptied (R120 step 2). -/
def Part.applyCommits (p : Part) : Part :=
  { p.commits.foldl
      (fun p c => (p.applyCommit c.rule c.selected c.image).raiseTo c.port ⟨.commitDone, none⟩) p with
    commits := [] }

end Sys2Proof.Machine
end

