-- ==== Sys2Proof/Machine/Planner.lean ====
section
/-!
DEFINITION. The Planner (chapter 7): the urgency step (R129 to R131), the snapshot and start of a pass (R125, R126), and
the planning of one car: distances (R133, R134), natural direction (R135), method (R136) and energy (R137, R138).
-/

namespace Sys2Proof.Machine

/-! ## Urgency -/

/-- The occupancy P of a car (R129). -/
def occupancy (g : Globals) (s : Option StatusRecord) : Nat :=
  match s.bind (·.load) with
  | some load => min 20 (ceilDiv load 75)
  | none => g.defaultOcc

/-- The new alarm count A and the step alarm mark after it (R130). -/
def alarmStep (line : LineState) (mark : Option Nat) (s : Option StatusRecord) : Nat × Option Nat :=
  match line, s with
  | .alive, some s => ((mark.map (diffMod256 s.alarmCount)).getD 0, some s.alarmCount)
  | _, _ => (0, mark)

/-- The urgency step of one car: inc = min(4095, w + P × k_occ + A × k_alarm) is added to U (R129). -/
def CarBlock.stepUrgency (b : CarBlock) (g : Globals) : CarBlock :=
  if isWaitingRescue b.record.state then
    let alarm := alarmStep b.line.state b.planner.alarmMark b.line.lastStatus
    let inc := min 4095 (b.planner.weight + occupancy g b.line.lastStatus * g.kOcc + alarm.1 * g.kAlarm)
    { b with planner := { b.planner with urgency := b.planner.urgency + inc, alarmMark := alarm.2 } }
  else b

/-- The halving of one car's urgency: every car that was stepped, not a RESCUED one (R131). -/
def CarBlock.halveUrgency (b : CarBlock) : CarBlock :=
  if isWaitingRescue b.record.state then
    { b with planner := { b.planner with urgency := b.planner.urgency / 2 } }
  else b

/-- The urgency step of a timed pass (R129 to R131). -/
def Part.stepUrgency (p : Part) : Part :=
  let q := p.mapCars (·.stepUrgency p.globals)
  if allCars.any fun c => decide (61440 ≤ (q.car c).planner.urgency) then
    (q.mapCars (·.halveUrgency)).raise ⟨.urgencyRebased, none⟩
  else q

/-! ## Passes -/

/-- The anchor distance D of a car in mm (R40). -/
def Part.distanceMm (p : Part) (c : Car) : Int := countToMm (p.entry c).ppm (p.car c).inputs.odometry

/-- The planning view of a car at this moment (R98, R99). -/
def Part.viewOf (p : Part) (c : Car) : View :=
  planningView (p.entry c) p.globals (p.car c).tracker (p.car c).inputs.zone.accepted (p.distanceMm c)

/-- The snapshot figures of one car (R126). -/
def Part.snapshotCar (p : Part) (c : Car) : CarSnapshot :=
  let b := p.car c
  { car            := c
    entry          := p.entry c
    stallCause     := b.record.stallCause
    trappedTime    := b.record.trappedTime
    probeResult    := b.record.probeResult
    locked         := b.brake.anyLocked
    lineState      := b.line.state
    load           := b.line.lastStatus.bind (·.load)
    alarmCount     := b.line.lastStatus.map (·.alarmCount)
    driveAvailable := b.line.lastStatus.map (·.driveAvailable)
    alarmTally     := b.policy.alarmTally
    alarmReference := b.policy.alarmReference
    urgency        := b.planner.urgency
    weight         := b.planner.weight
    bestZone       := b.tracker.bestZone
    zoneLevel      := b.inputs.zone.accepted
    view           := p.viewOf c }

/-- The cars to plan: ASSESSING, READY or HELD(NO_METHOD) (R126). -/
def Part.carsToPlan (p : Part) : List Car := allCars.filter fun c => isPlanned (p.car c).record

/-- The start of a pass (R126): for a timed pass the urgency step, then the snapshot. -/
def Part.startPass (p : Part) (kind : PassKind) : Part :=
  let p := if kind = .timed then p.stepUrgency else p
  { p with pass := some ⟨kind, p.carsToPlan.map p.snapshotCar, p.globals, p.supply.usable⟩ }

/-- A pass is asked for: it starts at once, or its flag is set (R125). -/
def Part.askPass (p : Part) (kind : PassKind) : Part :=
  match p.pass with
  | none => p.startPass kind
  | some _ =>
      match kind with
      | .timed => { p with timedPending := true }
      | .requested => { p with requestPending := true }

/-! ## Planning one car -/

/-- The imbalance M of a load (R135); 0 for an absent load. -/
def imbalance (e : CarEntry) (load : Option Nat) : Int :=
  match load with
  | some load => (load : Int) - ((e.balance * e.ratedLoad / 100 : Nat) : Int)
  | none => 0

/-- The natural direction (R135). -/
def naturalDirection (s : CarSnapshot) : NaturalDir :=
  match s.load with
  | some _ =>
      let margin : Int := (ceilDiv (s.entry.ratedLoad * s.entry.margin) 100 : Nat)
      let m := imbalance s.entry s.load
      if margin < m then .down else if m < -margin then .up else .balanced
  | none =>
      match s.probeResult with
      | some .up => .up
      | some .down => .down
      | some .noDrift => .balanced
      | none => .unknown

/-- The position basis, distances and targets of a car in a span (R134). -/
structure SpanPosition where
  basis        : PositionBasis
  downDistance : Nat
  upDistance   : Nat
  downTarget   : Option Nat
  upTarget     : Option Nat
deriving DecidableEq, Repr

/-- R134. -/
def spanPosition (s : CarSnapshot) : SpanPosition :=
  let far := largestSpan s.entry
  match s.view.bestZone with
  | none => ⟨.noSpan, far, far, none, none⟩
  | some z =>
      let j := z / 2
      match s.view.resolved, s.view.offset with
      | true, some o => ⟨.known, max 1 o, max 1 (spanLength s.entry j - o), some j, some (j + 1)⟩
      | _, _ => ⟨.worstCase, far, far, some j, some (j + 1)⟩

/-- T_ms = ceil(d × 1000 / v) (R137). -/
def travelTime (e : CarEntry) (d : Nat) : Nat := ceilDiv (d * 1000) e.speed

/-- Joules in EU: ceil(J / 100), saturating at 65535 (R137). -/
def joulesToEu (j : Nat) : Nat := min 65535 (ceilDiv j 100)

/-- Brake energy in J (R137). -/
def brakeEnergy (e : CarEntry) (t : Nat) : Nat := ceilDiv (e.coilPower * t) 1000

/-- Drive energy in J (R137). -/
def driveEnergy (e : CarEntry) (t : Nat) : Nat := ceilDiv (e.drivePower * t) 1000

/-- Work energy in J of a powered plan that moves against the imbalance: UP with M > 0, DOWN with M < 0 (R137). -/
def workEnergy (e : CarEntry) (m : Int) (dir : Dir) (d : Nat) : Nat :=
  let against := match dir with
    | .up => decide (0 < m)
    | .down => decide (m < 0)
  if against then ceilDiv (ceilDiv (m.natAbs * 981 * d) 100000 * 100) e.efficiency else 0

/-- The method a car in a span is planned, with its direction (R136); `none` is no method. -/
def chooseMethod (s : CarSnapshot) (g : Globals) (mask : MethodSet) (natural : NaturalDir) (q : SpanPosition) :
    Option PlanMethod :=
  if natural = .down ∧ maskHas mask .gravityDown then some .gravityDown
  else if natural = .up ∧ maskHas mask .gravityUp then some .gravityUp
  else if natural = .unknown ∧ maskHas mask .probe then some .probe
  else if s.lineState = .alive ∧ s.driveAvailable = some true ∧ 1 ≤ g.driveSlots ∧ q.basis ≠ .noSpan then
    match maskHas mask .poweredUp, maskHas mask .poweredDown with
    | true, true => if q.upDistance < q.downDistance then some .poweredUp else some .poweredDown
    | true, false => some .poweredUp
    | false, true => some .poweredDown
    | false, false => none
  else none

/-- The plan record of a move in a direction: distance and target are those of the direction (R136), the figures those
of R137. -/
def movePlan (s : CarSnapshot) (natural : NaturalDir) (q : SpanPosition) (m : PlanMethod) (dir : Dir) (powered : Bool) :
    PlanRecord :=
  let d := match dir with
    | .up => q.upDistance
    | .down => q.downDistance
  let target := match dir with
    | .up => q.upTarget
    | .down => q.downTarget
  let t := travelTime s.entry d
  let joules :=
    if powered then driveEnergy s.entry t + brakeEnergy s.entry t + workEnergy s.entry (imbalance s.entry s.load) dir d
    else brakeEnergy s.entry t
  ⟨true, some m, some natural, some q.basis, some dir, target, some d, some t, some (joulesToEu joules),
    some q.upDistance, some q.downDistance⟩

/-- The plan record of a probe (R138). -/
def probePlan (s : CarSnapshot) (g : Globals) (natural : NaturalDir) (q : SpanPosition) : PlanRecord :=
  let t := g.probeFrames * g.frame
  ⟨true, some .probe, some natural, some q.basis, none, none, some 0, some t,
    some (joulesToEu (ceilDiv (s.entry.coilPower * g.probeFrames * g.frame) 1000)), some q.upDistance, some q.downDistance⟩

/-- The plan record of no method for a car in a span: the distances of R134 are recorded (R136, R138). -/
def noPlan (natural : NaturalDir) (q : SpanPosition) : PlanRecord :=
  ⟨true, none, some natural, some q.basis, none, none, some 0, some 0, some 0, some q.upDistance, some q.downDistance⟩

/-- The plan of a car at a landing (R133): NONE, or no method where the view is empty. -/
def landingPlan (s : CarSnapshot) (natural : NaturalDir) : PlanRecord :=
  match s.view.bestZone with
  | some z =>
      ⟨true, some .none, some natural, some .landing, none, some (landingOf z), some 0, some 0, some 0, none, none⟩
  | none => ⟨true, none, some natural, some .landing, none, none, some 0, some 0, some 0, none, none⟩

/-- The plan of a car in a span (R134, R136). -/
def spanPlan (s : CarSnapshot) (g : Globals) (mask : MethodSet) (natural : NaturalDir) : PlanRecord :=
  let q := spanPosition s
  match chooseMethod s g mask natural q with
  | some .gravityDown => movePlan s natural q .gravityDown .down false
  | some .gravityUp => movePlan s natural q .gravityUp .up false
  | some .poweredUp => movePlan s natural q .poweredUp .up true
  | some .poweredDown => movePlan s natural q .poweredDown .down true
  | some .probe => probePlan s g natural q
  | some .none => noPlan natural q
  | none => noPlan natural q

/-- The methods that a LOCKED channel removes: GRAVITY_DOWN, GRAVITY_UP and PROBE (R132). -/
def brakeMethods : MethodSet := 0b10011#5

/-- The mask after the locked-channel removal (R132). -/
def lockedMask (s : CarSnapshot) (mask : MethodSet) : MethodSet :=
  if s.locked then mask &&& ~~~brakeMethods else mask

/-- The result of a pass for one car: its plan record, evaluated weight, and mask (R132 to R138). -/
structure CarPlan where
  plan   : PlanRecord
  weight : Nat
  mask   : MethodSet
deriving DecidableEq, Repr

/-- Plans one car from the snapshot alone (section 7.4). -/
def planCar (rules : Vector Rule 16) (pass : Pass) (s : CarSnapshot) : CarPlan :=
  let evaluated := evaluateRules rules s pass.usable
  let mask := lockedMask s evaluated.2
  let natural := naturalDirection s
  let plan := if s.zoneLevel = some true then landingPlan s natural else spanPlan s pass.globals mask natural
  ⟨plan, evaluated.1, mask⟩

end Sys2Proof.Machine
end

