-- ==== Sys2Proof/Machine/Rescue.lean ====
section
/-!
DEFINITION. The Car Rescue Table (chapter 4): the entries to each state with their checks (R56, R65, R71, R72), the
ending of a move with its releases, selection and pass (R60, R154, R155), and the judging of the stall condition (R53,
R54). Every car event of the families is built from these.
-/

namespace Sys2Proof.Machine

/-! ## Entries to a state -/

/-- HELD with a cause, raising CAR_HELD. -/
def Part.toHeld (p : Part) (c : Car) (cause : HeldCause) : Part :=
  (p.setState c .held (some cause)).raiseCar .carHeld c

/-- The entry to ASSESSING, checked against lockout and chain (R56). The pass it asks for is asked by `Part.change`. -/
def Part.toAssessing (p : Part) (c : Car) : Part :=
  if p.lockoutOn c then p.toHeld c .lockout
  else if p.chainOpen c then p.toHeld c .safety
  else p.setState c .assessing none

/-- The entry to FAILED (R72). -/
def Part.toFailed (p : Part) (c : Car) (cause : AbortCause) : Part :=
  let p := p.setState c .failed none
  let p := p.modRecord c fun r =>
    let attempts := r.attempts + 1
    { r with lastAbort := some cause, attempts := attempts
             retryTimer := if attempts < 3 then some (seconds p.globals.retryDelay) else none }
  p.raiseCar .carFailed c

/-- The line of car c is offered a GATE_RELEASE for the landing being released (R29, R175). -/
def Part.sendGateRelease (p : Part) (c : Car) : Part :=
  let landing := (p.car c).record.summary.landing.getD 0
  p.modLine c (·.offerCommand (.gateRelease landing))

/-- The release method becomes FRAME, and a GATE_RELEASE is built and queued (R175, R177). -/
def Part.releaseByFrame (p : Part) (c : Car) : Part :=
  (p.modSignals c fun s => { s with releaseMethod := some .frame }).sendGateRelease c

/-- The release method becomes PULSE, and an unlock pulse begins (R175 to R177). -/
def Part.releaseByPulse (p : Part) (c : Car) : Part := p.modSignals c (·.startPulse p.globals)

/-- The entry to RELEASING with its check (R65), the choice of the release method (R175) and the RELEASE pattern
(R181). -/
def Part.toReleasing (p : Part) (c : Car) : Part :=
  if !p.zoneActive c then p.toFailed c .stopOutsideZone
  else if !p.lineAlive c && !p.resolvedOrConfirmed c then p.toHeld c .position
  else
    let p := p.setState c .releasing none
    let p := p.modRecord c fun r => { r with gateTimer := some (seconds p.globals.gateTimeout) }
    let p := if p.lineAlive c then p.releaseByFrame c else p.releaseByPulse c
    p.modSignals c (·.requestTone p.globals .release)

/-- The entry to RESCUED (R66): the trapped time at release is copied, CAR_RESCUED is raised. -/
def Part.toRescued (p : Part) (c : Car) : Part :=
  let p := p.setState c .rescued none
  let p := p.modRecord c fun r => { r with summary := { r.summary with releaseTime := some r.trappedTime } }
  p.raiseCar .carRescued c

/-- The entry to LEVELLING (R62): the landing reached is that of the best zone, the dwell and slip timers start,
CAR_LEVELLED is raised, and the LEVELLED pattern is requested (R181). A car that comes from PROBING has method used absent,
whatever an earlier grant left there (R62, R178, log 32). -/
def Part.toLevelling (p : Part) (c : Car) : Part :=
  let probed := p.stateOf c == .probing
  let p := p.setState c .levelling none
  let landing := landingOf (p.car c).tracker.bestZone
  let p := p.modRecord c fun r =>
    { r with summary := { r.summary with
               landing := some landing, methodUsed := if probed then none else r.summary.methodUsed }
             dwellTimer := some p.globals.stopDwell
             slipTimer := some (seconds p.globals.slipLimit)
             motionAge := none }
  let p := p.modSignals c (·.requestTone p.globals .levelled)
  p.raiseCar .carLevelled c

/-- What an entry to NORMAL does besides judging the stall condition (R71, R106, R114, R123, R182). -/
def Part.resetToNormal (p : Part) (c : Car) : Part :=
  let p := p.setState c .normal none
  p.modCar c fun b =>
    { b with
      record := { b.record with
        attempts := 0, trappedTime := 0, retryTimer := none, gateTimer := none, confirmTimer := none
        first := false, energyShort := false }
      planner := { b.planner with urgency := 0, alarmMark := none }
      policy := (b.policy.restartTally none).idleCounters
      signals := { b.signals with silenced := false } }

/-- The stall condition is judged for a car in NORMAL or CONFIRMING (R53, R54). -/
def Part.judgeStall (p : Part) (c : Car) : Part :=
  let b := p.car c
  if b.record.state = .normal ∧ b.stalled then
    (p.setState c .confirming none).modRecord c fun r => { r with confirmTimer := some (seconds p.globals.confirmTime) }
  else if b.record.state = .confirming ∧ !b.stalled then p.resetToNormal c
  else p

/-- The entry to NORMAL from a trapped state (R71): the stall condition is then judged. -/
def Part.toNormal (p : Part) (c : Car) : Part := (p.resetToNormal c).judgeStall c

/-- A car becomes trapped (R55): the record is prepared, the Planner's figures (R123) and the alarm tally (R106) start
afresh, and CAR_STALLED is raised. The current move id stands, as R55 does not name it and R69 keeps it until the next GRANT,
though R71 has it stay "until the next trapping": the model's choice (log 38). -/
def Part.trap (p : Part) (c : Car) : Part :=
  let baseWeight := (p.entry c).baseWeight
  let p := p.modCar c fun b =>
    let status := b.line.lastStatus
    let cause : StallCause :=
      match status with
      | some s => if s.mode = .stalled then s.cause else .unknown
      | none => .unknown
    let alarm := status.map (·.alarmCount)
    { b with
      record := { b.record with
        trappedTime := 0, attempts := 0, retryTimer := none, probeResult := none, lastAbort := none
        driveFailReason := none, lastEscalation := none, summary := .absent, stallCause := some cause }
      planner := { urgency := 0, weight := baseWeight, mask := allMethods, alarmMark := alarm, plan := .empty }
      policy := b.policy.restartTally alarm }
  p.raiseCar .carStalled c

/-! ## Leaving a move state -/

/-- What a car leaving a state gives back to the Arbiter (R60, R155). -/
def CarSlots.releaseFor (s : CarSlots) (old new : RescueState) : CarSlots :=
  match old with
  | .probing | .lowering =>
      { s with brake := false, reservation := if isMoveState new then s.reservation else none }
  | .levelling => { s with reservation := if new = .levelling then s.reservation else none }
  | .driving =>
      if new = .driving then s else { s with drive := false, reservation := none }
  | _ => s

/-- A close request for the channels of car c (R170). -/
def Part.closeBrake (p : Part) (c : Car) : Part := p.modBrake c (·.close)

/-- A change of car c's state by `go`, with what R60 hands to the neighbours: the close request on leaving PROBING or
LOWERING; then the change; then the releases, and the selection they cause (R154, R155); then the pass that an entry to
ASSESSING asks for (R56). The order is log 18. -/
def Part.change (p : Part) (c : Car) (go : Part → Part) : Part :=
  let old := p.stateOf c
  let p := if isBrakeState old then p.closeBrake c else p
  let p := go p
  let new := p.stateOf c
  let p :=
    if isMoveState old && new != old then (p.modSlots c (·.releaseFor old new)).select else p
  if p.stateOf c = .assessing then p.askPass .requested else p

/-- A CANCEL carrying the current move id is built and offered, if the car is DRIVING (R29). -/
def Part.cancelIfDriving (p : Part) (c : Car) : Part :=
  if p.stateOf c = .driving then
    match (p.car c).record.moveId with
    | some id => p.modLine c (·.offerCancel id)
    | none => p
  else p

/-- The last abort cause becomes a cause. -/
def Part.setAbort (p : Part) (c : Car) (cause : AbortCause) : Part :=
  p.modRecord c fun r => { r with lastAbort := some cause }

/-- A seed or forcing of the tracker, and D reset to 0 (R41, R94 to R96). -/
def Part.seedTracker (p : Part) (c : Car) (z : Nat) (a : Anchor) (confirmed : Bool) : Part :=
  let e := p.entry c
  p.modCar c fun b =>
    { b with tracker := trackerSeed e z a confirmed, inputs := { b.inputs with odometry := 0 } }

/-- SUPPLY_LOST reaches a car in PROBING, LOWERING or DRIVING (R77). -/
def Part.loseSupply (p : Part) (c : Car) : Part :=
  let p := p.cancelIfDriving c
  p.change c fun p => (p.setAbort c .supplyLost).toAssessing c

/-- The cars whose move draws on the supply: those in PROBING, LOWERING or DRIVING (R151). -/
def Part.inFlight (p : Part) : List Car := allCars.filter fun c => isBrakeState (p.stateOf c) || p.stateOf c == .driving

/-- The moves in flight lose their supply: SUPPLY_LOST reaches each of their cars, in car order (R151, log 19). -/
def Part.supplyLost (p : Part) (cars : List Car) : Part := cars.foldl (fun p c => p.loseSupply c) p

end Sys2Proof.Machine
end

