-- ==== Sys2Proof/Machine/Supply.lean ====
section
/-!
DEFINITION. The Supply Monitor (chapter 8): the mains belief (R142, R147), battery and energy (R143 to R145), the
converter (R146 to R150), and the judging of demand at the end of a command (R146, R147, R149, log 22).
-/

namespace Sys2Proof.Machine

/-! ## Energy -/

/-- The state of charge between two points (R144): EUi + floor((V − Vi) × (EU(i+1) − EUi) / (V(i+1) − Vi)). -/
def interpolate (a b : SocPoint) (v : Nat) : Nat :=
  a.energy + (v - a.voltage) * (b.energy - a.energy) / (b.voltage - a.voltage)

/-- The state of charge of a battery sample (R144), from the points at or above whose first voltage it lies. -/
def chargeFrom : List SocPoint → Nat → Nat
  | [], _ => 0
  | [a], _ => a.energy
  | a :: b :: rest, v => if v < b.voltage then interpolate a b v else chargeFrom (b :: rest) v

/-- The state of charge of a battery sample (R144): 0 below the first point. -/
def stateOfCharge (t : List SocPoint) (v : Nat) : Nat :=
  match t with
  | [] => 0
  | a :: _ => if v < a.voltage then 0 else chargeFrom t v

/-- State of charge and usable energy recomputed from the battery sample (R144, R145); absent while the sample is. -/
def Supply.recompute (s : Supply) (t : List SocPoint) (floor : Nat) : Supply :=
  let charge := s.sample.map (stateOfCharge t)
  { s with charge := charge, usable := charge.map (· - floor) }

/-- A recomputation, which is a selection event when it finds a battery sample (R145). -/
def Part.recompute (p : Part) : Part :=
  let q := p.modSupply (·.recompute p.config.soc p.globals.reserveFloor)
  if q.supply.sample.isSome then q.select else q

/-- A 12-bit reading in millivolts: floor(reading × 65535 / 4095) (R143). -/
def readingToMv (reading : BitVec 12) : Nat := reading.toNat * 65535 / 4095

/-! ## The converter -/

/-- Entry to ON (R148): the standby dwell is judged from here, and a selection is made. -/
def Part.converterOn (p : Part) : Part :=
  (p.modSupply fun s =>
    { s with converter := .on, wakeTimer := none, wakeFailures := 0
             standbyTimer := if p.demand then none else some (seconds p.globals.standbyDwell) }).select

/-- Entry to WAKING (R148): converter-enable becomes active; ON at once when the ready level already reads ready. -/
def Part.converterWake (p : Part) : Part :=
  let p := p.modSupply fun s =>
    { s with converter := .waking, enable := true, wakeTimer := some p.globals.wakeLimit, standbyTimer := none }
  if p.converterInput.isOn then p.converterOn else p

/-- Entry to STANDBY, and WAKING again at once if there is demand (R147). -/
def Part.converterStandby (p : Part) : Part :=
  let p := p.modSupply fun s =>
    { s with converter := .standby, enable := false, wakeTimer := none, standbyTimer := none }
  if p.demand then p.converterWake else p

/-- Entry to FAULT, raising SUPPLY_FAULT (R148, R149). -/
def Part.converterFault (p : Part) : Part :=
  (p.modSupply fun s =>
    { s with converter := .fault, enable := false, wakeTimer := none, standbyTimer := none }).raise ⟨.supplyFault, none⟩

/-- The converter-ready level becomes ready (R148): a wake in flight ends in ON. In another state it does nothing. -/
def Part.converterBecomesReady (p : Part) : Part :=
  if p.supply.converter = .waking then p.converterOn else p

/-- The converter-ready level becomes not ready (R149): a converter in ON goes to FAULT, and moves in flight lose their
supply. In another state it does nothing. -/
def Part.converterBecomesNotReady (p : Part) : Part :=
  if p.supply.converter = .on then p.converterFault.supplyLost p.inFlight else p

/-- The wake timer expires (R148). -/
def Part.wakeExpires (p : Part) : Part :=
  if p.supply.converter = .waking ∧ p.supply.wakeTimer.isSome then
    let p := p.modSupply fun s =>
      { s with wakeErrors := bump 255 s.wakeErrors, wakeFailures := bump 3 s.wakeFailures, wakeTimer := none }
    if p.supply.wakeFailures = 3 then p.converterFault else p.converterStandby
  else p

/-- The standby dwell timer expires (R149). -/
def Part.standbyExpires (p : Part) : Part :=
  if p.supply.converter = .on ∧ p.supply.standbyTimer.isSome then p.converterStandby else p

/-- Demand is judged as cars enter and leave the demand states in the course of a command (R146): demand that has arisen
wakes a converter in STANDBY and stops the standby dwell of one in ON; demand that has ended starts the dwell (R147,
R149, log 22). -/
def settleDemand (before p : Part) : Part :=
  if !before.demand && p.demand then
    match p.supply.converter with
    | .standby => p.converterWake
    | .on => p.modSupply fun s => { s with standbyTimer := none }
    | _ => p
  else if before.demand && !p.demand then
    match p.supply.converter with
    | .on => p.modSupply fun s => { s with standbyTimer := some (seconds p.globals.standbyDwell) }
    | _ => p
  else p

/-! ## The mains belief -/

/-- The belief becomes PRESENT (R147): the converter enters OFF and forgets its wake and its failures; a believed mains
change takes the supply from the moves in flight (R151); a selection is made (R142). -/
def Part.believePresent (p : Part) : Part :=
  let old := p.supply.belief
  if old = .present then p
  else
    let p := p.modSupply fun s =>
      { s with belief := .present, converter := .off, enable := false, wakeTimer := none, standbyTimer := none
               wakeFailures := 0 }
    let p := if old = .absent then p.supplyLost p.inFlight else p
    p.select

/-- The belief becomes ABSENT (R147): a converter in OFF enters WAKING with demand, STANDBY without; a believed mains
change takes the supply from the moves that were in flight at the change (R151, log 19). -/
def Part.believeAbsent (p : Part) : Part :=
  let old := p.supply.belief
  let moving := p.inFlight
  if old = .absent then p
  else
    let p := p.modSupply fun s => { s with belief := .absent }
    let p := if p.supply.converter = .off then p.converterStandby else p
    if old = .present then p.supplyLost moving else p

/-- The mains level is accepted (R142): absent is believed at once and stops the stable timer, present starts it. -/
def Part.mainsAccepted (p : Part) (present : Bool) : Part :=
  if present then p.modSupply fun s => { s with stableTimer := some (seconds p.globals.mainsStable) }
  else (p.modSupply fun s => { s with stableTimer := none }).believeAbsent

/-- The mains stable timer expires, and the belief becomes PRESENT (R142). -/
def Part.mainsStableExpires (p : Part) : Part :=
  if p.supply.stableTimer.isSome then (p.modSupply fun s => { s with stableTimer := none }).believePresent else p

end Sys2Proof.Machine
end

