-- ==== Sys2Proof/Machine/Run.lean ====
section
/-!
DEFINITION. The running of one command on the part, and the judging of demand at its end.
-/

namespace Sys2Proof.Machine

/-- Everything the part holds after a command whose effect is `f`. A part without power takes no command (log 10). At the
end of the command demand is judged (R146, log 22). -/
def Part.after (p : Part) (f : Part → Part) : Part := if p.powered then settleDemand p (f p) else p

/-- Runs a command on the part; the queue of the waiting commands is not touched. -/
def runPart (s : State) (f : Part → Part) : Host.Outcome State Fault Refusal :=
  .next { s with toPart := s.toPart.after f }

end Sys2Proof.Machine
end

