-- ==== Sys2Proof/Machine/Store.lean ====
section
/-!
DEFINITION. The Settings Store (section 1.6): the load (R16, R17), the phases of a SAVE (R13, R14), and with them
power-on, soft reset (R190) and power failure (R16).
-/

namespace Sys2Proof.Machine

/-! ## The load -/

/-- What a load makes of the stored image (R16): the working configuration, the settings source, the unsaved flag, and the
notices it raises (R17). -/
structure Loaded where
  config  : Settings
  source  : SettingsSource
  unsaved : Bool
  notices : List Notice

/-- The load of the working configuration (R16): the image contents if the image is valid, the defaults otherwise. -/
def loadImage (i : StoredImage) : Loaded :=
  if validImage i then ⟨i.contents, .stored, false, []⟩
  else ⟨defaultSettings, .defaults, true, [⟨.settingsInvalid, none⟩]⟩

/-- The Supply Monitor after a soft reset: power-on values, with the battery sample and the first-sample flag kept
(R141). -/
def Supply.kept (s : Supply) : Supply := { Supply.fresh with sample := s.sample, sampled := s.sampled }

/-- Every block of car c after a reset that has loaded a configuration (Tables 8, 9, 12, 17, 21, 22, 23; R18, R106,
R110), over the raw levels the inputs stand at. -/
def Part.freshCar (p : Part) (config : Settings) (c : Car) : CarBlock :=
  let x := (p.car c).inputs
  .fresh config.cars[c] config.globals x.zone.candidate x.chain.candidate x.lockout.candidate

/-- The part after a load (R16), with a Supply Monitor and the address-select inputs as sampled (R183). No car meets the
stall condition, as every line is SILENT (R53). -/
def Part.loaded (p : Part) (supply : Supply) (address : Fin 4) : Part :=
  let l := loadImage p.store.image
  { powered        := true
    config         := l.config
    store          := ⟨p.store.image, .idle, none, l.source, l.unsaved⟩
    cars           := Vector.ofFn (p.freshCar l.config)
    mainsInput     := .fresh p.mainsInput.candidate l.config.globals.filterTime
    converterInput := .fresh p.converterInput.candidate l.config.globals.filterTime
    pass           := none
    timedPending   := false
    requestPending := false
    commits        := []
    supply         := supply
    time           := .fresh
    station        := .fresh l.notices
    panel          := .fresh l.notices
    panelAddress   := panelAddressOf address
    resetArmed     := false
    samples        := p.samples }

/-! ## Reset commands -/

/-- POWER_ON (R16, R190): the load, and every block at its power-on values. On a part that has power already, of which the
manual does not speak, it does the same: a SAVE in flight is dropped and the image stands as it is, the model's choice
(log 34). -/
def execPowerOn (address : Fin 4) (s : State) : Host.Outcome State Fault Refusal :=
  .next { s with toPart := s.toPart.loaded .fresh address }

/-- A soft reset (R190): what power-on does, the battery sample and first-sample flag kept, with the state of charge and
usable energy recomputed from them (R141). -/
def Part.softReset (p : Part) (address : Fin 4) : Part := (p.loaded p.supply.kept address).recompute

/-- The soft reset that begins at the end of a station-port transaction (R190): the address-select inputs are sampled at its
start, and what they read is a free value (R183, log 29). -/
def Part.resetByTransaction (p : Part) : Part :=
  { p with samples := p.samples + 1 }.softReset (Config.addressInputs p.samples)

/-- SOFT_RESET (R190): the soft reset at the end of a station-port transaction with no byte in it, which the table has no
row for. It has a meaning only once a RESET is accepted (log 11). -/
def execSoftReset (address : Fin 4) (s : State) : Host.Outcome State Fault Refusal :=
  runPart s fun p => if p.resetArmed then p.softReset address else p

/-- POWER_FAIL (R16): the part stops. What a SAVE in flight leaves in the image is the command's operand: in WRITING as far
as it was written, and in VERIFYING too, where the write may not have taken (R14, log 10). -/
def execPowerFail (left : StoredImage) (s : State) : Host.Outcome State Fault Refusal :=
  runPart s fun p =>
    let image := if p.store.save = .idle then p.store.image else left
    { p with powered := false, store := { p.store with image := image } }

/-! ## A SAVE -/

/-- SAVE_SETTINGS is accepted (R13): the snapshot with its checksum, the unsaved flag clear, WRITING. -/
def Part.startSave (p : Part) : Part :=
  { p with store :=
    { p.store with snapshot := some ⟨p.config, imageChecksum p.config⟩, unsaved := false, save := .writing } }

/-- SAVE_WRITE_COMPLETE (R14): the image holds the snapshot, and the save state becomes VERIFYING. -/
def execSaveWriteComplete (s : State) : Host.Outcome State Fault Refusal :=
  runPart s fun p =>
    if p.store.save = .writing then
      { p with store := { p.store with image := p.store.snapshot.getD p.store.image, save := .verifying } }
    else p

/-- The end of a SAVE whose read-back found `found` (R14). -/
def Part.endSave (p : Part) (found : StoredImage) : Part :=
  if p.store.snapshot = some found then
    { p with store := { p.store with save := .idle, snapshot := none, source := .stored } }.raiseTo .station
      ⟨.saveDone, none⟩
  else
    { p with store := { p.store with image := found, save := .idle, snapshot := none, unsaved := true } }.raiseTo .station
      ⟨.saveFailed, none⟩

/-- SAVE_VERIFY_COMPLETE (R14). -/
def execSaveVerifyComplete (found : StoredImage) (s : State) : Host.Outcome State Fault Refusal :=
  runPart s fun p => if p.store.save = .verifying then p.endSave found else p

end Sys2Proof.Machine
end

