-- ==== Sys2Proof/Machine/Operands.lean ====
section
/-!
DEFINITION. The operands of a port request: the frame and its judging (R185, R192, Table 26), and the fields that
payloads carry (R186). What R186 leaves open is said in logs 12, 14 and 15.
-/

namespace Sys2Proof.Machine

/-! ## Judging a request (R185) -/

/-- The payload of a request frame whose bytes after the command code are `body` (R192): test 1 of R185. -/
def requestPayload (code : Byte) (body : List Byte) : Option (List Byte) :=
  match body with
  | [] => none
  | len :: rest =>
      if rest.length = len.toNat + 1 ∧ len.toNat ≤ 64 ∧ (code :: body).foldl (· + ·) 0 = 0 then
        some (rest.take len.toNat)
      else none

/-- The bytes after the command code of a well-formed request frame (R192). -/
def frameBody (code : Byte) (payload : List Byte) : List Byte :=
  let len : Byte := BitVec.ofNat 8 payload.length
  len :: payload ++ [checksumOf (code :: len :: payload)]

/-- The command codes of Table 26. -/
def isCommand (code : Byte) : Bool :=
  inRange code.toNat 1 14 || inRange code.toNat 20 28 || inRange code.toNat 40 47

/-- The bytes of WRITE_GLOBAL's payload: every parameter of Table 5. -/
def globalsLength : Nat := 49

/-- The payload lengths a command allows (test 2 of R185, log 15). -/
def lengthAllowed (code : Byte) (n : Nat) : Bool :=
  match code.toNat with
  | 1 | 4 | 6 | 12 | 13 | 20 | 21 => n == 1
  | 2 => n == 3
  | 3 | 5 | 7 | 11 | 14 | 27 | 28 => n == 0
  | 8 => n % 2 == 0 && decide (n ≤ 64)
  | 9 => n == 3
  | 10 => n % 3 == 0 && decide (n ≤ 63)
  | 22 => n == 23
  | 23 => n % 3 == 0 && inRange n 9 27
  | 24 => n == 3
  | 25 => n == globalsLength
  | 26 => n % 4 == 1 && inRange n 9 33
  | 40 | 41 | 43 | 44 | 45 | 46 | 47 => n == 1
  | 42 => n == 6
  | _ => false

/-- The port may give the command: the Station and Panel columns of Table 26. -/
def mayGive (q : Port) (code : Byte) : Bool :=
  match q with
  | .station => decide (code.toNat < 40)
  | .panel => !inRange code.toNat 20 28

/-- The commands that accept an UNCONFIGURED car at test 4 (R185). -/
def takesUnconfigured (code : Byte) : Bool := inRange code.toNat 20 24

/-- Tests 1 to 3 of R185: the payload, or the result code of the first test that fails. -/
def judgeFrame (q : Port) (code : Byte) (body : List Byte) : Except ResultCode (List Byte) :=
  match requestPayload code body with
  | none => .error .badChecksum
  | some payload =>
      if !(isCommand code && lengthAllowed code payload.length) then .error .badCommand
      else if !mayGive q code then .error .notAllowed
      else .ok payload

/-- A car number 0 to 7. -/
def carOf (n : Nat) : Option Car := if h : n < 8 then some ⟨n, h⟩ else none

/-- Test 4 of R185: the car a payload names in its first byte. -/
def Part.judgeCar (p : Part) (code : Byte) (payload : List Byte) : Option Car :=
  (carOf (payload.getD 0 0).toNat).bind fun c =>
    if p.stateOf c = .unconfigured ∧ !takesUnconfigured code then none else some c

/-! ## Handling a request (R184) -/

/-- What the handling of a request leaves: the part, the result code, and the response payload. -/
structure Answer where
  part    : Part
  result  : ResultCode
  payload : List Byte

/-- A refusal changes nothing and has no payload (R185, R192). -/
def Part.refuse (p : Part) (r : ResultCode) : Answer := ⟨p, r, []⟩

/-- An acceptance, answered OK without a payload. -/
def Part.accept (p : Part) : Answer := ⟨p, .ok, []⟩

/-- An accepted read, answered OK with its payload. -/
def Part.answer (p : Part) (payload : List Byte) : Answer := ⟨p, .ok, payload⟩

/-- The response buffer is HANDLING. -/
def ResponseBuffer.isHandling : ResponseBuffer → Bool
  | .handling .. => true
  | _ => false

/-- The handling ends: the buffer becomes READY with the result (R184). -/
def Answer.respond (a : Answer) (q : Port) : Part :=
  a.part.modPort q fun x => { x with buffer := .ready a.result a.payload }

/-- While a request is clocked in, the port clocks out filler alone (R184, log 25). -/
def Part.clockFiller (p : Part) (q : Port) : Part := p.modPort q fun x => { x with clocked := [] }

/-- A request is taken: its bytes, which clocked out filler alone, leave the reception, and the response buffer is emptied
and becomes HANDLING (R184). -/
def Part.beginHandling (p : Part) (q : Port) (code : Byte) (body : List Byte) : Part :=
  p.modPort q fun x => { x with reception := [], buffer := .handling code body, clocked := [] }

/-- A request is taken at the end of its transaction (R184). The transaction that follows an accepted RESET starts the soft
reset at its end, and its request is discarded unjudged (R190, log 11); one that meets HANDLING is discarded; any other is
handled by `h`. -/
def Part.takeRequest (p : Part) (q : Port) (code : Byte) (body : List Byte) (h : Part → Answer) : Part :=
  if q = .station ∧ p.resetArmed then p.resetByTransaction
  else if (p.port q).buffer.isHandling then p.clockFiller q
  else (h (p.beginHandling q code body)).respond q

/-- Runs a request that names no car: tests 1 to 3 of R185, then the command's own handling of the payload. -/
def runRequest (s : State) (q : Port) (code : Byte) (body : List Byte) (h : List Byte → Part → Answer) :
    Host.Outcome State Fault Refusal :=
  runPart s fun p => p.takeRequest q code body fun p =>
    match judgeFrame q code body with
    | .error r => p.refuse r
    | .ok payload => h payload p

/-- Runs a request that names a car in its first payload byte: tests 1 to 4 of R185, then the command's own handling of
the rest of the payload. -/
def runCarRequest (s : State) (q : Port) (code : Byte) (body : List Byte) (h : Car → List Byte → Part → Answer) :
    Host.Outcome State Fault Refusal :=
  runRequest s q code body fun payload p =>
    match p.judgeCar code payload with
    | none => p.refuse .badCar
    | some c => h c (payload.drop 1) p

/-! ## Fields of payloads (R186) -/

/-- `width` bytes of a payload from a place on, as a number, most significant byte first. -/
def fieldAt (payload : List Byte) (place width : Nat) : Nat := getNat ((payload.drop place).take width)

/-- The group of WRITE_CAR_PARAMS merged into a car entry (R3, R5); `none` where a code names no value. -/
def readParams (e : CarEntry) (b : List Byte) : Option CarEntry :=
  match boolOf (fieldAt b 0 1), bModeOf (fieldAt b 18 1), polarityOf (fieldAt b 20 1), polarityOf (fieldAt b 21 1) with
  | some present, some bMode, some polarityA, some polarityB =>
      some { e with
        present    := present
        ratedLoad  := fieldAt b 1 2
        balance    := fieldAt b 3 1
        margin     := fieldAt b 4 1
        coilPower  := fieldAt b 5 2
        drivePower := fieldAt b 7 2
        efficiency := fieldAt b 9 1
        speed      := fieldAt b 10 2
        overspeed  := fieldAt b 12 2
        ppm        := fieldAt b 14 2
        baseWeight := fieldAt b 16 2
        bMode      := bMode
        bShare     := fieldAt b 19 1
        polarityA  := polarityA
        polarityB  := polarityB }
  | _, _, _, _ => none

/-- The group of WRITE_CAR_PARAMS as a payload carries it, in the order of R3. -/
def putParams (e : CarEntry) : List Byte :=
  putBool e.present ++ put 5000 e.ratedLoad ++ put 55 e.balance ++ put 15 e.margin ++ put 600 e.coilPower
  ++ put 8000 e.drivePower ++ put 95 e.efficiency ++ put 300 e.speed ++ put 630 e.overspeed ++ put 4000 e.ppm
  ++ put 4095 e.baseWeight ++ put 2 (bModeCode e.bMode) ++ put 100 e.bShare ++ put 1 (polarityCode e.polarityA)
  ++ put 1 (polarityCode e.polarityB)

/-- The heights a WRITE_MAP carries, three bytes each. -/
def readHeights (b : List Byte) (n : Nat) : List Nat := (List.range n).map fun i => fieldAt b (1 + 3 * i) 3

/-- The group of WRITE_MAP merged into a car entry (R3, R5). -/
def readMap (e : CarEntry) (b : List Byte) : CarEntry :=
  let heights := readHeights b ((b.length - 2) / 3)
  { e with landings := fieldAt b 0 1, heights := heights, halfWidth := fieldAt b (b.length - 1) 1 }

/-- The group of WRITE_MAP as a payload carries it (Table 26). -/
def putMap (e : CarEntry) : List Byte := put 8 e.landings ++ e.heights.flatMap (put 120000) ++ put 150 e.halfWidth

/-- Consecutive numbers of the given widths. -/
def readNumbers : List Nat → List Byte → List Nat
  | [], _ => []
  | w :: ws, b => getNat (b.take w) :: readNumbers ws (b.drop w)

/-- The widths of the numeric parameters of Table 5. -/
def globalWidths : List Nat := (globalRanges defaultGlobals).map fun r => bytesFor r.2.2

/-- The numeric parameters of Table 5 from their list. -/
def globalsFrom (rate : LineRate) (n : List Nat) : Globals where
  lineRate       := rate
  lostTimeout    := n.getD 0 0
  filterTime     := n.getD 1 0
  confirmTime    := n.getD 2 0
  frame          := n.getD 3 0
  window         := n.getD 4 0
  band           := n.getD 5 0
  stepUp         := n.getD 6 0
  stepDown       := n.getD 7 0
  startShare     := n.getD 8 0
  maxShare       := n.getD 9 0
  probeShare     := n.getD 10 0
  probeFrames    := n.getD 11 0
  probeThreshold := n.getD 12 0
  reversal       := n.getD 13 0
  runMargin      := n.getD 14 0
  stopDwell      := n.getD 15 0
  slipLimit      := n.getD 16 0
  tolerance      := n.getD 17 0
  missPenalty    := n.getD 18 0
  threshold      := n.getD 19 0
  kOcc           := n.getD 20 0
  defaultOcc     := n.getD 21 0
  kAlarm         := n.getD 22 0
  brakeSlots     := n.getD 23 0
  driveSlots     := n.getD 24 0
  ackTimeout     := n.getD 25 0
  gateTimeout    := n.getD 26 0
  unlockPulse    := n.getD 27 0
  retryDelay     := n.getD 28 0
  reserveFloor   := n.getD 29 0
  wakeLimit      := n.getD 30 0
  standbyDwell   := n.getD 31 0
  mainsStable    := n.getD 32 0
  toneHigh       := n.getD 33 0
  toneLow        := n.getD 34 0
  reassurance    := n.getD 35 0

/-- The parameters of a WRITE_GLOBAL, in the order of Table 5; `none` where the line rate's code names none (R185). -/
def readGlobals (b : List Byte) : Option Globals :=
  (lineRateOf (fieldAt b 0 1)).map fun rate => globalsFrom rate (readNumbers globalWidths (b.drop 1))

/-- The points of a WRITE_SOC_TABLE, each its voltage and then its energy. -/
def readPoints : List Byte → List SocPoint
  | v1 :: v0 :: e1 :: e0 :: rest => ⟨getNat [v1, v0], getNat [e1, e0]⟩ :: readPoints rest
  | _ => []

/-- The table of a WRITE_SOC_TABLE; `none` where the point count is not that of the points carried (log 15). -/
def readSoc (b : List Byte) : Option (List SocPoint) :=
  let points := readPoints (b.drop 1)
  if fieldAt b 0 1 = points.length then some points else none

/-- A set of fewer members than its bytes have bits; `none` where a bit beyond the last member is set (log 15). -/
def readSet (n : Nat) (b : List Byte) : Option (BitVec n) :=
  let v := getNat b
  if v < 2 ^ n then some (BitVec.ofNat n v) else none

/-- The field numbers and values of a STAGE_RULE, three bytes a pair (R186). -/
def readFields : List Byte → List (Nat × Nat)
  | f :: v1 :: v0 :: rest => (f.toNat, getNat [v1, v0]) :: readFields rest
  | _ => []

/-- A notice pair: a kind of Table 27, and a car 0 to 7 for a kind that carries one, 255 for one that does not (R189,
R192). -/
def readNotice (kind car : Byte) : Option Notice :=
  (noticeKindOf kind.toNat).bind fun k =>
    if carriesCar k then (carOf car.toNat).map fun c => ⟨k, some c⟩
    else if car = 255 then some ⟨k, none⟩ else none

/-- The pairs of an ACK_NOTICES; `none` where one names no notice (R189). -/
def readNotices : List Byte → Option (List Notice)
  | k :: c :: rest => (readNotice k c).bind fun n => (readNotices rest).map (n :: ·)
  | _ => some []

/-- The position offset of a CONFIRM_POSITION: a byte 1 and three bytes of offset when present, a byte 0 and three bytes
of 0 when absent (R186); `none` where neither is carried (log 14). -/
def readOffset (b : List Byte) : Option (Option Nat) :=
  if fieldAt b 0 1 = 1 then some (some (fieldAt b 1 3))
  else if fieldAt b 0 1 = 0 ∧ fieldAt b 1 3 = 0 then some none
  else none

end Sys2Proof.Machine
end

