-- ==== Sys2Proof/Machine/Reads.lean ====
section
/-!
DEFINITION. The payloads of the read commands (Table 26): each carries the items of its rules in their order, coded by
R186. What R186 leaves open of an item's width or place is said in logs 12, 13 and 30.
-/

namespace Sys2Proof.Machine

/-! ## READ_CAR -/

/-- A move direction: UP, DOWN, none (Table 8). -/
def putDir (d : Option Dir) : List Byte := [match d with | some .up => 0 | some .down => 1 | none => 2]

/-- A tone pattern, or none (Table 23). -/
def putPattern (t : Option TonePattern) : List Byte := put 4 ((t.map patternCode).getD 4)

/-- The Conditioner's figures of a car (R50). D, the peak progress and the travel have no stated range: each is sent, in mm, in
4 bytes of two's complement, and the window's sum in 3 bytes (log 30). A move record kept through a WRITE_CAR_PARAMS that
changes the pulses per metre is converted by the new figure (R35, R49, log 31). -/
def putInputs (ppm : Nat) (x : CarInputs) : List Byte :=
  put 2 (levelCode x.zone.accepted) ++ put 2 (levelCode x.chain.accepted) ++ put 2 (levelCode x.lockout.accepted)
  ++ put 255 x.encoderErrors ++ putInt 4 (countToMm ppm x.odometry)
  ++ putDir x.move.dir ++ putInt 4 (countToMm ppm x.move.peak) ++ putInt 4 (countToMm ppm x.move.travel)
  ++ put 8 x.window.length ++ putNat 3 x.window.sum

/-- A plan record (Table 18). -/
def putPlan (r : PlanRecord) : List Byte :=
  putBool r.planned ++ putOption 5 (r.method.map planMethodCode) ++ putOption 3 (r.natural.map naturalCode)
  ++ putOption 3 (r.basis.map basisCode) ++ putOption 1 (r.dir.map dirCode) ++ putOption 7 r.target
  ++ putOption 120000 r.distance ++ putOption 2400000 r.travelTime ++ putOption 65535 r.estimate
  ++ putOption 120000 r.upDistance ++ putOption 120000 r.downDistance

/-- The Planner's figures of a car, with the pass state and the two pending flags (R122). -/
def Part.putPlanner (p : Part) (c : Car) : List Byte :=
  let x := (p.car c).planner
  putPlan x.plan ++ put 61439 x.urgency ++ put 4095 x.weight ++ put 31 x.mask.toNat ++ putOption 255 x.alarmMark
  ++ putBool p.pass.isSome ++ putOption 1 (p.pass.map fun a => passKindCode a.kind)
  ++ putBool p.timedPending ++ putBool p.requestPending

/-- The run limit, while the car is in LOWERING (R173). -/
def Part.runLimitOf (p : Part) (c : Car) : Option Nat :=
  if p.stateOf c = .lowering then some (runLimit p.globals (p.car c).planner.plan) else none

/-- The Brake Drive's figures of a car (R173). -/
def Part.putBrake (p : Part) (c : Car) : List Byte :=
  let x := (p.car c).brake
  put 2 (channelCode x.channelA) ++ put 2 (channelCode x.channelB) ++ putOption 1 (x.opening.map openingCode)
  ++ putBool x.started ++ put 100 x.shadowA ++ put 100 x.activeA ++ put 100 x.shadowB ++ put 100 x.activeB
  ++ put 65535 x.framesOpen ++ putOption 65535 x.lastSpeed ++ putOption 123000 (p.runLimitOf c)

/-- The Car Signals' state of a car (R182). That the playing pattern is its name alone, without the position and the tone's
high and low times that Table 23 holds with it, is the model's choice (log 30). -/
def putSignals (x : CarSignals) (gateTimer : Option Nat) : List Byte :=
  putOption 1 (x.releaseMethod.map releaseCode) ++ putActive x.unlockOutput ++ putOption 5000 x.unlockTimer
  ++ putOption 60000 gateTimer ++ put 2 (lampCode x.lamp) ++ putPattern (x.playing.map (·.pattern))
  ++ putPattern x.waiting ++ putOption 120000 x.reassurance ++ putBool x.silenced

/-- A car record, field by field in the order of Table 9 (R51); a timer is its remaining time. -/
def putRecord (c : Car) (r : CarRecord) : List Byte :=
  put 7 c.val ++ put 13 (stateCode r.state) ++ put 4 (heldCode r.heldCause)
  ++ putOption 3 (r.stallCause.map stallCauseCode) ++ putOption 12 (r.lastAbort.map abortCode)
  ++ putOption 255 r.driveFailReason ++ put 65535 r.trappedTime ++ put 3 r.attempts
  ++ putOption 2 (r.probeResult.map probeCode) ++ putOption 60000 r.confirmTimer ++ putOption 600000 r.retryTimer
  ++ putOption 5000 r.ackTimer ++ putOption 4810000 r.moveTimer ++ putOption 3000 r.dwellTimer
  ++ putOption 10000 r.slipTimer ++ putOption 60000 r.gateTimer ++ putBool r.first ++ putBool r.energyShort
  ++ putOption 255 r.moveId ++ putOption 15 r.lastEscalation
  ++ putOption 4 (r.summary.methodUsed.map methodUsedCode) ++ putOption 7 r.summary.landing
  ++ putOption 65535 r.summary.releaseTime

/-- The payload of READ_CAR (Table 26), with the resolved judgement of R93 and the alarm tally of R106 at its
end (log 30). -/
def Part.readCar (p : Part) (c : Car) : List Byte :=
  let b := p.car c
  putInputs (p.entry c).ppm b.inputs ++ p.putPlanner c ++ p.putBrake c ++ putSignals b.signals b.record.gateTimer
  ++ putRecord c b.record ++ putBool (b.tracker.resolved p.globals) ++ put 65535 b.policy.alarmTally

/-! ## READ_TRACKER (R101) -/

/-- An anchor with its detail (Table 12, R101). That the detail is three fields that may each be absent, the EDGE detail, the seed
zone and the seed offset, all absent under NONE, where Table 12 lists "none", is the model's choice (log 30). -/
def putAnchor (a : Anchor) : List Byte :=
  put 2 (anchorCode a)
  ++ putOption 4 (match a with | .edge d => some (detailCode d) | _ => none)
  ++ putOption 14 (match a with | .seed z _ => some z | _ => none)
  ++ putOption 120000 (match a with | .seed _ o => some o | _ => none)

/-- A planning view (R98, R99). -/
def putView (v : View) : List Byte :=
  put 4095 v.least ++ putOption 14 v.bestZone ++ put 255 v.confidence ++ putBool v.resolved ++ putOption 120000 v.offset

/-- The costs of `count` entries from `start` on; an index beyond the array is *no zone* (R101). -/
def putCosts (costs : List Nat) (start count : Nat) : List Byte :=
  (List.range count).flatMap fun i => putOption 4095 costs[start + i]?

/-- The payload of READ_TRACKER (R101). -/
def Part.readTracker (p : Part) (c : Car) (start count : Nat) : List Byte :=
  let t := (p.car c).tracker
  putAnchor t.anchor ++ putInt 4 (p.distanceMm c) ++ put 255 t.confidence ++ put 14 t.bestZone
  ++ putBool (t.resolved p.globals) ++ putBool t.confirmed ++ putView (p.viewOf c) ++ putCosts t.costs start count

/-- Where a port's tracker cursor lets a CONTINUE start (R187). -/
def continueFrom (cursor : Option (Car × Nat)) (c : Car) : Nat :=
  match cursor with
  | some (d, next) => if d = c then next else 0
  | none => 0

/-- The start of a READ_TRACKER: 255 is CONTINUE; `none` above 14 otherwise (R187). -/
def trackerStart (cursor : Option (Car × Nat)) (c : Car) (code : Nat) : Option Nat :=
  if code = 255 then some (continueFrom cursor c) else if code ≤ 14 then some code else none

/-- The next index of the cursor: the start used plus the count, 0 when that passes 2L − 2 (R187). -/
def nextIndex (e : CarEntry) (start count : Nat) : Nat :=
  if zoneCount e ≤ start + count then 0 else start + count

/-! ## The other reads -/

/-- A set of cars, car c at bit c. -/
def carSet (f : Car → Bool) : Nat := (allCars.map fun c => if f c then 2 ^ c.val else 0).sum

/-- The payload of READ_SUPPLY (R158). -/
def Part.readSupply (p : Part) : List Byte :=
  let s := p.supply
  put 2 (levelCode p.mainsInput.accepted) ++ put 2 (beliefCode s.belief) ++ putOption 60000 s.stableTimer
  ++ put 2 (levelCode p.converterInput.accepted)
  ++ putOption 65535 s.sample ++ putBool s.sampled ++ putOption 65535 s.charge ++ putOption 65535 s.usable
  ++ put 4 (converterCode s.converter) ++ putActive s.enable ++ putOption 5000 s.wakeTimer
  ++ putOption 600000 s.standbyTimer ++ put 255 s.wakeErrors ++ put 3 s.wakeFailures
  ++ put 524280 p.reserved ++ putNat 1 (carSet fun c => (p.car c).slots.brake)
  ++ putNat 1 (carSet fun c => (p.car c).slots.drive) ++ put 4 p.globals.brakeSlots ++ put 2 p.globals.driveSlots
  ++ putBool p.supplyReady

/-- The selected fields of an image: the set, one bit per field of Table 15, then each selected value in the order of the
table, in the fewest whole bytes that hold its range (R121, R186). That the set tells which values follow is the model's
choice (log 30). -/
def putSelected (sel : FieldSet) (image : Rule) : List Byte :=
  putNat 2 sel.toNat ++ (fieldNumbers.filter (fieldIn sel)).flatMap (putField image)

/-- A rule counter (R110). -/
def putCounter (q : RuleCounter) : List Byte :=
  put 2 (counterStateCode q.state) ++ put 4095 q.value ++ put 59 q.minutes

/-- The payload of READ_RULE (R121). -/
def Part.readRule (p : Part) (k : Fin 16) : List Byte :=
  let entries := p.commits.filter fun e => e.rule == k
  putRule p.config.rules[k] ++ allCars.flatMap (fun c => putCounter (p.car c).policy.counters[k])
  ++ putBool (!entries.isEmpty)
  ++ entries.flatMap (fun e => put 1 (portCode e.port) ++ putSelected e.selected e.image)

/-- The payload of READ_STAGE (R116): the rule image, and the selected set with one bit per field of Table 15 (log 30). -/
def putStage (s : Staging) : List Byte := putRule s.image ++ putNat 2 s.selected.toNat

/-- The payload of READ_CONFIG (R17, R186): the section, save state, settings source, unsaved flag; `none` for a section
that is neither a car, GLOBAL nor SOC. -/
def Part.readConfig (p : Part) (section_ : Nat) : Option (List Byte) :=
  let state := put 2 (saveCode p.store.save) ++ put 1 (sourceCode p.store.source) ++ putBool p.store.unsaved
  match carOf section_ with
  | some c => some (putCarEntry (p.entry c) ++ state)
  | none =>
      if section_ = 8 then some (putGlobals p.globals ++ state)
      else if section_ = 9 then some (putSoc p.config.soc ++ state)
      else none

/-- A notice pair in two bytes: the kind code, and the car, or 255 for no car (R192). -/
def putNotice (n : Notice) : List Byte :=
  putNat 1 (noticeCode n.kind) ++ putNat 1 (match n.car with | some c => c.val | none => 255)

/-- The last STATUS record with its absent markers (R27, Table 28). -/
def putStatus (s : Option StatusRecord) : List Byte :=
  putOption 3 (s.map fun x => modeCode x.mode)
  ++ (match s with | some x => [1, causeByte x.cause] | none => [0, 0])
  ++ putNat 2 ((s.bind (·.load)).getD 65535)
  ++ putNat 1 ((s.bind (·.zone)).getD 255)
  ++ putNat 2 ((s.bind (·.offset)).getD 65535)
  ++ putOption 3 (s.map fun x => gateCode x.gate)
  ++ putOption 255 (s.map (·.alarmCount))
  ++ putOption 1 (s.map fun x => if x.driveAvailable then 1 else 0)

/-- The payload of READ_LINE (R27). -/
def CarLine.readLine (l : CarLine) : List Byte :=
  put 2 (lineStateCode l.state) ++ putNat 2 (min 65535 l.lostTimer) ++ put 255 l.parityErrors ++ put 255 l.framingErrors
  ++ put 255 l.overruns ++ put 255 l.badFrames ++ put 255 l.nextMoveId ++ put 4 l.queue.length
  ++ putBool l.overflow.isSome ++ putStatus l.lastStatus

/-! ## The response (R184, R192) -/

/-- The bytes a response read clocks out of a buffer, before the filler (R184, R192). -/
def responseBytes : ResponseBuffer → List Byte
  | .ready r payload =>
      let body := resultCode r :: BitVec.ofNat 8 payload.length :: payload
      165 :: body ++ [checksumOf body]
  | _ => [90]

/-- The byte a port clocks out at a place of its last transaction: of a response read, the response from its first byte on
(on the station port, after the byte 0 that begins the read) and then filler bytes of 0; of a request, filler bytes of 0
(R184). -/
def PortState.dataOut (x : PortState) (place : Nat) : Byte := x.clocked.getD place 0

/-- The panel port acknowledges its address and every byte written to it (R184); it answers to no other address (R183). -/
def Part.acknowledges (p : Part) (address : Nat) : Bool := p.powered && address == p.panelAddress

end Sys2Proof.Machine
end

