-- ==== Sys2Proof/Machine/Reading.lean ====
section
/-!
DEFINITION. The commands that read: the response read (R184), the nine read commands of Table 26, and the request whose
code is no command (R185).
-/

namespace Sys2Proof.Machine

/-- RESPONSE_READ (R184): the port clocks out its response and nothing else changes; on the station port the transaction
that follows an accepted RESET starts the soft reset at its end (R190, log 11). -/
def execResponseRead (port : Port) (s : State) : Host.Outcome State Fault Refusal :=
  runPart s fun p =>
    let bytes := responseBytes (p.port port).buffer
    let q := if port = .station ∧ p.resetArmed then p.resetByTransaction else p
    q.modPort port fun x => { x with clocked := bytes }

/-- READ_CAR, code 1 (R50, R122, R173, R182, R51). -/
def execReadCar (port : Port) (body : List Byte) (s : State) : Host.Outcome State Fault Refusal :=
  runCarRequest s port 1 body fun c _ p => p.answer (p.readCar c)

/-- READ_TRACKER, code 2 (R101, R187). -/
def execReadTracker (port : Port) (body : List Byte) (s : State) : Host.Outcome State Fault Refusal :=
  runCarRequest s port 2 body fun c rest p =>
    let count := fieldAt rest 1 1
    match trackerStart (p.port port).cursor c (fieldAt rest 0 1) with
    | none => p.refuse .badValue
    | some start =>
        if inRange count 1 15 then
          let next := nextIndex (p.entry c) start count
          ⟨p.modPort port fun x => { x with cursor := some (c, next) }, .ok, p.readTracker c start count⟩
        else p.refuse .badValue

/-- READ_SUPPLY, code 3 (R158). -/
def execReadSupply (port : Port) (body : List Byte) (s : State) : Host.Outcome State Fault Refusal :=
  runRequest s port 3 body fun _ p => p.answer p.readSupply

/-- A rule index 0 to 15. -/
def ruleOf (n : Nat) : Option (Fin 16) := if h : n < 16 then some ⟨n, h⟩ else none

/-- READ_RULE, code 4 (R121). -/
def execReadRule (port : Port) (body : List Byte) (s : State) : Host.Outcome State Fault Refusal :=
  runRequest s port 4 body fun payload p =>
    match ruleOf (fieldAt payload 0 1) with
    | some k => p.answer (p.readRule k)
    | none => p.refuse .badValue

/-- READ_STAGE, code 5 (R116). -/
def execReadStage (port : Port) (body : List Byte) (s : State) : Host.Outcome State Fault Refusal :=
  runRequest s port 5 body fun _ p => p.answer (putStage (p.port port).staging)

/-- READ_CONFIG, code 6 (R17, R186). -/
def execReadConfig (port : Port) (body : List Byte) (s : State) : Host.Outcome State Fault Refusal :=
  runRequest s port 6 body fun payload p =>
    match p.readConfig (fieldAt payload 0 1) with
    | some bytes => p.answer bytes
    | none => p.refuse .badValue

/-- READ_NOTICES, code 7 (R189). -/
def execReadNotices (port : Port) (body : List Byte) (s : State) : Host.Outcome State Fault Refusal :=
  runRequest s port 7 body fun _ p => p.answer ((p.port port).notices.flatMap putNotice)

/-- READ_LINE, code 20 (R27). -/
def execReadLine (port : Port) (body : List Byte) (s : State) : Host.Outcome State Fault Refusal :=
  runCarRequest s port 20 body fun c _ p => p.answer (p.car c).line.readLine

/-- The code of an UNKNOWN_COMMAND_REQUEST is no code of Table 26, and does not begin a response read (R184). -/
def isUnknownCode (port : Port) (code : Byte) : Bool :=
  !isCommand code && !(port == .station && code == 0)

/-- UNKNOWN_COMMAND_REQUEST (R185): answered BAD_CHECKSUM or BAD_COMMAND. -/
def execUnknownCommandRequest (port : Port) (code : Byte) (body : List Byte) (s : State) :
    Host.Outcome State Fault Refusal :=
  if isUnknownCode port code then runRequest s port code body fun _ p => p.refuse .badCommand
  else .refused .illFormed

end Sys2Proof.Machine
end

