-- ==== Sys2Proof/Machine/Configuring.lean ====
section
/-!
DEFINITION. The commands that change the configuration, the policy staging and the notices: the configuration writes
(R3 to R10), SAVE_SETTINGS (R13), RESET (R190), staging and commits (R115 to R119), the notice commands (R188, R189)
and CLEAR_LINE_COUNTS (R27).
-/

namespace Sys2Proof.Machine

/-! ## Car configuration writes (R3 to R6) -/

/-- The car of an accepted configuration write is re-initialised with its new entry (R6, R51, R106, R114, R123). -/
def Part.reinitialise (p : Part) (c : Car) (e : CarEntry) : Part :=
  let p := { p with config := { p.config with cars := p.config.cars.set c e } }
  let p := p.setState c (if e.present then .normal else .unconfigured) none
  let p := p.modCar c fun b =>
    { b with
      record  := .fresh e.present
      tracker := .uniform (zoneCount e)
      inputs  := { b.inputs with odometry := 0 }
      planner := .fresh e.baseWeight
      policy  := .fresh
      signals := { b.signals with waiting := none, silenced := false } }
  ((p.markUnsaved).judgeStall c).askPass .requested

/-- A car configuration write is judged by tests 2 and 3 of R4 and applied; `e` is the entry it makes, where its fields
are valid. R4 refuses the write with BUSY for a car in CONFIRMING, where Table 14 (R96) names a reset of the tracker under
"NORMAL, CONFIRMING"; that R4 decides is the model's reading of the two (log 36). -/
def Part.configureCar (p : Part) (c : Car) (e : Option CarEntry) : Answer :=
  let s := p.stateOf c
  if s = .normal ∨ s = .unconfigured ∨ s = .inhibited then
    match e with
    | some e => (p.reinitialise c e).accept
    | none => p.refuse .badValue
  else p.refuse .busy

/-- WRITE_CAR_PARAMS, code 22 (R3 to R6). -/
def execWriteCarParams (port : Port) (body : List Byte) (s : State) : Host.Outcome State Fault Refusal :=
  runCarRequest s port 22 body fun c rest p => p.configureCar c ((readParams (p.entry c) rest).filter validParams)

/-- WRITE_MAP, code 23 (R3 to R6). -/
def execWriteMap (port : Port) (body : List Byte) (s : State) : Host.Outcome State Fault Refusal :=
  runCarRequest s port 23 body fun c rest p =>
    p.configureCar c ((some (readMap (p.entry c) rest)).filter validMap)

/-- WRITE_RULESET, code 24 (R3 to R6). -/
def execWriteRuleset (port : Port) (body : List Byte) (s : State) : Host.Outcome State Fault Refusal :=
  runCarRequest s port 24 body fun c rest p =>
    p.configureCar c (some { p.entry c with ruleSet := BitVec.ofNat 16 (fieldAt rest 0 2) })

/-! ## Station-wide configuration writes (R7 to R10) -/

/-- What a restart of the brake frame and a change of the line rate do to a car's blocks (R9, R43). -/
def CarBlock.restartClocks (b : CarBlock) : CarBlock :=
  { b with line := b.line.discard, inputs := { b.inputs with frameCount := 0, window := [] } }

/-- The unlock pulse of car c ends if its bound has failed (R176). -/
def Part.boundPulse (p : Part) (c : Car) : Part := if p.unlockBound c then p else p.modSignals c (·.endPulse)

/-- An accepted WRITE_GLOBAL (R7 to R9): the parameters, the clocks, the bound of the unlock pulses (R176), and usable
energy with its selection (R8, R145). -/
def Part.applyGlobals (p : Part) (g : Globals) : Part :=
  let p := { p with config := { p.config with globals := g }, time := { p.time with sinceFrame := 0 } }
  let p := p.markUnsaved.mapCars (·.restartClocks)
  (allCars.foldl (fun p c => p.boundPulse c) p).recompute

/-- WRITE_GLOBAL, code 25 (R7 to R9). -/
def execWriteGlobal (port : Port) (body : List Byte) (s : State) : Host.Outcome State Fault Refusal :=
  runRequest s port 25 body fun payload p =>
    if p.anyMoving then p.refuse .busy
    else
      match (readGlobals payload).filter validGlobals with
      | some g => (p.applyGlobals g).accept
      | none => p.refuse .badValue

/-- WRITE_SOC_TABLE, code 26 (R10). -/
def execWriteSocTable (port : Port) (body : List Byte) (s : State) : Host.Outcome State Fault Refusal :=
  runRequest s port 26 body fun payload p =>
    match (readSoc payload).filter validSoc with
    | some t => ({ p with config := { p.config with soc := t } }.markUnsaved.recompute).accept
    | none => p.refuse .badValue

/-- SAVE_SETTINGS, code 27 (R13). -/
def execSaveSettings (port : Port) (body : List Byte) (s : State) : Host.Outcome State Fault Refusal :=
  runRequest s port 27 body fun _ p => if p.store.save = .idle then p.startSave.accept else p.refuse .busy

/-- RESET, code 28 (R190): the soft reset begins at the end of the next station-port transaction (log 11). -/
def execReset (port : Port) (body : List Byte) (s : State) : Host.Outcome State Fault Refusal :=
  runRequest s port 28 body fun _ p =>
    if p.store.save = .idle then { p with resetArmed := true }.accept else p.refuse .busy

/-! ## Staging and commits (R115 to R119) -/

/-- STAGE_RULE, code 10 (R115). -/
def execStageRule (port : Port) (body : List Byte) (s : State) : Host.Outcome State Fault Refusal :=
  runRequest s port 10 body fun payload p =>
    match stageFields (p.port port).staging (readFields payload) with
    | some staging => (p.modPort port fun x => { x with staging := staging }).accept
    | none => p.refuse .badValue

/-- CLEAR_STAGE, code 11 (R116). -/
def execClearStage (port : Port) (body : List Byte) (s : State) : Host.Outcome State Fault Refusal :=
  runRequest s port 11 body fun _ p => (p.modPort port fun x => { x with staging := ⟨defaultRule, 0⟩ }).accept

/-- Rule k as it will stand when a port's commit to it is applied (R117). -/
def Part.mergedResult (p : Part) (k : Fin 16) (staging : Staging) : Rule :=
  mergeRule staging.selected staging.image
    (if p.pass.isSome then ruleAfter p.commits k p.config.rules[k] else p.config.rules[k])

/-- A commit to rule k is judged and accepted (R117 to R119). -/
def Part.commit (p : Part) (port : Port) (k : Fin 16) : Answer :=
  let staging := (p.port port).staging
  if p.commits.any fun e => e.port == port then p.refuse .busy
  else if !validRule (p.mergedResult k staging) then p.refuse .badValue
  else if p.pass.isSome then
    ⟨{ p with commits := p.commits ++ [⟨port, k, staging.image, staging.selected⟩] }, .pending, []⟩
  else (p.applyCommit k staging.selected staging.image).accept

/-- COMMIT_RULE, code 12 (R117 to R119). -/
def execCommitRule (port : Port) (body : List Byte) (s : State) : Host.Outcome State Fault Refusal :=
  runRequest s port 12 body fun payload p =>
    match ruleOf (fieldAt payload 0 1) with
    | some k => p.commit port k
    | none => p.refuse .badValue

/-! ## Notices and line counters -/

/-- ACK_NOTICES, code 8 (R189). -/
def execAckNotices (port : Port) (body : List Byte) (s : State) : Host.Outcome State Fault Refusal :=
  runRequest s port 8 body fun payload p =>
    match readNotices payload with
    | some pairs =>
        (p.modPort port fun x => { x with notices := x.notices.filter fun n => !pairs.contains n }).accept
    | none => p.refuse .badValue

/-- SET_NOTICE_ENABLE, code 9 (R188). -/
def execSetNoticeEnable (port : Port) (body : List Byte) (s : State) : Host.Outcome State Fault Refusal :=
  runRequest s port 9 body fun payload p =>
    match readSet 17 payload with
    | some kinds => (p.modPort port fun x => { x with mask := kinds }).accept
    | none => p.refuse .badValue

/-- CLEAR_LINE_COUNTS, code 21 (R27). -/
def execClearLineCounts (port : Port) (body : List Byte) (s : State) : Host.Outcome State Fault Refusal :=
  runCarRequest s port 21 body fun c _ p =>
    (p.modLine c fun l => { l with parityErrors := 0, framingErrors := 0, overruns := 0, badFrames := 0 }).accept

end Sys2Proof.Machine
end

