-- ==== Sys2Proof/Machine/Panel.lean ====
section
/-!
DEFINITION. The commands that act on a car's rescue or on the supply: CLEAR_CAR (R71), CLEAR_SUPPLY_FAULT (R150), and the
commands of the panel port alone (R67, R74, R76, R79 to R81, R96, R182).
-/

namespace Sys2Proof.Machine

/-- CLEAR_CAR, code 13 (R71). -/
def execClearCar (port : Port) (body : List Byte) (s : State) : Host.Outcome State Fault Refusal :=
  runCarRequest s port 13 body fun c _ p =>
    if p.stateOf c = .rescued then (p.toNormal c).accept else p.refuse .notAllowed

/-- CLEAR_SUPPLY_FAULT, code 14 (R150). -/
def execClearSupplyFault (port : Port) (body : List Byte) (s : State) : Host.Outcome State Fault Refusal :=
  runRequest s port 14 body fun _ p =>
    if p.supply.converter = .fault then (p.modSupply fun x => { x with wakeFailures := 0 }).converterStandby.accept
    else p.refuse .notAllowed

/-- The abort that INHIBIT_CAR makes of a move (R79). -/
def Part.abortForInhibit (p : Part) (c : Car) : Part :=
  if isMoveState (p.stateOf c) then ((p.cancelIfDriving c).closeBrake c).setAbort c .inhibit else p

/-- INHIBIT_CAR, code 40 (R79). -/
def execInhibitCar (port : Port) (body : List Byte) (s : State) : Host.Outcome State Fault Refusal :=
  runCarRequest s port 40 body fun c _ p =>
    if p.stateOf c = .inhibited then p.refuse .notAllowed
    else
      ((p.abortForInhibit c).change c fun p =>
        (p.setState c .inhibited none).modRecord c fun r => { r with attempts := 0 }).accept

/-- RESTORE_CAR, code 41 (R80). -/
def execRestoreCar (port : Port) (body : List Byte) (s : State) : Host.Outcome State Fault Refusal :=
  runCarRequest s port 41 body fun c _ p =>
    if p.stateOf c = .inhibited then
      (if (p.car c).stalled then p.change c (·.toAssessing c) else p.toNormal c).accept
    else p.refuse .notAllowed

/-- The landing reached becomes a landing. -/
def Part.setLanding (p : Part) (c : Car) (landing : Nat) : Part :=
  p.modRecord c fun r => { r with summary := { r.summary with landing := some landing } }

/-- What a CONFIRM_POSITION of a zone does to the car record, once the tracker is forced (R67). -/
def Part.confirmed (p : Part) (c : Car) (zone : Nat) : Part :=
  match p.stateOf c with
  | .held => if isLandingZone zone then (p.setLanding c (landingOf zone)).change c (·.toReleasing c) else p
  | .levelling => p.setLanding c (landingOf zone)
  | .ready => p.change c (·.toAssessing c)
  | _ => p

/-- The states that take a CONFIRM_POSITION: HELD(POSITION), LEVELLING, ASSESSING, READY (R67, R96). -/
def takesConfirmation (r : CarRecord) : Bool :=
  (r.state == .held && r.heldCause == some .position) || r.state == .levelling || r.state == .assessing
  || r.state == .ready

/-- A zone of the car, and a present offset within its length (R96, test 3). -/
def validPosition (e : CarEntry) (zone : Nat) (offset : Option Nat) : Bool :=
  decide (zone < zoneCount e) && offset.all fun o => decide (o ≤ zoneLength e zone)

/-- CONFIRM_POSITION, code 42 (R96, R67). -/
def execConfirmPosition (port : Port) (body : List Byte) (s : State) : Host.Outcome State Fault Refusal :=
  runCarRequest s port 42 body fun c rest p =>
    let zone := fieldAt rest 0 1
    if !takesConfirmation (p.car c).record then p.refuse .notAllowed
    else
      match (readOffset (rest.drop 1)).filter (validPosition (p.entry c) zone) with
      | some offset => ((p.seedTracker c zone (confirmAnchor zone offset) true).confirmed c zone).accept
      | none => p.refuse .badValue

/-- RELEASE_HOLD, code 43 (R76). -/
def execReleaseHold (port : Port) (body : List Byte) (s : State) : Host.Outcome State Fault Refusal :=
  runCarRequest s port 43 body fun c _ p =>
    let r := (p.car c).record
    if r.state = .held ∧ r.heldCause = some .safety ∧ p.chainClosed c then (p.change c (·.toAssessing c)).accept
    else p.refuse .notAllowed

/-- CLEAR_FAILED, code 44 (R74, R171). -/
def execClearFailed (port : Port) (body : List Byte) (s : State) : Host.Outcome State Fault Refusal :=
  runCarRequest s port 44 body fun c _ p =>
    if p.stateOf c = .failed then
      let p := (p.modRecord c fun r => { r with attempts := 0 }).modBrake c (·.unlock)
      (p.change c (·.toAssessing c)).accept
    else p.refuse .notAllowed

/-- The FIRST override is set for car c and cleared for every other (R81). -/
def Part.putFirst (p : Part) (c : Car) : Part :=
  (p.mapCars fun b => { b with record := { b.record with first := false } }).modRecord c fun r => { r with first := true }

/-- SET_FIRST, code 45 (R81). -/
def execSetFirst (port : Port) (body : List Byte) (s : State) : Host.Outcome State Fault Refusal :=
  runCarRequest s port 45 body fun c _ p =>
    if p.stateOf c = .ready ∨ p.stateOf c = .assessing then (p.putFirst c).select.accept else p.refuse .notAllowed

/-- CLEAR_FIRST, code 46 (R81). -/
def execClearFirst (port : Port) (body : List Byte) (s : State) : Host.Outcome State Fault Refusal :=
  runCarRequest s port 46 body fun c _ p => (p.modRecord c fun r => { r with first := false }).accept

/-- SILENCE_TONE, code 47 (R182). -/
def execSilenceTone (port : Port) (body : List Byte) (s : State) : Host.Outcome State Fault Refusal :=
  runCarRequest s port 47 body fun c _ p => (p.modSignals c (·.silence (isTrapped (p.stateOf c)))).accept

end Sys2Proof.Machine
end

