-- ==== Sys2Proof/Machine/LineEvents.lean ====
section
/-!
DEFINITION. The events of the car lines: a byte (R19), the hand-over of a controller's frames (R23, R25, R26) with their
effects on the car (R53, R67 to R71, R94, R95, R106, R177, R178), the lost timeout (R24), and the end of a transmission
(R31).
-/

namespace Sys2Proof.Machine

/-- CAR_LINE_BYTE (R19 to R21): a byte judged at its stop bit. -/
def execCarLineByte (c : Car) (byte : LineByte) (s : State) : Host.Outcome State Fault Refusal :=
  runPart s fun p => p.modLine c fun l => l.receive (p.entry c) byte

/-- A frame is handed over: its field checks are made against the configuration in force (R22, R25, R26), a frame that
fails them is a bad frame, and at the end of the hand-over the line goes on with its FIFO (R20, log 4). -/
def Part.handOver (p : Part) (c : Car) (f : ControllerFrame) (effect : Part → Part) : Part :=
  let p := if frameValid (p.entry c) f then effect p else p.modLine c (·.countBad)
  p.modLine c fun l => l.endHandover (p.entry c) f

/-! ## STATUS -/

/-- A valid STATUS on its line (R23): the record, the lost timer, the line ALIVE. -/
def CarLine.takeStatus (l : CarLine) (record : StatusRecord) (lostTimeout : Nat) : CarLine :=
  { l with lastStatus := some record, lostTimer := 0, lostLimit := lostTimeout, state := .alive }

/-- A valid STATUS adds to the alarm tally of a car in a trapped state other than RESCUED (R106). -/
def Part.tallyStatus (p : Part) (c : Car) (record : StatusRecord) : Part :=
  if isWaitingRescue (p.stateOf c) then p.modPolicy c (·.tallyAlarm record.alarmCount) else p

/-- What a valid STATUS does to the car record (R53, R67, R70, R71, R177); `old` is the line state before it. -/
def Part.statusEvent (p : Part) (c : Car) (record : StatusRecord) (old : LineState) : Part :=
  match p.stateOf c with
  | .normal | .confirming => p.judgeStall c
  | .assessing | .ready | .failed =>
      if record.mode = .inService then (p.toNormal c).raiseCar .carReturned c else p
  | .held =>
      if record.mode = .inService then (p.toNormal c).raiseCar .carReturned c
      else if (p.car c).record.heldCause = some .position then p.change c (·.toReleasing c) else p
  | .rescued => if record.mode = .inService then p.toNormal c else p
  | .releasing => if old = .alive then p else p.releaseByFrame c
  | _ => p

/-- A valid STATUS with a position zone seeds the tracker of a car that it leaves in NORMAL or CONFIRMING (R94). -/
def Part.statusSeed (p : Part) (c : Car) (record : StatusRecord) : Part :=
  match record.zone with
  | some z =>
      if p.stateOf c = .normal ∨ p.stateOf c = .confirming then
        p.seedTracker c z (statusAnchor z record.offset) false
      else p
  | none => p

/-- The effect of a valid STATUS whose treated record is `record`. -/
def Part.takeStatus (p : Part) (c : Car) (record : StatusRecord) : Part :=
  let old := (p.car c).line.state
  let p := p.modLine c (·.takeStatus record p.globals.lostTimeout)
  ((p.tallyStatus c record).statusEvent c record old).statusSeed c record

/-- STATUS (R22, R23). -/
def execStatus (c : Car) (frame : StatusFrame) (s : State) : Host.Outcome State Fault Refusal :=
  runPart s fun p => p.handOver c (.status frame) fun p =>
    match statusRecord (p.entry c) frame with
    | some record => p.takeStatus c record
    | none => p

/-! ## Move reports and gate reports -/

/-- A move report matches the car's current move id, and finds the car in DRIVING (R25, R69). -/
def Part.reportTaken (p : Part) (c : Car) (moveId : Byte) : Bool :=
  (p.car c).record.moveId == some moveId.toNat && p.stateOf c == .driving

/-- DRIVE_ACK (R68): the ack timer stops. -/
def execDriveAck (c : Car) (moveId : Byte) (s : State) : Host.Outcome State Fault Refusal :=
  runPart s fun p => p.handOver c (.driveAck moveId) fun p =>
    if p.reportTaken c moveId then p.modRecord c fun r => { r with ackTimer := none } else p

/-- The effect of a MOVE_DONE on a car in DRIVING (R69, R95). -/
def Part.moveDone (p : Part) (c : Car) (landing : Nat) : Part :=
  ((p.seedTracker c (2 * landing) (.edge .level) false).setLanding c landing).change c (·.toReleasing c)

/-- MOVE_DONE (R25, R69, R95). -/
def execMoveDone (c : Car) (moveId landing : Byte) (s : State) : Host.Outcome State Fault Refusal :=
  runPart s fun p => p.handOver c (.moveDone moveId landing) fun p =>
    if p.reportTaken c moveId then p.moveDone c landing.toNat else p

/-- MOVE_FAIL (R25, R69): the reason is recorded, and the car goes to FAILED(DRIVE_FAIL). -/
def execMoveFail (c : Car) (moveId reason : Byte) (s : State) : Host.Outcome State Fault Refusal :=
  runPart s fun p => p.handOver c (.moveFail moveId reason) fun p =>
    if p.reportTaken c moveId then
      (p.modRecord c fun r => { r with driveFailReason := some reason.toNat }).change c (·.toFailed c .driveFail)
    else p

/-- A GATE_REPORT is the evidence that the gate of a car in RELEASING is open (R178). -/
def Part.opensGate (p : Part) (c : Car) (landing gate : Byte) : Bool :=
  p.stateOf c == .releasing && (p.car c).record.summary.landing == some landing.toNat && gateOf gate == .open

/-- GATE_REPORT (R26, R178). -/
def execGateReport (c : Car) (landing gate : Byte) (s : State) : Host.Outcome State Fault Refusal :=
  runPart s fun p => p.handOver c (.gateReport landing gate) fun p =>
    if p.opensGate c landing gate then p.toRescued c else p

/-! ## Liveness and transmission -/

/-- What the loss of a line does to a car in RELEASING (R66, R177); `old` is the line state before it. -/
def Part.lostWhileReleasing (p : Part) (c : Car) (old : LineState) : Part :=
  if !p.resolvedOrConfirmed c then p.toHeld c .position
  else if old = .alive then p.releaseByPulse c
  else p

/-- The line of car c becomes LOST (R24). -/
def Part.loseLine (p : Part) (c : Car) : Part :=
  let old := (p.car c).line.state
  let p := p.modLine c fun l => { l with state := .lost }
  let p := if p.stateOf c = .unconfigured then p else p.raiseCar .lineLost c
  if p.stateOf c = .releasing then p.lostWhileReleasing c old else p.judgeStall c

/-- LOST_TIMEOUT (R24): the lost timer has reached its timeout; a STATUS that was taken first has restarted it, and the line
then does not go LOST. "While the line is LOST the lost timer keeps running, and its expiry does not repeat." -/
def execLostTimeout (c : Car) (s : State) : Host.Outcome State Fault Refusal :=
  runPart s fun p => if (p.car c).line.isLosing then p.loseLine c else p

/-- TRANSMIT_COMPLETE (R31). -/
def execTransmitComplete (c : Car) (s : State) : Host.Outcome State Fault Refusal :=
  runPart s fun p => p.modLine c (·.endTransmission)

end Sys2Proof.Machine
end

