-- ==== Sys2Proof/Machine/InputEvents.lean ====
section
/-!
DEFINITION. The events of the Input Conditioner (chapter 3): raw changes and acceptances of levels (R36 to R38), zone
edges (R44 to R46), the chain and the lockout (R75, R76), the encoder (R39 to R42, R47, R48, R169), the station's supply
inputs (R142, R148, R149), and the battery sample (R143).
-/

namespace Sys2Proof.Machine

/-! ## Levels -/

/-- RAW_LEVEL_CHANGE (R36): the new raw level becomes the candidate, and its holding time starts. -/
def execRawLevelChange (input : LevelInput) (level : Bool) (s : State) : Host.Outcome State Fault Refusal :=
  runPart s fun p =>
    let f := p.filter input
    if f.candidate = level then p
    else p.setFilter input { f with candidate := level, holding := some p.globals.filterTime }

/-- What the first acceptance of a level hands on (R37, R142). -/
def Part.firstAccepted (p : Part) (input : LevelInput) (level : Bool) : Part :=
  match input with
  | .zone c => p.judgeStall c
  | .mains => p.mainsAccepted level
  | .converter => if level then p.converterBecomesReady else p
  | .chain _ => p
  | .lockout _ => p

/-- A level is accepted (R36): the input then reads it. The first acceptance after a reset is no level change (R37), a
level already accepted is accepted silently, and a change of level is handed on by `changed` (log 5). -/
def Part.acceptLevel (p : Part) (input : LevelInput) (level : Bool) (changed : Part → Part) : Part :=
  let q := p.setFilter input ⟨level, some level, none⟩
  match (p.filter input).accepted with
  | none => q.firstAccepted input level
  | some old => if old = level then q else changed q

/-- FIRST_LEVEL_ACCEPTANCE (R37). An input that reads a level already has had its first acceptance (log 5). -/
def execFirstLevelAcceptance (input : LevelInput) (level : Bool) (s : State) : Host.Outcome State Fault Refusal :=
  runPart s fun p => if (p.filter input).accepted.isNone then p.acceptLevel input level id else p

/-! ## Zone edges -/

/-- The direction an edge carries (R44). -/
def edgeDirection (b : CarBlock) : Option Dir :=
  match b.record.state with
  | .lowering | .driving | .levelling => b.inputs.move.dir
  | .probing => (signDir b.inputs.move.travel).or b.inputs.move.lastStep
  | _ => none

/-- D is reset to 0 (R41). -/
def Part.clearOdometry (p : Part) (c : Car) : Part := p.modInputs c fun x => { x with odometry := 0 }

/-- The tracker of car c is disturbed (R46). -/
def Part.disturb (p : Part) (c : Car) : Part := p.modTracker c trackerDisturb

/-- The tracker takes an edge with a direction (R88 to R92), and POSITION_LOST is raised where every hypothesis is dead
(R91). -/
def Part.updateTracker (p : Part) (c : Car) (kind : EdgeKind) (d : Dir) : Part :=
  let r := trackerUpdate (p.entry c) p.globals (p.car c).tracker kind d (p.distanceMm c).natAbs
  let p := p.modTracker c fun _ => r.1
  if r.2 then p.raiseCar .positionLost c else p

/-- A move record takes the direction of the edge that ended its probe, and its peak with it (R42, log 24). -/
def MoveRecord.takeDirection (m : MoveRecord) (d : Option Dir) : MoveRecord :=
  match d with
  | some d => { m with dir := some d, peak := max m.peak (forwardProgress d m.travel) }
  | none => m

/-- An ENTER edge ends a probe or a lowering: the close request, then LEVELLING (R45, R62). -/
def Part.landByEdge (p : Part) (c : Car) (d : Option Dir) : Part :=
  let p := if p.stateOf c = .probing then p.modInputs c fun x => { x with move := x.move.takeDirection d } else p
  (p.closeBrake c).change c (·.toLevelling c)

/-- An edge accepted in a move state (R45). -/
def Part.edgeInMove (p : Part) (c : Car) (kind : EdgeKind) : Part :=
  let d := edgeDirection (p.car c)
  let p := match d with
    | some d => p.updateTracker c kind d
    | none => p.disturb c
  let p := if kind = .enter ∧ isBrakeState (p.stateOf c) then p.landByEdge c d else p
  p.clearOdometry c

/-- What a zone level change does to a car outside the move states (R53, R58, R66). -/
def Part.zoneLevelEvent (p : Part) (c : Car) (kind : EdgeKind) : Part :=
  match p.stateOf c with
  | .normal | .confirming => p.judgeStall c
  | .assessing => p.askPass .requested
  | .ready => p.change c (·.toAssessing c)
  | .releasing => if kind = .leave then p.toFailed c .stopOutsideZone else p.boundPulse c
  | _ => p

/-- An edge accepted outside the move states (R46). -/
def Part.edgeAtRest (p : Part) (c : Car) (kind : EdgeKind) : Part :=
  ((p.disturb c).zoneLevelEvent c kind).clearOdometry c

/-- ZONE_EDGE (R44 to R46). -/
def execZoneEdge (c : Car) (kind : EdgeKind) (s : State) : Host.Outcome State Fault Refusal :=
  runPart s fun p => p.acceptLevel (.zone c) (kind == .enter) fun p =>
    if isMoveState (p.stateOf c) then p.edgeInMove c kind else p.edgeAtRest c kind

/-! ## Chain and lockout -/

/-- The states whose car a chain-open takes to HELD(SAFETY) (R76). -/
def heldByChain (r : CarRecord) : Bool :=
  r.state == .assessing || r.state == .ready || isMoveState r.state
  || (r.state == .held && r.heldCause == some .noMethod)

/-- A chain-open event at the car record (R66, R76). -/
def Part.chainOpenEvent (p : Part) (c : Car) : Part :=
  if heldByChain (p.car c).record then
    (p.cancelIfDriving c).change c fun p => (p.setAbort c .chainOpen).toHeld c .safety
  else if p.stateOf c = .releasing then p.toRescued c
  else p

/-- CHAIN_OPEN (R38, R76): the close request, then the event. -/
def execChainOpen (c : Car) (s : State) : Host.Outcome State Fault Refusal :=
  runPart s fun p => p.acceptLevel (.chain c) false fun p => (p.closeBrake c).chainOpenEvent c

/-- CHAIN_CLOSED (R38): the new level, and nothing else. -/
def execChainClosed (c : Car) (s : State) : Host.Outcome State Fault Refusal :=
  runPart s fun p => p.acceptLevel (.chain c) true id

/-- The states whose car a lockout-on takes to HELD(LOCKOUT) (R75). -/
def heldByLockout : RescueState → Bool
  | .assessing | .ready | .probing | .lowering | .levelling | .driving | .releasing | .held | .failed => true
  | _ => false

/-- A lockout-on event at the car record (R75): the last abort cause of a car that was FAILED stands. -/
def Part.lockoutOnEvent (p : Part) (c : Car) : Part :=
  let old := p.stateOf c
  if heldByLockout old then
    (p.cancelIfDriving c).change c fun p =>
      (if old = .failed then p else p.setAbort c .lockout).toHeld c .lockout
  else p

/-- LOCKOUT_ON (R38, R75): the close request, then the event. -/
def execLockoutOn (c : Car) (s : State) : Host.Outcome State Fault Refusal :=
  runPart s fun p => p.acceptLevel (.lockout c) true fun p => (p.closeBrake c).lockoutOnEvent c

/-- A lockout-off event at the car record (R75): a latched car returns to FAILED as it was. -/
def Part.lockoutOffEvent (p : Part) (c : Car) : Part :=
  let r := (p.car c).record
  if r.state = .held ∧ r.heldCause = some .lockout then
    if r.attempts = 3 then p.setState c .failed none else p.change c (·.toAssessing c)
  else p

/-- LOCKOUT_OFF (R38, R75). -/
def execLockoutOff (c : Car) (s : State) : Host.Outcome State Fault Refusal :=
  runPart s fun p => p.acceptLevel (.lockout c) false fun p => p.lockoutOffEvent c

/-! ## The encoder -/

/-- The pair one place along the cycle 00, 10, 11, 01, 00 from a pair (A, B) (R39). -/
def nextUp (pair : Bool × Bool) : Bool × Bool := (!pair.2, pair.1)

/-- What a new sample of the encoder pair is (R39). -/
inductive StepKind where
  | none
  | up
  | down
  | illegal
deriving DecidableEq, Repr

/-- A new sample against the held pair (R39). -/
def stepKind (held new : Bool × Bool) : StepKind :=
  if new = held then .none
  else if new = nextUp held then .up
  else if held = nextUp new then .down
  else .illegal

/-- A counted step in the move record (R42): it changes only while the car is in a move state. -/
def MoveRecord.count (m : MoveRecord) (d : Dir) (delta : Int) : MoveRecord :=
  let travel := m.travel + delta
  { m with
    travel := travel
    lastStep := some d
    peak := match m.dir with
      | some way => max m.peak (forwardProgress way travel)
      | none => m.peak }

/-- A counted step in a car's Conditioner (R39): D, the frame count, and the move record while the car moves. That the record
stops with the move states, as R42 says, also after a REVERSAL, where section 3.9 has further roll-back change the travel count,
is the model's reading of the two (log 37). -/
def CarInputs.count (x : CarInputs) (d : Dir) (moving : Bool) : CarInputs :=
  let delta : Int := match d with
    | .up => 1
    | .down => -1
  { x with
    odometry := clampOdometry (x.odometry + delta)
    frameCount := x.frameCount + delta
    move := if moving then x.move.count d delta else x.move }

/-- The move distance, in mm (R42). -/
def Part.moveDistance (p : Part) (c : Car) : Int := countToMm (p.entry c).ppm (p.car c).inputs.move.peak

/-- The back travel, in mm (R47). -/
def Part.backTravel (p : Part) (c : Car) : Int :=
  let m := (p.car c).inputs.move
  match m.dir with
  | some d => countToMm (p.entry c).ppm (m.peak - forwardProgress d m.travel)
  | none => 0

/-- A motion count restarts the dwell timer of a car in LEVELLING (R48, R63). -/
def Part.motionCount (p : Part) (c : Car) : Part :=
  if p.stateOf c = .levelling then
    p.modRecord c fun r => { r with dwellTimer := some p.globals.stopDwell, motionAge := some 0 }
  else p

/-- A REVERSAL at the car record (R78). -/
def Part.reversalEvent (p : Part) (c : Car) : Part :=
  if p.stateOf c = .lowering ∨ p.stateOf c = .driving then
    (p.cancelIfDriving c).change c (·.toFailed c .reversal)
  else p

/-- The reversal check after a counted step (R47). -/
def Part.checkReversal (p : Part) (c : Car) : Part :=
  if (p.car c).inputs.move.armed ∧ (p.globals.reversal : Int) < p.backTravel c then
    ((p.modInputs c fun x => { x with move := { x.move with armed := false } }).closeBrake c).reversalEvent c
  else p

/-- The run limit after a counted step that took the move distance on from `before` (R169). -/
def Part.checkRunLimit (p : Part) (c : Car) (before : Int) : Part :=
  let distance := p.moveDistance c
  if p.stateOf c = .lowering ∧ before < distance ∧ (runLimit p.globals (p.car c).planner.plan : Int) < distance then
    (p.closeBrake c).change c (·.toFailed c .runLimit)
  else p

/-- A counted step of car c (R39, R47, R48, R169). -/
def Part.countStep (p : Part) (c : Car) (d : Dir) : Part :=
  let before := p.moveDistance c
  let moving := isMoveState (p.stateOf c)
  (((p.modInputs c (·.count d moving)).motionCount c).checkReversal c).checkRunLimit c before

/-- A new sample replaces the held pair; the first sample after a reset is no step (log 7). -/
def Part.sampleEncoder (p : Part) (c : Car) (new : Bool × Bool) : Part :=
  let q := p.modInputs c fun x => { x with encoder := some new }
  match (p.car c).inputs.encoder with
  | none => q
  | some held =>
      match stepKind held new with
      | .none => q
      | .up => q.countStep c .up
      | .down => q.countStep c .down
      | .illegal => q.modInputs c fun x => { x with encoderErrors := bump 255 x.encoderErrors }

/-- ENCODER_STEP (R39). -/
def execEncoderStep (c : Car) (a b : Bool) (s : State) : Host.Outcome State Fault Refusal :=
  runPart s fun p => p.sampleEncoder c (a, b)

/-! ## The supply inputs -/

/-- MAINS_LEVEL_CHANGE (R142). -/
def execMainsLevelChange (present : Bool) (s : State) : Host.Outcome State Fault Refusal :=
  runPart s fun p => p.acceptLevel .mains present (·.mainsAccepted present)

/-- CONVERTER_READY (R148). -/
def execConverterReady (s : State) : Host.Outcome State Fault Refusal :=
  runPart s fun p => p.acceptLevel .converter true (·.converterBecomesReady)

/-- CONVERTER_NOT_READY (R149). -/
def execConverterNotReady (s : State) : Host.Outcome State Fault Refusal :=
  runPart s fun p => p.acceptLevel .converter false (·.converterBecomesNotReady)

/-- A battery sample is taken, and the 250 ms to the next one begin (R143, log 23). -/
def Part.countSample (p : Part) : Part :=
  { p with samples := p.samples + 1, time := { p.time with sinceSample := 0 } }

/-- BATTERY_SAMPLE (R143 to R145). -/
def execBatterySample (reading : BitVec 12) (s : State) : Host.Outcome State Fault Refusal :=
  runPart s fun p =>
    (p.countSample.modSupply fun x => { x with sample := some (readingToMv reading), sampled := true }).recompute

end Sys2Proof.Machine
end

