-- ==== Sys2Proof/Machine/TimerEvents.lean ====
section
/-!
DEFINITION. The events of the part's clocks and timers: the 1 s tick (R30, R52, R125, R180), the end of a plan pass (R57,
R128), the brake frame boundary (R160, R165 to R168), and the expiries of the timers. An expiry acts while its timer
runs (log 1).
-/

namespace Sys2Proof.Machine

/-! ## The 1 s tick -/

/-- The trapped time of a car counts one second (R52). -/
def CarRecord.tick (r : CarRecord) : CarRecord :=
  if isWaitingRescue r.state then { r with trappedTime := min 65535 (r.trappedTime + 1) } else r

/-- A RESCUE_STATE is built and offered to the line of a configured car (R30). -/
def CarBlock.sendRescueState (b : CarBlock) : CarBlock :=
  if b.record.state = .unconfigured then b
  else { b with line := b.line.offerRescueState (.rescueState b.record.state b.record.heldCause) }

/-- ONE_SECOND_TICK (R52, R30, R180, R125; the order is log 17). -/
def execOneSecondTick (s : State) : Host.Outcome State Fault Refusal :=
  runPart s fun p =>
    let p := p.mapCars fun b => { b with record := b.record.tick }
    let p := p.mapCars (·.sendRescueState)
    { p with time := { p.time with sinceTick := 0, flashLit := true } }.askPass .timed

/-- LAMP_FLASH_PHASE (R180): 500 ms after a tick the flashing lamps go out. -/
def execLampFlashPhase (s : State) : Host.Outcome State Fault Refusal :=
  runPart s fun p => { p with time := { p.time with flashLit := false } }

/-! ## The end of a pass -/

/-- A car takes the result of a pass (R57). -/
def Part.takeResult (p : Part) (c : Car) (plan : PlanRecord) : Part :=
  match plan.method with
  | some .none =>
      (p.modRecord c fun r =>
        { r with summary := { r.summary with methodUsed := some .none, landing := plan.target } }).toReleasing c
  | some _ => p.setState c .ready none
  | none => if p.stateOf c = .held then p else p.toHeld c .noMethod

/-- The result of a pass is written for one car (R128 step 1). -/
def Part.writeResult (p : Part) (pass : Pass) (s : CarSnapshot) : Part :=
  let r := planCar p.config.rules pass s
  let p := p.modPlanner s.car fun x => { x with plan := r.plan, weight := r.weight, mask := r.mask }
  p.takeResult s.car r.plan

/-- The next pass, if one waits (R128 step 4). -/
def Part.nextPass (p : Part) : Part :=
  let q := { p with pass := none }
  if p.timedPending then { q with timedPending := false, requestPending := false }.startPass .timed
  else if p.requestPending then { q with requestPending := false }.startPass .requested
  else q

/-- The snapshots of a pass whose cars still take its result (R57, R128). -/
def Part.takers (p : Part) (pass : Pass) : List CarSnapshot := pass.cars.filter fun s => isPlanned (p.car s.car).record

/-- The completion of a pass (R128). The demand of the cars that the results have made READY is judged once the results are
written, before everything that follows them (R146, log 22). -/
def Part.endPass (p : Part) (pass : Pass) : Part :=
  let takers := p.takers pass
  let q := settleDemand p (takers.foldl (fun p s => p.writeResult pass s) p)
  let q := (q.stepCounters pass (takers.map (·.car))).applyCommits
  q.select.nextPass

/-- PASS_END (R128). -/
def execPassEnd (s : State) : Host.Outcome State Fault Refusal :=
  runPart s fun p =>
    match p.pass with
    | some pass => p.endPass pass
    | none => p

/-! ## The brake frame boundary -/

/-- The frame that ends enters the speed window (R43, R160 step 1). -/
def CarInputs.closeFrame (x : CarInputs) (entries : Nat) : CarInputs :=
  let w := x.window ++ [min 65535 x.frameCount.natAbs]
  { x with window := w.drop (w.length - entries), frameCount := 0 }

/-- The probe result that a net travel in mm gives (R61). -/
def probeVerdict (threshold : Nat) (mm : Int) : ProbeResult :=
  if (threshold : Int) ≤ mm then .up else if mm ≤ -(threshold : Int) then .down else .noDrift

/-- The end of a probe at the car record (R61, R48). -/
def Part.probeEnd (p : Part) (c : Car) : Part :=
  if p.stateOf c = .probing then
    let verdict := probeVerdict p.globals.probeThreshold (countToMm (p.entry c).ppm (p.car c).inputs.move.travel)
    (p.modRecord c fun r => { r with probeResult := some verdict }).change c (·.toAssessing c)
  else p

/-- A frame of a probe ends (R165). -/
def Part.judgeProbe (p : Part) (c : Car) : Part :=
  if (p.car c).brake.framesOpen = p.globals.probeFrames then (p.closeBrake c).probeEnd c else p

/-- An overspeed (R168): both channels become LOCKED, then OVERSPEED reaches the car record (R78). -/
def Part.overspeed (p : Part) (c : Car) : Part :=
  let p := p.modBrake c (·.lock)
  if p.stateOf c = .lowering then p.change c (·.toFailed c .overspeed) else p

/-- A frame of a lowering ends: the speed is measured, recorded and judged (R166, R167). -/
def Part.regulate (p : Part) (c : Car) : Part :=
  let w := (p.car c).inputs.window
  let e := p.entry c
  let speed := measuredSpeed e p.globals w.sum w.length
  let p := p.modBrake c fun b => { b with lastSpeed := some (min 65535 speed) }
  if e.overspeed < speed then p.overspeed c
  else p.modBrake c fun b =>
    let share := regulatedShare e p.globals speed b.shadowA
    if share = b.shadowA then b else b.setShadow e share

/-- The frame end of one car (R160 step 2). -/
def Part.frameEnd (p : Part) (c : Car) : Part :=
  let b := (p.car c).brake
  if b.channelA = .open ∧ b.started then
    let p := p.modBrake c fun b => { b with framesOpen := bump 65535 b.framesOpen }
    match b.opening with
    | some .lowering => p.regulate c
    | some .probe => p.judgeProbe c
    | none => p
  else p

/-- The frame start of one car (R160 step 3): the first frame of an opening empties the speed window (R43). -/
def CarBlock.frameStart (b : CarBlock) : CarBlock :=
  { b with
    brake := b.brake.frameStart
    inputs := if b.brake.channelA = .open ∧ !b.brake.started then { b.inputs with window := [] } else b.inputs }

/-- One car at a frame boundary (R160). -/
def Part.boundary (p : Part) (c : Car) : Part :=
  ((p.modInputs c (·.closeFrame p.globals.window)).frameEnd c).modCar c (·.frameStart)

/-- FRAME_BOUNDARY (R160): each car in the order of its number (log 20). -/
def execFrameBoundary (s : State) : Host.Outcome State Fault Refusal :=
  runPart s fun p =>
    let p := allCars.foldl (fun p c => p.boundary c) p
    { p with time := { p.time with sinceFrame := 0 } }

/-- BRAKE_SHARE_END (R161): the active share of a channel ends within the frame. -/
def execBrakeShareEnd (c : Car) (channel : Channel) (s : State) : Host.Outcome State Fault Refusal :=
  runPart s fun p => p.modBrake c (·.shareEnd channel)

/-! ## Timers of the car record -/

/-- CONFIRM_TIMER_EXPIRY (R55, R56). -/
def execConfirmTimerExpiry (c : Car) (s : State) : Host.Outcome State Fault Refusal :=
  runPart s fun p =>
    if p.stateOf c = .confirming ∧ (p.car c).record.confirmTimer.isSome then (p.trap c).change c (·.toAssessing c) else p

/-- RETRY_TIMER_EXPIRY (R73). -/
def execRetryTimerExpiry (c : Car) (s : State) : Host.Outcome State Fault Refusal :=
  runPart s fun p =>
    if p.stateOf c = .failed ∧ (p.car c).record.retryTimer.isSome then p.change c (·.toAssessing c) else p

/-- ACK_TIMER_EXPIRY (R68): a CANCEL, then FAILED(NO_ACK). -/
def execAckTimerExpiry (c : Car) (s : State) : Host.Outcome State Fault Refusal :=
  runPart s fun p =>
    if p.stateOf c = .driving ∧ (p.car c).record.ackTimer.isSome then
      (p.cancelIfDriving c).change c (·.toFailed c .noAck)
    else p

/-- MOVE_TIMER_EXPIRY (R69): a CANCEL, then FAILED(DRIVE_TIMEOUT). -/
def execMoveTimerExpiry (c : Car) (s : State) : Host.Outcome State Fault Refusal :=
  runPart s fun p =>
    if p.stateOf c = .driving ∧ (p.car c).record.moveTimer.isSome then
      (p.cancelIfDriving c).change c (·.toFailed c .driveTimeout)
    else p

/-- DWELL_TIMER_EXPIRY (R63): RELEASING by its entry check, whose first test is the zone level (R65). -/
def execDwellTimerExpiry (c : Car) (s : State) : Host.Outcome State Fault Refusal :=
  runPart s fun p =>
    if p.stateOf c = .levelling ∧ (p.car c).record.dwellTimer.isSome then p.change c (·.toReleasing c) else p

/-- A car in LEVELLING is judged still moving at its slip limit (R64). -/
def stillMoving (r : CarRecord) (stopDwell : Nat) : Bool := r.motionAge.any fun age => decide (age < stopDwell)

/-- SLIP_TIMER_EXPIRY (R64, R171). -/
def execSlipTimerExpiry (c : Car) (s : State) : Host.Outcome State Fault Refusal :=
  runPart s fun p =>
    if p.stateOf c = .levelling ∧ (p.car c).record.slipTimer.isSome then
      if stillMoving (p.car c).record p.globals.stopDwell then
        (p.modBrake c (·.lock)).change c (·.toFailed c .brakeSlip)
      else p.modRecord c fun r => { r with slipTimer := some (seconds p.globals.slipLimit) }
    else p

/-- GATE_TIMER_EXPIRY (R66). -/
def execGateTimerExpiry (c : Car) (s : State) : Host.Outcome State Fault Refusal :=
  runPart s fun p =>
    if p.stateOf c = .releasing ∧ (p.car c).record.gateTimer.isSome then p.toFailed c .gateTimeout else p

/-! ## Timers of Car Signals -/

/-- UNLOCK_TIMER_EXPIRY (R176). -/
def execUnlockTimerExpiry (c : Car) (s : State) : Host.Outcome State Fault Refusal :=
  runPart s fun p => p.modSignals c fun x => if x.unlockTimer.isSome then x.endPulse else x

/-- The reassurance timer expires: it starts again, and REASSURE is requested unless suppressed (R182). -/
def CarSignals.reassure (x : CarSignals) (g : Globals) : CarSignals :=
  if x.reassurance.isSome then
    let y := { x with reassurance := some (seconds g.reassurance) }
    if x.silenced then y else y.requestTone g .reassure
  else x

/-- REASSURANCE_TIMER_EXPIRY (R182). -/
def execReassuranceTimerExpiry (c : Car) (s : State) : Host.Outcome State Fault Refusal :=
  runPart s fun p => p.modSignals c (·.reassure p.globals)

/-- TONE_SEGMENT_END (R181). -/
def execToneSegmentEnd (c : Car) (s : State) : Host.Outcome State Fault Refusal :=
  runPart s fun p => p.modSignals c (·.segmentEnd p.globals)

/-- TONE_HIGH_LOW_TOGGLE (R181). -/
def execToneHighLowToggle (c : Car) (s : State) : Host.Outcome State Fault Refusal :=
  runPart s fun p => p.modSignals c (·.toggle)

/-! ## Timers of the supply -/

/-- MAINS_STABLE_EXPIRY (R142). -/
def execMainsStableExpiry (s : State) : Host.Outcome State Fault Refusal := runPart s (·.mainsStableExpires)

/-- WAKE_TIMEOUT (R148). -/
def execWakeTimeout (s : State) : Host.Outcome State Fault Refusal := runPart s (·.wakeExpires)

/-- STANDBY_DWELL_EXPIRY (R149). -/
def execStandbyDwellExpiry (s : State) : Host.Outcome State Fault Refusal := runPart s (·.standbyExpires)

end Sys2Proof.Machine
end

