-- ==== Sys2Proof/Machine/TimeBase.lean ====
section
/-!
DEFINITION. What the part does when no command waits (log 2): a completed frame is handed over (R20), or the first command
that is due is put in the queue (log 3), or, with nothing due, 1 ms passes (R124).
-/

namespace Sys2Proof.Machine

/-! ## The passing of 1 ms -/

/-- A running timer loses 1 ms. -/
def countDown (t : Option Nat) : Option Nat := t.map (· - 1)

/-- A timer has run out. -/
def isDue (t : Option Nat) : Bool := t == some 0

/-- A holding time loses 1 ms; a candidate that has held and is the accepted level already is accepted silently (R36). -/
def LevelFilter.passMs (f : LevelFilter) : LevelFilter :=
  let holding := countDown f.holding
  { f with holding := if isDue holding ∧ f.accepted = some f.candidate then none else holding }

/-- The timers of a car record lose 1 ms. -/
def CarRecord.passMs (r : CarRecord) : CarRecord :=
  { r with
    confirmTimer := countDown r.confirmTimer
    retryTimer   := countDown r.retryTimer
    ackTimer     := countDown r.ackTimer
    moveTimer    := countDown r.moveTimer
    dwellTimer   := countDown r.dwellTimer
    slipTimer    := countDown r.slipTimer
    gateTimer    := countDown r.gateTimer
    motionAge    := r.motionAge.map (· + 1) }

/-- The timers of Car Signals lose 1 ms. -/
def CarSignals.passMs (x : CarSignals) : CarSignals :=
  { x with
    unlockTimer := countDown x.unlockTimer
    reassurance := countDown x.reassurance
    playing     := x.playing.map fun q => { q with left := q.left - 1 } }

/-- 1 ms passes for the blocks of a car. -/
def CarBlock.passMs (b : CarBlock) : CarBlock :=
  { b with
    line    := { b.line with lostTimer := b.line.lostTimer + 1 }
    inputs  := { b.inputs with
      zone := b.inputs.zone.passMs, chain := b.inputs.chain.passMs, lockout := b.inputs.lockout.passMs }
    record  := b.record.passMs
    signals := b.signals.passMs }

/-- The timers of the Supply Monitor lose 1 ms. -/
def Supply.passMs (x : Supply) : Supply :=
  { x with
    stableTimer  := countDown x.stableTimer
    wakeTimer    := countDown x.wakeTimer
    standbyTimer := countDown x.standbyTimer }

/-- 1 ms passes (R124). -/
def Part.passMs (p : Part) : Part :=
  { p with
    cars           := p.cars.map (·.passMs)
    mainsInput     := p.mainsInput.passMs
    converterInput := p.converterInput.passMs
    supply         := p.supply.passMs
    time           := { p.time with
      sinceTick := p.time.sinceTick + 1, sinceFrame := p.time.sinceFrame + 1, sinceSample := p.time.sinceSample + 1 } }

/-! ## The commands that fall due -/

/-- A command, if it is due. -/
def dueIf (due : Bool) (c : Instr) : List Instr := if due then [c] else []

/-- The command of a level change (R38). -/
def levelCommand (input : LevelInput) (level : Bool) : Instr :=
  match input with
  | .zone c => .zoneEdge c (if level then .enter else .leave)
  | .chain c => if level then .chainClosed c else .chainOpen c
  | .lockout c => if level then .lockoutOn c else .lockoutOff c
  | .mains => .mainsLevelChange level
  | .converter => if level then .converterReady else .converterNotReady

/-- The acceptance of a candidate that has held for the filter time (R36, R37). -/
def LevelFilter.due (f : LevelFilter) (input : LevelInput) : List Instr :=
  dueIf (isDue f.holding)
    (if f.accepted.isNone then .firstLevelAcceptance input f.candidate else levelCommand input f.candidate)

/-- The commands of car c that are due, in a frame of `frame` ms of which `sinceFrame` have passed. -/
def CarBlock.due (b : CarBlock) (c : Car) (frame sinceFrame : Nat) : List Instr :=
  b.inputs.zone.due (.zone c) ++ b.inputs.chain.due (.chain c) ++ b.inputs.lockout.due (.lockout c)
  ++ dueIf b.line.isLosing (.lostTimeout c)
  ++ dueIf (isDue b.record.confirmTimer) (.confirmTimerExpiry c)
  ++ dueIf (isDue b.record.retryTimer) (.retryTimerExpiry c)
  ++ dueIf (isDue b.record.ackTimer) (.ackTimerExpiry c)
  ++ dueIf (isDue b.record.moveTimer) (.moveTimerExpiry c)
  ++ dueIf (isDue b.record.dwellTimer) (.dwellTimerExpiry c)
  ++ dueIf (isDue b.record.slipTimer) (.slipTimerExpiry c)
  ++ dueIf (isDue b.record.gateTimer) (.gateTimerExpiry c)
  ++ dueIf (isDue b.signals.unlockTimer) (.unlockTimerExpiry c)
  ++ dueIf (isDue b.signals.reassurance) (.reassuranceTimerExpiry c)
  ++ dueIf (b.signals.playing.any fun q => q.left == 0) (.toneSegmentEnd c)
  ++ dueIf (b.brake.shareOver .a frame sinceFrame) (.brakeShareEnd c .a)
  ++ dueIf (b.brake.shareOver .b frame sinceFrame) (.brakeShareEnd c .b)

/-- The commands that are due, in their order (log 3). The reading of a battery sample is a free value (log 23). -/
def Part.due (p : Part) : List Instr :=
  p.mainsInput.due .mains ++ p.converterInput.due .converter
  ++ dueIf (isDue p.supply.stableTimer) .mainsStableExpiry
  ++ dueIf (isDue p.supply.wakeTimer) .wakeTimeout
  ++ dueIf (isDue p.supply.standbyTimer) .standbyDwellExpiry
  ++ dueIf (decide (250 ≤ p.time.sinceSample)) (.batterySample (Config.batteryReading p.samples))
  ++ allCars.flatMap (fun c => (p.car c).due c p.globals.frame p.time.sinceFrame)
  ++ dueIf (decide (p.globals.frame ≤ p.time.sinceFrame)) .frameBoundary
  ++ dueIf (p.time.flashLit && decide (500 ≤ p.time.sinceTick)) .lampFlashPhase
  ++ dueIf (decide (1000 ≤ p.time.sinceTick)) .oneSecondTick

/-! ## What happens first -/

/-- The command that a completed frame's hand-over is (R20). -/
def handoverCommand (c : Car) : ControllerFrame → Instr
  | .status f => .status c f
  | .driveAck id => .driveAck c id
  | .moveDone id landing => .moveDone c id landing
  | .moveFail id reason => .moveFail c id reason
  | .gateReport landing gate => .gateReport c landing gate

/-- The hand-overs that wait, in the order of the cars. -/
def Part.handovers (p : Part) : List Instr :=
  allCars.flatMap fun c => ((p.car c).line.handover.map (handoverCommand c)).toList

/-- The part with no command waiting: what it is after, and the commands it has put in the queue. A command that is due
waits alone: those due with it are judged again once it has run, as it may have stopped or started their timers (log 3). -/
def Part.idle (p : Part) : Part × List Instr :=
  if !p.powered then (p, [])
  else if !p.handovers.isEmpty then (p, p.handovers)
  else
    match p.due with
    | c :: _ => (p, [c])
    | [] => (p.passMs, [])

end Sys2Proof.Machine
end

