-- ==== Sys2Proof/Machine/Dispatch.lean ====
section
/-!
DEFINITION. The dispatch of a command to its meaning: one arm per row of spec/opcode_table.json.
-/

namespace Sys2Proof.Machine

def exec (i : Instr) (s : State) : Host.Outcome State Fault Refusal :=
  match i with
  | .powerOn address => Sys2Proof.Machine.execPowerOn address s
  | .softReset address => Sys2Proof.Machine.execSoftReset address s
  | .responseRead port => Sys2Proof.Machine.execResponseRead port s
  | .readCar port body => Sys2Proof.Machine.execReadCar port body s
  | .readTracker port body => Sys2Proof.Machine.execReadTracker port body s
  | .readSupply port body => Sys2Proof.Machine.execReadSupply port body s
  | .readRule port body => Sys2Proof.Machine.execReadRule port body s
  | .readStage port body => Sys2Proof.Machine.execReadStage port body s
  | .readConfig port body => Sys2Proof.Machine.execReadConfig port body s
  | .readNotices port body => Sys2Proof.Machine.execReadNotices port body s
  | .ackNotices port body => Sys2Proof.Machine.execAckNotices port body s
  | .setNoticeEnable port body => Sys2Proof.Machine.execSetNoticeEnable port body s
  | .stageRule port body => Sys2Proof.Machine.execStageRule port body s
  | .clearStage port body => Sys2Proof.Machine.execClearStage port body s
  | .commitRule port body => Sys2Proof.Machine.execCommitRule port body s
  | .clearCar port body => Sys2Proof.Machine.execClearCar port body s
  | .clearSupplyFault port body => Sys2Proof.Machine.execClearSupplyFault port body s
  | .readLine port body => Sys2Proof.Machine.execReadLine port body s
  | .clearLineCounts port body => Sys2Proof.Machine.execClearLineCounts port body s
  | .writeCarParams port body => Sys2Proof.Machine.execWriteCarParams port body s
  | .writeMap port body => Sys2Proof.Machine.execWriteMap port body s
  | .writeRuleset port body => Sys2Proof.Machine.execWriteRuleset port body s
  | .writeGlobal port body => Sys2Proof.Machine.execWriteGlobal port body s
  | .writeSocTable port body => Sys2Proof.Machine.execWriteSocTable port body s
  | .saveSettings port body => Sys2Proof.Machine.execSaveSettings port body s
  | .saveWriteComplete => Sys2Proof.Machine.execSaveWriteComplete s
  | .saveVerifyComplete found => Sys2Proof.Machine.execSaveVerifyComplete found s
  | .reset port body => Sys2Proof.Machine.execReset port body s
  | .inhibitCar port body => Sys2Proof.Machine.execInhibitCar port body s
  | .restoreCar port body => Sys2Proof.Machine.execRestoreCar port body s
  | .confirmPosition port body => Sys2Proof.Machine.execConfirmPosition port body s
  | .releaseHold port body => Sys2Proof.Machine.execReleaseHold port body s
  | .clearFailed port body => Sys2Proof.Machine.execClearFailed port body s
  | .setFirst port body => Sys2Proof.Machine.execSetFirst port body s
  | .clearFirst port body => Sys2Proof.Machine.execClearFirst port body s
  | .silenceTone port body => Sys2Proof.Machine.execSilenceTone port body s
  | .carLineByte c byte => Sys2Proof.Machine.execCarLineByte c byte s
  | .status c frame => Sys2Proof.Machine.execStatus c frame s
  | .driveAck c moveId => Sys2Proof.Machine.execDriveAck c moveId s
  | .moveDone c moveId landing => Sys2Proof.Machine.execMoveDone c moveId landing s
  | .moveFail c moveId reason => Sys2Proof.Machine.execMoveFail c moveId reason s
  | .gateReport c landing gate => Sys2Proof.Machine.execGateReport c landing gate s
  | .lostTimeout c => Sys2Proof.Machine.execLostTimeout c s
  | .transmitComplete c => Sys2Proof.Machine.execTransmitComplete c s
  | .oneSecondTick => Sys2Proof.Machine.execOneSecondTick s
  | .passEnd => Sys2Proof.Machine.execPassEnd s
  | .rawLevelChange input level => Sys2Proof.Machine.execRawLevelChange input level s
  | .firstLevelAcceptance input level => Sys2Proof.Machine.execFirstLevelAcceptance input level s
  | .zoneEdge c kind => Sys2Proof.Machine.execZoneEdge c kind s
  | .chainOpen c => Sys2Proof.Machine.execChainOpen c s
  | .chainClosed c => Sys2Proof.Machine.execChainClosed c s
  | .lockoutOn c => Sys2Proof.Machine.execLockoutOn c s
  | .lockoutOff c => Sys2Proof.Machine.execLockoutOff c s
  | .mainsLevelChange present => Sys2Proof.Machine.execMainsLevelChange present s
  | .mainsStableExpiry => Sys2Proof.Machine.execMainsStableExpiry s
  | .converterReady => Sys2Proof.Machine.execConverterReady s
  | .converterNotReady => Sys2Proof.Machine.execConverterNotReady s
  | .wakeTimeout => Sys2Proof.Machine.execWakeTimeout s
  | .standbyDwellExpiry => Sys2Proof.Machine.execStandbyDwellExpiry s
  | .batterySample reading => Sys2Proof.Machine.execBatterySample reading s
  | .encoderStep c a b => Sys2Proof.Machine.execEncoderStep c a b s
  | .frameBoundary => Sys2Proof.Machine.execFrameBoundary s
  | .brakeShareEnd c channel => Sys2Proof.Machine.execBrakeShareEnd c channel s
  | .confirmTimerExpiry c => Sys2Proof.Machine.execConfirmTimerExpiry c s
  | .retryTimerExpiry c => Sys2Proof.Machine.execRetryTimerExpiry c s
  | .ackTimerExpiry c => Sys2Proof.Machine.execAckTimerExpiry c s
  | .moveTimerExpiry c => Sys2Proof.Machine.execMoveTimerExpiry c s
  | .dwellTimerExpiry c => Sys2Proof.Machine.execDwellTimerExpiry c s
  | .slipTimerExpiry c => Sys2Proof.Machine.execSlipTimerExpiry c s
  | .gateTimerExpiry c => Sys2Proof.Machine.execGateTimerExpiry c s
  | .unlockTimerExpiry c => Sys2Proof.Machine.execUnlockTimerExpiry c s
  | .reassuranceTimerExpiry c => Sys2Proof.Machine.execReassuranceTimerExpiry c s
  | .toneSegmentEnd c => Sys2Proof.Machine.execToneSegmentEnd c s
  | .lampFlashPhase => Sys2Proof.Machine.execLampFlashPhase s
  | .powerFail left => Sys2Proof.Machine.execPowerFail left s
  | .toneHighLowToggle c => Sys2Proof.Machine.execToneHighLowToggle c s
  | .unknownCommandRequest port code body => Sys2Proof.Machine.execUnknownCommandRequest port code body s

end Sys2Proof.Machine
end

