-- ==== Sys2Proof/Safety.lean ====
section
/-!
DEFINITION. What claims speak of: the frames of commands (what a command leaves), the requests that a port takes, and the
invariants of a safe run: the account of slots and energy, the guarded outputs, the ordered pending sets.
-/

namespace Sys2Proof.Machine

/-! ## Frames -/

/-- From p to q nothing has changed but the cars, a requested pass, the supply, and the notices of the ports. -/
structure KeepsRest (p q : Part) : Prop where
  powered        : q.powered = p.powered
  config         : q.config = p.config
  store          : q.store = p.store
  mainsInput     : q.mainsInput = p.mainsInput
  converterInput : q.converterInput = p.converterInput
  timedPending   : q.timedPending = p.timedPending
  commits        : q.commits = p.commits
  time           : q.time = p.time
  panelAddress   : q.panelAddress = p.panelAddress
  resetArmed     : q.resetArmed = p.resetArmed
  samples        : q.samples = p.samples
  station        : q.station = { p.station with notices := q.station.notices }
  panel          : q.panel = { p.panel with notices := q.panel.notices }

/-- From p to q the pass in flight and its waiting requests, and the Supply Monitor, have not changed. -/
structure KeepsPlans (p q : Part) : Prop where
  pass           : q.pass = p.pass
  requestPending : q.requestPending = p.requestPending
  supply         : q.supply = p.supply

/-- The figures of car c that a pass takes into its snapshot (R126). -/
def Part.figures (p : Part) (c : Car) : CarSnapshot :=
  let b := p.car c
  { car            := c
    entry          := p.entry c
    stallCause     := b.record.stallCause
    trappedTime    := b.record.trappedTime
    probeResult    := b.record.probeResult
    locked         := b.brake.channelA == .locked || b.brake.channelB == .locked
    lineState      := b.line.state
    load           := b.line.lastStatus.bind fun x => x.load
    alarmCount     := b.line.lastStatus.map fun x => x.alarmCount
    driveAvailable := b.line.lastStatus.map fun x => x.driveAvailable
    alarmTally     := b.policy.alarmTally
    alarmReference := b.policy.alarmReference
    urgency        := b.planner.urgency
    weight         := b.planner.weight
    bestZone       := b.tracker.bestZone
    zoneLevel      := b.inputs.zone.accepted
    view           := planningView (p.entry c) p.globals b.tracker b.inputs.zone.accepted
      (countToMm (p.entry c).ppm b.inputs.odometry) }

/-- A pass whose snapshot is taken of p: the cars in ASSESSING, READY and HELD(NO_METHOD) with their figures, the global
parameters, and the usable energy (R126). -/
def Part.passOf (p : Part) (kind : PassKind) : Pass :=
  { kind    := kind
    cars    := (allCars.filter fun c => p.stateOf c == .assessing || p.stateOf c == .ready ||
      (p.stateOf c == .held && (p.car c).record.heldCause == some .noMethod)).map p.figures
    globals := p.globals
    usable  := p.supply.usable }

/-- From p to q no pass has been asked for. -/
def PassKept (p q : Part) : Prop := q.pass = p.pass ∧ q.requestPending = p.requestPending

/-- From p to q a requested pass has been asked for: it has started with a snapshot of q, taken when everything else of the
event is done (log 18), or its flag is set beside the pass in flight (R125, R126). -/
def PassAsked (p q : Part) : Prop :=
  if p.pass.isSome then q.pass = p.pass ∧ q.requestPending = true
  else q.pass = some (q.passOf .requested) ∧ q.requestPending = p.requestPending

/-! ## Demand -/

/-- What the judging of demand makes of the Supply Monitor, from whether there was demand to whether there is (R146): demand
that has arisen wakes a converter in STANDBY, into ON at once where the ready level already reads ready, and stops the dwell
of one in ON; demand that has ended starts the dwell of one in ON (R147 to R149). -/
def Part.supplyJudged (p : Part) (had has : Bool) : Supply :=
  let x := p.supply
  match had, has, x.converter with
  | false, true, .standby =>
      if p.converterInput.accepted = some true then
        { x with converter := .on, enable := true, wakeTimer := none, standbyTimer := none, wakeFailures := 0 }
      else { x with converter := .waking, enable := true, wakeTimer := some p.globals.wakeLimit, standbyTimer := none }
  | false, true, .on => { x with standbyTimer := none }
  | true, false, .on => { x with standbyTimer := some (p.globals.standbyDwell * 1000) }
  | _, _, _ => x

/-- The part once demand has been judged; an entry to ON is a selection event (R148, R154). -/
def Part.demandJudged (p : Part) (had : Bool) : Part :=
  let q := { p with supply := p.supplyJudged had p.demand }
  if p.supply.converter ≠ .on ∧ q.supply.converter = .on then q.select else q

/-- The part after an entry of the converter to STANDBY, which demand that stands ends at once (R147, R148). -/
def Part.standbyEntered (p : Part) : Part :=
  { p with supply := { p.supply with
      converter := .standby, enable := false, wakeTimer := none, standbyTimer := none } }.demandJudged false

/-- From p to q the supply has changed only as demand moves it, judged at the end of the command (R146, log 22). -/
def KeepsSupply (p q : Part) : Prop := q.supply = p.supplyJudged p.demand q.demand

/-! ## Events of a car -/

/-- The part that an event of car c hands to the Grant Arbiter, the car's blocks left as `b`: where the car has left a move
state, a selection has been made with what the move gives back (R60, R154, R155), in the order of log 18. -/
def Part.handedOn (p : Part) (c : Car) (b : CarBlock) : Part :=
  let q := p.modCar c fun _ => b
  if isMoveState (p.stateOf c) = true ∧ b.record.state ≠ p.stateOf c then q.select else q

/-- From p to q every car but c is as the selection that the event of car c makes leaves it, and as it was where the event
makes none (R154). -/
def KeepsCars (c : Car) (p q : Part) : Prop := ∀ d, d ≠ c → q.car d = (p.handedOn c (q.car c)).car d

/-- From p to q the pairs that are pending are those that were, those of the selection that the event of car c makes, and the
pairs of `l` at the ports whose mask holds their kind (R188, R59, R157). -/
def KeepsNotices (c : Car) (l : List Notice) (p q : Part) : Prop :=
  ∀ port n, n ∈ (q.port port).notices ↔
    n ∈ ((p.handedOn c (q.car c)).port port).notices ∨ (n ∈ l ∧ maskHolds (p.port port).mask n.kind = true)

/-- What an event of car c that raises the pairs of `l` leaves standing, whatever it does to car c and to the pass, before
demand is judged. -/
structure CarTurn (c : Car) (l : List Notice) (p q : Part) : Prop where
  rest    : KeepsRest p q
  cars    : KeepsCars c p q
  supply  : q.supply = p.supply
  notices : KeepsNotices c l p q

/-- What an event of car c that raises the pairs of `l` leaves standing, whatever it does to car c and to the pass. -/
structure CarEvent (c : Car) (l : List Notice) (p q : Part) : Prop where
  rest    : KeepsRest p q
  cars    : KeepsCars c p q
  supply  : KeepsSupply p q
  notices : KeepsNotices c l p q

/-- From p to q the cars of a list have had their turns, one after the other. -/
def InTurn (turn : Car → Part → Part → Prop) : List Car → Part → Part → Prop
  | [], p, q => q = p
  | c :: rest, p, q => ∃ r, turn c p r ∧ InTurn turn rest r q

/-- From p to q nothing has changed but car c and a requested pass. -/
structure OnlyCar (c : Car) (p q : Part) : Prop where
  rest   : KeepsRest p q
  cars   : ∀ d, d ≠ c → q.car d = p.car d
  supply : q.supply = p.supply
  ports  : q.station = p.station ∧ q.panel = p.panel

/-! ## The blocks of a car after an entry to a state

Each says, in the words of the rules, what the blocks of a car become; the blocks it does not name stand. -/

/-- A car goes from its state to another, which is none of LEVELLING and the states a grant leads to: the timers of the
state that is left stop (R54, R60, R66, R73), the move's slots and reservation are released and an opened brake is closed
(R60), the reversal check is disarmed (R47), the lamp and the reassurance timer follow (R180, R182), and a release ends
(R178, R179). A closed brake keeps its started flag, and a state other than HELD has no held cause, by the model's choice
(logs 35, 21). -/
def CarBlock.moved (b : CarBlock) (g : Globals) (new : RescueState) (held : Option HeldCause) : CarBlock :=
  let old := b.record.state
  { b with
    record := { b.record with
      state := new
      heldCause := held
      confirmTimer := if old = .confirming then none else b.record.confirmTimer
      retryTimer := if old = .failed then none else b.record.retryTimer
      ackTimer := if old = .driving then none else b.record.ackTimer
      moveTimer := if old = .driving then none else b.record.moveTimer
      dwellTimer := if old = .levelling then none else b.record.dwellTimer
      slipTimer := if old = .levelling then none else b.record.slipTimer
      motionAge := if old = .levelling then none else b.record.motionAge
      gateTimer := if old = .releasing then none else b.record.gateTimer }
    inputs := { b.inputs with move := { b.inputs.move with
      armed := if old = .lowering ∨ old = .driving then false else b.inputs.move.armed } }
    slots :=
      { brake := if isBrakeState old then false else b.slots.brake
        drive := if old = .driving then false else b.slots.drive
        reservation := if isMoveState old then none else b.slots.reservation }
    brake := if isBrakeState old then b.brake.close else b.brake
    signals := { b.signals with
      lamp := lampOf new
      reassurance :=
        if isReassured new then (if isReassured old then b.signals.reassurance else some (g.reassurance * 1000)) else none
      unlockTimer := if old = .releasing then none else b.signals.unlockTimer
      unlockOutput := if old = .releasing then false else b.signals.unlockOutput
      releaseMethod := if old = .releasing then none else b.signals.releaseMethod } }

/-- The state, with its held cause, that an entry to ASSESSING leads a car to (R56). -/
def CarBlock.assessedState (b : CarBlock) : RescueState × Option HeldCause :=
  if b.inputs.lockout.isOn then (.held, some .lockout)
  else if b.inputs.chain.isOff then (.held, some .safety)
  else (.assessing, none)

/-- An entry to ASSESSING, with its check (R56). -/
def CarBlock.assessed (b : CarBlock) (g : Globals) : CarBlock := b.moved g b.assessedState.1 b.assessedState.2

/-- The notice that an entry to ASSESSING raises: CAR_HELD where the check diverts the car (R56). -/
def CarBlock.assessedNotices (b : CarBlock) (c : Car) : List Notice :=
  if b.assessedState.1 = .held then [⟨.carHeld, some c⟩] else []

/-- The pass that an entry to ASSESSING asks for, where the check does not divert the car (R56). -/
def CarBlock.AssessedPass (b : CarBlock) (p q : Part) : Prop :=
  if b.assessedState.1 = .held then PassKept p q else PassAsked p q

/-- An entry to FAILED with a cause (R72). -/
def CarBlock.failed (b : CarBlock) (g : Globals) (cause : AbortCause) : CarBlock :=
  let m := b.moved g .failed none
  { m with record := { m.record with
      lastAbort := some cause
      attempts := b.record.attempts + 1
      retryTimer := if b.record.attempts + 1 < 3 then some (g.retryDelay * 1000) else none } }

/-- The tracker is resolved or confirmed (R65, R93). -/
def CarBlock.isPlaced (b : CarBlock) (g : Globals) : Bool := decide (g.threshold ≤ b.tracker.confidence) || b.tracker.confirmed

/-- An entry to RELEASING that has passed its check: the gate timer, the release by frame on an ALIVE line and by pulse
otherwise, and the RELEASE pattern (R65, R175, R176, R181). -/
def CarBlock.released (b : CarBlock) (g : Globals) : CarBlock :=
  let m := b.moved g .releasing none
  let s := m.signals.requestTone g .release
  { m with
    record := { m.record with gateTimer := some (g.gateTimeout * 1000) }
    line :=
      if b.line.state = .alive then b.line.offerCommand (.gateRelease (b.record.summary.landing.getD 0)) else b.line
    signals :=
      if b.line.state = .alive then { s with releaseMethod := some .frame }
      else { s with releaseMethod := some .pulse, unlockTimer := some g.unlockPulse, unlockOutput := true } }

/-- An entry to RELEASING, with its check (R65). -/
def CarBlock.releasing (b : CarBlock) (g : Globals) : CarBlock :=
  if !b.inputs.zone.isOn then b.failed g .stopOutsideZone
  else if b.line.state ≠ .alive ∧ b.isPlaced g = false then b.moved g .held (some .position)
  else b.released g

/-- The notice that an entry to RELEASING raises (R65, R72). -/
def CarBlock.releasingNotices (b : CarBlock) (g : Globals) (c : Car) : List Notice :=
  if !b.inputs.zone.isOn then [⟨.carFailed, some c⟩]
  else if b.line.state ≠ .alive ∧ b.isPlaced g = false then [⟨.carHeld, some c⟩]
  else []

/-- An entry to NORMAL, from a trapped state or from CONFIRMING (R54, R71, R106, R114, R123, R182). -/
def CarBlock.returned (b : CarBlock) (g : Globals) : CarBlock :=
  let m := b.moved g .normal none
  { m with
    record := { m.record with
      attempts := 0, trappedTime := 0, retryTimer := none, gateTimer := none, confirmTimer := none
      first := false, energyShort := false }
    planner := { b.planner with urgency := 0, alarmMark := none }
    policy := ⟨0, none, Vector.replicate 16 .idle⟩
    signals := { m.signals with silenced := false } }

/-- The judging of the stall condition in NORMAL and CONFIRMING (R53, R54). -/
def CarBlock.judged (b : CarBlock) (g : Globals) : CarBlock :=
  if b.record.state = .normal ∧ b.stalled then
    let m := b.moved g .confirming none
    { m with record := { m.record with confirmTimer := some (g.confirmTime * 1000) } }
  else if b.record.state = .confirming ∧ b.stalled = false then b.returned g
  else b

/-- The tracker, and D, of a car that is seeded or forced to a zone (R94 to R96, R41). -/
def CarBlock.seeded (b : CarBlock) (e : CarEntry) (zone : Nat) (a : Anchor) (confirmed : Bool) : CarBlock :=
  { b with
    tracker :=
      { costs := (List.range (2 * e.landings - 1)).map fun i => if i = zone then 0 else 4095
        anchor := a, confidence := 255, bestZone := zone, confirmed := confirmed }
    inputs := { b.inputs with odometry := 0 } }

/-- A CANCEL with the current move id is built for a car in DRIVING (R29). -/
def CarBlock.cancelled (b : CarBlock) : CarBlock :=
  { b with line :=
    match b.record.moveId with
    | some id => if b.record.state = .driving then b.line.offerCancel id else b.line
    | none => b.line }

/-! ## The loss of the supply -/

/-- The cars whose move draws on the supply, in their order: those in PROBING, LOWERING or DRIVING (R151). -/
def Part.flying (p : Part) : List Car := allCars.filter fun c => isBrakeState (p.stateOf c) || p.stateOf c == .driving

/-- SUPPLY_LOST reaches car c: in PROBING, LOWERING or DRIVING it is closed and cancelled and goes to ASSESSING by R56 with last
abort cause SUPPLY_LOST and no attempt counted, with the selection of its releases and the pass or the CAR_HELD of its entry
(R77, R60). -/
def SupplyLostBy (c : Car) (p q : Part) : Prop :=
  let b := (p.car c).cancelled
  let lost : CarBlock := { b with record := { b.record with lastAbort := some .supplyLost } }
  q.car c = lost.assessed p.globals ∧ CarTurn c (lost.assessedNotices c) p q ∧ lost.AssessedPass p q

/-- From p to q the moves of the given cars have lost their supply (R151, R77): each car's blocks, and those of every car
outside the list that was not READY; CAR_HELD for each car that the check of R56 diverts, and a requested pass where it leaves
one in ASSESSING. The pass starts with the first of these, and its snapshot is that of this car's turn (`SupplyLostBy`). -/
structure SupplyTakenFrom (cars : List Car) (p q : Part) : Prop where
  lost  : ∀ c ∈ cars, q.car c = (let b := (p.car c).cancelled
    ({ b with record := { b.record with lastAbort := some .supplyLost } } : CarBlock).assessed p.globals)
  other : ∀ c, c ∉ cars → p.stateOf c ≠ .ready → q.car c = p.car c
  held  : ∀ c ∈ cars, (p.car c).assessedState.1 = .held → ∀ port, maskHolds (p.port port).mask .carHeld = true →
    ⟨.carHeld, some c⟩ ∈ (q.port port).notices
  kept  : (∀ c ∈ cars, (p.car c).assessedState.1 = .held) → PassKept p q
  asked : (∃ c ∈ cars, (p.car c).assessedState.1 ≠ .held) →
    if p.pass.isSome then q.pass = p.pass ∧ q.requestPending = true else (q.pass.map (·.kind)) = some .requested

/-! ## A load -/

/-- q is as a load leaves the part from the stored image of p (R16, R17): the image's contents where it is valid, the
defaults with SETTINGS_INVALID where it is not; every car NORMAL or UNCONFIGURED by its entry, its line SILENT, its levels
UNKNOWN with their raw levels as candidates, and every other block at its reset values (Tables 8, 9, 12, 17, 21 to 24; R18,
R106, R110, R115, R119, R122, R124). -/
structure LoadedFrom (p q : Part) : Prop where
  powered : q.powered = true
  image   : q.store.image = p.store.image ∧ q.store.save = .idle ∧ q.store.snapshot = none
  valid   : validImage p.store.image = true →
    q.config = p.store.image.contents ∧ q.store.source = .stored ∧ q.store.unsaved = false ∧
    q.station.notices = [] ∧ q.panel.notices = []
  invalid : validImage p.store.image = false →
    q.config = defaultSettings ∧ q.store.source = .defaults ∧ q.store.unsaved = true ∧
    q.station.notices = [⟨.settingsInvalid, none⟩] ∧ q.panel.notices = [⟨.settingsInvalid, none⟩]
  cars    : ∀ c, q.car c =
    { line    := .fresh q.globals.lostTimeout
      inputs  := .fresh (p.car c).inputs.zone.candidate (p.car c).inputs.chain.candidate
        (p.car c).inputs.lockout.candidate q.globals.filterTime
      record  := .fresh (q.entry c).present
      tracker := ⟨List.replicate (2 * (q.entry c).landings - 1) 0, .none, 0, 0, false⟩
      planner := ⟨0, (q.entry c).baseWeight, allMethods, none, .empty⟩
      policy  := ⟨0, none, Vector.replicate 16 ⟨.idle, 0, 0⟩⟩
      slots   := ⟨false, false, none⟩
      brake   := .fresh
      signals := .fresh }
  inputs  : q.mainsInput = .fresh p.mainsInput.candidate q.globals.filterTime ∧
    q.converterInput = .fresh p.converterInput.candidate q.globals.filterTime
  passes  : q.pass = none ∧ q.timedPending = false ∧ q.requestPending = false ∧ q.commits = []
  ports   : ∀ port, (q.port port).reception = [] ∧ (q.port port).buffer = .empty ∧
    (q.port port).mask = BitVec.allOnes 17 ∧ (q.port port).cursor = none ∧ (q.port port).staging = ⟨defaultRule, 0⟩
  clocks  : q.time = ⟨0, false, 0, 0⟩ ∧ q.resetArmed = false

/-! ## Requests -/

/-- A port takes the next request and handles it: the part has power, the transaction is not the one that starts a soft
reset, and no request is being handled (R184, R190). -/
def Part.takesRequests (p : Part) (q : Port) : Prop :=
  p.powered = true ∧ ¬(q = .station ∧ p.resetArmed = true) ∧ (p.port q).buffer.isHandling = false

/-- The part once a port has answered a request. -/
def Part.responded (p : Part) (q : Port) (r : ResultCode) (payload : List Byte) : Part :=
  p.modPort q fun x => { x with reception := [], buffer := .ready r payload, clocked := [] }

/-- A machine with its part replaced; the commands that wait stand. -/
def State.withPart (s : State) (p : Part) : State := { s with toPart := p }

/-- A machine whose port has answered a request, its part otherwise `p`. -/
def State.answered (s : State) (p : Part) (q : Port) (r : ResultCode) (payload : List Byte) : State :=
  s.withPart (p.responded q r payload)

/-- A request is taken, and its frame passes tests 1 to 3 of R185 with a payload. -/
def State.given (s : State) (q : Port) (code : Byte) (body payload : List Byte) : Prop :=
  s.takesRequests q ∧ judgeFrame q code body = .ok payload

/-- A request that names car c is taken and passes tests 1 to 4 of R185; `rest` is its payload after the car. -/
def State.givenCar (s : State) (q : Port) (code : Byte) (body : List Byte) (c : Car) (rest : List Byte) : Prop :=
  ∃ payload, s.given q code body payload ∧ s.judgeCar code payload = some c ∧ payload.drop 1 = rest

/-- The request that a port's frame is, by its command code (Table 26). -/
def requestOf (q : Port) (code : Byte) (body : List Byte) : Instr :=
  match code.toNat with
  | 1 => .readCar q body
  | 2 => .readTracker q body
  | 3 => .readSupply q body
  | 4 => .readRule q body
  | 5 => .readStage q body
  | 6 => .readConfig q body
  | 7 => .readNotices q body
  | 8 => .ackNotices q body
  | 9 => .setNoticeEnable q body
  | 10 => .stageRule q body
  | 11 => .clearStage q body
  | 12 => .commitRule q body
  | 13 => .clearCar q body
  | 14 => .clearSupplyFault q body
  | 20 => .readLine q body
  | 21 => .clearLineCounts q body
  | 22 => .writeCarParams q body
  | 23 => .writeMap q body
  | 24 => .writeRuleset q body
  | 25 => .writeGlobal q body
  | 26 => .writeSocTable q body
  | 27 => .saveSettings q body
  | 28 => .reset q body
  | 40 => .inhibitCar q body
  | 41 => .restoreCar q body
  | 42 => .confirmPosition q body
  | 43 => .releaseHold q body
  | 44 => .clearFailed q body
  | 45 => .setFirst q body
  | 46 => .clearFirst q body
  | 47 => .silenceTone q body
  | _ => .unknownCommandRequest q code body

/-- The commands that name a car in their first payload byte (Table 26). -/
def namesCar (code : Byte) : Bool :=
  [1, 2, 13, 20, 21, 22, 23, 24, 40, 41, 42, 43, 44, 45, 46, 47].contains code.toNat

/-! ## Invariants -/

/-- What one car holds of the Arbiter is what its state gives it (R153, R155). -/
def CarBlock.accounted (b : CarBlock) : Prop :=
  b.slots.brake = isBrakeState b.record.state ∧
  b.slots.drive = (b.record.state == .driving) ∧
  b.slots.reservation = if isMoveState b.record.state then some (b.planner.plan.estimate.getD 0) else none

/-- The account of slots and energy: every car holds what its state gives it, and no more slots are held than are
configured (R153, R155). -/
def MoveAccounts (p : Part) : Prop :=
  (∀ c, (p.car c).accounted) ∧ p.brakeHeld ≤ p.globals.brakeSlots ∧ p.driveHeld ≤ p.globals.driveSlots

/-- The outputs that could harm are guarded: a brake channel is OPEN only in PROBING or LOWERING (R163), a car in RELEASING
stands in its zone (R65, R66), and a gate-unlock output is active only within its bound (R176). -/
def OutputsGuarded (p : Part) : Prop :=
  ∀ c, ((p.car c).brake.anyOpen = true → isBrakeState (p.stateOf c) = true) ∧
    (p.stateOf c = .releasing → p.zoneActive c = true) ∧
    ((p.car c).signals.unlockOutput = true → p.unlockBound c = true)

/-- The outputs follow what they show: converter-enable the converter's state (Table 20), a rescue lamp the car's state
(R180), and a tone is active in the bursts of its pattern alone, which are its even segments (R181). -/
def OutputsFollow (p : Part) : Prop :=
  (p.supply.enable = true ↔ p.supply.converter = .waking ∨ p.supply.converter = .on) ∧
  ∀ c, (p.car c).signals.lamp =
      (match p.stateOf c with
       | .unconfigured | .normal | .confirming | .rescued => .off
       | .probing | .lowering | .levelling | .driving | .releasing => .flash
       | .assessing | .ready | .held | .failed | .inhibited => .steady) ∧
    ∀ x, (p.car c).signals.playing = some x → x.output = true → x.segment % 2 = 0

/-- A pending set is in the order of READ_NOTICES, without a pair twice, and each pair carries a car exactly if its kind
does (R188, R189). -/
def NoticeSetOrdered (l : List Notice) : Prop :=
  (l.map noticeKey).Pairwise (· < ·) ∧ ∀ n ∈ l, n.car.isSome = carriesCar n.kind

/-- The pending sets of both ports are ordered. -/
def NoticesOrdered (p : Part) : Prop := NoticeSetOrdered p.station.notices ∧ NoticeSetOrdered p.panel.notices

end Sys2Proof.Machine
end

