-- ==== Sys2Proof/Certificates/Slice0/Obligations.lean ====
section
/-!
DEFINITION. The statements for the provers, in the order of OBLIGATIONS.json: the step and its commands; power, store and
ports; configuration and policy; rules and plans; the panel's commands; the car lines; the inputs; the timers; the supply;
the invariants.

A request is `given` when its port takes it and its frame passes tests 1 to 3 of R185. An event of a car leaves everything
else standing as `CarEvent` says. What a statement takes from a convention of the model and not from the manual, its
docstring names with the log entry. Where a docstring names no entry of its own, the words it is stated in may still rest on
one, which Sys2Proof/Safety.lean names beside them: the order within an event (log 18), the held cause outside HELD (log 21),
the moment at which demand is judged (log 22), the started flag of a closed or locked brake (log 35).
-/

open Sys2Proof Sys2Proof.Machine

/-! ## The step -/

/-- A step runs the command at the front of the queue on the machine with the queue's rest, and no command touches the queue. -/
def Obligations.StepTakesFront : Prop :=
  (∀ (c : Instr) (rest : List Instr) (s : State), s.pending = c :: rest → step s = exec c { s with pending := rest }) ∧
  ∀ (c : Instr) (s t : State), exec c s = .next t → t.pending = s.pending

/-- Every well-formed command completes in every state; the terms that spell no command of their row are refused
(R184, R185). While the part has no power, only POWER_ON has an effect: the model's choice (log 10). -/
def Obligations.CommandsComplete : Prop :=
  ∀ (c : Instr) (s : State),
    (c.wellFormed = true → ∃ t, exec c s = .next t) ∧
    (c.wellFormed = false → exec c s = .refused .illFormed) ∧
    (c.wellFormed = true → s.powered = false → (∀ a, c ≠ .powerOn a) → exec c s = .next s)

/-- A step on an empty queue. A part without power idles. The completed frames being handed over are put in the queue, in the
order of the cars (R20). Otherwise the first command that is due is put in the queue, alone; and with nothing due 1 ms
passes: every running timer loses 1 ms, the lost timers and the counts to the tick, the frame boundary and the battery sample
gain one, a candidate that has held and is the accepted level already is accepted silently (R36), and nothing else changes
(R24, R36, R124, R143, R160). That an empty queue does this, in this order, is the model's choice (logs 2, 3, 4). -/
def Obligations.EmptyQueueSteps : Prop :=
  ∀ s : State, s.pending = [] →
    let handedOver := allCars.filterMap fun c => (s.car c).line.handover.map fun
      | .status f => Instr.status c f
      | .driveAck id => .driveAck c id
      | .moveDone id landing => .moveDone c id landing
      | .moveFail id reason => .moveFail c id reason
      | .gateReport landing gate => .gateReport c landing gate
    let less (timer : Option Nat) := timer.map fun n => n - 1
    let held (f : LevelFilter) : LevelFilter := { f with
      holding := if less f.holding = some 0 ∧ f.accepted = some f.candidate then none else less f.holding }
    (s.powered = false → step s = .next s) ∧
    (s.powered = true → handedOver ≠ [] → step s = .next { s with pending := handedOver }) ∧
    (s.powered = true → handedOver = [] → ∀ i rest, s.due = i :: rest → step s = .next { s with pending := [i] }) ∧
    (s.powered = true → handedOver = [] → s.due = [] →
      step s = .next { s with
        mainsInput := held s.mainsInput
        converterInput := held s.converterInput
        supply := { s.supply with
          stableTimer := less s.supply.stableTimer
          wakeTimer := less s.supply.wakeTimer
          standbyTimer := less s.supply.standbyTimer }
        time := { s.time with
          sinceTick := s.time.sinceTick + 1, sinceFrame := s.time.sinceFrame + 1, sinceSample := s.time.sinceSample + 1 }
        cars := s.cars.map fun b => { b with
          line := { b.line with lostTimer := b.line.lostTimer + 1 }
          inputs := { b.inputs with
            zone := held b.inputs.zone, chain := held b.inputs.chain, lockout := held b.inputs.lockout }
          record := { b.record with
            confirmTimer := less b.record.confirmTimer
            retryTimer := less b.record.retryTimer
            ackTimer := less b.record.ackTimer
            moveTimer := less b.record.moveTimer
            dwellTimer := less b.record.dwellTimer
            slipTimer := less b.record.slipTimer
            gateTimer := less b.record.gateTimer
            motionAge := b.record.motionAge.map fun n => n + 1 }
          signals := { b.signals with
            unlockTimer := less b.signals.unlockTimer
            reassurance := less b.signals.reassurance
            playing := b.signals.playing.map fun x => { x with left := x.left - 1 } } } })

/-- The commands that are due are exactly those whose time has run: the acceptance of a level whose filter time has run (R36
to R38, R142, R148, R149), the lost timeout (R24, R8), the running timers of the car records, of Car Signals and of the
supply at 0, the segment of a tone pattern (R181), the share of a brake channel after frame × share × 10 µs (R161), the frame
boundary (R160), the battery sample after 250 ms (R143, its reading the free value of log 23), the lamps' phase and the 1 s
tick (R180, R124); no other command is ever due. The model's choices are that the part gives itself these commands (log 2), that
a share counts in whole milliseconds (log 28), and that the lit phase of the lamps begins with the first tick (log 26). -/
def Obligations.TimersComeDue : Prop :=
  ∀ (s : State) (i : Instr),
    let accepts (input : LevelInput) (level : Bool) :=
      (s.filter input).holding = some 0 ∧ (s.filter input).candidate = level ∧ (s.filter input).accepted.isSome = true
    let ends (active : Nat) := active < 100 ∧ s.globals.frame * active * 10 ≤ s.time.sinceFrame * 1000
    i ∈ s.due ↔ match i with
      | .firstLevelAcceptance input level =>
          (s.filter input).holding = some 0 ∧ (s.filter input).candidate = level ∧ (s.filter input).accepted = none
      | .zoneEdge c kind => accepts (.zone c) (kind == .enter)
      | .chainClosed c => accepts (.chain c) true
      | .chainOpen c => accepts (.chain c) false
      | .lockoutOn c => accepts (.lockout c) true
      | .lockoutOff c => accepts (.lockout c) false
      | .mainsLevelChange present => accepts .mains present
      | .converterReady => accepts .converter true
      | .converterNotReady => accepts .converter false
      | .lostTimeout c => (s.car c).line.state ≠ .lost ∧ (s.car c).line.lostLimit ≤ (s.car c).line.lostTimer
      | .confirmTimerExpiry c => (s.car c).record.confirmTimer = some 0
      | .retryTimerExpiry c => (s.car c).record.retryTimer = some 0
      | .ackTimerExpiry c => (s.car c).record.ackTimer = some 0
      | .moveTimerExpiry c => (s.car c).record.moveTimer = some 0
      | .dwellTimerExpiry c => (s.car c).record.dwellTimer = some 0
      | .slipTimerExpiry c => (s.car c).record.slipTimer = some 0
      | .gateTimerExpiry c => (s.car c).record.gateTimer = some 0
      | .unlockTimerExpiry c => (s.car c).signals.unlockTimer = some 0
      | .reassuranceTimerExpiry c => (s.car c).signals.reassurance = some 0
      | .toneSegmentEnd c => ∃ x, (s.car c).signals.playing = some x ∧ x.left = 0
      | .brakeShareEnd c .a =>
          (s.car c).brake.channelA = .open ∧ (s.car c).brake.insideA = true ∧ ends (s.car c).brake.activeA
      | .brakeShareEnd c .b =>
          (s.car c).brake.channelB = .open ∧ (s.car c).brake.insideB = true ∧ ends (s.car c).brake.activeB
      | .mainsStableExpiry => s.supply.stableTimer = some 0
      | .wakeTimeout => s.supply.wakeTimer = some 0
      | .standbyDwellExpiry => s.supply.standbyTimer = some 0
      | .batterySample reading => 250 ≤ s.time.sinceSample ∧ reading = Config.batteryReading s.samples
      | .frameBoundary => s.globals.frame ≤ s.time.sinceFrame
      | .lampFlashPhase => s.time.flashLit = true ∧ 500 ≤ s.time.sinceTick
      | .oneSecondTick => 1000 ≤ s.time.sinceTick
      | _ => False

/-! ## Power and the Settings Store -/

/-- POWER_ON and a soft reset load the configuration from the stored image and put every block at its reset values (R16,
R17, R190); a soft reset keeps the battery sample and the first-sample flag and recomputes the energy from them (R141). The
panel port then answers to the sampled address alone (R183, R184). After an accepted RESET the soft reset begins at the end of
the next station-port transaction: a response read, or a request, which is discarded unjudged, or the empty transaction that
SOFT_RESET stands for, the model's reading of that row (log 11). The model's choices are the raw levels as candidates (log 6),
the absent encoder pair (log 7), the lamp phase dark until the first tick (log 26), the address that the inputs show at a
reset by a transaction, a free value (log 29), and that a POWER_ON given to a part that has power already loads just so, a SAVE
in flight dropped and the image as it stands (log 34). -/
def Obligations.ResetsLoadTheImage : Prop :=
  ∀ (address : Fin 4) (s : State),
    let soft (address : Fin 4) (u : Part) := LoadedFrom s.toPart u ∧ u.panelAddress = 52 + address.val ∧
      (∀ a, u.acknowledges a = true ↔ a = 52 + address.val) ∧
      u.supply = { Supply.fresh with
        sample := s.supply.sample
        sampled := s.supply.sampled
        charge := s.supply.sample.map (stateOfCharge u.config.soc)
        usable := s.supply.sample.map fun v => stateOfCharge u.config.soc v - u.globals.reserveFloor }
    (∃ t, exec (.powerOn address) s = .next t ∧ LoadedFrom s.toPart t.toPart ∧ t.panelAddress = 52 + address.val ∧
      (∀ a, t.acknowledges a = true ↔ a = 52 + address.val) ∧ t.supply = Supply.fresh ∧ t.samples = s.samples) ∧
    (s.powered = true → s.resetArmed = true →
      (∃ u, exec (.softReset address) s = .next (s.withPart u) ∧ soft address u ∧ u.samples = s.samples) ∧
      ∃ u, soft (Config.addressInputs s.samples) u ∧ u.samples = s.samples + 1 ∧
        (∃ bytes, exec (.responseRead .station) s =
          .next (s.withPart { u with station := { u.station with clocked := bytes } })) ∧
        ∀ code body, code ≠ 0 → exec (requestOf .station code body) s = .next (s.withPart u)) ∧
    (s.powered = true → s.resetArmed = false → exec (.softReset address) s = .next s)

/-- SAVE_SETTINGS and the two phases of a SAVE (R13, R14), and RESET (R190): a request that meets a SAVE in flight is
answered BUSY. POWER_FAIL stops the part (R16): with no SAVE in flight the image stands, and what one in flight leaves in it,
in WRITING or in VERIFYING, is the command's operand, the model's choice (log 10). -/
def Obligations.SavePhases : Prop :=
  ∀ s : State,
    (∀ q body, s.given q 27 body [] →
      (s.store.save = .idle →
        exec (.saveSettings q body) s = .next (s.answered
          { s.toPart with store := { s.store with
              snapshot := some ⟨s.config, imageChecksum s.config⟩, unsaved := false, save := .writing } } q .ok [])) ∧
      (s.store.save ≠ .idle → exec (.saveSettings q body) s = .next (s.answered s.toPart q .busy []))) ∧
    (∀ q body, s.given q 28 body [] →
      (s.store.save = .idle →
        exec (.reset q body) s = .next (s.answered { s.toPart with resetArmed := true } q .ok [])) ∧
      (s.store.save ≠ .idle → exec (.reset q body) s = .next (s.answered s.toPart q .busy []))) ∧
    (s.powered = true → s.store.save = .writing → ∀ i, s.store.snapshot = some i →
      exec .saveWriteComplete s = .next { s with store := { s.store with image := i, save := .verifying } }) ∧
    (s.powered = true → s.store.save = .verifying → ∀ i, s.store.snapshot = some i →
      exec (.saveVerifyComplete i) s = .next { s with
        store := { s.store with save := .idle, snapshot := none, source := .stored }
        station := s.station.offer ⟨.saveDone, none⟩ } ∧
      ∀ found, found ≠ i →
        exec (.saveVerifyComplete found) s = .next { s with
          store := { s.store with image := found, save := .idle, snapshot := none, unsaved := true }
          station := s.station.offer ⟨.saveFailed, none⟩ }) ∧
    (s.powered = true → ∀ left, exec (.powerFail left) s = .next { s with
      powered := false
      store := { s.store with image := if s.store.save = .idle then s.store.image else left } })

/-! ## Ports -/

/-- Tests 1 to 4 of R185, in their order, for a request of any code; 0 on the station port begins a response read, not a
request (R184). A refused request changes nothing but its port's response. A request that comes while one is being handled is
discarded whole, unjudged, and changes nothing (R184). The frames that test 1 passes are those whose bytes after the code are
a length of at most 64, that many payload bytes, and a checksum that makes the sum 0 (R192); the codes and lengths that test 2
passes, and the ports that test 3 refuses, are those of Table 26, the lengths being those of the fields by log 15. That a request
is one command, its frame whole, is the model's reading (log 16). -/
def Obligations.RequestsJudged : Prop :=
  (∀ (s : State) (q : Port) (code : Byte) (body : List Byte),
    ¬(q = .station ∧ code = 0) →
    (s.powered = true → ¬(q = .station ∧ s.resetArmed = true) → (s.port q).buffer.isHandling = true →
      exec (requestOf q code body) s = .next (s.withPart (s.modPort q fun x => { x with clocked := [] }))) ∧
    (s.takesRequests q → (requestPayload code body = none →
      exec (requestOf q code body) s = .next (s.answered s.toPart q .badChecksum [])) ∧
    ∀ payload, requestPayload code body = some payload →
      (isCommand code = false ∨ lengthAllowed code payload.length = false →
        exec (requestOf q code body) s = .next (s.answered s.toPart q .badCommand [])) ∧
      (isCommand code = true → lengthAllowed code payload.length = true →
        (mayGive q code = false →
          exec (requestOf q code body) s = .next (s.answered s.toPart q .notAllowed [])) ∧
        (mayGive q code = true → namesCar code = true →
          (∀ c : Car, (payload.getD 0 0).toNat = c.val →
            s.stateOf c = .unconfigured ∧ ¬(20 ≤ code.toNat ∧ code.toNat ≤ 24)) →
          exec (requestOf q code body) s = .next (s.answered s.toPart q .badCar []))))) ∧
  (∀ (code : Byte) (body payload : List Byte), requestPayload code body = some payload ↔
    payload.length ≤ 64 ∧ ∃ check, body = BitVec.ofNat 8 payload.length :: (payload ++ [check]) ∧
      code + body.foldl (· + ·) 0 = 0) ∧
  (∀ (code : Byte) (n : Nat), isCommand code = true ∧ lengthAllowed code n = true ↔
    (code.toNat ∈ [3, 5, 7, 11, 14, 27, 28] ∧ n = 0) ∨
    (code.toNat ∈ [1, 4, 6, 12, 13, 20, 21, 40, 41, 43, 44, 45, 46, 47] ∧ n = 1) ∨
    (code.toNat ∈ [2, 9, 24] ∧ n = 3) ∨
    (code.toNat = 8 ∧ ∃ pairs, pairs ≤ 32 ∧ n = 2 * pairs) ∨
    (code.toNat = 10 ∧ ∃ fields, fields ≤ 21 ∧ n = 3 * fields) ∨
    (code.toNat = 22 ∧ n = 23) ∨
    (code.toNat = 23 ∧ ∃ landings, 2 ≤ landings ∧ landings ≤ 8 ∧ n = 3 + 3 * landings) ∨
    (code.toNat = 25 ∧ n = 49) ∨
    (code.toNat = 26 ∧ ∃ points, 2 ≤ points ∧ points ≤ 8 ∧ n = 1 + 4 * points) ∨
    (code.toNat = 42 ∧ n = 6)) ∧
  ∀ (q : Port) (code : Byte), isCommand code = true →
    (mayGive q code = false ↔
      (q = .station ∧ 40 ≤ code.toNat) ∨ (q = .panel ∧ 20 ≤ code.toNat ∧ code.toNat ≤ 28))

/-- What a port clocks out. A response read gets NOT_READY, or READY with the result, length, payload and checksum, and after
them filler bytes of 0; it leaves the response as it stands (R184, R192). During a request transaction the port clocks out
filler alone (R184). The record of what was clocked out is the model's own (log 25). -/
def Obligations.ResponseReadBytes : Prop :=
  ∀ (s : State) (q : Port), s.powered = true →
    (∃ t bytes, exec (.responseRead q) s = .next t ∧
      (q = .panel ∨ s.resetArmed = false → t = s.withPart (s.modPort q fun x => { x with clocked := bytes })) ∧
      (∀ place, (t.port q).dataOut place = bytes.getD place 0) ∧
      (∀ r payload, (s.port q).buffer = .ready r payload →
        ∃ check, bytes = 165 :: resultCode r :: BitVec.ofNat 8 payload.length :: (payload ++ [check]) ∧
          (bytes.drop 1).foldl (· + ·) 0 = 0) ∧
      ((∀ r payload, (s.port q).buffer ≠ .ready r payload) → bytes = [90])) ∧
    ∀ (code : Byte) (body : List Byte), ¬(q = .station ∧ code = 0) →
      ∃ t, exec (requestOf q code body) s = .next t ∧ ∀ place, (t.port q).dataOut place = 0

/-- The reads of Table 26 answer OK with their payload and change nothing else (R27, R50, R116, R121, R158, R186, R189); a
rule index above 15 and a section that is none are answered BAD_VALUE. READ_TRACKER starts at its start index, or at CONTINUE
where the port's cursor stands, and moves that cursor (R187). The widths and places of what a payload carries are the model's
where R186 leaves them open (logs 12, 13, 30). -/
def Obligations.ReadsAnswer : Prop :=
  (∀ (s : State) (q : Port) (body payload : List Byte),
    (∀ c rest, s.givenCar q 1 body c rest →
      exec (.readCar q body) s = .next (s.answered s.toPart q .ok (s.readCar c))) ∧
    (s.given q 3 body payload → exec (.readSupply q body) s = .next (s.answered s.toPart q .ok s.readSupply)) ∧
    (∀ k, s.given q 4 body [k] →
      (∀ i : Fin 16, k.toNat = i.val →
        exec (.readRule q body) s = .next (s.answered s.toPart q .ok (s.readRule i))) ∧
      (16 ≤ k.toNat → exec (.readRule q body) s = .next (s.answered s.toPart q .badValue []))) ∧
    (s.given q 5 body payload →
      exec (.readStage q body) s = .next (s.answered s.toPart q .ok
        (putRule (s.port q).staging.image ++ putNat 2 (s.port q).staging.selected.toNat))) ∧
    (∀ k, s.given q 6 body [k] →
      let state := [saveCode s.store.save, sourceCode s.store.source, if s.store.unsaved then 1 else 0].map (BitVec.ofNat 8)
      (∀ c : Car, k.toNat = c.val →
        exec (.readConfig q body) s = .next (s.answered s.toPart q .ok (putCarEntry (s.entry c) ++ state))) ∧
      (k = 8 → exec (.readConfig q body) s = .next (s.answered s.toPart q .ok (putGlobals s.globals ++ state))) ∧
      (k = 9 → exec (.readConfig q body) s = .next (s.answered s.toPart q .ok (putSoc s.config.soc ++ state))) ∧
      (10 ≤ k.toNat → exec (.readConfig q body) s = .next (s.answered s.toPart q .badValue []))) ∧
    (s.given q 7 body payload →
      exec (.readNotices q body) s = .next (s.answered s.toPart q .ok ((s.port q).notices.flatMap putNotice))) ∧
    (∀ c rest, s.givenCar q 20 body c rest →
      exec (.readLine q body) s = .next (s.answered s.toPart q .ok (s.car c).line.readLine))) ∧
  ∀ (s : State) (q : Port) (body : List Byte) (c : Car) (start count : Byte),
    s.givenCar q 2 body c [start, count] →
    let used := if start = 255 then
        (match (s.port q).cursor with
         | some (d, next) => if d = c then next else 0
         | none => 0)
      else start.toNat
    let next := if 2 * (s.entry c).landings - 2 < used + count.toNat then 0 else used + count.toNat
    (start.toNat ≤ 14 ∨ start = 255 → 1 ≤ count.toNat → count.toNat ≤ 15 →
      exec (.readTracker q body) s = .next (s.answered
        (s.modPort q fun x => { x with cursor := some (c, next) }) q .ok (s.readTracker c used count.toNat))) ∧
    ((14 < start.toNat ∧ start ≠ 255) ∨ count = 0 ∨ 15 < count.toNat →
      exec (.readTracker q body) s = .next (s.answered s.toPart q .badValue []))

/-- The payload of READ_CAR, item by item: the Conditioner's figures (R50), the plan, the Planner's figures and the pass
(R122), the Brake Drive (R173), Car Signals (R182), the car record in the order of Table 9 (R51), and at the end whether the
tracker is resolved (R93) and the alarm tally (R106, R121). The widths and places that R186 leaves open are the model's (logs
12, 30), among them that the playing pattern is its name alone, and a move record kept through a write of the pulses per metre is converted by the new figure (log 31). -/
def Obligations.CarRead : Prop :=
  ∀ (s : State) (q : Port) (body : List Byte) (c : Car) (rest : List Byte), s.givenCar q 1 body c rest →
    let wide (w n : Nat) : List Byte := (List.range w).map fun i => BitVec.ofNat 8 (n / 256 ^ (w - 1 - i))
    let maybe (w : Nat) (x : Option Nat) : List Byte := match x with
      | some n => 1 :: wide w n
      | none => 0 :: wide w 0
    let yes (b : Bool) : List Byte := if b then [1] else [0]
    let mm (count : Int) : List Byte := wide 4 (countToMm (s.entry c).ppm count % 4294967296).toNat
    let level (x : LevelFilter) : List Byte := wide 1 ([some true, some false, none].idxOf x.accepted)
    let channel (x : ChannelState) : List Byte := wide 1 ([ChannelState.closed, .open, .locked].idxOf x)
    let tone (x : Option TonePattern) : List Byte :=
      wide 1 ([some TonePattern.moveStart, some .levelled, some .release, some .reassure, none].idxOf x)
    let b := s.car c
    let i := b.inputs
    let plan := b.planner.plan
    let k := b.brake
    let x := b.signals
    let r := b.record
    exec (.readCar q body) s = .next (s.answered s.toPart q .ok (
      level i.zone ++ level i.chain ++ level i.lockout ++ wide 1 i.encoderErrors ++ mm i.odometry
      ++ wide 1 ([some Dir.up, some .down, none].idxOf i.move.dir) ++ mm i.move.peak ++ mm i.move.travel
      ++ wide 1 i.window.length ++ wide 3 i.window.sum
      ++ yes plan.planned
      ++ maybe 1 (plan.method.map [PlanMethod.gravityDown, .gravityUp, .poweredUp, .poweredDown, .probe, .none].idxOf)
      ++ maybe 1 (plan.natural.map [NaturalDir.up, .down, .balanced, .unknown].idxOf)
      ++ maybe 1 (plan.basis.map [PositionBasis.landing, .known, .worstCase, .noSpan].idxOf)
      ++ maybe 1 (plan.dir.map [Dir.up, .down].idxOf) ++ maybe 1 plan.target ++ maybe 3 plan.distance
      ++ maybe 3 plan.travelTime ++ maybe 2 plan.estimate ++ maybe 3 plan.upDistance ++ maybe 3 plan.downDistance
      ++ wide 2 b.planner.urgency ++ wide 2 b.planner.weight ++ wide 1 b.planner.mask.toNat ++ maybe 1 b.planner.alarmMark
      ++ yes s.pass.isSome ++ maybe 1 (s.pass.map fun a => [PassKind.timed, .requested].idxOf a.kind)
      ++ yes s.timedPending ++ yes s.requestPending
      ++ channel k.channelA ++ channel k.channelB ++ maybe 1 (k.opening.map [OpeningKind.lowering, .probe].idxOf)
      ++ yes k.started ++ wide 1 k.shadowA ++ wide 1 k.activeA ++ wide 1 k.shadowB ++ wide 1 k.activeB
      ++ wide 2 k.framesOpen ++ maybe 2 k.lastSpeed
      ++ maybe 3 (if r.state = .lowering then some (plan.distance.getD 0 + s.globals.runMargin) else none)
      ++ maybe 1 (x.releaseMethod.map [ReleaseMethod.frame, .pulse].idxOf) ++ yes (!x.unlockOutput)
      ++ maybe 2 x.unlockTimer ++ maybe 2 r.gateTimer ++ wide 1 ([LampMode.off, .steady, .flash].idxOf x.lamp)
      ++ tone (x.playing.map (·.pattern)) ++ tone x.waiting ++ maybe 3 x.reassurance ++ yes x.silenced
      ++ wide 1 c.val
      ++ wide 1 ([RescueState.unconfigured, .normal, .confirming, .assessing, .ready, .probing, .lowering, .levelling,
          .driving, .releasing, .rescued, .held, .failed, .inhibited].idxOf r.state)
      ++ wide 1 ([none, some HeldCause.safety, some .lockout, some .noMethod, some .position].idxOf r.heldCause)
      ++ maybe 1 (r.stallCause.map [StallCause.power, .driveFault, .safety, .unknown].idxOf)
      ++ maybe 1 (r.lastAbort.map [AbortCause.chainOpen, .lockout, .supplyLost, .inhibit, .reversal, .overspeed, .runLimit,
          .brakeSlip, .noAck, .driveFail, .driveTimeout, .gateTimeout, .stopOutsideZone].idxOf)
      ++ maybe 1 r.driveFailReason ++ wide 2 r.trappedTime ++ wide 1 r.attempts
      ++ maybe 1 (r.probeResult.map [ProbeResult.up, .down, .noDrift].idxOf)
      ++ maybe 2 r.confirmTimer ++ maybe 3 r.retryTimer ++ maybe 2 r.ackTimer ++ maybe 3 r.moveTimer
      ++ maybe 2 r.dwellTimer ++ maybe 2 r.slipTimer ++ maybe 2 r.gateTimer
      ++ yes r.first ++ yes r.energyShort ++ maybe 1 r.moveId ++ maybe 1 r.lastEscalation
      ++ maybe 1 (r.summary.methodUsed.map [MethodUsed.gravityDown, .gravityUp, .poweredUp, .poweredDown, .none].idxOf)
      ++ maybe 1 r.summary.landing ++ maybe 2 r.summary.releaseTime
      ++ yes (decide (s.globals.threshold ≤ b.tracker.confidence)) ++ wide 2 b.policy.alarmTally))

/-- The payloads of READ_SUPPLY (R158), READ_RULE (R121), READ_LINE (R27) and READ_TRACKER (R101, R187), item by item. An
output is coded by its place in "active, inactive", active 0 (R186, Tables 19 and 23). A rule's fields, its pending ones
too, each take the fewest whole bytes of their range (R186). The widths and places that R186 leaves open are the model's (logs
12, 30), among them the selected set that comes before a pending commit's values and the anchor detail of READ_TRACKER in three
fields that may each be absent, and the byte of the cause UNKNOWN is a free value (log 13). -/
def Obligations.ReadContents : Prop :=
  ∀ (s : State) (q : Port) (body : List Byte),
    let wide (w n : Nat) : List Byte := (List.range w).map fun i => BitVec.ofNat 8 (n / 256 ^ (w - 1 - i))
    let maybe (w : Nat) (x : Option Nat) : List Byte := match x with
      | some n => 1 :: wide w n
      | none => 0 :: wide w 0
    let yes (b : Bool) : List Byte := if b then [1] else [0]
    let level (x : LevelFilter) : List Byte := wide 1 ([some true, some false, none].idxOf x.accepted)
    let cars (f : Car → Bool) : List Byte := wide 1 (allCars.map fun c => if f c then 2 ^ c.val else 0).sum
    let x := s.supply
    (∀ payload, s.given q 3 body payload →
      exec (.readSupply q body) s = .next (s.answered s.toPart q .ok (
        level s.mainsInput ++ wide 1 ([MainsBelief.unknown, .present, .absent].idxOf x.belief) ++ maybe 2 x.stableTimer
        ++ level s.converterInput ++ maybe 2 x.sample ++ yes x.sampled ++ maybe 2 x.charge ++ maybe 2 x.usable
        ++ wide 1 ([ConverterState.off, .standby, .waking, .on, .fault].idxOf x.converter) ++ yes (!x.enable)
        ++ maybe 2 x.wakeTimer ++ maybe 3 x.standbyTimer ++ wide 1 x.wakeErrors ++ wide 1 x.wakeFailures
        ++ wide 3 s.reserved ++ cars (fun c => (s.car c).slots.brake) ++ cars (fun c => (s.car c).slots.drive)
        ++ wide 1 s.globals.brakeSlots ++ wide 1 s.globals.driveSlots ++ yes s.supplyReady))) ∧
    (∀ (n : Byte) (k : Fin 16), s.given q 4 body [n] → n.toNat = k.val →
      let r := s.config.rules[k]
      let field (r : Rule) (n : Nat) : Nat := ([
        if r.enabled then 1 else 0,
        [Quantity.loadKg, .trappedS, .landing, .alarms, .usableEu, .urgency].idxOf r.quantity,
        [Compare.off, .inRange, .outOfRange, .atBound].idxOf r.compare, r.low, r.high, r.causes.toNat,
        [LineCondition.any, .alive, .lost].idxOf r.lineCondition,
        [WeightAction.none, .raise, .lower, .set].idxOf r.weightAction, r.weightValue,
        [MethodAction.none, .add, .keepOnly, .set].idxOf r.methodAction, r.methods.toNat,
        [CountAction.none, .countUp, .countDown].idxOf r.countAction, [CountUnit.seconds, .minutes].idxOf r.countUnit,
        r.countLimit] : List Nat).getD n 0
      let bytes (r : Rule) (n : Nat) := wide ([1, 1, 1, 2, 2, 1, 1, 1, 2, 1, 1, 1, 1, 2].getD n 0) (field r n)
      let entries := s.commits.filter fun e => e.rule == k
      exec (.readRule q body) s = .next (s.answered s.toPart q .ok (
        ((List.range 14).flatMap (bytes r))
        ++ (allCars.flatMap fun c =>
          let counter := (s.car c).policy.counters[k]
          wide 1 ([CounterState.idle, .counting, .reached].idxOf counter.state) ++ wide 2 counter.value
            ++ wide 1 counter.minutes)
        ++ yes (!entries.isEmpty)
        ++ entries.flatMap fun e =>
          wide 1 ([Port.station, .panel].idxOf e.port) ++ wide 2 e.selected.toNat
            ++ ((List.range 14).filter fun n => e.selected.getLsbD n).flatMap (bytes e.image)))) ∧
    (∀ c rest, s.givenCar q 20 body c rest →
      let l := (s.car c).line
      let status : List Byte := match l.lastStatus with
        | some y =>
            maybe 1 (some ([StatusMode.inService, .stalled, .outOfService].idxOf y.mode + 1)) ++ [1, causeByte y.cause]
            ++ wide 2 (y.load.getD 65535) ++ wide 1 (y.zone.getD 255) ++ wide 2 (y.offset.getD 65535)
            ++ maybe 1 (some ([GateState.unknown, .closed, .opening, .open].idxOf y.gate)) ++ maybe 1 (some y.alarmCount)
            ++ maybe 1 (some (if y.driveAvailable then 1 else 0))
        | none => [0, 0, 0, 0, 255, 255, 255, 255, 255, 0, 0, 0, 0, 0, 0]
      exec (.readLine q body) s = .next (s.answered s.toPart q .ok (
        wide 1 ([LineState.silent, .alive, .lost].idxOf l.state) ++ wide 2 (min 65535 l.lostTimer)
        ++ wide 1 l.parityErrors ++ wide 1 l.framingErrors ++ wide 1 l.overruns ++ wide 1 l.badFrames
        ++ wide 1 l.nextMoveId ++ wide 1 l.queue.length ++ yes l.overflow.isSome ++ status))) ∧
    ∀ c start count, s.givenCar q 2 body c [start, count] → start.toNat ≤ 14 → 1 ≤ count.toNat → count.toNat ≤ 15 →
      let y := (s.car c).tracker
      let v := s.viewOf c
      let zone := match y.anchor with
        | .seed z _ => some z
        | _ => none
      let offset := match y.anchor with
        | .seed _ o => some o
        | _ => none
      let detail := match y.anchor with
        | .edge d => some ([EdgeDetail.enter .up, .enter .down, .leave .up, .leave .down, .level].idxOf d)
        | _ => none
      let anchor := match y.anchor with
        | .none => 0
        | .edge _ => 1
        | .seed _ _ => 2
      let costs := (List.range count.toNat).flatMap fun i => maybe 2 y.costs[start.toNat + i]?
      ∃ t, exec (.readTracker q body) s = .next t ∧ (t.port q).buffer = .ready .ok (
        wide 1 anchor ++ maybe 1 detail ++ maybe 1 zone ++ maybe 3 offset
        ++ wide 4 (countToMm (s.entry c).ppm (s.car c).inputs.odometry % 4294967296).toNat
        ++ wide 1 y.confidence ++ wide 1 y.bestZone ++ yes (decide (s.globals.threshold ≤ y.confidence)) ++ yes y.confirmed
        ++ wide 2 v.least ++ maybe 1 v.bestZone ++ wide 1 v.confidence ++ yes v.resolved ++ maybe 3 v.offset ++ costs)

/-- The commands on a port's own records: ACK_NOTICES removes the listed pairs (R189), SET_NOTICE_ENABLE replaces the mask
and keeps the pending pairs (R188), STAGE_RULE stages its fields and CLEAR_STAGE empties the staging record (R115, R116); a
list, a set or a value that the manual does not admit changes nothing and is answered BAD_VALUE. What STAGE_RULE stages:
every carried field is selected, and holds the last value carried for it; every other field stands (R115). The lists that
ACK_NOTICES admits are those of kinds of Table 27, each with a car exactly if its kind carries one (R189, R192), and the
fields that STAGE_RULE admits are those of Table 15 with a value of theirs (R115, R186). The model's choices are the first
member of a set at bit 0 (log 12), and BAD_VALUE for a set with a bit beyond its last member and for a field number outside 1
to 14 (log 15). -/
def Obligations.PortRecords : Prop :=
  (∀ (s : State) (q : Port) (body payload : List Byte),
    (s.given q 8 body payload →
      (∀ pairs, readNotices payload = some pairs →
        exec (.ackNotices q body) s = .next (s.answered
          (s.modPort q fun x => { x with notices := x.notices.filter fun n => !pairs.contains n }) q .ok [])) ∧
      (readNotices payload = none → exec (.ackNotices q body) s = .next (s.answered s.toPart q .badValue []))) ∧
    (s.given q 9 body payload →
      (getNat payload < 2 ^ 17 →
        exec (.setNoticeEnable q body) s = .next (s.answered
          (s.modPort q fun x => { x with mask := BitVec.ofNat 17 (getNat payload) }) q .ok [])) ∧
      (2 ^ 17 ≤ getNat payload →
        exec (.setNoticeEnable q body) s = .next (s.answered s.toPart q .badValue []))) ∧
    (s.given q 10 body payload →
      (∀ staging, stageFields (s.port q).staging (readFields payload) = some staging →
        exec (.stageRule q body) s = .next (s.answered
          (s.modPort q fun x => { x with staging := staging }) q .ok [])) ∧
      (stageFields (s.port q).staging (readFields payload) = none →
        exec (.stageRule q body) s = .next (s.answered s.toPart q .badValue []))) ∧
    (s.given q 11 body payload →
      exec (.clearStage q body) s = .next (s.answered
        (s.modPort q fun x => { x with staging := ⟨defaultRule, 0⟩ }) q .ok []))) ∧
  (∀ (old new : Staging) (fields : List (Nat × Nat)), stageFields old fields = some new →
    ∀ n, 1 ≤ n → n ≤ 14 →
      (fieldIn new.selected n = true ↔ fieldIn old.selected n = true ∨ ∃ v, (n, v) ∈ fields) ∧
      ruleField new.image n =
        ((fields.reverse.find? fun f => f.1 == n).map (·.2)).getD (ruleField old.image n)) ∧
  (∀ (old : Staging) (fields : List (Nat × Nat)), (∀ f ∈ fields, f.1 < 256 ∧ f.2 < 65536) →
    let last : List Nat := [1, 5, 3, 65535, 65535, 15, 2, 3, 4095, 3, 31, 2, 1, 4095]
    let admitted (f : Nat × Nat) := 1 ≤ f.1 ∧ f.1 ≤ 14 ∧ f.2 ≤ last.getD (f.1 - 1) 0 ∧ (f.1 = 14 → 1 ≤ f.2)
    readFields (fields.flatMap fun f => [f.1, f.2 / 256, f.2].map (BitVec.ofNat 8)) = fields ∧
    (stageFields old fields = none ↔ ∃ f ∈ fields, ¬admitted f)) ∧
  ∀ (payload : List Byte) (pairs : List Notice), payload.length % 2 = 0 →
    let kinds : List NoticeKind := [.carStalled, .carReturned, .rescueStarted, .carLevelled, .carRescued, .carHeld, .carFailed,
      .escalation, .energyShort, .lineLost, .positionLost, .supplyFault, .urgencyRebased, .commitDone, .saveDone, .saveFailed,
      .settingsInvalid]
    let code (n : Notice) := kinds.idxOf n.kind + 1
    (readNotices payload = some pairs ↔
      payload = (pairs.flatMap fun n => [code n, match n.car with
        | some c => c.val
        | none => 255].map (BitVec.ofNat 8)) ∧
      ∀ n ∈ pairs, (n.car.isSome = true ↔ code n ≤ 11))

/-! ## Policy and configuration -/

/-- What validation admits: the fields of a car entry by Tables 4 and 6 (R5), the global parameters by Table 5 and R7, the
state-of-charge table by R10, a policy rule by Table 15 with low at most high (R103), and a stored image whose checksum is the
sum of its contents' bytes and whose every part is admitted (R12). The order and width of the bytes that are summed is the
model's choice (log 9). -/
def Obligations.SettingsAdmitted : Prop :=
  let within (n lo hi : Nat) := lo ≤ n ∧ n ≤ hi
  (∀ e : CarEntry, validParams e = true ↔
    within e.ratedLoad 300 5000 ∧ within e.balance 35 55 ∧ within e.margin 2 15 ∧ within e.coilPower 20 600 ∧
    within e.drivePower 100 8000 ∧ within e.efficiency 50 95 ∧ within e.speed 50 300 ∧
    within e.overspeed (e.speed + 20) 630 ∧ within e.ppm 100 4000 ∧ e.baseWeight ≤ 4095 ∧ e.bShare ≤ 100) ∧
  (∀ e : CarEntry, validMap e = true ↔
    within e.landings 2 8 ∧ e.heights.length = e.landings ∧ (∀ h ∈ e.heights, h ≤ 120000) ∧ within e.halfWidth 30 150 ∧
    ∀ i low high : Nat, e.heights[i]? = some low → e.heights[i + 1]? = some high →
      low < high ∧ low + (2 * e.halfWidth + 200) ≤ high) ∧
  (∀ g : Globals, validGlobals g = true ↔
    within g.lostTimeout 1000 10000 ∧ within g.filterTime 1 15 ∧ within g.confirmTime 2 60 ∧ within g.frame 10 100 ∧
    within g.window 1 8 ∧ g.band ≤ 50 ∧ within g.stepUp 1 20 ∧ within g.stepDown 1 20 ∧ within g.startShare 10 100 ∧
    within g.maxShare 20 100 ∧ within g.probeShare 10 60 ∧ within g.probeFrames 2 25 ∧ within g.probeThreshold 5 50 ∧
    within g.reversal 10 100 ∧ within g.runMargin 100 3000 ∧ within g.stopDwell 200 3000 ∧ within g.slipLimit 1 10 ∧
    within g.tolerance 1 64 ∧ within g.missPenalty 16 1024 ∧ within g.threshold 16 255 ∧ g.kOcc ≤ 100 ∧
    within g.defaultOcc 1 20 ∧ g.kAlarm ≤ 255 ∧ within g.brakeSlots 1 4 ∧ g.driveSlots ≤ 2 ∧
    within g.ackTimeout 500 5000 ∧ within g.gateTimeout 5 60 ∧ within g.unlockPulse 200 5000 ∧ within g.retryDelay 10 600 ∧
    g.reserveFloor ≤ 65535 ∧ within g.wakeLimit 100 5000 ∧ within g.standbyDwell 5 600 ∧ within g.mainsStable 1 60 ∧
    within g.toneHigh 100 5000 ∧ within g.toneLow 100 5000 ∧ within g.reassurance 10 120 ∧
    g.startShare ≤ g.maxShare ∧ g.probeShare ≤ g.maxShare) ∧
  (∀ table : List SocPoint, validSoc table = true ↔
    within table.length 2 8 ∧ (∀ p ∈ table, p.voltage ≤ 65535 ∧ p.energy ≤ 65535) ∧
    ∀ (i : Nat) (p n : SocPoint), table[i]? = some p → table[i + 1]? = some n → p.voltage < n.voltage ∧ p.energy ≤ n.energy) ∧
  (∀ r : Rule, validRule r = true ↔
    r.low ≤ r.high ∧ r.high ≤ 65535 ∧ r.weightValue ≤ 4095 ∧ within r.countLimit 1 4095) ∧
  ∀ i : StoredImage, validImage i = true ↔
    i.checksum.toNat = ((settingsBytes i.contents).map (·.toNat)).sum % 65536 ∧
    (∀ c : Car, validParams i.contents.cars[c] = true ∧ validMap i.contents.cars[c] = true) ∧
    validGlobals i.contents.globals = true ∧ validSoc i.contents.soc = true ∧
    ∀ k : Fin 16, validRule i.contents.rules[k] = true

/-- A commit accepted while no pass is in flight is applied at once: the selected fields replace those of rule k, every
counter of rule k returns to IDLE for all eight cars, the unsaved flag is set, and the answer is OK without a notice and
without a pass (R118). One accepted while a pass is in flight is placed at the end of the pending commit list, with a copy
of the port's selected fields, and answered PENDING (R119). A commit that names no rule is answered BAD_VALUE, one of a port
with an entry on the list BUSY, and one whose merged result is invalid BAD_VALUE; it changes nothing (R117). -/
def Obligations.CommitJudged : Prop :=
  ∀ (s : State) (q : Port) (body : List Byte) (b : Byte), s.given q 12 body [b] →
    let staging := (s.port q).staging
    (16 ≤ b.toNat → exec (.commitRule q body) s = .next (s.answered s.toPart q .badValue [])) ∧
    ∀ k : Fin 16, b.toNat = k.val →
      ((∃ e ∈ s.commits, e.port = q) → exec (.commitRule q body) s = .next (s.answered s.toPart q .busy [])) ∧
      ((∀ e ∈ s.commits, e.port ≠ q) →
        (s.pass = none → validRule (mergeRule staging.selected staging.image s.config.rules[k]) = false →
          exec (.commitRule q body) s = .next (s.answered s.toPart q .badValue [])) ∧
        (s.pass = none → validRule (mergeRule staging.selected staging.image s.config.rules[k]) = true →
          exec (.commitRule q body) s = .next (s.answered
            { s.toPart with
              config := { s.config with
                rules := s.config.rules.set k (mergeRule staging.selected staging.image s.config.rules[k]) }
              cars := s.cars.map fun x => { x with policy :=
                { x.policy with counters := x.policy.counters.set k ⟨.idle, 0, 0⟩ } }
              store := { s.store with unsaved := true } } q .ok [])) ∧
        (s.pass.isSome = true →
          let standing := s.commits.foldl
            (fun r e => if e.rule = k then mergeRule e.selected e.image r else r) s.config.rules[k]
          (validRule (mergeRule staging.selected staging.image standing) = false →
            exec (.commitRule q body) s = .next (s.answered s.toPart q .badValue [])) ∧
          (validRule (mergeRule staging.selected staging.image standing) = true →
            exec (.commitRule q body) s = .next (s.answered
              { s.toPart with commits := s.commits ++ [⟨q, k, staging.image, staging.selected⟩] } q .pending []))))

/-- The tests of a car configuration write after the car's number: the car's state, then the fields (R4). The entry that a
WRITE_CAR_PARAMS, a WRITE_MAP or a WRITE_RULESET makes of its fields is the operand decoding of R3, R5 and R186 (log 15). An
accepted write replaces the entry and re-initialises the car (R4, R6): tracker uniform, record cleared, NORMAL or
UNCONFIGURED by the entry with the stall condition judged, Planner and policy figures at their starts, waiting pattern and
suppression gone, a requested pass asked for; its line, its levels, its brake and its slots stand. A car in CONFIRMING is
refused with BUSY by R4, where Table 14 names a reset of its tracker: the model's reading of the two (log 36). -/
def Obligations.CarWrites : Prop :=
  ∀ (s : State) (q : Port) (body : List Byte) (c : Car) (rest : List Byte),
    let configurable := s.stateOf c = .normal ∨ s.stateOf c = .unconfigured ∨ s.stateOf c = .inhibited
    (s.givenCar q 22 body c rest →
      (¬configurable → exec (.writeCarParams q body) s = .next (s.answered s.toPart q .busy [])) ∧
      (configurable → (readParams (s.entry c) rest).all validParams = false ∨ readParams (s.entry c) rest = none →
        exec (.writeCarParams q body) s = .next (s.answered s.toPart q .badValue []))) ∧
    (s.givenCar q 23 body c rest →
      (¬configurable → exec (.writeMap q body) s = .next (s.answered s.toPart q .busy [])) ∧
      (configurable → validMap (readMap (s.entry c) rest) = false →
        exec (.writeMap q body) s = .next (s.answered s.toPart q .badValue []))) ∧
    (s.givenCar q 24 body c rest → ¬configurable →
      exec (.writeRuleset q body) s = .next (s.answered s.toPart q .busy [])) ∧
    ∀ (e : CarEntry) (i : Instr), configurable →
    (s.givenCar q 22 body c rest ∧ i = .writeCarParams q body ∧ readParams (s.entry c) rest = some e ∧ validParams e = true) ∨
    (s.givenCar q 23 body c rest ∧ i = .writeMap q body ∧ readMap (s.entry c) rest = e ∧ validMap e = true) ∨
    (s.givenCar q 24 body c rest ∧ i = .writeRuleset q body ∧
      e = { s.entry c with ruleSet := BitVec.ofNat 16 (getNat (rest.take 2)) }) →
    let before := { s.toPart with
      config := { s.config with cars := s.config.cars.set c e }
      store := { s.store with unsaved := true } }.responded q .ok []
    let b := s.car c
    let cleared : CarBlock := { b with
      record := CarRecord.fresh e.present
      tracker := ⟨List.replicate (2 * e.landings - 1) 0, .none, 0, 0, false⟩
      inputs := { b.inputs with odometry := 0 }
      planner := ⟨0, e.baseWeight, allMethods, none, .empty⟩
      policy := ⟨0, none, Vector.replicate 16 .idle⟩
      signals := { b.signals with waiting := none, silenced := false, lamp := .off, reassurance := none } }
    ∃ t, exec i s = .next t ∧ OnlyCar c before t.toPart ∧ PassAsked before t.toPart ∧
      t.car c = cleared.judged s.globals

/-- WRITE_GLOBAL (its fields read by log 15): BUSY while a car moves, BAD_VALUE for parameters out of range (R7); accepted,
all of Table 5 is replaced together, the frame counter restarts, each line discards its FIFO and its frame in assembly, an
unlock pulse whose bound fails ends (R176), usable energy is recomputed (R8, R9), and the selection that a recomputation with a
sample makes follows (R145, R154); nothing else changes. -/
def Obligations.GlobalWrite : Prop :=
  ∀ (s : State) (q : Port) (body payload : List Byte), s.given q 25 body payload →
    ((∃ c, isMoveState (s.stateOf c) = true) →
      exec (.writeGlobal q body) s = .next (s.answered s.toPart q .busy [])) ∧
    ((∀ c, isMoveState (s.stateOf c) = false) →
      ((readGlobals payload).all validGlobals = false ∨ readGlobals payload = none →
        exec (.writeGlobal q body) s = .next (s.answered s.toPart q .badValue [])) ∧
      ∀ g, readGlobals payload = some g → validGlobals g = true →
        let before := { s.toPart with
          config := { s.config with globals := g }
          store := { s.store with unsaved := true }
          time := { s.time with sinceFrame := 0 } }.responded q .ok []
        let written : Part := { before with
          supply := { s.supply with
            charge := s.supply.sample.map (stateOfCharge s.config.soc)
            usable := s.supply.sample.map fun v => stateOfCharge s.config.soc v - g.reserveFloor }
          cars := s.cars.map fun b => { b with
            line := { b.line with fifo := [], assembly := ⟨.hunt, 0, 0, [], 0⟩ }
            inputs := { b.inputs with frameCount := 0, window := [] }
            signals :=
              if b.record.state = .releasing ∧ b.inputs.zone.accepted = some true ∧ b.isPlaced g = true then b.signals
              else { b.signals with unlockTimer := none, unlockOutput := false } } }
        ∃ t, exec (.writeGlobal q body) s = .next t ∧
          t = s.withPart (if s.supply.sample.isSome = true then written.select else written) ∧
          KeepsRest before t.toPart ∧ PassKept s.toPart t.toPart ∧ t.supply = written.supply ∧
          ∀ c, s.stateOf c ≠ .ready → t.car c = written.car c)

/-- WRITE_SOC_TABLE (R10, its payload read by log 15) and a battery sample (R143): the state of charge and the usable energy
are recomputed (R144, R145), and the selection of a recomputation that finds a sample follows (R145, R154); nothing else
changes. A sample also starts the next 250 ms (R143) and raises the model's own count of samples (log 23). -/
def Obligations.EnergyRecomputed : Prop :=
  (∀ (s : State) (q : Port) (body payload : List Byte), s.given q 26 body payload →
    ((readSoc payload).all validSoc = false ∨ readSoc payload = none →
      exec (.writeSocTable q body) s = .next (s.answered s.toPart q .badValue [])) ∧
    ∀ table, readSoc payload = some table → validSoc table = true →
      let before := { s.toPart with
        config := { s.config with soc := table }
        store := { s.store with unsaved := true } }.responded q .ok []
      let written : Part := { before with supply := { s.supply with
        charge := s.supply.sample.map (stateOfCharge table)
        usable := s.supply.sample.map fun v => stateOfCharge table v - s.globals.reserveFloor } }
      ∃ t, exec (.writeSocTable q body) s = .next t ∧
        t = s.withPart (if s.supply.sample.isSome = true then written.select else written) ∧
        KeepsRest before t.toPart ∧ PassKept s.toPart t.toPart ∧ t.supply = written.supply ∧
        ∀ c, s.stateOf c ≠ .ready → t.car c = s.car c) ∧
  (∀ (s : State) (reading : BitVec 12), s.powered = true →
    let mv := reading.toNat * 65535 / 4095
    let before := { s.toPart with samples := s.samples + 1, time := { s.time with sinceSample := 0 } }
    let taken : Part := { before with supply := { s.supply with
      sample := some mv
      sampled := true
      charge := some (stateOfCharge s.config.soc mv)
      usable := some (stateOfCharge s.config.soc mv - s.globals.reserveFloor) } }
    ∃ t, exec (.batterySample reading) s = .next t ∧ t = s.withPart taken.select ∧
      KeepsRest before t.toPart ∧ PassKept s.toPart t.toPart ∧ t.supply = taken.supply ∧
      ∀ c, s.stateOf c ≠ .ready → t.car c = s.car c)

/-- The state of charge of a sample in a valid table: 0 below the first point, the last point's energy at or above it, and
between two points the interpolation, rounded down, which stays between their energies (R144). -/
def Obligations.StateOfCharge : Prop :=
  ∀ (table : List SocPoint) (v : Nat), validSoc table = true →
    (∀ p, table[0]? = some p → v < p.voltage → stateOfCharge table v = 0) ∧
    (∀ (i : Nat) (p n : SocPoint), table[i]? = some p → table[i + 1]? = some n → p.voltage ≤ v → v < n.voltage →
      stateOfCharge table v = p.energy + (v - p.voltage) * (n.energy - p.energy) / (n.voltage - p.voltage) ∧
      p.energy ≤ stateOfCharge table v ∧ stateOfCharge table v ≤ n.energy) ∧
    (∀ p, table.getLast? = some p → p.voltage ≤ v → stateOfCharge table v = p.energy) ∧
    stateOfCharge table v ≤ 65535

/-! ## Rules and plans -/

/-- The evaluation of the rules for one car of a pass (R105, R107 to R109, with the quantities of R104): from the base weight
and all five methods, each rule that matches, in index order, acts on the weight and on the mask. A rule matches when it is
enabled and in the car's set, its compare passes, its cause set is empty or holds the stall cause, and its line condition
is met. -/
def Obligations.RulesEvaluated : Prop :=
  ∀ (rules : Vector Rule 16) (s : CarSnapshot) (usable : Option Nat),
    let value (q : Quantity) : Option Nat := match q with
      | .loadKg => s.load
      | .trappedS => some s.trappedTime
      | .landing => some (s.bestZone / 2)
      | .alarms => if s.alarmReference.isSome then some s.alarmTally else none
      | .usableEu => usable
      | .urgency => some s.urgency
    let compares (r : Rule) : Prop := match r.compare with
      | .off => True
      | .inRange => ∃ q, value r.quantity = some q ∧ r.low ≤ q ∧ q ≤ r.high
      | .outOfRange => ∃ q, value r.quantity = some q ∧ (q < r.low ∨ r.high < q)
      | .atBound => ∃ q, value r.quantity = some q ∧ (q = r.low ∨ q = r.high)
    (∀ i : Fin 16, ruleMatches rules i s usable = true ↔
      rules[i].enabled = true ∧ s.entry.ruleSet.getLsbD i.val = true ∧ compares rules[i] ∧
      (rules[i].causes = 0 ∨ ∃ cause, s.stallCause = some cause ∧ rules[i].causes.getLsbD (stallCauseCode cause) = true) ∧
      (rules[i].lineCondition = .any ∨ (rules[i].lineCondition = .alive ∧ s.lineState = .alive) ∨
        (rules[i].lineCondition = .lost ∧ s.lineState = .lost))) ∧
    evaluateRules rules s usable = (List.finRange 16).foldl
      (fun (x : Nat × MethodSet) i =>
        if ruleMatches rules i s usable = true then
          (match rules[i].weightAction with
            | .none => x.1
            | .raise => max x.1 rules[i].weightValue
            | .lower => min x.1 rules[i].weightValue
            | .set => rules[i].weightValue,
           match rules[i].methodAction with
            | .none => x.2
            | .add => x.2 ||| rules[i].methods
            | .keepOnly => x.2 &&& rules[i].methods
            | .set => rules[i].methods)
        else x)
      (s.entry.baseWeight, 0b11111#5)

/-- The plan of one car from its snapshot: the locked-channel removal (R132); NONE at a landing, or no method where the view
is empty (R133); in a span the distances and targets of R134, the natural direction of R135, the method of R136, and the
figures of R137 and R138. -/
def Obligations.PlansMade : Prop :=
  ∀ (rules : Vector Rule 16) (pass : Pass) (s : CarSnapshot),
    let e := s.entry
    let g := pass.globals
    let made := planCar rules pass s
    let plan := made.plan
    let judged := evaluateRules rules s pass.usable
    let mask := if s.locked = true then judged.2 &&& 0b01100#5 else judged.2
    let up (a b : Nat) : Nat := (a + b - 1) / b
    let toEu (j : Nat) : Nat := min 65535 (up j 100)
    let counterweight := e.balance * e.ratedLoad / 100
    let margin := up (e.ratedLoad * e.margin) 100
    let natural : NaturalDir := match s.load, s.probeResult with
      | some load, _ =>
          if counterweight + margin < load then .down else if load + margin < counterweight then .up else .balanced
      | none, some .up => .up
      | none, some .down => .down
      | none, some .noDrift => .balanced
      | none, none => .unknown
    let far := largestSpan e
    let span : PositionBasis × Nat × Nat := match s.view.bestZone, s.view.resolved, s.view.offset with
      | none, _, _ => (.noSpan, far, far)
      | some z, true, some o => (.known, max 1 o, max 1 (spanLength e (z / 2) - o))
      | some _, _, _ => (.worstCase, far, far)
    let distance (d : Dir) : Nat := match d with
      | .down => span.2.1
      | .up => span.2.2
    let target (d : Dir) : Option Nat := match d with
      | .down => s.view.bestZone.map (· / 2)
      | .up => s.view.bestZone.map (· / 2 + 1)
    let powered := s.lineState = .alive ∧ s.driveAvailable = some true ∧ 1 ≤ g.driveSlots ∧ s.view.bestZone.isSome = true
    let either := maskHas mask .poweredUp = true ∧ maskHas mask .poweredDown = true
    made.weight = judged.1 ∧ made.mask = mask ∧ plan.planned = true ∧ plan.natural = some natural ∧
    (s.zoneLevel = some true →
      plan.basis = some .landing ∧ plan.dir = none ∧ plan.target = s.view.bestZone.map (· / 2) ∧
      plan.method = (if s.view.bestZone.isSome = true then some .none else none) ∧
      plan.distance = some 0 ∧ plan.travelTime = some 0 ∧ plan.estimate = some 0 ∧
      plan.upDistance = none ∧ plan.downDistance = none) ∧
    (s.zoneLevel ≠ some true →
      plan.basis = some span.1 ∧ plan.downDistance = some span.2.1 ∧ plan.upDistance = some span.2.2 ∧
      plan.method =
        (if natural = .down ∧ maskHas mask .gravityDown = true then some .gravityDown
         else if natural = .up ∧ maskHas mask .gravityUp = true then some .gravityUp
         else if natural = .unknown ∧ maskHas mask .probe = true then some .probe
         else if powered ∧ (if either then span.2.2 < span.2.1 else maskHas mask .poweredUp = true) then some .poweredUp
         else if powered ∧ maskHas mask .poweredDown = true then some .poweredDown
         else none) ∧
      (∀ m d, plan.method = some m → moveDirOf m = some d →
        let time := up (distance d * 1000) e.speed
        let brake := up (e.coilPower * time) 1000
        let against := match d, s.load with
          | .up, some load => load - counterweight
          | .down, some load => counterweight - load
          | _, none => 0
        let work := up (up (against * 981 * distance d) 100000 * 100) e.efficiency
        plan.dir = some d ∧ plan.target = target d ∧ plan.distance = some (distance d) ∧ plan.travelTime = some time ∧
        plan.estimate = some (toEu
          (if m = .poweredUp ∨ m = .poweredDown then up (e.drivePower * time) 1000 + brake + work else brake))) ∧
      (plan.method = some .probe →
        plan.dir = none ∧ plan.target = none ∧ plan.distance = some 0 ∧ plan.travelTime = some (g.probeFrames * g.frame) ∧
        plan.estimate = some (toEu (up (e.coilPower * g.probeFrames * g.frame) 1000))) ∧
      (plan.method = none →
        plan.dir = none ∧ plan.target = none ∧ plan.distance = some 0 ∧ plan.travelTime = some 0 ∧ plan.estimate = some 0))

/-- The rule counters at the end of a pass, for the rules that no pending commit is applied to (R110 to R113; R120):
COUNT_UP counts in the timed passes whose result the car takes and in which the rule matched it, COUNT_DOWN is armed by the
first such pass of either kind and then ticks in every timed pass while the car waits for its rescue. A counter that reaches
its end raises ESCALATION, and the highest such rule becomes the car's last escalation rule. -/
def Obligations.CountersStepped : Prop :=
  ∀ (s : State) (pass : Pass), s.powered = true → s.pass = some pass →
    let timed := pass.kind = .timed
    let waits (c : Car) := isTrapped (s.stateOf c) = true ∧ s.stateOf c ≠ .rescued
    let takes (c : Car) := (∃ x ∈ pass.cars, x.car = c) ∧ (s.stateOf c = .assessing ∨ s.stateOf c = .ready ∨
      (s.stateOf c = .held ∧ (s.car c).record.heldCause = some .noMethod))
    let matched (c : Car) (i : Fin 16) := ∃ x, pass.cars.find? (fun x => x.car == c) = some x ∧
      ruleMatches s.config.rules i x pass.usable = true
    ∃ t, exec .passEnd s = .next t ∧ ∀ c : Car,
      let ends (i : Fin 16) := (s.car c).policy.counters[i].state ≠ .reached ∧ (t.car c).policy.counters[i].state = .reached
      (∀ i : Fin 16, (∀ e ∈ s.commits, e.rule ≠ i) →
        let r := s.config.rules[i]
        let k := (s.car c).policy.counters[i]
        let after := (t.car c).policy.counters[i]
        let minute := if k.state = .idle then 1 else k.minutes + 1
        let unit := r.countUnit = .seconds ∨ 60 ≤ minute
        let minutes :=
          if r.countUnit = .seconds then (if k.state = .idle then 0 else k.minutes) else if 60 ≤ minute then 0 else minute
        let value := if k.state = .idle then 0 else k.value
        let raised := if unit then value + 1 else value
        let lowered := if unit then value - 1 else value
        (r.countAction = .none ∨ k.state = .reached → after = k) ∧
        (r.countAction = .countUp → k.state ≠ .reached →
          (timed ∧ takes c ∧ matched c i →
            after = if r.countLimit ≤ raised then ⟨.reached, r.countLimit, minutes⟩ else ⟨.counting, raised, minutes⟩) ∧
          (¬(timed ∧ takes c ∧ matched c i) → after = k)) ∧
        (r.countAction = .countDown → k.state = .idle →
          (takes c ∧ matched c i → after = ⟨.counting, r.countLimit, 0⟩) ∧ (¬(takes c ∧ matched c i) → after = k)) ∧
        (r.countAction = .countDown → k.state = .counting →
          (timed ∧ waits c → after = if lowered = 0 then ⟨.reached, 0, minutes⟩ else ⟨.counting, lowered, minutes⟩) ∧
          (¬(timed ∧ waits c) → after = k)) ∧
        (s.commits = [] → ends i → (∀ j : Fin 16, i < j → ¬ends j) → (t.car c).record.lastEscalation = some i.val) ∧
        (ends i → ∀ q : Port, maskHolds (s.port q).mask .escalation = true → ⟨.escalation, some c⟩ ∈ (t.port q).notices)) ∧
      (s.commits = [] → (∀ i : Fin 16, ¬ends i) → (t.car c).record.lastEscalation = (s.car c).record.lastEscalation)

/-- The pending commits at the end of a pass (R120, R114): each is applied in list order, its selected fields replacing
those of its rule; every counter of a rule so changed is IDLE for all eight cars; COMMIT_DONE is raised to each commit's own
port and to no other; the unsaved flag is set if there was a commit (R15); the list is emptied, and the rest of the store
stands. -/
def Obligations.CommitsApplied : Prop :=
  ∀ (s : State) (pass : Pass), s.powered = true → s.pass = some pass →
    let done : Notice := ⟨.commitDone, none⟩
    ∃ t, exec .passEnd s = .next t ∧ t.commits = [] ∧
      (∀ k : Fin 16, t.config.rules[k] = s.commits.foldl
        (fun r e => if e.rule = k then mergeRule e.selected e.image r else r) s.config.rules[k]) ∧
      (∀ e ∈ s.commits, ∀ c, (t.car c).policy.counters[e.rule] = ⟨.idle, 0, 0⟩) ∧
      (∀ e ∈ s.commits, maskHolds (s.port e.port).mask .commitDone = true → done ∈ (t.port e.port).notices) ∧
      (∀ q : Port, (∀ e ∈ s.commits, e.port ≠ q) → done ∈ (t.port q).notices → done ∈ (s.port q).notices) ∧
      t.store = { s.store with unsaved := s.store.unsaved || !s.commits.isEmpty }

/-! ## Commands on a car -/

/-- CLEAR_LINE_COUNTS sets the line's four counters to 0 (R27); CLEAR_FIRST clears its car's override (R81); SILENCE_TONE
stops the playing pattern, drops the waiting one and suppresses REASSURE for a trapped car (R182); CLEAR_CAR takes a RESCUED
car to NORMAL, where the stall condition is judged, and is NOT_ALLOWED for any other (R71). -/
def Obligations.CarCommands : Prop :=
  ∀ (s : State) (q : Port) (body : List Byte) (c : Car) (rest : List Byte),
    (s.givenCar q 21 body c rest →
      exec (.clearLineCounts q body) s = .next (s.answered
        (s.modLine c fun l => { l with parityErrors := 0, framingErrors := 0, overruns := 0, badFrames := 0 }) q .ok [])) ∧
    (s.givenCar q 46 body c rest →
      exec (.clearFirst q body) s = .next (s.answered (s.modRecord c fun r => { r with first := false }) q .ok [])) ∧
    (s.givenCar q 47 body c rest →
      exec (.silenceTone q body) s = .next (s.answered
        (s.modSignals c fun x => { x with
          playing := none, waiting := none, silenced := x.silenced || isTrapped (s.stateOf c) }) q .ok [])) ∧
    (s.givenCar q 13 body c rest →
      (s.stateOf c = .rescued →
        ∃ t, exec (.clearCar q body) s = .next t ∧ OnlyCar c (s.responded q .ok []) t.toPart ∧
          PassKept s.toPart t.toPart ∧ t.car c = ((s.car c).returned s.globals).judged s.globals) ∧
      (s.stateOf c ≠ .rescued → exec (.clearCar q body) s = .next (s.answered s.toPart q .notAllowed [])))

/-- RESTORE_CAR of an INHIBITED car: to ASSESSING by R56 if the stall condition holds, with trapped time and urgency as they
stand, to NORMAL by R71 otherwise; for any other car NOT_ALLOWED (R80). The stall condition, here and wherever a car is judged,
holds when the line is ALIVE and the last STATUS record's mode is STALLED, or the line is LOST and the zone level reads inactive;
a SILENT line, no STATUS record and an UNKNOWN zone level meet neither case (R53). -/
def Obligations.CarRestored : Prop :=
  (∀ b : CarBlock, b.stalled = true ↔
    (b.line.state = .alive ∧ ∃ x, b.line.lastStatus = some x ∧ x.mode = .stalled) ∨
    (b.line.state = .lost ∧ b.inputs.zone.accepted = some false)) ∧
  ∀ (s : State) (q : Port) (body : List Byte) (c : Car) (rest : List Byte), s.givenCar q 41 body c rest →
    (s.stateOf c = .inhibited → (s.car c).stalled = true →
      ∃ t, exec (.restoreCar q body) s = .next t ∧ t.car c = (s.car c).assessed s.globals ∧
        (t.car c).record.trappedTime = (s.car c).record.trappedTime ∧
        (t.car c).planner.urgency = (s.car c).planner.urgency ∧
        CarEvent c ((s.car c).assessedNotices c) (s.responded q .ok []) t.toPart ∧
        (s.car c).AssessedPass s.toPart t.toPart) ∧
    (s.stateOf c = .inhibited → (s.car c).stalled = false →
      ∃ t, exec (.restoreCar q body) s = .next t ∧ t.car c = (s.car c).returned s.globals ∧
        OnlyCar c (s.responded q .ok []) t.toPart ∧ PassKept s.toPart t.toPart) ∧
    (s.stateOf c ≠ .inhibited → exec (.restoreCar q body) s = .next (s.answered s.toPart q .notAllowed []))

/-- CLEAR_FAILED of a FAILED car, whatever its attempts: attempts 0, LOCKED channels unlocked, the retry timer stopped,
ASSESSING by R56, answered OK; for any other car NOT_ALLOWED, with nothing changed (R74). -/
def Obligations.FailedCleared : Prop :=
  ∀ (s : State) (q : Port) (body : List Byte) (c : Car) (rest : List Byte), s.givenCar q 44 body c rest →
    (s.stateOf c = .failed →
      let b := s.car c
      let unlocked : CarBlock := { b with
        record := { b.record with attempts := 0, retryTimer := none }
        brake := { b.brake with
          channelA := if b.brake.channelA = .locked then .closed else b.brake.channelA
          channelB := if b.brake.channelB = .locked then .closed else b.brake.channelB } }
      ∃ t, exec (.clearFailed q body) s = .next t ∧ t.car c = unlocked.assessed s.globals ∧
        CarEvent c (b.assessedNotices c) (s.responded q .ok []) t.toPart ∧ b.AssessedPass s.toPart t.toPart) ∧
    (s.stateOf c ≠ .failed → exec (.clearFailed q body) s = .next (s.answered s.toPart q .notAllowed []))

/-- RELEASE_HOLD of a car in HELD(SAFETY) whose chain reads closed sends it to ASSESSING by R56; in any other state, or with
the chain open or UNKNOWN, it is NOT_ALLOWED (R76). INHIBIT_CAR takes a car in any other state to INHIBITED and ends what it
is doing: a move is closed, cancelled and released with last abort cause INHIBIT; attempts become 0; no notice is raised. For
a car already INHIBITED it is NOT_ALLOWED (R79). -/
def Obligations.HoldAndInhibit : Prop :=
  (∀ (s : State) (q : Port) (body : List Byte) (c : Car) (rest : List Byte), s.givenCar q 43 body c rest →
    let r := (s.car c).record
    (r.state = .held → r.heldCause = some .safety → (s.car c).inputs.chain.accepted = some true →
      ∃ t, exec (.releaseHold q body) s = .next t ∧ t.car c = (s.car c).assessed s.globals ∧
        CarEvent c ((s.car c).assessedNotices c) (s.responded q .ok []) t.toPart ∧
        (s.car c).AssessedPass s.toPart t.toPart) ∧
    (¬(r.state = .held ∧ r.heldCause = some .safety ∧ (s.car c).inputs.chain.accepted = some true) →
      exec (.releaseHold q body) s = .next (s.answered s.toPart q .notAllowed []))) ∧
  ∀ (s : State) (q : Port) (body : List Byte) (c : Car) (rest : List Byte), s.givenCar q 40 body c rest →
    (s.stateOf c ≠ .inhibited →
      let m := (s.car c).cancelled.moved s.globals .inhibited none
      ∃ t, exec (.inhibitCar q body) s = .next t ∧
        t.car c = { m with
          record := { m.record with
            attempts := 0
            lastAbort := if isMoveState (s.stateOf c) then some .inhibit else (s.car c).record.lastAbort }
          brake := if isMoveState (s.stateOf c) then (s.car c).brake.close else (s.car c).brake } ∧
        CarEvent c [] (s.responded q .ok []) t.toPart ∧ PassKept s.toPart t.toPart) ∧
    (s.stateOf c = .inhibited → exec (.inhibitCar q body) s = .next (s.answered s.toPart q .notAllowed []))

/-- CONFIRM_POSITION is taken in HELD(POSITION), LEVELLING, ASSESSING and READY, and its zone and offset are judged against
the car's map, an unknown coding of the offset being no position; it forces the tracker, and then the car record acts: a
landing zone releases a car in HELD(POSITION), LEVELLING takes the zone's landing, READY goes back to ASSESSING (R96, R67).
The offset is coded as R186 codes a field that may be absent; what other codings are is log 14. -/
def Obligations.PositionConfirmed : Prop :=
  ∀ (s : State) (q : Port) (body : List Byte) (c : Car) (z : Byte) (rest : List Byte),
    s.givenCar q 42 body c (z :: rest) →
    let zone := z.toNat
    let r := (s.car c).record
    let taken := r.heldCause = some .position ∧ r.state = .held ∨ r.state = .levelling ∨ r.state = .assessing ∨ r.state = .ready
    (¬taken → exec (.confirmPosition q body) s = .next (s.answered s.toPart q .notAllowed [])) ∧
    (taken → readOffset rest = none →
      exec (.confirmPosition q body) s = .next (s.answered s.toPart q .badValue [])) ∧
    ∀ offset, readOffset rest = some offset → taken →
      let valid := zone < 2 * (s.entry c).landings - 1 ∧ ∀ o, offset = some o → o ≤ zoneLength (s.entry c) zone
      let anchor : Anchor := match offset with
        | some o => .seed zone o
        | none => if zone % 2 = 0 then .edge .level else .none
      let forced := (s.car c).seeded (s.entry c) zone anchor true
      let landed : CarBlock := { forced with record := { r with summary := { r.summary with landing := some (zone / 2) } } }
      let before := s.responded q .ok []
      (¬valid → exec (.confirmPosition q body) s = .next (s.answered s.toPart q .badValue [])) ∧
      (valid →
        (r.state = .held → zone % 2 = 0 →
          ∃ t, exec (.confirmPosition q body) s = .next t ∧ t.car c = landed.releasing s.globals ∧
            CarEvent c (landed.releasingNotices s.globals c) before t.toPart ∧ PassKept s.toPart t.toPart) ∧
        (r.state = .assessing ∨ (r.state = .held ∧ zone % 2 = 1) →
          exec (.confirmPosition q body) s = .next (s.answered (s.modCar c fun _ => forced) q .ok [])) ∧
        (r.state = .levelling →
          exec (.confirmPosition q body) s = .next (s.answered (s.modCar c fun _ => landed) q .ok [])) ∧
        (r.state = .ready →
          ∃ t, exec (.confirmPosition q body) s = .next t ∧ t.car c = forced.assessed s.globals ∧
            CarEvent c (forced.assessedNotices c) before t.toPart ∧ forced.AssessedPass s.toPart t.toPart))

/-- SET_FIRST of a READY or ASSESSING car moves the FIRST override to it, every other car's is clear, and the selection that this
makes follows: all of the part is as that selection leaves it, with the port's answer OK (R81, R154, R156). With supply
ready, a free slot of its kind and, off the mains, the energy for its plan, a READY car is then granted before every other:
reservation and slot, move state, move record, and the beginning of its move (R42, R59, R156), which clears its override: a
probe or a gravity move opens the channels by channel B's mode (R162, R164, R165), a powered move takes the line's next move
id and offers its GRANT (R28), and every move but a probe raises RESCUE_STARTED and asks for MOVE_START (R59, R181). Without
supply ready nothing else changes; without a free slot it is passed over with its flags standing, and without the energy it
is flagged ENERGY_SHORT, with the notice if the flag was clear (R156, R157). For a car in any other state SET_FIRST is
NOT_ALLOWED. -/
def Obligations.FirstIsGranted : Prop :=
  ∀ (s : State) (q : Port) (body : List Byte) (c : Car) (rest : List Byte), s.givenCar q 45 body c rest →
    let b := s.car c
    let before := s.responded q .ok []
    let moved : Part := { s.toPart with cars := Vector.ofFn fun d : Car =>
      { s.car d with record := { (s.car d).record with first := decide (d = c) } } }
    (s.stateOf c ≠ .ready → s.stateOf c ≠ .assessing →
      exec (.setFirst q body) s = .next (s.answered s.toPart q .notAllowed [])) ∧
    (s.stateOf c = .ready ∨ s.stateOf c = .assessing →
      exec (.setFirst q body) s = .next (s.answered moved.select q .ok [])) ∧
    (s.stateOf c = .assessing →
      ∃ t, exec (.setFirst q body) s = .next t ∧ t.car c = { b with record := { b.record with first := true } } ∧
        KeepsRest before t.toPart ∧ PassKept s.toPart t.toPart ∧ t.supply = s.supply ∧
        (∀ d, d ≠ c → (t.car d).record.first = false ∧ t.car d = moved.select.car d) ∧
        ∀ d, d ≠ c → s.stateOf d ≠ .ready →
          t.car d = { s.car d with record := { (s.car d).record with first := false } }) ∧
    (s.stateOf c = .ready →
      let put : CarBlock := { b with record := { b.record with first := true } }
      ∃ t, exec (.setFirst q body) s = .next t ∧ KeepsRest before t.toPart ∧ PassKept s.toPart t.toPart ∧
        t.supply = s.supply ∧
        (∀ d, d ≠ c → (t.car d).record.first = false ∧ t.car d = moved.select.car d) ∧
        (∀ d, d ≠ c → s.stateOf d ≠ .ready →
          t.car d = { s.car d with record := { (s.car d).record with first := false } }) ∧
        (t.stateOf c = .ready → (t.car c).record.first = true) ∧
        (s.supplyReady = false → t.car c = put ∧
          ∀ d, d ≠ c → t.car d = { s.car d with record := { (s.car d).record with first := false } }) ∧
        ∀ m, b.planner.plan.method = some m →
          let free := if m = .probe ∨ m = .gravityDown ∨ m = .gravityUp then s.brakeHeld < s.globals.brakeSlots
            else (m = .poweredUp ∨ m = .poweredDown) ∧ s.driveHeld < s.globals.driveSlots
          let affords := s.supply.belief = .present ∨
            b.planner.plan.estimate.getD 0 ≤ s.supply.usable.getD 0 - s.reserved
          (¬free → t.car c = put) ∧
          (s.supplyReady = true → free → ¬affords →
            t.car c = { put with record := { put.record with energyShort := true } } ∧
            (b.record.energyShort = false → ∀ port, maskHolds (s.port port).mask .energyShort = true →
              ⟨.energyShort, some c⟩ ∈ (t.port port).notices))) ∧
    (s.stateOf c = .ready → s.supplyReady = true → ∀ m energy,
      b.planner.plan.method = some m → b.planner.plan.estimate = some energy →
      s.supply.belief = .present ∨ energy ≤ s.supply.usable.getD 0 - s.reserved →
      let opened (kind : OpeningKind) (share : Nat) : CarBrake := { b.brake with
        channelA := if b.brake.channelA = .locked then .locked else .open
        channelB := if (s.entry c).bMode = .closed then b.brake.channelB
          else if b.brake.channelB = .locked then .locked else .open
        opening := some kind, started := false, shadowA := share, activeA := 0, activeB := 0, insideA := false
        insideB := false, framesOpen := 0, lastSpeed := none
        shadowB := match (s.entry c).bMode with
          | .follow => share
          | .own => (s.entry c).bShare
          | .closed => 0 }
      let start : Playing := ⟨.moveStart, 0, 150, s.globals.toneHigh, s.globals.toneLow, true⟩
      let announced (t : State) :=
        (∀ port, maskHolds (s.port port).mask .rescueStarted = true →
          (⟨.rescueStarted, some c⟩ : Notice) ∈ (t.port port).notices) ∧
        (t.car c).signals.playing = some (b.signals.playing.getD start) ∧
        (t.car c).signals.waiting = if b.signals.playing.isSome then some .moveStart else b.signals.waiting
      let granted (d : Dir) : PartFrame := .grant b.line.nextMoveId d (b.planner.plan.target.getD 0) energy (s.entry c).speed
      ∃ t, exec (.setFirst q body) s = .next t ∧ KeepsRest before t.toPart ∧ PassKept s.toPart t.toPart ∧
        t.supply = s.supply ∧
        (∀ d, d ≠ c → s.stateOf d ≠ .ready →
          t.car d = { s.car d with record := { (s.car d).record with first := false } }) ∧
        (m = .probe → s.brakeHeld < s.globals.brakeSlots →
          t.stateOf c = .probing ∧ (t.car c).slots = { b.slots with brake := true, reservation := some energy } ∧
          (t.car c).inputs.move = ⟨none, 0, 0, false, none⟩ ∧
          (t.car c).brake = opened .probe s.globals.probeShare ∧ (t.car c).line = b.line ∧
          (t.car c).record.summary = b.record.summary ∧ (t.car c).signals.playing = b.signals.playing ∧
          (t.car c).signals.waiting = b.signals.waiting) ∧
        (m = .gravityDown ∨ m = .gravityUp → s.brakeHeld < s.globals.brakeSlots →
          t.stateOf c = .lowering ∧ (t.car c).slots = { b.slots with brake := true, reservation := some energy } ∧
          (t.car c).inputs.move = ⟨some (if m = .gravityUp then .up else .down), 0, 0, true, none⟩ ∧
          (t.car c).brake = opened .lowering s.globals.startShare ∧ (t.car c).line = b.line ∧ announced t ∧
          (t.car c).record.summary.methodUsed = some (if m = .gravityUp then .gravityUp else .gravityDown)) ∧
        (m = .poweredUp ∨ m = .poweredDown → s.driveHeld < s.globals.driveSlots →
          t.stateOf c = .driving ∧ (t.car c).slots = { b.slots with drive := true, reservation := some energy } ∧
          (t.car c).inputs.move = ⟨some (if m = .poweredUp then .up else .down), 0, 0, true, none⟩ ∧
          (t.car c).record.moveId = some b.line.nextMoveId ∧ (t.car c).brake = b.brake ∧ announced t ∧
          (t.car c).line = ({ b.line with nextMoveId := (b.line.nextMoveId + 1) % 256 }).offerCommand
            (granted (if m = PlanMethod.poweredUp then .up else .down)) ∧
          (t.car c).record.ackTimer = some s.globals.ackTimeout ∧
          (t.car c).record.moveTimer = some (2 * b.planner.plan.travelTime.getD 0 + 10000) ∧
          (t.car c).record.summary.methodUsed = some (if m = .poweredUp then .poweredUp else .poweredDown)) ∧
        (t.stateOf c ≠ .ready → (t.car c).record.first = false ∧ (t.car c).record.energyShort = false))

/-- A selection (R154, R156, R157). Without supply ready (R152) it does nothing. With it, it takes the cars that are READY at
that moment, the FIRST override before the rest, then the higher urgency, then the lower number, one at a time, each against
the slots and the energy that the ones before it have left. A car without a free slot of its kind is passed over; one that
the mains or the energy allows is granted; any other is flagged ENERGY_SHORT, with the notice if its flag was clear. A grant
takes the car's slot and reserves its estimate, clears its two flags and leaves every other car (R156, R59); of the READY car
itself everything that these rules do not name stands, and its lamp and reassurance timer follow its state (R180, R182).
RESCUE_STARTED is raised and the tone MOVE_START asked for by every grant but a probe's (R59, R181), and a powered move's takes the line's
next move id, modulo 256, for its GRANT (R28). -/
def Obligations.SelectionGrants : Prop :=
  (∀ p : Part, (p.supplyReady = true ↔
    p.supply.belief = .present ∨ (p.supply.converter = .on ∧ p.supply.sampled = true))) ∧
  (∀ p : Part, p.supplyReady = false → p.select = p) ∧
  (∀ p : Part, p.supplyReady = true →
    let before (c d : Car) :=
      ((p.car c).record.first = true ∧ (p.car d).record.first = false) ∨
      ((p.car c).record.first = (p.car d).record.first ∧
        ((p.car d).planner.urgency < (p.car c).planner.urgency ∨
          ((p.car d).planner.urgency = (p.car c).planner.urgency ∧ c < d)))
    let free (r : Part) (m : PlanMethod) :=
      ((m = .probe ∨ m = .gravityDown ∨ m = .gravityUp) ∧ r.brakeHeld < r.globals.brakeSlots) ∨
      ((m = .poweredUp ∨ m = .poweredDown) ∧ r.driveHeld < r.globals.driveSlots)
    let affords (r : Part) (c : Car) := r.supply.belief = .present ∨
      (r.car c).planner.plan.estimate.getD 0 ≤ r.supply.usable.getD 0 - r.reserved
    ∃ (order : List Car) (turn : Part → Car → Part),
      (∀ c, c ∈ order ↔ p.stateOf c = .ready) ∧ order.Pairwise before ∧ p.select = order.foldl turn p ∧
      ∀ r c, ((∀ m, (r.car c).planner.plan.method = some m → ¬free r m) → turn r c = r) ∧
        ∀ m, (r.car c).planner.plan.method = some m → free r m →
          (affords r c → turn r c = r.grant c m) ∧
          (¬affords r c → turn r c = if (r.car c).record.energyShort = true then r else
            { r.modRecord c fun x => { x with energyShort := true } with
              station := r.station.offer ⟨.energyShort, some c⟩
              panel := r.panel.offer ⟨.energyShort, some c⟩ })) ∧
  ∀ (r : Part) (c : Car) (m : PlanMethod), m ≠ .none → (r.car c).slots = ⟨false, false, none⟩ →
    let brake := m = .probe ∨ m = .gravityDown ∨ m = .gravityUp
    let q := r.grant c m
    let b := r.car c
    let plan := b.planner.plan
    let started (port : PortState) := if m = .probe then port else port.offer ⟨.rescueStarted, some c⟩
    let dir : Dir := if m = .gravityUp ∨ m = .poweredUp then .up else .down
    q.station = started r.station ∧ q.panel = started r.panel ∧
    (q.car c).inputs.move = (if m = .probe then ⟨none, 0, 0, false, none⟩ else ⟨some dir, 0, 0, true, none⟩) ∧
    (q.car c).brake = (if m = .probe then b.brake.openFor (r.entry c) .probe r.globals.probeShare
      else if brake then b.brake.openFor (r.entry c) .lowering r.globals.startShare else b.brake) ∧
    (brake → (q.car c).line = b.line ∧ (q.car c).record.moveId = b.record.moveId) ∧
    (¬brake →
      (q.car c).line = ({ b.line with nextMoveId := (b.line.nextMoveId + 1) % 256 }).offerCommand
        (.grant b.line.nextMoveId dir (plan.target.getD 0) (plan.estimate.getD 0) (r.entry c).speed) ∧
      (q.car c).record.moveId = some b.line.nextMoveId ∧ (q.car c).record.ackTimer = some r.globals.ackTimeout ∧
      (q.car c).record.moveTimer = some (2 * plan.travelTime.getD 0 + 10000)) ∧
    (q.car c).signals.playing = (if m = .probe then b.signals.playing
      else some (b.signals.playing.getD ⟨.moveStart, 0, 150, r.globals.toneHigh, r.globals.toneLow, true⟩)) ∧
    (q.car c).signals.waiting =
      (if m ≠ .probe ∧ b.signals.playing.isSome = true then some .moveStart else b.signals.waiting) ∧
    some (q.stateOf c) = moveStateOf m ∧
    (r.stateOf c = .ready → q.car c = { b with
      record := { b.record with
        state := q.stateOf c
        heldCause := none
        first := false
        energyShort := false
        moveId := (q.car c).record.moveId
        ackTimer := if brake then b.record.ackTimer else some r.globals.ackTimeout
        moveTimer := if brake then b.record.moveTimer else some (2 * plan.travelTime.getD 0 + 10000)
        summary := { b.record.summary with methodUsed := match m with
          | .gravityDown => some .gravityDown
          | .gravityUp => some .gravityUp
          | .poweredUp => some .poweredUp
          | .poweredDown => some .poweredDown
          | _ => b.record.summary.methodUsed } }
      line := (q.car c).line
      inputs := { b.inputs with move := (q.car c).inputs.move }
      slots := ⟨decide brake, decide ¬brake, some (plan.estimate.getD 0)⟩
      brake := (q.car c).brake
      signals := { b.signals with
        lamp := .flash
        reassurance := none
        playing := (q.car c).signals.playing
        waiting := (q.car c).signals.waiting } }) ∧
    q.reserved = r.reserved + (r.car c).planner.plan.estimate.getD 0 ∧
    (brake → q.brakeHeld = r.brakeHeld + 1 ∧ q.driveHeld = r.driveHeld) ∧
    (¬brake → q.brakeHeld = r.brakeHeld ∧ q.driveHeld = r.driveHeld + 1) ∧
    (q.car c).record.first = false ∧ (q.car c).record.energyShort = false ∧
    (∀ d, d ≠ c → q.car d = r.car d) ∧ KeepsRest r q ∧ q.pass = r.pass ∧ q.supply = r.supply

/-- CLEAR_SUPPLY_FAULT takes a converter in FAULT to STANDBY with the wake failures forgotten, and with demand on to WAKING,
or to ON where the ready level already reads ready, with the selection of that entry (R154); in any other state it is
NOT_ALLOWED (R150, R147, R148). -/
def Obligations.SupplyFaultCleared : Prop :=
  ∀ (s : State) (q : Port) (body payload : List Byte), s.given q 14 body payload →
    let before := s.responded q .ok []
    (s.supply.converter ≠ .fault → exec (.clearSupplyFault q body) s = .next (s.answered s.toPart q .notAllowed [])) ∧
    (s.supply.converter = .fault → s.demand = false →
      exec (.clearSupplyFault q body) s = .next (s.answered { s.toPart with supply := { s.supply with
        converter := .standby, enable := false, wakeTimer := none, standbyTimer := none, wakeFailures := 0 } } q .ok [])) ∧
    (s.supply.converter = .fault → s.demand = true → s.converterInput.accepted ≠ some true →
      exec (.clearSupplyFault q body) s = .next (s.answered { s.toPart with supply := { s.supply with
        converter := .waking, enable := true, wakeTimer := some s.globals.wakeLimit, standbyTimer := none
        wakeFailures := 0 } } q .ok [])) ∧
    (s.supply.converter = .fault → s.demand = true → s.converterInput.accepted = some true →
      let woken : Part := { before with supply := { s.supply with
        converter := .on, enable := true, wakeTimer := none, standbyTimer := none, wakeFailures := 0 } }
      ∃ t, exec (.clearSupplyFault q body) s = .next t ∧ t = s.withPart woken.select ∧
        KeepsRest before t.toPart ∧ PassKept s.toPart t.toPart ∧ t.supply = woken.supply ∧
        ∀ c, s.stateOf c ≠ .ready → t.car c = s.car c)

/-! ## Car lines -/

/-- A byte is judged at its stop bit by its own line, and changes nothing else. One that is no good raises one counter,
saturating at 255, and discards the FIFO with the frame in assembly: a framing error first, then a parity error, then an
overrun (R19, R27). A good byte waits while a frame is being handed over (R20). -/
def Obligations.BytesJudged : Prop :=
  ∀ (s : State) (c : Car) (byte : LineByte), s.powered = true →
    let l := (s.car c).line
    let ones := onesOf byte.data + byte.mark.toNat + byte.parity.toNat
    let dropped : CarLine := { l with fifo := [], assembly := ⟨.hunt, 0, 0, [], 0⟩ }
    let judged := l.receive (s.entry c) byte
    exec (.carLineByte c byte) s = .next (s.withPart (s.modLine c fun _ => judged)) ∧
    (byte.stop = false → judged = { dropped with framingErrors := min 255 (l.framingErrors + 1) }) ∧
    (byte.stop = true → ones % 2 = 1 → judged = { dropped with parityErrors := min 255 (l.parityErrors + 1) }) ∧
    (byte.stop = true → ones % 2 = 0 → 4 ≤ l.fifo.length →
      judged = { dropped with overruns := min 255 (l.overruns + 1) }) ∧
    (byte.stop = true → ones % 2 = 0 → l.fifo.length < 4 → l.handover.isSome = true →
      judged = { l with fifo := l.fifo ++ [(byte.data, byte.mark)] })

/-- The bytes of a well-formed frame, given one after another to a line in HUNT, hand over the frame they spell if its field
checks pass, and are counted as one bad frame otherwise; a wrong checksum is a bad frame too. Nothing else of the line
changes (R19 to R22, R25, R26). -/
def Obligations.FrameAssembled : Prop :=
  ∀ (l : CarLine) (e : CarEntry) (kind check : Byte) (payload : List Byte) (f : ControllerFrame),
    l.assembly = ⟨.hunt, 0, 0, [], 0⟩ → l.handover = none → l.fifo = [] →
    frameOf kind payload = some f →
    let body := kind :: BitVec.ofNat 8 payload.length :: payload
    let good (b : Byte) (mark : Bool) : LineByte := ⟨b, mark, (onesOf b + mark.toNat) % 2 == 1, true⟩
    let bytes := good kind true :: (body.drop 1 ++ [check]).map (good · false)
    let received := bytes.foldl (fun l b => l.receive e b) l
    (check = checksumOf body → frameValid e f = true → received = { l with handover := some f }) ∧
    (check ≠ checksumOf body ∨ frameValid e f = false → received = { l with badFrames := min 255 (l.badFrames + 1) })

/-- Every byte that frame assembly takes, and every complete frame (R20, R21): a marked byte starts a frame and makes an
unfinished one a bad frame, an unmarked one is dropped in HUNT, and a length above 24, a wrong checksum, a kind the part does
not receive, a length that is not its kind's, and a failed field check (R22, R25, R26) are bad frames. The fields of a STATUS
as Table 7 treats them (R22), and a STATUS handed over that fails its checks: it is a bad frame and touches nothing else
(R22; when it is judged is log 4). -/
def Obligations.FramesJudged : Prop :=
  (∀ (l : CarLine) (e : CarEntry) (b : Byte) (mark : Bool), l.handover = none → l.fifo = [] →
    let a := l.assembly
    let got := l.receive e ⟨b, mark, (onesOf b + mark.toNat) % 2 == 1, true⟩
    let hunting : CarLine := { l with assembly := ⟨.hunt, 0, 0, [], 0⟩ }
    let bad (l : CarLine) : CarLine := { l with badFrames := min 255 (l.badFrames + 1) }
    let begun : CarLine := { l with assembly := ⟨.header, b, 0, [], b⟩ }
    (mark = true → got = if a.state = .hunt then begun else bad begun) ∧
    (mark = false → a.state = .hunt → got = l) ∧
    (mark = false → a.state = .header → got = if 24 < b.toNat then bad hunting else { l with assembly :=
      { a with state := if b = 0 then .check else .payload, length := b.toNat, sum := a.sum + b } }) ∧
    (mark = false → a.state = .payload → got = { l with assembly := { a with
      state := if a.payload.length + 1 = a.length then .check else .payload
      payload := a.payload ++ [b]
      sum := a.sum + b } }) ∧
    (mark = false → a.state = .check →
      (a.sum + b ≠ 0 → got = bad hunting) ∧
      (a.sum + b = 0 →
        (¬((a.kind = 17 ∧ a.payload.length = 10) ∨ (a.kind = 18 ∧ a.payload.length = 1) ∨
            ((a.kind = 19 ∨ a.kind = 20 ∨ a.kind = 21) ∧ a.payload.length = 2)) → got = bad hunting) ∧
        (∀ mode cause l1 l0 zone o1 o0 gate alarms drive : Byte, a.kind = 17 →
          a.payload = [mode, cause, l1, l0, zone, o1, o0, gate, alarms, drive] →
          got = if (mode = 1 ∨ mode = 2 ∨ mode = 3) ∧ (drive = 0 ∨ drive = 1) then
            { hunting with handover := some (.status ⟨mode, cause, l1 ++ l0, zone, o1 ++ o0, gate, alarms, drive⟩) }
            else bad hunting) ∧
        (∀ id, a.kind = 18 → a.payload = [id] → got = { hunting with handover := some (.driveAck id) }) ∧
        (∀ id landing, a.kind = 19 → a.payload = [id, landing] →
          got = if landing.toNat < e.landings then { hunting with handover := some (.moveDone id landing) }
            else bad hunting) ∧
        (∀ id reason, a.kind = 20 → a.payload = [id, reason] →
          got = { hunting with handover := some (.moveFail id reason) }) ∧
        (∀ landing gate, a.kind = 21 → a.payload = [landing, gate] →
          got = if landing.toNat < e.landings then { hunting with handover := some (.gateReport landing gate) }
            else bad hunting)))) ∧
  (∀ (e : CarEntry) (f : StatusFrame),
    let z := f.zone.toNat
    let known := z < 2 * e.landings - 1 ∧ z ≤ 14
    let length := if z % 2 = 0 then 2 * e.halfWidth
      else e.heights.getD (z / 2 + 1) 0 - e.heights.getD (z / 2) 0 - 2 * e.halfWidth
    statusRecord e f =
      ((if f.mode = 1 then some .inService else if f.mode = 2 then some .stalled
        else if f.mode = 3 then some .outOfService else none) : Option StatusMode).map fun mode =>
        { mode := mode
          cause := if f.cause = 1 then .power else if f.cause = 2 then .driveFault else if f.cause = 3 then .safety
            else .unknown
          load := if f.load = 65535 then none else some (min f.load.toNat (125 * e.ratedLoad / 100))
          zone := if known then some z else none
          offset := if known ∧ f.offset ≠ 65535 ∧ f.offset.toNat ≤ length then some f.offset.toNat else none
          gate := if f.gate = 1 then .closed else if f.gate = 2 then .opening else if f.gate = 3 then .open
            else .unknown
          alarmCount := f.alarmCount.toNat
          driveAvailable := f.driveAvailable == 1 }) ∧
  ∀ (s : State) (c : Car) (f : StatusFrame), s.powered = true →
    statusRecord (s.entry c) f = none ∨ (f.driveAvailable ≠ 0 ∧ f.driveAvailable ≠ 1) →
    exec (.status c f) s = .next (s.withPart (s.modLine c fun l =>
      ({ l with badFrames := min 255 (l.badFrames + 1) }).endHandover (s.entry c) (.status f)))

/-- A valid STATUS becomes the line's last record, restarts the lost timer and makes the line ALIVE (R23). A car in NORMAL
or CONFIRMING is then judged (R53, R54) and seeded by a position (R94); in the move states, INHIBITED and UNCONFIGURED the
car record stands; a car in ASSESSING, READY, HELD or FAILED, with any count of attempts, goes to NORMAL on IN_SERVICE with
CAR_RETURNED, and a position seeds its tracker (R70, R71, R94); a RESCUED car goes to NORMAL on IN_SERVICE (R71); a car in
RELEASING whose line was not ALIVE is released by frame (R177); a car in HELD(POSITION) goes to RELEASING on another mode
(R67); the alarm tally counts in a trapped state other than RESCUED (R106). At the end the line takes up the bytes that
waited (R20, log 4). -/
def Obligations.StatusSeen : Prop :=
  ∀ (s : State) (c : Car) (f : StatusFrame) (record : StatusRecord), s.powered = true →
    statusRecord (s.entry c) f = some record → (f.driveAvailable = 0 ∨ f.driveAvailable = 1) →
    let b := s.car c
    let seen : CarBlock := { b with line := { b.line with
      lastStatus := some record, lostTimer := 0, lostLimit := s.globals.lostTimeout, state := .alive } }
    let tallied : CarBlock := { seen with policy :=
      match b.policy.alarmReference with
      | some a => { b.policy with
          alarmTally := min 65535 (b.policy.alarmTally + (record.alarmCount + 256 - a) % 256)
          alarmReference := some record.alarmCount }
      | none => { b.policy with alarmReference := some record.alarmCount } }
    let ended (x : CarBlock) : CarBlock := { x with line := x.line.endHandover (s.entry c) (.status f) }
    let seed (x : CarBlock) : CarBlock := match record.zone with
      | some z => x.seeded (s.entry c) z (match record.offset with
        | some o => .seed z o
        | none => .none) false
      | none => x
    ∃ t, exec (.status c f) s = .next t ∧
      (s.stateOf c = .normal ∨ s.stateOf c = .confirming →
        t.car c = ended (seed (seen.judged s.globals)) ∧ OnlyCar c s.toPart t.toPart ∧ PassKept s.toPart t.toPart) ∧
      (isMoveState (s.stateOf c) = true ∨ s.stateOf c = .inhibited →
        t.car c = ended tallied ∧ OnlyCar c s.toPart t.toPart ∧ PassKept s.toPart t.toPart) ∧
      (s.stateOf c = .unconfigured →
        t.car c = ended seen ∧ OnlyCar c s.toPart t.toPart ∧ PassKept s.toPart t.toPart) ∧
      (s.stateOf c = .rescued →
        t.car c = ended (if record.mode = .inService then seed (seen.returned s.globals) else seen) ∧
        OnlyCar c s.toPart t.toPart ∧ PassKept s.toPart t.toPart) ∧
      (s.stateOf c = .releasing →
        OnlyCar c s.toPart t.toPart ∧ PassKept s.toPart t.toPart ∧
        (b.line.state = .alive → t.car c = ended tallied) ∧
        (b.line.state ≠ .alive → t.car c = ended { tallied with
          signals := { b.signals with releaseMethod := some .frame }
          line := tallied.line.offerCommand (.gateRelease (b.record.summary.landing.getD 0)) })) ∧
      (s.stateOf c = .held → b.record.heldCause = some .position → record.mode ≠ .inService →
        t.car c = ended (tallied.releasing s.globals) ∧
        CarEvent c (tallied.releasingNotices s.globals c) s.toPart t.toPart ∧ PassKept s.toPart t.toPart) ∧
      (s.stateOf c = .assessing ∨ s.stateOf c = .ready ∨ s.stateOf c = .failed ∨
          (s.stateOf c = .held ∧ b.record.heldCause ≠ some .position) → record.mode ≠ .inService →
        t.car c = ended tallied ∧ OnlyCar c s.toPart t.toPart ∧ PassKept s.toPart t.toPart) ∧
      (s.stateOf c = .assessing ∨ s.stateOf c = .ready ∨ s.stateOf c = .held ∨ s.stateOf c = .failed →
        record.mode = .inService →
        t.car c = ended (seed (seen.returned s.globals)) ∧
        CarEvent c [⟨.carReturned, some c⟩] s.toPart t.toPart ∧ PassKept s.toPart t.toPart)

/-- The reports of a powered move and of a gate. A report that matches the current move id of a car in DRIVING acts:
DRIVE_ACK stops the ack timer (R68), MOVE_DONE seeds the tracker at its landing and releases the car there (R69, R95),
MOVE_FAIL fails it with its reason (R69); a GATE_REPORT OPEN for the landing being released makes the car RESCUED (R178). Any
other report leaves the car as it stands, and one that names no landing is a bad frame (R25, R26). -/
def Obligations.ControllerReports : Prop :=
  ∀ (s : State) (c : Car) (x y : Byte), s.powered = true →
    let b := s.car c
    let known := y.toNat < (s.entry c).landings
    let landing := x.toNat < (s.entry c).landings
    let matched := b.record.moveId = some x.toNat ∧ b.record.state = .driving
    let ended (f : ControllerFrame) (b : CarBlock) : CarBlock := { b with line := b.line.endHandover (s.entry c) f }
    let bad : CarBlock := { b with line := { b.line with badFrames := min 255 (b.line.badFrames + 1) } }
    let summary := b.record.summary
    (exec (.driveAck c x) s = .next (s.withPart (s.modCar c fun _ => ended (.driveAck x)
      (if matched then { b with record := { b.record with ackTimer := none } } else b)))) ∧
    (¬known → exec (.moveDone c x y) s = .next (s.withPart (s.modCar c fun _ => ended (.moveDone x y) bad))) ∧
    (known → ¬matched → exec (.moveDone c x y) s = .next (s.withPart (s.modCar c fun _ => ended (.moveDone x y) b))) ∧
    (known → matched →
      let seeded := b.seeded (s.entry c) (2 * y.toNat) (.edge .level) false
      let landed : CarBlock :=
        { seeded with record := { b.record with summary := { summary with landing := some y.toNat } } }
      ∃ t, exec (.moveDone c x y) s = .next t ∧ t.car c = ended (.moveDone x y) (landed.releasing s.globals) ∧
        CarEvent c (landed.releasingNotices s.globals c) s.toPart t.toPart ∧ PassKept s.toPart t.toPart) ∧
    (¬matched → exec (.moveFail c x y) s = .next (s.withPart (s.modCar c fun _ => ended (.moveFail x y) b))) ∧
    (matched →
      let reasoned : CarBlock := { b with record := { b.record with driveFailReason := some y.toNat } }
      ∃ t, exec (.moveFail c x y) s = .next t ∧
        t.car c = ended (.moveFail x y) (reasoned.failed s.globals .driveFail) ∧
        CarEvent c [⟨.carFailed, some c⟩] s.toPart t.toPart ∧ PassKept s.toPart t.toPart) ∧
    (¬landing → exec (.gateReport c x y) s = .next (s.withPart (s.modCar c fun _ => ended (.gateReport x y) bad))) ∧
    (landing →
      let opens := b.record.state = .releasing ∧ summary.landing = some x.toNat ∧ gateOf y = .open
      (¬opens → exec (.gateReport c x y) s = .next (s.withPart (s.modCar c fun _ => ended (.gateReport x y) b))) ∧
      (opens →
        let m := b.moved s.globals .rescued none
        let rescued : CarBlock := { m with record :=
          { m.record with summary := { summary with releaseTime := some b.record.trappedTime } } }
        ∃ t, exec (.gateReport c x y) s = .next t ∧ t.car c = ended (.gateReport x y) rescued ∧
          CarEvent c [⟨.carRescued, some c⟩] s.toPart t.toPart ∧ PassKept s.toPart t.toPart))

/-- LOST_TIMEOUT makes a line whose lost timer has reached its timeout LOST and raises LINE_LOST, unless the car is
UNCONFIGURED, once; a line whose timer has been restarted does not go LOST (R24). A car in NORMAL or
CONFIRMING is judged (R53); one in RELEASING whose tracker is neither resolved nor confirmed goes to HELD(POSITION) (R66), and
otherwise is pulsed if the line was ALIVE (R177); every other car stands. That the command acts only once the timeout has been
reached is the model's convention (log 1). -/
def Obligations.LineLost : Prop :=
  ∀ (s : State) (c : Car), s.powered = true →
    let b := s.car c
    let lost : CarBlock := { b with line := { b.line with state := .lost } }
    let note : Notice := ⟨.lineLost, some c⟩
    (b.line.state = .lost ∨ b.line.lostTimer < b.line.lostLimit → exec (.lostTimeout c) s = .next s) ∧
    (b.line.state ≠ .lost → b.line.lostLimit ≤ b.line.lostTimer → ∃ t, exec (.lostTimeout c) s = .next t ∧ PassKept s.toPart t.toPart ∧
      (s.stateOf c = .unconfigured → t = s.withPart (s.modCar c fun _ => lost)) ∧
      (s.stateOf c ≠ .unconfigured → s.stateOf c ≠ .releasing →
        t.car c = lost.judged s.globals ∧ CarEvent c [note] s.toPart t.toPart) ∧
      (s.stateOf c = .releasing → b.isPlaced s.globals = false →
        t.car c = lost.moved s.globals .held (some .position) ∧
        CarEvent c [note, ⟨.carHeld, some c⟩] s.toPart t.toPart) ∧
      (s.stateOf c = .releasing → b.isPlaced s.globals = true →
        CarEvent c [note] s.toPart t.toPart ∧
        t.car c = (if b.line.state = .alive then
          { lost with signals := { b.signals with
              releaseMethod := some .pulse, unlockTimer := some s.globals.unlockPulse, unlockOutput := true } }
          else lost)))

/-- The transmit queue. At the end of a frame the oldest queued one is sent, and the overflow frame joins the tail (R31,
R34). A frame offered to a queue with space and no overflow frame joins its tail, and is sent at once by a free transmitter
(R31). A RESCUE_STATE offered otherwise is lost; another frame replaces the oldest queued RESCUE_STATE, or is held as the
overflow frame, or is discarded where one is held already (R32, R34). A CANCEL removes the GRANT of its own move where that
still waits (R33). -/
def Obligations.TransmitQueue : Prop :=
  (∀ (s : State) (c : Car), s.powered = true → (s.car c).line.queue.length ≤ 4 →
    ∃ l, exec (.transmitComplete c) s = .next (s.withPart (s.modLine c fun _ => l)) ∧
      ((s.car c).line.queue = [] → l = { (s.car c).line with transmitting := none }) ∧
      (∀ f rest, (s.car c).line.queue = f :: rest →
        l = { (s.car c).line with
          transmitting := some f, queue := rest ++ (s.car c).line.overflow.toList, overflow := none })) ∧
  (∀ (l : CarLine) (f : PartFrame), l.queue.length < 4 → l.overflow = none →
    let joined := if l.transmitting.isSome then { l with queue := l.queue ++ [f] }
      else match l.queue with
        | [] => { l with transmitting := some f }
        | g :: rest => { l with transmitting := some g, queue := rest ++ [f] }
    l.offerCommand f = joined ∧ l.offerRescueState f = joined) ∧
  (∀ (l : CarLine) (f : PartFrame), 4 ≤ l.queue.length ∨ l.overflow.isSome = true →
    l.offerRescueState f = l ∧
    (∀ before (g : PartFrame) after, l.queue = before ++ g :: after → isRescueStateFrame g = true →
      (∀ x ∈ before, isRescueStateFrame x = false) → l.offerCommand f = { l with queue := before ++ after ++ [f] }) ∧
    ((∀ x ∈ l.queue, isRescueStateFrame x = false) →
      l.offerCommand f = if l.overflow = none then { l with overflow := some f } else l)) ∧
  (∀ (l : CarLine) (id : Nat),
    ((∀ x ∈ l.queue, isGrantOf id x = false) → (∀ x, l.overflow = some x → isGrantOf id x = false) →
      l.offerCancel id = l.offerCommand (.cancel id)) ∧
    (∀ x, (∀ y ∈ l.queue, isGrantOf id y = false) → l.overflow = some x → isGrantOf id x = true →
      l.offerCancel id = { l with overflow := none }) ∧
    (∀ before g after, l.queue = before ++ g :: after → isGrantOf id g = true → (∀ x ∈ before, isGrantOf id x = false) →
      l.queue.length ≤ 4 →
      l.offerCancel id = { l with queue := before ++ after ++ l.overflow.toList, overflow := none }))

/-- What stands on the wire while a frame is sent: the kind, the length, the payload of Table 28 and the checksum that makes
the sum 0, each as twelve bits, the start bit, D0 to D7 with the least significant first, the mark bit, set on the kind
alone, the parity bit that makes the count of ones even, and the stop bit, with no gaps (R19, R31, R191). Nothing is sent
while no frame is in transmission. The start bit's level, opposite to the stop bit's, is the model's choice (log 28). -/
def Obligations.SentBytes : Prop :=
  ∀ l : CarLine,
    let byte (n : Nat) : Byte := BitVec.ofNat 8 n
    let contents (f : PartFrame) : Byte × List Byte := match f with
      | .grant id d target cap speed =>
          (33, [byte id, if d = .up then 1 else 2, byte target, byte (cap / 256), byte cap, byte (speed / 256), byte speed])
      | .cancel id => (34, [byte id])
      | .gateRelease landing => (35, [byte landing])
      | .rescueState state cause =>
          (36, [byte ([RescueState.unconfigured, .normal, .confirming, .assessing, .ready, .probing, .lowering, .levelling,
              .driving, .releasing, .rescued, .held, .failed, .inhibited].idxOf state),
            byte ([none, some HeldCause.safety, some .lockout, some .noMethod, some .position].idxOf cause)])
    let bits (mark : Bool) (b : Byte) : List Bool :=
      let data := [b.getLsbD 0, b.getLsbD 1, b.getLsbD 2, b.getLsbD 3, b.getLsbD 4, b.getLsbD 5, b.getLsbD 6, b.getLsbD 7]
      [false] ++ data ++ [mark, (data ++ [mark]).foldl xor false, true]
    (l.transmitting = none → l.wireBits = []) ∧
    ∀ f, l.transmitting = some f →
      let kind := (contents f).1
      let payload := (contents f).2
      ∃ check, kind + byte payload.length + payload.foldl (· + ·) 0 + check = 0 ∧
        l.wireBits = bits true kind ++ (byte payload.length :: (payload ++ [check])).flatMap (bits false)

/-! ## Inputs -/

/-- A raw change makes its level the candidate with a full filter time, and no change leaves the input (R36). A first
acceptance is no level change: of a chain or a lockout it only sets the level, of a zone it also has a car in NORMAL or
CONFIRMING judged (R37). CHAIN_CLOSED sets the level and nothing else (R38). A level that is accepted already is accepted
silently, the model's reading of a repeated command (log 5). -/
def Obligations.LevelsFiltered : Prop :=
  ∀ (s : State) (input : LevelInput) (level : Bool) (c : Car), s.powered = true →
    let set (l : LevelFilter) : State := s.withPart (s.setFilter input l)
    ((s.filter input).candidate ≠ level →
      exec (.rawLevelChange input level) s =
        .next (set { s.filter input with candidate := level, holding := some s.globals.filterTime })) ∧
    ((s.filter input).candidate = level → exec (.rawLevelChange input level) s = .next s) ∧
    ((s.filter input).accepted.isSome = true → exec (.firstLevelAcceptance input level) s = .next s) ∧
    ((s.filter input).accepted = none → input = .chain c ∨ input = .lockout c →
      exec (.firstLevelAcceptance input level) s = .next (set ⟨level, some level, none⟩)) ∧
    ((s.filter input).accepted = none → input = .zone c →
      let b := s.car c
      let read : CarBlock := { b with inputs := { b.inputs with zone := ⟨level, some level, none⟩ } }
      exec (.firstLevelAcceptance input level) s =
        .next (s.withPart (s.modCar c fun _ => read.judged s.globals))) ∧
    (input = .chain c →
      exec (.chainClosed c) s = .next (set ⟨true, some true, none⟩)) ∧
    (input = .zone c → (s.filter input).accepted = some level →
      exec (.zoneEdge c (if level then .enter else .leave)) s = .next (set ⟨level, some level, none⟩))

/-- A zone edge accepted outside the move states disturbs the tracker, resets D and hands the level to the car record (R46):
NORMAL and CONFIRMING are judged (R53), ASSESSING asks for a pass, READY goes back to ASSESSING (R58), a RELEASING car that
leaves its zone fails (R66), and every other state stands. -/
def Obligations.EdgeAtRest : Prop :=
  ∀ (s : State) (c : Car) (kind : EdgeKind), s.powered = true →
    (s.car c).inputs.zone.accepted = some (kind == .leave) → isMoveState (s.stateOf c) = false →
    let b := s.car c
    let level := kind == .enter
    let disturbed : CarBlock := { b with
      tracker := ⟨List.replicate b.tracker.costs.length 0, .none, 0, 0, false⟩
      inputs := { b.inputs with zone := ⟨level, some level, none⟩, odometry := 0 } }
    ∃ t, exec (.zoneEdge c kind) s = .next t ∧
      (s.stateOf c = .normal ∨ s.stateOf c = .confirming →
        t = s.withPart (s.modCar c fun _ => disturbed.judged s.globals)) ∧
      (s.stateOf c = .unconfigured ∨ s.stateOf c = .held ∨ s.stateOf c = .failed ∨ s.stateOf c = .rescued ∨
          s.stateOf c = .inhibited →
        t = s.withPart (s.modCar c fun _ => disturbed)) ∧
      (s.stateOf c = .assessing →
        t.car c = disturbed ∧ OnlyCar c s.toPart t.toPart ∧ PassAsked s.toPart t.toPart) ∧
      (s.stateOf c = .ready →
        t.car c = disturbed.assessed s.globals ∧
        CarEvent c (b.assessedNotices c) s.toPart t.toPart ∧ b.AssessedPass s.toPart t.toPart) ∧
      (s.stateOf c = .releasing → kind = .leave →
        t.car c = disturbed.failed s.globals .stopOutsideZone ∧
        CarEvent c [⟨.carFailed, some c⟩] s.toPart t.toPart ∧ PassKept s.toPart t.toPart)

/-- The direction an edge carries in a move state: the move's in LOWERING, DRIVING and LEVELLING; in PROBING the sign of
the travel count, or the last step's where it is 0 (R44). An edge with a direction that ends no move updates the tracker with
|D| and resets D; one without disturbs it; the car stays in its state, and POSITION_LOST is raised where every hypothesis is
dead (R45, R91). -/
def Obligations.EdgeInMove : Prop :=
  ∀ (s : State) (c : Car) (kind : EdgeKind), s.powered = true →
    (s.car c).inputs.zone.accepted = some (kind == .leave) → isMoveState (s.stateOf c) = true →
    ¬(kind = .enter ∧ (s.stateOf c = .lowering ∨ s.stateOf c = .probing)) →
    let b := s.car c
    let level := kind == .enter
    let dir := if s.stateOf c = .probing then
        (if 0 < b.inputs.move.travel then some .up else if b.inputs.move.travel < 0 then some .down
         else b.inputs.move.lastStep)
      else b.inputs.move.dir
    let mm := (countToMm (s.entry c).ppm b.inputs.odometry).natAbs
    let after := dir.map fun d => trackerUpdate (s.entry c) s.globals b.tracker kind d mm
    let tracker := (after.map (·.1)).getD ⟨List.replicate b.tracker.costs.length 0, .none, 0, 0, false⟩
    ∃ t, exec (.zoneEdge c kind) s = .next t ∧
      t.car c = { b with
        tracker := tracker
        inputs := { b.inputs with zone := ⟨level, some level, none⟩, odometry := 0 } } ∧
      CarEvent c (if after.any (·.2) then [⟨.positionLost, some c⟩] else []) s.toPart t.toPart ∧
      PassKept s.toPart t.toPart ∧ ∀ d, d ≠ c → t.car d = s.car d

/-- An ENTER edge in LOWERING or PROBING updates the tracker, closes the brake and takes the car to LEVELLING: landing
reached from the updated best zone, dwell and slip timers started, the brake slot released and the reservation kept,
CAR_LEVELLED raised, the LEVELLED pattern requested (R45, R62, R60, R181). An edge without a direction, of a probe in which
no step was counted, disturbs the tracker in place of the update, and levels the car all the same (R45, R46). A LEVELLING
after a probe takes the edge's direction (R42), and its peak with it (log 24), and has no method used: a method left by an
earlier grant is cleared, the model's reading of R62 and R178 (log 32). -/
def Obligations.EnterEdgeLevels : Prop :=
  ∀ (s : State) (c : Car), s.powered = true →
    (s.car c).inputs.zone.accepted = some false → s.stateOf c = .lowering ∨ s.stateOf c = .probing →
    let b := s.car c
    let probed : Option Dir :=
      if 0 < b.inputs.move.travel then some .up else if b.inputs.move.travel < 0 then some .down
      else b.inputs.move.lastStep
    let way := if s.stateOf c = .probing then probed else b.inputs.move.dir
    let mm := (countToMm (s.entry c).ppm b.inputs.odometry).natAbs
    let after : Tracker × Bool := match way with
      | some d => trackerUpdate (s.entry c) s.globals b.tracker .enter d mm
      | none => (⟨List.replicate b.tracker.costs.length 0, .none, 0, 0, false⟩, false)
    let landing := after.1.bestZone / 2
    let took : MoveRecord := match way with
      | some .up => { b.inputs.move with dir := way, peak := max b.inputs.move.peak b.inputs.move.travel }
      | some .down => { b.inputs.move with dir := way, peak := max b.inputs.move.peak (-b.inputs.move.travel) }
      | none => b.inputs.move
    ∃ t, exec (.zoneEdge c .enter) s = .next t ∧
      t.car c = { b with
        tracker := after.1
        inputs := { b.inputs with
          zone := ⟨true, some true, none⟩
          odometry := 0
          move := if s.stateOf c = .probing then took else { b.inputs.move with armed := false } }
        record := { b.record with
          state := .levelling
          heldCause := none
          summary := { b.record.summary with
            landing := some landing
            methodUsed := if s.stateOf c = .probing then none else b.record.summary.methodUsed }
          dwellTimer := some s.globals.stopDwell
          slipTimer := some (s.globals.slipLimit * 1000)
          motionAge := none }
        slots := { b.slots with brake := false }
        brake := b.brake.close
        signals := { b.signals with lamp := .flash, reassurance := none }.requestTone s.globals .levelled } ∧
      CarEvent c (⟨.carLevelled, some c⟩ :: if after.2 then [⟨.positionLost, some c⟩] else []) s.toPart t.toPart ∧
      PassKept s.toPart t.toPart

/-- An update of the tracker (R84 to R92). The cost of a zone is the least over the paths an edge allows (R88, R89): directly
from the zone behind it, or at an ENTER edge also past a missed vane, each the old cost of the zone it comes from, the
penalty of a missed vane, and the mismatch (R87) of |D| against the remainder (R85) or, past a missed vane, against the
remainder, the vane and the span between; zones the edge cannot be in are excluded, and costs saturate at 4095. Where every
cost is 4095 every hypothesis is dead and the tracker is uniform; otherwise the least cost is taken from every cost below
4095, the best zone is the lowest of cost 0, the confidence is the distance of the second-least up to 255, and the anchor is
the edge's. -/
def Obligations.TrackerUpdated : Prop :=
  ∀ (e : CarEntry) (g : Globals) (old : Tracker) (kind : EdgeKind) (d : Dir) (mm : Nat),
    let zones := 2 * e.landings - 1
    let was (z : Nat) := old.costs.getD z 4095
    let behind (z far : Nat) : Option Nat := match d with
      | .up => if far ≤ z then some (z - far) else none
      | .down => if z + far < zones then some (z + far) else none
    let left (z : Nat) : Nat := match old.anchor with
      | .edge (.enter way) => if d = way then 2 * e.halfWidth else 0
      | .edge (.leave way) => if d = way then zoneLength e z else 0
      | .edge .level => e.halfWidth
      | .seed _ offset => if d = .up then zoneLength e z - offset else offset
      | .none => zoneLength e z
    let miss (expected : Nat) : Nat := min 255
      ((if old.anchor = .none then mm - expected else max mm expected - min mm expected) / g.tolerance)
    let direct (z : Nat) : Nat := match behind z 1 with
      | some p => min 4095 (was p + miss (left p))
      | none => 4095
    let missed (z : Nat) : Nat := match behind z 1, behind z 3 with
      | some between, some p =>
          min 4095 (was p + g.missPenalty + miss (left p + 2 * e.halfWidth + zoneLength e between))
      | _, _ => 4095
    let cost (z : Nat) : Nat := match kind with
      | .enter => if z % 2 = 0 then min (direct z) (missed z) else 4095
      | .leave => if z % 2 = 0 then 4095 else direct z
    let r := trackerUpdate e g old kind d mm
    r.1.costs.length = zones ∧ r.1.confirmed = false ∧
    (r.2 = true ↔ ∀ z, z < zones → cost z = 4095) ∧
    (r.2 = true → r.1 = ⟨List.replicate zones 0, .none, 0, 0, false⟩) ∧
    (r.2 = false →
      (∃ least, (∃ z, z < zones ∧ cost z = least) ∧ (∀ z, z < zones → least ≤ cost z) ∧
        ∀ z, z < zones → r.1.costs[z]? = some (if cost z = 4095 then 4095 else cost z - least)) ∧
      r.1.costs[r.1.bestZone]? = some 0 ∧ (∀ z, z < r.1.bestZone → r.1.costs[z]? ≠ some 0) ∧
      r.1.anchor = .edge (match kind with
        | .enter => .enter d
        | .leave => .leave d) ∧
      r.1.confidence ≤ 255 ∧ (∀ z n : Nat, r.1.costs[z]? = some n → z ≠ r.1.bestZone → r.1.confidence ≤ n) ∧
      (r.1.confidence = 255 ∨ ∃ z, z ≠ r.1.bestZone ∧ r.1.costs[z]? = some r.1.confidence))

/-- A chain-open event closes the car's channels in every state (R38, R170), and then acts on its record: a car in ASSESSING,
READY, a move state or HELD(NO_METHOD) goes to HELD(SAFETY) with last abort cause CHAIN_OPEN and no attempt counted (R76), a
car in RELEASING is RESCUED (R66), and every other stands. A lockout-on event likewise takes the states of R75 to
HELD(LOCKOUT), a lockout-off event takes HELD(LOCKOUT) to ASSESSING, or to FAILED at three attempts (R75). -/
def Obligations.ChainAndLockout : Prop :=
  ∀ (s : State) (c : Car), s.powered = true →
    let b := s.car c
    let r := b.record
    let opened : CarBlock := { b with inputs := { b.inputs with chain := ⟨false, some false, none⟩ }, brake := b.brake.close }
    let locked : CarBlock := { b with inputs := { b.inputs with lockout := ⟨true, some true, none⟩ }, brake := b.brake.close }
    let unlocked : CarBlock := { b with inputs := { b.inputs with lockout := ⟨false, some false, none⟩ } }
    let heldBySafety := r.state = .assessing ∨ r.state = .ready ∨ isMoveState r.state = true ∨
      (r.state = .held ∧ r.heldCause = some .noMethod)
    let heldByLock := isTrapped r.state = true ∧ r.state ≠ .rescued ∧ r.state ≠ .inhibited
    let caused (x : CarBlock) (a : AbortCause) : CarBlock := { x with record := { x.record with lastAbort := some a } }
    (b.inputs.chain.accepted = some true →
      (heldBySafety → ∃ t, exec (.chainOpen c) s = .next t ∧
        t.car c = (caused opened.cancelled .chainOpen).moved s.globals .held (some .safety) ∧
        CarEvent c [⟨.carHeld, some c⟩] s.toPart t.toPart ∧ PassKept s.toPart t.toPart) ∧
      (r.state = .releasing →
        let m := opened.moved s.globals .rescued none
        ∃ t, exec (.chainOpen c) s = .next t ∧
          t.car c = { m with record :=
            { m.record with summary := { r.summary with releaseTime := some r.trappedTime } } } ∧
          CarEvent c [⟨.carRescued, some c⟩] s.toPart t.toPart ∧ PassKept s.toPart t.toPart) ∧
      (¬heldBySafety → r.state ≠ .releasing →
        exec (.chainOpen c) s = .next (s.withPart (s.modCar c fun _ => opened)))) ∧
    (b.inputs.lockout.accepted = some false →
      (heldByLock → ∃ t, exec (.lockoutOn c) s = .next t ∧
        t.car c = (if r.state = .failed then locked else caused locked.cancelled .lockout).moved
          s.globals .held (some .lockout) ∧
        CarEvent c [⟨.carHeld, some c⟩] s.toPart t.toPart ∧ PassKept s.toPart t.toPart) ∧
      (¬heldByLock → exec (.lockoutOn c) s = .next (s.withPart (s.modCar c fun _ => locked)))) ∧
    (b.inputs.lockout.accepted = some true →
      (r.state = .held → r.heldCause = some .lockout → r.attempts = 3 →
        exec (.lockoutOff c) s = .next (s.withPart (s.modCar c fun _ => unlocked.moved s.globals .failed none))) ∧
      (r.state = .held → r.heldCause = some .lockout → r.attempts ≠ 3 →
        ∃ t, exec (.lockoutOff c) s = .next t ∧ t.car c = unlocked.assessed s.globals ∧
          CarEvent c (unlocked.assessedNotices c) s.toPart t.toPart ∧ unlocked.AssessedPass s.toPart t.toPart) ∧
      (¬(r.state = .held ∧ r.heldCause = some .lockout) →
        exec (.lockoutOff c) s = .next (s.withPart (s.modCar c fun _ => unlocked))))

/-- An encoder sample: equal to the held pair it is no step, with both channels changed it is an illegal step that is only
counted, and one place along the cycle it counts on D, on the frame count and, in a move state, on the move record, whose peak
never falls; in LEVELLING it restarts the dwell (R39, R41, R42, R48, R63). In LOWERING or DRIVING, back travel beyond the
reversal distance closes the brake and fails the car (R47, R78), and in LOWERING a move distance that passes the run limit
does (R169). The first sample after a reset is no step: the model's choice (log 7). Outside the move states the move record stands,
by R42 and against section 3.9, which has roll-back after a REVERSAL change the travel count: the model's reading (log 37). -/
def Obligations.EncoderCounts : Prop :=
  ∀ (s : State) (c : Car) (old new : Bool × Bool) (d : Dir), s.powered = true →
    let b := s.car c
    let i := b.inputs
    let step : Int := match d with
      | .up => 1
      | .down => -1
    let place (pair : Bool × Bool) : Bool × Bool := (!pair.2, pair.1)
    let forward (travel : Int) : Int := if i.move.dir = some .down then -travel else travel
    let moved : MoveRecord := { i.move with
      travel := i.move.travel + step
      lastStep := some d
      peak := if i.move.dir.isSome then max i.move.peak (forward (i.move.travel + step)) else i.move.peak }
    let counted : CarBlock := { b with inputs := { i with
      encoder := some new
      odometry := max (-8388607) (min 8388607 (i.odometry + step))
      frameCount := i.frameCount + step
      move := if isMoveState (s.stateOf c) then moved else i.move } }
    let ppm := (s.entry c).ppm
    let back := countToMm ppm (moved.peak - forward moved.travel)
    let reverses := moved.armed = true ∧ moved.dir.isSome = true ∧ (s.globals.reversal : Int) < back
    let limit : Int := (b.planner.plan.distance.getD 0 + s.globals.runMargin : Nat)
    let overruns := countToMm ppm i.move.peak < countToMm ppm moved.peak ∧ limit < countToMm ppm moved.peak
    let sampled (x : CarInputs) : State := s.withPart (s.modInputs c fun _ => x)
    (i.encoder = none → exec (.encoderStep c new.1 new.2) s = .next (sampled { i with encoder := some new })) ∧
    (i.encoder = some old → old.1 ≠ new.1 → old.2 ≠ new.2 →
      exec (.encoderStep c new.1 new.2) s =
        .next (sampled { i with encoder := some new, encoderErrors := min 255 (i.encoderErrors + 1) })) ∧
    (i.encoder = some new → exec (.encoderStep c new.1 new.2) s = .next s) ∧
    (i.encoder = some old → (match d with
        | .up => new = place old
        | .down => old = place new) →
      (isMoveState (s.stateOf c) = false ∨ s.stateOf c = .probing → i.move.armed = false →
        exec (.encoderStep c new.1 new.2) s = .next (s.withPart (s.modCar c fun _ => counted))) ∧
      (s.stateOf c = .levelling → i.move.armed = false →
        exec (.encoderStep c new.1 new.2) s = .next (s.withPart (s.modCar c fun _ => { counted with
          record := { b.record with dwellTimer := some s.globals.stopDwell, motionAge := some 0 } }))) ∧
      (s.stateOf c = .driving ∨ s.stateOf c = .lowering → ¬reverses → ¬(s.stateOf c = .lowering ∧ overruns) →
        exec (.encoderStep c new.1 new.2) s = .next (s.withPart (s.modCar c fun _ => counted))) ∧
      (s.stateOf c = .driving ∨ s.stateOf c = .lowering → reverses →
        ∃ t, exec (.encoderStep c new.1 new.2) s = .next t ∧
          t.car c = (let f := counted.cancelled.failed s.globals .reversal
            { f with brake := b.brake.close }) ∧
          CarEvent c [⟨.carFailed, some c⟩] s.toPart t.toPart ∧ PassKept s.toPart t.toPart) ∧
      (s.stateOf c = .lowering → ¬reverses → overruns →
        ∃ t, exec (.encoderStep c new.1 new.2) s = .next t ∧ t.car c = counted.failed s.globals .runLimit ∧
          CarEvent c [⟨.carFailed, some c⟩] s.toPart t.toPart ∧ PassKept s.toPart t.toPart))

/-! ## Clocks and timers -/

/-- The 1 s tick: trapped time counts in the trapped states but RESCUED and saturates (R52), every line of a configured car is
offered a RESCUE_STATE with the car's state and held cause (R30), the lamps' phase begins (R180), and a timed pass is asked
for (R125): it starts, with the snapshot of R126 taken of the part as the tick leaves it, or its flag is set. The Planner's
figures apart, nothing else of a car changes. That the snapshot sees the counted trapped times is the model's choice (log 17). -/
def Obligations.SecondTick : Prop :=
  ∀ s : State, s.powered = true →
    let seconds (c : Car) :=
      if isTrapped (s.stateOf c) = true ∧ s.stateOf c ≠ .rescued then min 65535 ((s.car c).record.trappedTime + 1)
      else (s.car c).record.trappedTime
    ∃ t, exec .oneSecondTick s = .next t ∧
      t.time = { s.time with sinceTick := 0, flashLit := true } ∧
      t.supply = s.supply ∧ t.config = s.config ∧ t.store = s.store ∧ t.commits = s.commits ∧
      (∀ c, t.car c = { s.car c with
        record := { (s.car c).record with trappedTime := seconds c }
        line := if s.stateOf c = .unconfigured then (s.car c).line
          else (s.car c).line.offerRescueState (.rescueState (s.stateOf c) (s.car c).record.heldCause)
        planner := (t.car c).planner }) ∧
      (∀ c, (t.car c).planner.plan = (s.car c).planner.plan ∧ (t.car c).planner.weight = (s.car c).planner.weight ∧
        (t.car c).planner.mask = (s.car c).planner.mask) ∧
      (s.pass = none → t.pass = some (t.passOf .timed) ∧
        t.timedPending = s.timedPending ∧ t.requestPending = s.requestPending) ∧
      (s.pass.isSome = true → t.pass = s.pass ∧ t.timedPending = true ∧ t.requestPending = s.requestPending ∧
        t.station = s.station ∧ t.panel = s.panel ∧ ∀ c, (t.car c).planner = (s.car c).planner)

/-- The start of a timed pass, by the 1 s tick or at the end of the pass before it (R125, R128): it steps the urgency of
every car in a trapped state other than RESCUED by min(4095, w + P × k_occ + A × k_alarm), moves the step alarm mark of each
whose line is ALIVE to its alarm count, and where any urgency then reaches 61440 halves every stepped one and raises
URGENCY_REBASED (R129 to R131); its snapshot, taken after that, holds the cars in ASSESSING, READY and HELD(NO_METHOD), with
their stepped urgencies and every other figure of R126, and the global parameters and the usable energy. The states and weights
are those at that start: at the end of a pass, those that its results and its selection have left. On the tick the snapshot sees
the counted trapped times, the model's choice (log 17). -/
def Obligations.UrgencyStepped : Prop :=
  ∀ (s : State) (i : Instr), s.powered = true →
    (i = .oneSecondTick ∧ s.pass = none) ∨ (i = .passEnd ∧ s.pass.isSome = true ∧ s.timedPending = true) →
    ∃ t, exec i s = .next t ∧ t.pass = some (t.passOf .timed) ∧
      let waiting (c : Car) := isTrapped (t.stateOf c) = true ∧ t.stateOf c ≠ .rescued
      let people (c : Car) := match ((s.car c).line.lastStatus.bind fun x => x.load) with
        | some load => min 20 ((load + 74) / 75)
        | none => s.globals.defaultOcc
      let alarms (c : Car) := match (s.car c).line.state, (s.car c).line.lastStatus, (s.car c).planner.alarmMark with
        | .alive, some x, some mark => (x.alarmCount + 256 - mark) % 256
        | _, _, _ => 0
      let stepped (c : Car) := if isTrapped (t.stateOf c) = true ∧ t.stateOf c ≠ .rescued then
          (s.car c).planner.urgency +
            min 4095 ((t.car c).planner.weight + people c * s.globals.kOcc + alarms c * s.globals.kAlarm)
        else (s.car c).planner.urgency
      let rebased : Notice := ⟨.urgencyRebased, none⟩
      (i = .oneSecondTick → ∀ c, t.stateOf c = s.stateOf c ∧ (t.car c).planner.weight = (s.car c).planner.weight) ∧
      (t.pass.map fun a => a.cars.map (·.car)) = some (allCars.filter fun c =>
        t.stateOf c == .assessing || t.stateOf c == .ready ||
          (t.stateOf c == .held && (t.car c).record.heldCause == some .noMethod)) ∧
      (∀ a, t.pass = some a → ∀ x ∈ a.cars, x.urgency = (t.car x.car).planner.urgency) ∧
      (∀ c, (t.car c).planner.alarmMark =
        match (s.car c).line.state, (s.car c).line.lastStatus with
        | .alive, some x => if isTrapped (t.stateOf c) = true ∧ t.stateOf c ≠ .rescued then some x.alarmCount
            else (s.car c).planner.alarmMark
        | _, _ => (s.car c).planner.alarmMark) ∧
      ((∀ c, stepped c < 61440) → (∀ c, (t.car c).planner.urgency = stepped c) ∧
        (∀ port, rebased ∈ (t.port port).notices → rebased ∈ (s.port port).notices) ∧
        (i = .oneSecondTick → t.station = s.station ∧ t.panel = s.panel)) ∧
      ((∃ c, 61440 ≤ stepped c) →
        (∀ c, waiting c → (t.car c).planner.urgency = stepped c / 2) ∧
        (∀ c, ¬waiting c → (t.car c).planner.urgency = (s.car c).planner.urgency) ∧
        (∀ port, maskHolds (s.port port).mask .urgencyRebased = true → rebased ∈ (t.port port).notices) ∧
        (i = .oneSecondTick → t.station = s.station.offer rebased ∧ t.panel = s.panel.offer rebased))

/-- The planning view of a car (R98, R99), from which every plan starts: over the landing zones when the zone level reads
active, over the spans otherwise, the least cost, the lowest zone of that cost, the confidence against the second-least,
whether it is resolved, and in a span the span offset that the anchor and D give, clamped to the span; a view whose zones are
all excluded is empty. A pass that starts with the tick takes each car's view at its snapshot (R126). -/
def Obligations.PlanningViews : Prop :=
  (∀ (e : CarEntry) (g : Globals) (t : Tracker) (level : Option Bool) (dist : Int),
    let v := planningView e g t level dist
    let considered (z : Nat) := z < 2 * e.landings - 1 ∧ (z % 2 = 0 ↔ level = some true)
    let cost (z : Nat) := t.costs.getD z 4095
    ((∀ z, considered z → 4095 ≤ cost z) → v = ⟨4095, none, 0, false, none⟩) ∧
    ((∃ z, considered z ∧ cost z < 4095) →
      ∃ best second, v.bestZone = some best ∧ considered best ∧ v.least = cost best ∧ cost best < 4095 ∧
        (∀ z, considered z → cost best ≤ cost z) ∧ (∀ z, considered z → z < best → cost best < cost z) ∧
        second ≤ 4095 ∧ (∀ z, considered z → z ≠ best → second ≤ cost z) ∧
        (second = 4095 ∨ ∃ z, considered z ∧ z ≠ best ∧ cost z = second) ∧
        v.confidence = min 255 (second - cost best) ∧ (v.resolved = true ↔ g.threshold ≤ v.confidence) ∧
        let clamp (o : Int) : Nat := (min (zoneLength e best : Int) (max 0 o)).toNat
        v.offset = if level = some true then none else match t.anchor with
          | .edge (.leave .up) => some (clamp dist)
          | .edge (.leave .down) => some (clamp ((zoneLength e best : Int) + dist))
          | .seed zone offset => if zone = best then some (clamp ((offset : Int) + dist)) else none
          | _ => none)) ∧
  ∀ s : State, s.powered = true → s.pass = none →
    ∃ t a, exec .oneSecondTick s = .next t ∧ t.pass = some a ∧ ∀ x ∈ a.cars,
      x.view = planningView (s.entry x.car) s.globals (s.car x.car).tracker (s.car x.car).inputs.zone.accepted
        (countToMm (s.entry x.car).ppm (s.car x.car).inputs.odometry)

/-- The end of a pass (R128), step by step. A car of the snapshot that is still in ASSESSING, READY or HELD(NO_METHOD) takes its
result: plan, weight and mask are written, and it goes to READY, to RELEASING by its check (R65, R175), or to HELD(NO_METHOD),
with the notice of its entry (R57, R72). Demand is judged once the results are written (R146, R147, R149; log 22). The counters
step and the pending commits are applied in order (R110, R120), and nothing else of a car changes by them. Then the selection is
made (R154), and a waiting pass starts, a timed one before a requested one (R128), with the snapshot of R126 taken of the part
as it then stands; a requested one steps no urgency and changes nothing else. A car that ends outside READY and was not
granted is as its result leaves it, up to its policy figures, its last escalation rule and a timed pass's urgency step. -/
def Obligations.PassResults : Prop :=
  ∀ (s : State) (pass : Pass), s.powered = true → s.pass = some pass → (pass.cars.map (·.car)).Nodup →
    let planned (c : Car) := s.stateOf c = .assessing ∨ s.stateOf c = .ready ∨
      (s.stateOf c = .held ∧ (s.car c).record.heldCause = some .noMethod)
    let result (x : CarSnapshot) := planCar s.config.rules pass x
    let taken (x : CarSnapshot) : CarBlock :=
      let b := s.car x.car
      { b with
        planner := { b.planner with plan := (result x).plan, weight := (result x).weight, mask := (result x).mask }
        record := if (result x).plan.method = some .none then
            { b.record with summary :=
              { b.record.summary with methodUsed := some .none, landing := (result x).plan.target } }
          else b.record }
    let after (x : CarSnapshot) : CarBlock := match (result x).plan.method with
      | none => if s.stateOf x.car = .held then taken x else (taken x).moved s.globals .held (some .noMethod)
      | some .none => (taken x).releasing s.globals
      | some _ => (taken x).moved s.globals .ready none
    let raised (x : CarSnapshot) : List Notice := match (result x).plan.method with
      | none => if s.stateOf x.car = .held then [] else [⟨.carHeld, some x.car⟩]
      | some .none => (taken x).releasingNotices s.globals x.car
      | some _ => []
    let alike (b now : CarBlock) := now = { b with
      policy := now.policy
      record := { b.record with lastEscalation := now.record.lastEscalation }
      planner := { b.planner with urgency := now.planner.urgency, alarmMark := now.planner.alarmMark } }
    ∃ t written judged stepped, exec .passEnd s = .next t ∧
      KeepsRest s.toPart written ∧ KeepsPlans s.toPart written ∧
      (∀ x ∈ pass.cars, planned x.car → written.car x.car = after x) ∧
      (∀ c, ¬(planned c ∧ ∃ x ∈ pass.cars, x.car = c) → written.car c = s.car c) ∧
      (∀ port n, n ∈ (written.port port).notices ↔ n ∈ (s.port port).notices ∨
        ∃ x ∈ pass.cars, planned x.car ∧ n ∈ raised x ∧ maskHolds (s.port port).mask n.kind = true) ∧
      judged = written.demandJudged s.demand ∧
      KeepsRest { judged with
        config := { s.config with rules := t.config.rules }, store := t.store, commits := [] } stepped ∧
      KeepsPlans judged stepped ∧
      (∀ c, stepped.car c = { judged.car c with
        policy := (stepped.car c).policy
        record := { (judged.car c).record with lastEscalation := (stepped.car c).record.lastEscalation } }) ∧
      t = s.withPart stepped.select.nextPass ∧
      KeepsSupply s.toPart t.toPart ∧ t.commits = [] ∧
      (∀ k : Fin 16, t.config.rules[k] = s.commits.foldl
        (fun r e => if e.rule = k then mergeRule e.selected e.image r else r) s.config.rules[k]) ∧
      t.pass = (if s.timedPending then some (t.passOf .timed)
        else if s.requestPending then some (t.passOf .requested) else none) ∧
      (s.timedPending = false →
        t = s.withPart { stepped.select with pass := t.pass, timedPending := false, requestPending := false }) ∧
      t.timedPending = false ∧ t.requestPending = false ∧
      (∀ x ∈ pass.cars, planned x.car →
        ((after x).record.state ≠ .ready → alike (after x) (t.car x.car)) ∧
        ((after x).record.state = .ready →
          (t.car x.car).planner.plan = (result x).plan ∧ (t.car x.car).planner.weight = (result x).weight ∧
          (t.car x.car).planner.mask = (result x).mask ∧
          (t.stateOf x.car = .ready ∨ ∃ m, (result x).plan.method = some m ∧ moveStateOf m = some (t.stateOf x.car)))) ∧
      (∀ c, ¬(planned c ∧ ∃ x ∈ pass.cars, x.car = c) →
        (t.car c).planner.plan = (s.car c).planner.plan ∧ (t.car c).planner.weight = (s.car c).planner.weight ∧
        (t.car c).planner.mask = (s.car c).planner.mask ∧ (s.stateOf c ≠ .ready → alike (s.car c) (t.car c)))

/-- A frame boundary (R160): the cars have their turns, in the order of their numbers and each whole (log 20). A car without a
started OPEN channel A enters its frame in the window, and starts an opening with an empty window. In a LOWERING opening the
speed is measured over the window and recorded; up to the overspeed limit the share is regulated by the band, and the shadow
shares of the OPEN channels become active (R166, R167); above it both channels lock and the car fails, with CAR_FAILED (R168,
R78). A probe ends at its last frame, closed, with its result weighed from the net travel, and the car goes to ASSESSING by R56,
with the pass or the CAR_HELD of that entry (R165, R61). That the started flag stands when channels lock or close is the model's
choice (log 35). A turn leaves everything else standing but what the selection of its releases does (R155), and a car that was
not READY before the boundary is as its own turn leaves it. -/
def Obligations.FrameBoundaryActs : Prop :=
  ∀ s : State, s.powered = true →
    let g := s.globals
    let window (b : CarBlock) :=
      let entered := b.inputs.window ++ [min 65535 b.inputs.frameCount.natAbs]
      entered.drop (entered.length - g.window)
    let speed (c : Car) (b : CarBlock) :=
      (window b).sum * 1000000 / ((s.entry c).ppm * g.frame * (window b).length)
    let share (c : Car) (b : CarBlock) :=
      if (s.entry c).speed + g.band < speed c b then min g.maxShare (b.brake.shadowA - g.stepDown)
      else if speed c b + g.band < (s.entry c).speed then min g.maxShare (b.brake.shadowA + g.stepUp)
      else b.brake.shadowA
    let otherShare (c : Car) (b : CarBlock) := if share c b = b.brake.shadowA then b.brake.shadowB else
      match (s.entry c).bMode with
      | .follow => share c b
      | .own => (s.entry c).bShare
      | .closed => 0
    let lit (x : CarBrake) : CarBrake := { x with
      activeA := x.shadowA, insideA := decide (0 < x.shadowA), started := true
      activeB := if x.channelB = .open then x.shadowB else x.activeB
      insideB := decide (x.channelB = .open ∧ 0 < x.shadowB) }
    let running (b : CarBlock) := b.brake.channelA = .open ∧ b.brake.started = true
    let frames (b : CarBlock) := min 65535 (b.brake.framesOpen + 1)
    let overspeeds (c : Car) (b : CarBlock) :=
      running b ∧ b.brake.opening = some .lowering ∧ (s.entry c).overspeed < speed c b
    let probeEnds (b : CarBlock) := running b ∧ b.brake.opening = some .probe ∧ frames b = g.probeFrames
    let counted (c : Car) (b : CarBlock) : CarBlock := { b with
      inputs := { b.inputs with window := window b, frameCount := 0 }
      brake := { b.brake with
        framesOpen := frames b
        lastSpeed := if b.brake.opening = some .lowering then some (min 65535 (speed c b)) else b.brake.lastSpeed } }
    let locked (c : Car) (b : CarBlock) : CarBlock := { counted c b with brake := { (counted c b).brake with
      channelA := .locked, channelB := .locked, opening := none, shadowA := 0, shadowB := 0, activeA := 0, activeB := 0
      insideA := false, insideB := false } }
    let probed (c : Car) (b : CarBlock) : CarBlock :=
      let mm := countToMm (s.entry c).ppm b.inputs.move.travel
      { counted c b with record := { b.record with probeResult := some (
        if (g.probeThreshold : Int) ≤ mm then .up else if mm ≤ -(g.probeThreshold : Int) then .down else .noDrift) } }
    let turn (c : Car) (p q : Part) :=
      let b := p.car c
      let acts (now : CarBlock) (l : List Notice) := q.car c = now ∧ CarTurn c l p q
      (b.brake.channelA ≠ .open →
        acts { b with inputs := { b.inputs with window := window b, frameCount := 0 } } [] ∧ PassKept p q) ∧
      (b.brake.channelA = .open → b.brake.started = false →
        acts { b with inputs := { b.inputs with window := [], frameCount := 0 }, brake := lit b.brake } [] ∧ PassKept p q) ∧
      (running b → b.brake.opening = some .lowering → ¬overspeeds c b →
        acts { counted c b with brake := lit { (counted c b).brake with
          shadowA := share c b, shadowB := otherShare c b } } [] ∧ PassKept p q) ∧
      (running b → b.brake.opening = some .probe → ¬probeEnds b →
        acts { counted c b with brake := lit (counted c b).brake } [] ∧ PassKept p q) ∧
      (overspeeds c b → b.record.state = .lowering →
        acts ((locked c b).failed g .overspeed) [⟨.carFailed, some c⟩] ∧ PassKept p q) ∧
      (probeEnds b → b.record.state = .probing →
        acts ((probed c b).assessed g) (b.assessedNotices c) ∧ b.AssessedPass p q)
    ∃ t p, exec .frameBoundary s = .next t ∧ InTurn turn allCars s.toPart p ∧
      t = s.withPart ({ p with time := { s.time with sinceFrame := 0 } }.demandJudged s.demand) ∧
      ∀ c, s.stateOf c ≠ .ready → ∃ before after, turn c before after ∧
        before.car c = s.car c ∧ t.car c = after.car c

/-- The timers of a car record, while they run in their state. The confirm timer traps the car: record, urgency and alarm
tally prepared, CAR_STALLED, then ASSESSING by R56 (R55, R106, R123); that the current move id stands through it is the
model's choice, where R69 and R71 differ (log 38). The retry timer sends it to ASSESSING with attempts, trapped time, urgency
and probe result standing (R73). The ack and move timers cancel and fail a powered move (R68, R69), the gate timer fails a
release (R66). The dwell timer releases the car by the check of R65 (R63). The slip timer locks the brake and fails a car judged
still moving, and starts again otherwise (R64, R171); that the started flag stands at the lock is the model's choice (log 35).
An expiry with no running timer does nothing: the model's convention (log 1). -/
def Obligations.RecordTimers : Prop :=
  ∀ (s : State) (c : Car), s.powered = true →
    let b := s.car c
    let r := b.record
    let g := s.globals
    let alarm := b.line.lastStatus.map (·.alarmCount)
    let cause : StallCause := match b.line.lastStatus with
      | some x => if x.mode = .stalled then x.cause else .unknown
      | none => .unknown
    let trapped : CarBlock := { b with
      record := { r with
        trappedTime := 0, attempts := 0, retryTimer := none, probeResult := none, lastAbort := none
        driveFailReason := none, lastEscalation := none, summary := ⟨none, none, none⟩, stallCause := some cause }
      planner := ⟨0, (s.entry c).baseWeight, allMethods, alarm, .empty⟩
      policy := { b.policy with alarmTally := 0, alarmReference := alarm } }
    let failing (i : Instr) (cause : AbortCause) := ∃ t, exec i s = .next t ∧
      t.car c = b.cancelled.failed g cause ∧ CarEvent c [⟨.carFailed, some c⟩] s.toPart t.toPart ∧
      PassKept s.toPart t.toPart
    (r.state = .confirming → r.confirmTimer.isSome = true →
      ∃ t, exec (.confirmTimerExpiry c) s = .next t ∧ t.car c = trapped.assessed g ∧
        CarEvent c (⟨.carStalled, some c⟩ :: b.assessedNotices c) s.toPart t.toPart ∧ b.AssessedPass s.toPart t.toPart) ∧
    (r.state = .failed → r.retryTimer.isSome = true →
      ∃ t, exec (.retryTimerExpiry c) s = .next t ∧ t.car c = b.assessed g ∧
        CarEvent c (b.assessedNotices c) s.toPart t.toPart ∧ b.AssessedPass s.toPart t.toPart) ∧
    (r.state = .driving → r.ackTimer.isSome = true → failing (.ackTimerExpiry c) .noAck) ∧
    (r.state = .driving → r.moveTimer.isSome = true → failing (.moveTimerExpiry c) .driveTimeout) ∧
    (r.state = .releasing → r.gateTimer.isSome = true → failing (.gateTimerExpiry c) .gateTimeout) ∧
    (r.state = .levelling → r.dwellTimer.isSome = true →
      ∃ t, exec (.dwellTimerExpiry c) s = .next t ∧ t.car c = b.releasing g ∧
        CarEvent c (b.releasingNotices g c) s.toPart t.toPart ∧ PassKept s.toPart t.toPart) ∧
    (r.state = .levelling → r.slipTimer.isSome = true →
      ((∃ age, r.motionAge = some age ∧ age < g.stopDwell) →
        ∃ t, exec (.slipTimerExpiry c) s = .next t ∧
          t.car c = ({ b with brake := { b.brake with
            channelA := .locked, channelB := .locked, opening := none, shadowA := 0, activeA := 0, shadowB := 0
            activeB := 0, insideA := false, insideB := false } } : CarBlock).failed g .brakeSlip ∧
          CarEvent c [⟨.carFailed, some c⟩] s.toPart t.toPart ∧ PassKept s.toPart t.toPart) ∧
      (¬(∃ age, r.motionAge = some age ∧ age < g.stopDwell) →
        exec (.slipTimerExpiry c) s = .next (s.withPart (s.modRecord c fun r => { r with slipTimer := some (g.slipLimit * 1000) })))) ∧
    (r.confirmTimer = none → exec (.confirmTimerExpiry c) s = .next s) ∧
    (r.retryTimer = none → exec (.retryTimerExpiry c) s = .next s) ∧
    (r.ackTimer = none → exec (.ackTimerExpiry c) s = .next s) ∧
    (r.moveTimer = none → exec (.moveTimerExpiry c) s = .next s) ∧
    (r.dwellTimer = none → exec (.dwellTimerExpiry c) s = .next s) ∧
    (r.slipTimer = none → exec (.slipTimerExpiry c) s = .next s) ∧
    (r.gateTimer = none → exec (.gateTimerExpiry c) s = .next s)

/-- The signals of a car: the end of an unlock pulse (R176); the reassurance timer, which starts again and asks for REASSURE
unless suppressed (R182); the end of a pattern's segment, which goes on to the next segment, to the waiting pattern, or to
silence (R181); the switch of a burst's square wave (R181); the end of the lamps' lit phase (R180); the end of a channel's
active share (R161). That each command acts while its timer, pattern or share runs, whatever time is left, is the model's
convention (log 1). -/
def Obligations.SignalTimers : Prop :=
  ∀ (s : State) (c : Car), s.powered = true →
    let x := (s.car c).signals
    let k := (s.car c).brake
    let g := s.globals
    let signals (y : CarSignals) : State := s.withPart (s.modSignals c fun _ => y)
    let start (t : TonePattern) (length : Nat) : Playing := ⟨t, 0, length, g.toneHigh, g.toneLow, true⟩
    let first (t : TonePattern) : Playing := match t with
      | .levelled => start t 600
      | _ => start t 150
    (x.unlockTimer.isSome = true →
      exec (.unlockTimerExpiry c) s = .next (signals { x with unlockTimer := none, unlockOutput := false })) ∧
    (x.reassurance.isSome = true →
      let again := { x with reassurance := some (g.reassurance * 1000) }
      (x.silenced = true → exec (.reassuranceTimerExpiry c) s = .next (signals again)) ∧
      (x.silenced = false → x.playing = none →
        exec (.reassuranceTimerExpiry c) s = .next (signals { again with playing := some (first .reassure) })) ∧
      (x.silenced = false → x.playing.isSome = true →
        exec (.reassuranceTimerExpiry c) s = .next (signals { again with waiting := some .reassure }))) ∧
    (∀ p : Playing, x.playing = some p →
      let last := match p.pattern with
        | .moveStart => 2
        | .levelled => 0
        | .release => 4
        | .reassure => 0
      let next : Playing := { p with segment := p.segment + 1, left := 150, output := p.segment % 2 == 1 }
      let switched : Playing := { p with output := if p.segment % 2 = 0 then !p.output else p.output }
      (p.segment < last → exec (.toneSegmentEnd c) s = .next (signals { x with playing := some next })) ∧
      (last ≤ p.segment → x.waiting = none → exec (.toneSegmentEnd c) s = .next (signals { x with playing := none })) ∧
      (∀ w, last ≤ p.segment → x.waiting = some w →
        exec (.toneSegmentEnd c) s = .next (signals { x with playing := some (first w), waiting := none })) ∧
      (p.segment ≤ last → exec (.toneHighLowToggle c) s = .next (signals { x with playing := some switched }))) ∧
    (exec .lampFlashPhase s = .next { s with time := { s.time with flashLit := false } }) ∧
    (k.channelA = .open → k.activeA < 100 →
      exec (.brakeShareEnd c .a) s = .next (s.withPart (s.modBrake c fun y => { y with insideA := false }))) ∧
    (k.channelB = .open → k.activeB < 100 →
      exec (.brakeShareEnd c .b) s = .next (s.withPart (s.modBrake c fun y => { y with insideB := false })))

/-! ## Supply -/

/-- The mains (R142). Accepted as present, it starts the mains stable timer and leaves the belief. Accepted as absent, it
stops the timer and is believed at once: a converter in OFF goes to STANDBY or, with demand, to WAKING or ON (R147), and if
the mains was believed PRESENT the moves in flight lose their supply (R151, R77); where it was believed ABSENT already, the
timer's stop is all. The expiry of the timer makes the belief PRESENT: the converter goes to OFF with its wake, dwell and
failures forgotten (R147), if the mains was believed ABSENT the moves in flight lose their supply, and a selection is made
(R154). A first acceptance does the same (R37, R142). That the converter is moved by the demand as it stands before SUPPLY_LOST
reaches the cars, and that the cars have their turns one after the other, is the model's choice (log 19), and so is it that an
expiry with no running stable timer does nothing (log 1). -/
def Obligations.MainsBelieved : Prop :=
  ∀ s : State, s.powered = true →
    let x := s.supply
    let read (level : Bool) : Part := { s.toPart with mainsInput := ⟨level, some level, none⟩ }
    (∀ i, (i = .mainsLevelChange true ∧ s.mainsInput.accepted = some false) ∨
        (i = .firstLevelAcceptance .mains true ∧ s.mainsInput.accepted = none) →
      exec i s = .next (s.withPart ({ read true with
        supply := { x with stableTimer := some (s.globals.mainsStable * 1000) } }))) ∧
    (∀ i, (i = .mainsLevelChange false ∧ s.mainsInput.accepted = some true) ∨
        (i = .firstLevelAcceptance .mains false ∧ s.mainsInput.accepted = none) →
      let stopped : Part := { read false with supply := { x with stableTimer := none } }
      let believed : Part := { stopped with supply := { stopped.supply with belief := .absent } }
      let moved : Part := if x.converter = .off then believed.standbyEntered else believed
      (x.belief = .absent → exec i s = .next (s.withPart stopped)) ∧
      (x.belief = .unknown → exec i s = .next (s.withPart moved)) ∧
      (x.belief ≠ .absent → ∃ t, exec i s = .next t ∧ KeepsRest (read false) t.toPart ∧
        t.supply.belief = .absent ∧ t.supply.stableTimer = none ∧
        t.supply.sample = x.sample ∧ t.supply.usable = x.usable ∧ t.supply.wakeFailures ≤ x.wakeFailures ∧
        (x.belief = .present → SupplyTakenFrom s.flying s.toPart t.toPart ∧
          ∃ p, InTurn SupplyLostBy s.flying moved p ∧ t = s.withPart (p.demandJudged s.demand)) ∧
        (x.belief = .unknown → ∀ c, s.stateOf c ≠ .ready → t.car c = s.car c) ∧
        (x.converter = .off → s.demand = false → t.supply.converter = .standby ∧ t.supply.enable = false) ∧
        (x.converter = .off → s.demand = true →
          (s.converterInput.accepted = some true → t.supply.converter = .on ∧ t.supply.enable = true) ∧
          (s.converterInput.accepted ≠ some true → t.supply.converter = .waking ∧ t.supply.enable = true ∧
            t.supply.wakeTimer = some s.globals.wakeLimit)))) ∧
    (x.stableTimer = none → exec .mainsStableExpiry s = .next s) ∧
    (x.stableTimer.isSome = true → x.belief = .present →
      exec .mainsStableExpiry s = .next { s with supply := { x with stableTimer := none } }) ∧
    (x.stableTimer.isSome = true → x.belief ≠ .present →
      let off : Part := { s.toPart with supply := { x with
        belief := .present, stableTimer := none, converter := .off, enable := false, wakeTimer := none
        standbyTimer := none, wakeFailures := 0 } }
      ∃ t, exec .mainsStableExpiry s = .next t ∧ KeepsRest s.toPart t.toPart ∧ t.supply = off.supply ∧
        (x.belief = .absent → SupplyTakenFrom s.flying s.toPart t.toPart ∧
          ∃ p, InTurn SupplyLostBy s.flying off p ∧ t = s.withPart p.select) ∧
        (x.belief = .unknown → t = s.withPart off.select ∧ ∀ c, s.stateOf c ≠ .ready → t.car c = s.car c))

/-- The converter and its events. Demand is any car in READY or a move state (R146); the rescue bus is fed in OFF by the mains
when it is present (by its accepted level, log 33), in ON by the converter, and otherwise by nothing (Table 20; by nothing
without power, log 33). Ready ends a wake in ON with the failures forgotten, the dwell running without demand, and a selection
(R148, R149, R154); not ready ends a run in FAULT with SUPPLY_FAULT, and the moves in flight lose their supply (R149, R151; in
the order of log 19). A wake timeout counts a failure, the third of which is FAULT with SUPPLY_FAULT, and otherwise goes to
STANDBY, or with demand wakes again, into ON at once where the level reads ready (R148, R147); the dwell's expiry goes to STANDBY
(R149). In another state a change of the ready level does nothing, and neither does an expiry with no running timer (log 1); a
first acceptance as not ready sets the level and does nothing else in any state (R37).
Every other command leaves the converter to the demand that it makes or ends: `KeepsSupply` in its own statement. -/
def Obligations.ConverterEvents : Prop :=
  (∀ p : Part,
    (p.demand = true ↔ ∃ c, p.stateOf c = .ready ∨ p.stateOf c = .probing ∨ p.stateOf c = .lowering ∨
      p.stateOf c = .levelling ∨ p.stateOf c = .driving) ∧
    (p.busFeed = .mains ↔ p.powered = true ∧ p.supply.converter = .off ∧ p.mainsInput.accepted = some true) ∧
    (p.busFeed = .converter ↔ p.powered = true ∧ p.supply.converter = .on)) ∧
  ∀ s : State, s.powered = true →
    let x := s.supply
    let read (level : Bool) : Part := { s.toPart with converterInput := ⟨level, some level, none⟩ }
    (s.converterInput.accepted = none →
      exec (.firstLevelAcceptance .converter false) s = .next (s.withPart (read false))) ∧
    let fault : Notice := ⟨.supplyFault, none⟩
    (∀ i, (i = .converterReady ∧ s.converterInput.accepted = some false) ∨
        (i = .firstLevelAcceptance .converter true ∧ s.converterInput.accepted = none) →
      (x.converter ≠ .waking → exec i s = .next (s.withPart (read true))) ∧
      (x.converter = .waking →
        let woken : Part := { read true with supply := { x with
          converter := .on, wakeTimer := none, wakeFailures := 0
          standbyTimer := if s.demand then none else some (s.globals.standbyDwell * 1000) } }
        ∃ t, exec i s = .next t ∧ t = s.withPart woken.select ∧
          KeepsRest (read true) t.toPart ∧ PassKept s.toPart t.toPart ∧ t.supply = woken.supply ∧
          ∀ c, s.stateOf c ≠ .ready → t.car c = s.car c)) ∧
    (s.converterInput.accepted = some true →
      (x.converter ≠ .on → exec .converterNotReady s = .next (s.withPart (read false))) ∧
      (x.converter = .on →
        let faulted : Part := { read false with
          supply := { x with converter := .fault, enable := false, wakeTimer := none, standbyTimer := none }
          station := s.station.offer fault
          panel := s.panel.offer fault }
        ∃ t, exec .converterNotReady s = .next t ∧ KeepsRest (read false) t.toPart ∧ t.supply = faulted.supply ∧
          SupplyTakenFrom s.flying s.toPart t.toPart ∧ InTurn SupplyLostBy s.flying faulted t.toPart ∧
          (maskHolds s.station.mask .supplyFault = true → fault ∈ t.station.notices) ∧
          (maskHolds s.panel.mask .supplyFault = true → fault ∈ t.panel.notices))) ∧
    (x.converter ≠ .waking ∨ x.wakeTimer = none → exec .wakeTimeout s = .next s) ∧
    (x.converter = .waking → x.wakeTimer.isSome = true →
      let errors := min 255 (x.wakeErrors + 1)
      let failures := min 3 (x.wakeFailures + 1)
      (2 ≤ x.wakeFailures →
        exec .wakeTimeout s = .next { s with
          supply := { x with
            converter := .fault, enable := false, wakeTimer := none, standbyTimer := none, wakeErrors := errors
            wakeFailures := failures }
          station := s.station.offer fault
          panel := s.panel.offer fault }) ∧
      (x.wakeFailures < 2 → s.demand = false →
        exec .wakeTimeout s = .next { s with supply := { x with
          converter := .standby, enable := false, wakeTimer := none, standbyTimer := none, wakeErrors := errors
          wakeFailures := failures } }) ∧
      (x.wakeFailures < 2 → s.demand = true → s.converterInput.accepted ≠ some true →
        exec .wakeTimeout s = .next { s with supply := { x with
          converter := .waking, enable := true, wakeTimer := some s.globals.wakeLimit, standbyTimer := none
          wakeErrors := errors, wakeFailures := failures } }) ∧
      (x.wakeFailures < 2 → s.demand = true → s.converterInput.accepted = some true →
        exec .wakeTimeout s = .next (s.withPart ({ s.toPart with supply := { x with
          converter := .on, enable := true, wakeTimer := none, standbyTimer := none
          wakeErrors := errors, wakeFailures := 0 } } : Part).select))) ∧
    (x.converter ≠ .on ∨ x.standbyTimer = none → exec .standbyDwellExpiry s = .next s) ∧
    (x.converter = .on → x.standbyTimer.isSome = true →
      exec .standbyDwellExpiry s = .next (s.withPart s.standbyEntered) ∧
      (s.demand = false →
        exec .standbyDwellExpiry s = .next { s with supply := { x with
          converter := .standby, enable := false, wakeTimer := none, standbyTimer := none } }))

/-! ## Encodings -/

/-- Every configuration write carries its group as R3, R7 and R10 give it: a payload made from valid parameters reads back as
those parameters, whatever entry it is merged into; and a notice pair is carried in two bytes from which it reads back
(R189, R192). The order and width of the fields are R186's. -/
def Obligations.PayloadsRoundTrip : Prop :=
  (∀ e old : CarEntry, validParams e = true → readParams old (putParams e) = some { e with
    landings := old.landings, heights := old.heights, halfWidth := old.halfWidth, ruleSet := old.ruleSet }) ∧
  (∀ e old : CarEntry, validMap e = true → readMap old (putMap e) = { old with
    landings := e.landings, heights := e.heights, halfWidth := e.halfWidth }) ∧
  (∀ g : Globals, validGlobals g = true → readGlobals (putGlobals g) = some g) ∧
  (∀ t : List SocPoint, validSoc t = true → readSoc (putSoc t) = some t) ∧
  (∀ l : List Notice, (∀ n ∈ l, n.car.isSome = carriesCar n.kind) → readNotices (l.flatMap putNotice) = some l)

/-! ## Invariants -/

/-- Every step keeps the account of slots and energy: each car holds exactly what its state gives it, and no more slots are
held than configured (R153, R155, R156, R60). -/
def Obligations.MoveAccountsKept : Prop :=
  ∀ s t : State, MoveAccounts s.toPart → step s = .next t → MoveAccounts t.toPart

/-- Every step keeps the outputs guarded: a channel is OPEN only in PROBING or LOWERING, a car in RELEASING stands in its
zone, and an unlock output is active only within its bound (R163, R65, R66, R176); and every step keeps converter-enable by
Table 20, the lamps by R180 and the tones to their bursts (R181). A brake output is active exactly while its channel is OPEN and
inside its active share, its car in PROBING or LOWERING, the chain accepted as closed and the lockout as off; it is driven by its
polarity (R161, R163). A lamp is lit in STEADY, and in FLASH in the lit phase (R180); a tone is active while a pattern plays whose
square wave is (R181); the gate-unlock, lamp and tone outputs are driven high when active and low when inactive (R174). Without
power nothing is driven: R159 says it of the brake outputs, and of the others it is the model's choice (log 10). -/
def Obligations.OutputsGuardedKept : Prop :=
  (∀ s t : State, OutputsGuarded s.toPart → step s = .next t → OutputsGuarded t.toPart) ∧
  (∀ s t : State, OutputsFollow s.toPart → step s = .next t → OutputsFollow t.toPart) ∧
  (∀ (p : Part) (c : Car) (ch : Channel),
    let b := p.car c
    let isOpen := match ch with
      | .a => b.brake.channelA = .open ∧ b.brake.insideA = true
      | .b => b.brake.channelB = .open ∧ b.brake.insideB = true
    let polarity := match ch with
      | .a => (p.entry c).polarityA
      | .b => (p.entry c).polarityB
    (b.brakeOutput ch = true ↔ isOpen ∧ (p.stateOf c = .probing ∨ p.stateOf c = .lowering) ∧
      b.inputs.chain.accepted = some true ∧ b.inputs.lockout.accepted = some false) ∧
    (p.powered = false → p.brakePin c ch = none) ∧
    (p.powered = true → (polarity = .activeHigh → p.brakePin c ch = some (b.brakeOutput ch)) ∧
      (polarity = .activeLow → p.brakePin c ch = some (!b.brakeOutput ch)))) ∧
  ∀ (p : Part) (c : Car),
    let x := (p.car c).signals
    (lampOutput p.time x = true ↔ x.lamp = .steady ∨ (x.lamp = .flash ∧ p.time.flashLit = true)) ∧
    (x.toneOutput = true ↔ ∃ y, x.playing = some y ∧ y.output = true) ∧
    (p.powered = false → p.unlockPin c = none ∧ p.lampPin c = none ∧ p.tonePin c = none) ∧
    (p.powered = true → p.unlockPin c = some x.unlockOutput ∧ p.lampPin c = some (lampOutput p.time x) ∧
      p.tonePin c = some x.toneOutput)

/-- Every step keeps the pending sets in the order of READ_NOTICES, without a pair twice, and so within 94 pairs (R188, R189);
and a port's attention line is active exactly while its pending set is not empty (R188). -/
def Obligations.NoticesOrderedKept : Prop :=
  (∀ s t : State, NoticesOrdered s.toPart → step s = .next t → NoticesOrdered t.toPart) ∧
  (∀ l, NoticeSetOrdered l → l.length ≤ 94) ∧
  ∀ (p : Part) (q : Port), (p.port q).attention = true ↔ ∃ n, n ∈ (p.port q).notices

/-- Every step keeps the urgency of every car below 61440 (R131). -/
def Obligations.UrgencyBoundKept : Prop :=
  ∀ s t : State, (∀ c, (s.car c).planner.urgency < 61440) → step s = .next t →
    ∀ c, (t.car c).planner.urgency < 61440

/-- The invariants hold of the machine right after power-on. -/
def Obligations.InvariantsAtReset : Prop :=
  MoveAccounts State.reset.toPart ∧ OutputsGuarded State.reset.toPart ∧ OutputsFollow State.reset.toPart ∧
  NoticesOrdered State.reset.toPart ∧
  ∀ c, (State.reset.car c).planner.urgency < 61440
end

