-- ==== Sys2Proof/Laws/State.lean ====
section
/-!
SUPPORT. One lemma per field per update of the part: what each update of a car's blocks, of the supply, of a port and of
the store leaves, and what it writes. Every one is true by unfolding once, so that no later proof unfolds a record update.
-/

namespace Sys2Proof.Machine

variable (p : Part) (c d : Car)

/-! ## Fields of the part that an update of a car's blocks leaves -/

@[simp] theorem Part.modCar_powered (g : CarBlock → CarBlock) : (p.modCar c g).powered = p.powered := rfl
@[simp] theorem Part.modCar_config (g : CarBlock → CarBlock) : (p.modCar c g).config = p.config := rfl
@[simp] theorem Part.modCar_store (g : CarBlock → CarBlock) : (p.modCar c g).store = p.store := rfl
@[simp] theorem Part.modCar_mainsInput (g : CarBlock → CarBlock) : (p.modCar c g).mainsInput = p.mainsInput := rfl
@[simp] theorem Part.modCar_converterInput (g : CarBlock → CarBlock) : (p.modCar c g).converterInput = p.converterInput := rfl
@[simp] theorem Part.modCar_pass (g : CarBlock → CarBlock) : (p.modCar c g).pass = p.pass := rfl
@[simp] theorem Part.modCar_timedPending (g : CarBlock → CarBlock) : (p.modCar c g).timedPending = p.timedPending := rfl
@[simp] theorem Part.modCar_requestPending (g : CarBlock → CarBlock) : (p.modCar c g).requestPending = p.requestPending := rfl
@[simp] theorem Part.modCar_commits (g : CarBlock → CarBlock) : (p.modCar c g).commits = p.commits := rfl
@[simp] theorem Part.modCar_supply (g : CarBlock → CarBlock) : (p.modCar c g).supply = p.supply := rfl
@[simp] theorem Part.modCar_time (g : CarBlock → CarBlock) : (p.modCar c g).time = p.time := rfl
@[simp] theorem Part.modCar_station (g : CarBlock → CarBlock) : (p.modCar c g).station = p.station := rfl
@[simp] theorem Part.modCar_panel (g : CarBlock → CarBlock) : (p.modCar c g).panel = p.panel := rfl
@[simp] theorem Part.modCar_panelAddress (g : CarBlock → CarBlock) : (p.modCar c g).panelAddress = p.panelAddress := rfl
@[simp] theorem Part.modCar_resetArmed (g : CarBlock → CarBlock) : (p.modCar c g).resetArmed = p.resetArmed := rfl
@[simp] theorem Part.modCar_samples (g : CarBlock → CarBlock) : (p.modCar c g).samples = p.samples := rfl
@[simp] theorem Part.mapCars_powered (g : CarBlock → CarBlock) : (p.mapCars g).powered = p.powered := rfl
@[simp] theorem Part.mapCars_config (g : CarBlock → CarBlock) : (p.mapCars g).config = p.config := rfl
@[simp] theorem Part.mapCars_store (g : CarBlock → CarBlock) : (p.mapCars g).store = p.store := rfl
@[simp] theorem Part.mapCars_mainsInput (g : CarBlock → CarBlock) : (p.mapCars g).mainsInput = p.mainsInput := rfl
@[simp] theorem Part.mapCars_converterInput (g : CarBlock → CarBlock) : (p.mapCars g).converterInput = p.converterInput := rfl
@[simp] theorem Part.mapCars_pass (g : CarBlock → CarBlock) : (p.mapCars g).pass = p.pass := rfl
@[simp] theorem Part.mapCars_timedPending (g : CarBlock → CarBlock) : (p.mapCars g).timedPending = p.timedPending := rfl
@[simp] theorem Part.mapCars_requestPending (g : CarBlock → CarBlock) : (p.mapCars g).requestPending = p.requestPending := rfl
@[simp] theorem Part.mapCars_commits (g : CarBlock → CarBlock) : (p.mapCars g).commits = p.commits := rfl
@[simp] theorem Part.mapCars_supply (g : CarBlock → CarBlock) : (p.mapCars g).supply = p.supply := rfl
@[simp] theorem Part.mapCars_time (g : CarBlock → CarBlock) : (p.mapCars g).time = p.time := rfl
@[simp] theorem Part.mapCars_station (g : CarBlock → CarBlock) : (p.mapCars g).station = p.station := rfl
@[simp] theorem Part.mapCars_panel (g : CarBlock → CarBlock) : (p.mapCars g).panel = p.panel := rfl
@[simp] theorem Part.mapCars_panelAddress (g : CarBlock → CarBlock) : (p.mapCars g).panelAddress = p.panelAddress := rfl
@[simp] theorem Part.mapCars_resetArmed (g : CarBlock → CarBlock) : (p.mapCars g).resetArmed = p.resetArmed := rfl
@[simp] theorem Part.mapCars_samples (g : CarBlock → CarBlock) : (p.mapCars g).samples = p.samples := rfl

@[simp] theorem Part.modLine_powered (g : CarLine → CarLine) : (p.modLine c g).powered = p.powered := rfl
@[simp] theorem Part.modLine_config (g : CarLine → CarLine) : (p.modLine c g).config = p.config := rfl
@[simp] theorem Part.modLine_store (g : CarLine → CarLine) : (p.modLine c g).store = p.store := rfl
@[simp] theorem Part.modLine_mainsInput (g : CarLine → CarLine) : (p.modLine c g).mainsInput = p.mainsInput := rfl
@[simp] theorem Part.modLine_converterInput (g : CarLine → CarLine) : (p.modLine c g).converterInput = p.converterInput := rfl
@[simp] theorem Part.modLine_pass (g : CarLine → CarLine) : (p.modLine c g).pass = p.pass := rfl
@[simp] theorem Part.modLine_timedPending (g : CarLine → CarLine) : (p.modLine c g).timedPending = p.timedPending := rfl
@[simp] theorem Part.modLine_requestPending (g : CarLine → CarLine) : (p.modLine c g).requestPending = p.requestPending := rfl
@[simp] theorem Part.modLine_commits (g : CarLine → CarLine) : (p.modLine c g).commits = p.commits := rfl
@[simp] theorem Part.modLine_supply (g : CarLine → CarLine) : (p.modLine c g).supply = p.supply := rfl
@[simp] theorem Part.modLine_time (g : CarLine → CarLine) : (p.modLine c g).time = p.time := rfl
@[simp] theorem Part.modLine_station (g : CarLine → CarLine) : (p.modLine c g).station = p.station := rfl
@[simp] theorem Part.modLine_panel (g : CarLine → CarLine) : (p.modLine c g).panel = p.panel := rfl
@[simp] theorem Part.modLine_panelAddress (g : CarLine → CarLine) : (p.modLine c g).panelAddress = p.panelAddress := rfl
@[simp] theorem Part.modLine_resetArmed (g : CarLine → CarLine) : (p.modLine c g).resetArmed = p.resetArmed := rfl
@[simp] theorem Part.modLine_samples (g : CarLine → CarLine) : (p.modLine c g).samples = p.samples := rfl

@[simp] theorem Part.modInputs_powered (g : CarInputs → CarInputs) : (p.modInputs c g).powered = p.powered := rfl
@[simp] theorem Part.modInputs_config (g : CarInputs → CarInputs) : (p.modInputs c g).config = p.config := rfl
@[simp] theorem Part.modInputs_store (g : CarInputs → CarInputs) : (p.modInputs c g).store = p.store := rfl
@[simp] theorem Part.modInputs_mainsInput (g : CarInputs → CarInputs) : (p.modInputs c g).mainsInput = p.mainsInput := rfl
@[simp] theorem Part.modInputs_converterInput (g : CarInputs → CarInputs) : (p.modInputs c g).converterInput = p.converterInput := rfl
@[simp] theorem Part.modInputs_pass (g : CarInputs → CarInputs) : (p.modInputs c g).pass = p.pass := rfl
@[simp] theorem Part.modInputs_timedPending (g : CarInputs → CarInputs) : (p.modInputs c g).timedPending = p.timedPending := rfl
@[simp] theorem Part.modInputs_requestPending (g : CarInputs → CarInputs) : (p.modInputs c g).requestPending = p.requestPending := rfl
@[simp] theorem Part.modInputs_commits (g : CarInputs → CarInputs) : (p.modInputs c g).commits = p.commits := rfl
@[simp] theorem Part.modInputs_supply (g : CarInputs → CarInputs) : (p.modInputs c g).supply = p.supply := rfl
@[simp] theorem Part.modInputs_time (g : CarInputs → CarInputs) : (p.modInputs c g).time = p.time := rfl
@[simp] theorem Part.modInputs_station (g : CarInputs → CarInputs) : (p.modInputs c g).station = p.station := rfl
@[simp] theorem Part.modInputs_panel (g : CarInputs → CarInputs) : (p.modInputs c g).panel = p.panel := rfl
@[simp] theorem Part.modInputs_panelAddress (g : CarInputs → CarInputs) : (p.modInputs c g).panelAddress = p.panelAddress := rfl
@[simp] theorem Part.modInputs_resetArmed (g : CarInputs → CarInputs) : (p.modInputs c g).resetArmed = p.resetArmed := rfl
@[simp] theorem Part.modInputs_samples (g : CarInputs → CarInputs) : (p.modInputs c g).samples = p.samples := rfl

@[simp] theorem Part.modRecord_powered (g : CarRecord → CarRecord) : (p.modRecord c g).powered = p.powered := rfl
@[simp] theorem Part.modRecord_config (g : CarRecord → CarRecord) : (p.modRecord c g).config = p.config := rfl
@[simp] theorem Part.modRecord_store (g : CarRecord → CarRecord) : (p.modRecord c g).store = p.store := rfl
@[simp] theorem Part.modRecord_mainsInput (g : CarRecord → CarRecord) : (p.modRecord c g).mainsInput = p.mainsInput := rfl
@[simp] theorem Part.modRecord_converterInput (g : CarRecord → CarRecord) : (p.modRecord c g).converterInput = p.converterInput := rfl
@[simp] theorem Part.modRecord_pass (g : CarRecord → CarRecord) : (p.modRecord c g).pass = p.pass := rfl
@[simp] theorem Part.modRecord_timedPending (g : CarRecord → CarRecord) : (p.modRecord c g).timedPending = p.timedPending := rfl
@[simp] theorem Part.modRecord_requestPending (g : CarRecord → CarRecord) : (p.modRecord c g).requestPending = p.requestPending := rfl
@[simp] theorem Part.modRecord_commits (g : CarRecord → CarRecord) : (p.modRecord c g).commits = p.commits := rfl
@[simp] theorem Part.modRecord_supply (g : CarRecord → CarRecord) : (p.modRecord c g).supply = p.supply := rfl
@[simp] theorem Part.modRecord_time (g : CarRecord → CarRecord) : (p.modRecord c g).time = p.time := rfl
@[simp] theorem Part.modRecord_station (g : CarRecord → CarRecord) : (p.modRecord c g).station = p.station := rfl
@[simp] theorem Part.modRecord_panel (g : CarRecord → CarRecord) : (p.modRecord c g).panel = p.panel := rfl
@[simp] theorem Part.modRecord_panelAddress (g : CarRecord → CarRecord) : (p.modRecord c g).panelAddress = p.panelAddress := rfl
@[simp] theorem Part.modRecord_resetArmed (g : CarRecord → CarRecord) : (p.modRecord c g).resetArmed = p.resetArmed := rfl
@[simp] theorem Part.modRecord_samples (g : CarRecord → CarRecord) : (p.modRecord c g).samples = p.samples := rfl

@[simp] theorem Part.modTracker_powered (g : Tracker → Tracker) : (p.modTracker c g).powered = p.powered := rfl
@[simp] theorem Part.modTracker_config (g : Tracker → Tracker) : (p.modTracker c g).config = p.config := rfl
@[simp] theorem Part.modTracker_store (g : Tracker → Tracker) : (p.modTracker c g).store = p.store := rfl
@[simp] theorem Part.modTracker_mainsInput (g : Tracker → Tracker) : (p.modTracker c g).mainsInput = p.mainsInput := rfl
@[simp] theorem Part.modTracker_converterInput (g : Tracker → Tracker) : (p.modTracker c g).converterInput = p.converterInput := rfl
@[simp] theorem Part.modTracker_pass (g : Tracker → Tracker) : (p.modTracker c g).pass = p.pass := rfl
@[simp] theorem Part.modTracker_timedPending (g : Tracker → Tracker) : (p.modTracker c g).timedPending = p.timedPending := rfl
@[simp] theorem Part.modTracker_requestPending (g : Tracker → Tracker) : (p.modTracker c g).requestPending = p.requestPending := rfl
@[simp] theorem Part.modTracker_commits (g : Tracker → Tracker) : (p.modTracker c g).commits = p.commits := rfl
@[simp] theorem Part.modTracker_supply (g : Tracker → Tracker) : (p.modTracker c g).supply = p.supply := rfl
@[simp] theorem Part.modTracker_time (g : Tracker → Tracker) : (p.modTracker c g).time = p.time := rfl
@[simp] theorem Part.modTracker_station (g : Tracker → Tracker) : (p.modTracker c g).station = p.station := rfl
@[simp] theorem Part.modTracker_panel (g : Tracker → Tracker) : (p.modTracker c g).panel = p.panel := rfl
@[simp] theorem Part.modTracker_panelAddress (g : Tracker → Tracker) : (p.modTracker c g).panelAddress = p.panelAddress := rfl
@[simp] theorem Part.modTracker_resetArmed (g : Tracker → Tracker) : (p.modTracker c g).resetArmed = p.resetArmed := rfl
@[simp] theorem Part.modTracker_samples (g : Tracker → Tracker) : (p.modTracker c g).samples = p.samples := rfl

@[simp] theorem Part.modPlanner_powered (g : CarPlanner → CarPlanner) : (p.modPlanner c g).powered = p.powered := rfl
@[simp] theorem Part.modPlanner_config (g : CarPlanner → CarPlanner) : (p.modPlanner c g).config = p.config := rfl
@[simp] theorem Part.modPlanner_store (g : CarPlanner → CarPlanner) : (p.modPlanner c g).store = p.store := rfl
@[simp] theorem Part.modPlanner_mainsInput (g : CarPlanner → CarPlanner) : (p.modPlanner c g).mainsInput = p.mainsInput := rfl
@[simp] theorem Part.modPlanner_converterInput (g : CarPlanner → CarPlanner) : (p.modPlanner c g).converterInput = p.converterInput := rfl
@[simp] theorem Part.modPlanner_pass (g : CarPlanner → CarPlanner) : (p.modPlanner c g).pass = p.pass := rfl
@[simp] theorem Part.modPlanner_timedPending (g : CarPlanner → CarPlanner) : (p.modPlanner c g).timedPending = p.timedPending := rfl
@[simp] theorem Part.modPlanner_requestPending (g : CarPlanner → CarPlanner) : (p.modPlanner c g).requestPending = p.requestPending := rfl
@[simp] theorem Part.modPlanner_commits (g : CarPlanner → CarPlanner) : (p.modPlanner c g).commits = p.commits := rfl
@[simp] theorem Part.modPlanner_supply (g : CarPlanner → CarPlanner) : (p.modPlanner c g).supply = p.supply := rfl
@[simp] theorem Part.modPlanner_time (g : CarPlanner → CarPlanner) : (p.modPlanner c g).time = p.time := rfl
@[simp] theorem Part.modPlanner_station (g : CarPlanner → CarPlanner) : (p.modPlanner c g).station = p.station := rfl
@[simp] theorem Part.modPlanner_panel (g : CarPlanner → CarPlanner) : (p.modPlanner c g).panel = p.panel := rfl
@[simp] theorem Part.modPlanner_panelAddress (g : CarPlanner → CarPlanner) : (p.modPlanner c g).panelAddress = p.panelAddress := rfl
@[simp] theorem Part.modPlanner_resetArmed (g : CarPlanner → CarPlanner) : (p.modPlanner c g).resetArmed = p.resetArmed := rfl
@[simp] theorem Part.modPlanner_samples (g : CarPlanner → CarPlanner) : (p.modPlanner c g).samples = p.samples := rfl

@[simp] theorem Part.modPolicy_powered (g : CarPolicy → CarPolicy) : (p.modPolicy c g).powered = p.powered := rfl
@[simp] theorem Part.modPolicy_config (g : CarPolicy → CarPolicy) : (p.modPolicy c g).config = p.config := rfl
@[simp] theorem Part.modPolicy_store (g : CarPolicy → CarPolicy) : (p.modPolicy c g).store = p.store := rfl
@[simp] theorem Part.modPolicy_mainsInput (g : CarPolicy → CarPolicy) : (p.modPolicy c g).mainsInput = p.mainsInput := rfl
@[simp] theorem Part.modPolicy_converterInput (g : CarPolicy → CarPolicy) : (p.modPolicy c g).converterInput = p.converterInput := rfl
@[simp] theorem Part.modPolicy_pass (g : CarPolicy → CarPolicy) : (p.modPolicy c g).pass = p.pass := rfl
@[simp] theorem Part.modPolicy_timedPending (g : CarPolicy → CarPolicy) : (p.modPolicy c g).timedPending = p.timedPending := rfl
@[simp] theorem Part.modPolicy_requestPending (g : CarPolicy → CarPolicy) : (p.modPolicy c g).requestPending = p.requestPending := rfl
@[simp] theorem Part.modPolicy_commits (g : CarPolicy → CarPolicy) : (p.modPolicy c g).commits = p.commits := rfl
@[simp] theorem Part.modPolicy_supply (g : CarPolicy → CarPolicy) : (p.modPolicy c g).supply = p.supply := rfl
@[simp] theorem Part.modPolicy_time (g : CarPolicy → CarPolicy) : (p.modPolicy c g).time = p.time := rfl
@[simp] theorem Part.modPolicy_station (g : CarPolicy → CarPolicy) : (p.modPolicy c g).station = p.station := rfl
@[simp] theorem Part.modPolicy_panel (g : CarPolicy → CarPolicy) : (p.modPolicy c g).panel = p.panel := rfl
@[simp] theorem Part.modPolicy_panelAddress (g : CarPolicy → CarPolicy) : (p.modPolicy c g).panelAddress = p.panelAddress := rfl
@[simp] theorem Part.modPolicy_resetArmed (g : CarPolicy → CarPolicy) : (p.modPolicy c g).resetArmed = p.resetArmed := rfl
@[simp] theorem Part.modPolicy_samples (g : CarPolicy → CarPolicy) : (p.modPolicy c g).samples = p.samples := rfl

@[simp] theorem Part.modSlots_powered (g : CarSlots → CarSlots) : (p.modSlots c g).powered = p.powered := rfl
@[simp] theorem Part.modSlots_config (g : CarSlots → CarSlots) : (p.modSlots c g).config = p.config := rfl
@[simp] theorem Part.modSlots_store (g : CarSlots → CarSlots) : (p.modSlots c g).store = p.store := rfl
@[simp] theorem Part.modSlots_mainsInput (g : CarSlots → CarSlots) : (p.modSlots c g).mainsInput = p.mainsInput := rfl
@[simp] theorem Part.modSlots_converterInput (g : CarSlots → CarSlots) : (p.modSlots c g).converterInput = p.converterInput := rfl
@[simp] theorem Part.modSlots_pass (g : CarSlots → CarSlots) : (p.modSlots c g).pass = p.pass := rfl
@[simp] theorem Part.modSlots_timedPending (g : CarSlots → CarSlots) : (p.modSlots c g).timedPending = p.timedPending := rfl
@[simp] theorem Part.modSlots_requestPending (g : CarSlots → CarSlots) : (p.modSlots c g).requestPending = p.requestPending := rfl
@[simp] theorem Part.modSlots_commits (g : CarSlots → CarSlots) : (p.modSlots c g).commits = p.commits := rfl
@[simp] theorem Part.modSlots_supply (g : CarSlots → CarSlots) : (p.modSlots c g).supply = p.supply := rfl
@[simp] theorem Part.modSlots_time (g : CarSlots → CarSlots) : (p.modSlots c g).time = p.time := rfl
@[simp] theorem Part.modSlots_station (g : CarSlots → CarSlots) : (p.modSlots c g).station = p.station := rfl
@[simp] theorem Part.modSlots_panel (g : CarSlots → CarSlots) : (p.modSlots c g).panel = p.panel := rfl
@[simp] theorem Part.modSlots_panelAddress (g : CarSlots → CarSlots) : (p.modSlots c g).panelAddress = p.panelAddress := rfl
@[simp] theorem Part.modSlots_resetArmed (g : CarSlots → CarSlots) : (p.modSlots c g).resetArmed = p.resetArmed := rfl
@[simp] theorem Part.modSlots_samples (g : CarSlots → CarSlots) : (p.modSlots c g).samples = p.samples := rfl

@[simp] theorem Part.modBrake_powered (g : CarBrake → CarBrake) : (p.modBrake c g).powered = p.powered := rfl
@[simp] theorem Part.modBrake_config (g : CarBrake → CarBrake) : (p.modBrake c g).config = p.config := rfl
@[simp] theorem Part.modBrake_store (g : CarBrake → CarBrake) : (p.modBrake c g).store = p.store := rfl
@[simp] theorem Part.modBrake_mainsInput (g : CarBrake → CarBrake) : (p.modBrake c g).mainsInput = p.mainsInput := rfl
@[simp] theorem Part.modBrake_converterInput (g : CarBrake → CarBrake) : (p.modBrake c g).converterInput = p.converterInput := rfl
@[simp] theorem Part.modBrake_pass (g : CarBrake → CarBrake) : (p.modBrake c g).pass = p.pass := rfl
@[simp] theorem Part.modBrake_timedPending (g : CarBrake → CarBrake) : (p.modBrake c g).timedPending = p.timedPending := rfl
@[simp] theorem Part.modBrake_requestPending (g : CarBrake → CarBrake) : (p.modBrake c g).requestPending = p.requestPending := rfl
@[simp] theorem Part.modBrake_commits (g : CarBrake → CarBrake) : (p.modBrake c g).commits = p.commits := rfl
@[simp] theorem Part.modBrake_supply (g : CarBrake → CarBrake) : (p.modBrake c g).supply = p.supply := rfl
@[simp] theorem Part.modBrake_time (g : CarBrake → CarBrake) : (p.modBrake c g).time = p.time := rfl
@[simp] theorem Part.modBrake_station (g : CarBrake → CarBrake) : (p.modBrake c g).station = p.station := rfl
@[simp] theorem Part.modBrake_panel (g : CarBrake → CarBrake) : (p.modBrake c g).panel = p.panel := rfl
@[simp] theorem Part.modBrake_panelAddress (g : CarBrake → CarBrake) : (p.modBrake c g).panelAddress = p.panelAddress := rfl
@[simp] theorem Part.modBrake_resetArmed (g : CarBrake → CarBrake) : (p.modBrake c g).resetArmed = p.resetArmed := rfl
@[simp] theorem Part.modBrake_samples (g : CarBrake → CarBrake) : (p.modBrake c g).samples = p.samples := rfl

@[simp] theorem Part.modSignals_powered (g : CarSignals → CarSignals) : (p.modSignals c g).powered = p.powered := rfl
@[simp] theorem Part.modSignals_config (g : CarSignals → CarSignals) : (p.modSignals c g).config = p.config := rfl
@[simp] theorem Part.modSignals_store (g : CarSignals → CarSignals) : (p.modSignals c g).store = p.store := rfl
@[simp] theorem Part.modSignals_mainsInput (g : CarSignals → CarSignals) : (p.modSignals c g).mainsInput = p.mainsInput := rfl
@[simp] theorem Part.modSignals_converterInput (g : CarSignals → CarSignals) : (p.modSignals c g).converterInput = p.converterInput := rfl
@[simp] theorem Part.modSignals_pass (g : CarSignals → CarSignals) : (p.modSignals c g).pass = p.pass := rfl
@[simp] theorem Part.modSignals_timedPending (g : CarSignals → CarSignals) : (p.modSignals c g).timedPending = p.timedPending := rfl
@[simp] theorem Part.modSignals_requestPending (g : CarSignals → CarSignals) : (p.modSignals c g).requestPending = p.requestPending := rfl
@[simp] theorem Part.modSignals_commits (g : CarSignals → CarSignals) : (p.modSignals c g).commits = p.commits := rfl
@[simp] theorem Part.modSignals_supply (g : CarSignals → CarSignals) : (p.modSignals c g).supply = p.supply := rfl
@[simp] theorem Part.modSignals_time (g : CarSignals → CarSignals) : (p.modSignals c g).time = p.time := rfl
@[simp] theorem Part.modSignals_station (g : CarSignals → CarSignals) : (p.modSignals c g).station = p.station := rfl
@[simp] theorem Part.modSignals_panel (g : CarSignals → CarSignals) : (p.modSignals c g).panel = p.panel := rfl
@[simp] theorem Part.modSignals_panelAddress (g : CarSignals → CarSignals) : (p.modSignals c g).panelAddress = p.panelAddress := rfl
@[simp] theorem Part.modSignals_resetArmed (g : CarSignals → CarSignals) : (p.modSignals c g).resetArmed = p.resetArmed := rfl
@[simp] theorem Part.modSignals_samples (g : CarSignals → CarSignals) : (p.modSignals c g).samples = p.samples := rfl

/-! ## The blocks of a car after an update -/

@[simp] theorem Part.modCar_car (g : CarBlock → CarBlock) :
    (p.modCar c g).car d = if d = c then g (p.car c) else p.car d := by
  by_cases h : d = c
  · subst h; simp [Part.car, Part.modCar]
  · have hv : c.val ≠ d.val := fun e => h (Fin.ext e.symm)
    simp [Part.car, Part.modCar, h, hv]

@[simp] theorem Part.mapCars_car (g : CarBlock → CarBlock) : (p.mapCars g).car d = g (p.car d) := by
  simp [Part.car, Part.mapCars]

@[simp] theorem Part.modLine_car (g : CarLine → CarLine) :
    (p.modLine c g).car d = if d = c then { p.car c with line := g (p.car c).line } else p.car d :=
  p.modCar_car c d _

@[simp] theorem Part.modInputs_car (g : CarInputs → CarInputs) :
    (p.modInputs c g).car d = if d = c then { p.car c with inputs := g (p.car c).inputs } else p.car d :=
  p.modCar_car c d _

@[simp] theorem Part.modRecord_car (g : CarRecord → CarRecord) :
    (p.modRecord c g).car d = if d = c then { p.car c with record := g (p.car c).record } else p.car d :=
  p.modCar_car c d _

@[simp] theorem Part.modTracker_car (g : Tracker → Tracker) :
    (p.modTracker c g).car d = if d = c then { p.car c with tracker := g (p.car c).tracker } else p.car d :=
  p.modCar_car c d _

@[simp] theorem Part.modPlanner_car (g : CarPlanner → CarPlanner) :
    (p.modPlanner c g).car d = if d = c then { p.car c with planner := g (p.car c).planner } else p.car d :=
  p.modCar_car c d _

@[simp] theorem Part.modPolicy_car (g : CarPolicy → CarPolicy) :
    (p.modPolicy c g).car d = if d = c then { p.car c with policy := g (p.car c).policy } else p.car d :=
  p.modCar_car c d _

@[simp] theorem Part.modSlots_car (g : CarSlots → CarSlots) :
    (p.modSlots c g).car d = if d = c then { p.car c with slots := g (p.car c).slots } else p.car d :=
  p.modCar_car c d _

@[simp] theorem Part.modBrake_car (g : CarBrake → CarBrake) :
    (p.modBrake c g).car d = if d = c then { p.car c with brake := g (p.car c).brake } else p.car d :=
  p.modCar_car c d _

@[simp] theorem Part.modSignals_car (g : CarSignals → CarSignals) :
    (p.modSignals c g).car d = if d = c then { p.car c with signals := g (p.car c).signals } else p.car d :=
  p.modCar_car c d _

/-! ## Updates of the supply, the store and the ports -/

@[simp] theorem Part.modSupply_powered (g : Supply → Supply) : (p.modSupply g).powered = p.powered := rfl
@[simp] theorem Part.modSupply_config (g : Supply → Supply) : (p.modSupply g).config = p.config := rfl
@[simp] theorem Part.modSupply_store (g : Supply → Supply) : (p.modSupply g).store = p.store := rfl
@[simp] theorem Part.modSupply_mainsInput (g : Supply → Supply) : (p.modSupply g).mainsInput = p.mainsInput := rfl
@[simp] theorem Part.modSupply_converterInput (g : Supply → Supply) : (p.modSupply g).converterInput = p.converterInput := rfl
@[simp] theorem Part.modSupply_pass (g : Supply → Supply) : (p.modSupply g).pass = p.pass := rfl
@[simp] theorem Part.modSupply_timedPending (g : Supply → Supply) : (p.modSupply g).timedPending = p.timedPending := rfl
@[simp] theorem Part.modSupply_requestPending (g : Supply → Supply) : (p.modSupply g).requestPending = p.requestPending := rfl
@[simp] theorem Part.modSupply_commits (g : Supply → Supply) : (p.modSupply g).commits = p.commits := rfl
@[simp] theorem Part.modSupply_time (g : Supply → Supply) : (p.modSupply g).time = p.time := rfl
@[simp] theorem Part.modSupply_station (g : Supply → Supply) : (p.modSupply g).station = p.station := rfl
@[simp] theorem Part.modSupply_panel (g : Supply → Supply) : (p.modSupply g).panel = p.panel := rfl
@[simp] theorem Part.modSupply_panelAddress (g : Supply → Supply) : (p.modSupply g).panelAddress = p.panelAddress := rfl
@[simp] theorem Part.modSupply_resetArmed (g : Supply → Supply) : (p.modSupply g).resetArmed = p.resetArmed := rfl
@[simp] theorem Part.modSupply_samples (g : Supply → Supply) : (p.modSupply g).samples = p.samples := rfl
@[simp] theorem Part.modSupply_supply (g : Supply → Supply) : (p.modSupply g).supply = g p.supply := rfl
@[simp] theorem Part.modSupply_car (g : Supply → Supply) : (p.modSupply g).car d = p.car d := rfl

@[simp] theorem Part.markUnsaved_powered : p.markUnsaved.powered = p.powered := rfl
@[simp] theorem Part.markUnsaved_config : p.markUnsaved.config = p.config := rfl
@[simp] theorem Part.markUnsaved_mainsInput : p.markUnsaved.mainsInput = p.mainsInput := rfl
@[simp] theorem Part.markUnsaved_converterInput : p.markUnsaved.converterInput = p.converterInput := rfl
@[simp] theorem Part.markUnsaved_pass : p.markUnsaved.pass = p.pass := rfl
@[simp] theorem Part.markUnsaved_timedPending : p.markUnsaved.timedPending = p.timedPending := rfl
@[simp] theorem Part.markUnsaved_requestPending : p.markUnsaved.requestPending = p.requestPending := rfl
@[simp] theorem Part.markUnsaved_commits : p.markUnsaved.commits = p.commits := rfl
@[simp] theorem Part.markUnsaved_supply : p.markUnsaved.supply = p.supply := rfl
@[simp] theorem Part.markUnsaved_time : p.markUnsaved.time = p.time := rfl
@[simp] theorem Part.markUnsaved_station : p.markUnsaved.station = p.station := rfl
@[simp] theorem Part.markUnsaved_panel : p.markUnsaved.panel = p.panel := rfl
@[simp] theorem Part.markUnsaved_panelAddress : p.markUnsaved.panelAddress = p.panelAddress := rfl
@[simp] theorem Part.markUnsaved_resetArmed : p.markUnsaved.resetArmed = p.resetArmed := rfl
@[simp] theorem Part.markUnsaved_samples : p.markUnsaved.samples = p.samples := rfl
@[simp] theorem Part.markUnsaved_store : p.markUnsaved.store = { p.store with unsaved := true } := rfl
@[simp] theorem Part.markUnsaved_car : p.markUnsaved.car d = p.car d := rfl

variable (q r : Port) (n : Notice)

@[simp] theorem Part.modPort_powered (g : PortState → PortState) : (p.modPort q g).powered = p.powered := by cases q <;> rfl
@[simp] theorem Part.modPort_config (g : PortState → PortState) : (p.modPort q g).config = p.config := by cases q <;> rfl
@[simp] theorem Part.modPort_store (g : PortState → PortState) : (p.modPort q g).store = p.store := by cases q <;> rfl
@[simp] theorem Part.modPort_mainsInput (g : PortState → PortState) : (p.modPort q g).mainsInput = p.mainsInput := by cases q <;> rfl
@[simp] theorem Part.modPort_converterInput (g : PortState → PortState) : (p.modPort q g).converterInput = p.converterInput := by cases q <;> rfl
@[simp] theorem Part.modPort_pass (g : PortState → PortState) : (p.modPort q g).pass = p.pass := by cases q <;> rfl
@[simp] theorem Part.modPort_timedPending (g : PortState → PortState) : (p.modPort q g).timedPending = p.timedPending := by cases q <;> rfl
@[simp] theorem Part.modPort_requestPending (g : PortState → PortState) : (p.modPort q g).requestPending = p.requestPending := by cases q <;> rfl
@[simp] theorem Part.modPort_commits (g : PortState → PortState) : (p.modPort q g).commits = p.commits := by cases q <;> rfl
@[simp] theorem Part.modPort_supply (g : PortState → PortState) : (p.modPort q g).supply = p.supply := by cases q <;> rfl
@[simp] theorem Part.modPort_time (g : PortState → PortState) : (p.modPort q g).time = p.time := by cases q <;> rfl
@[simp] theorem Part.modPort_panelAddress (g : PortState → PortState) : (p.modPort q g).panelAddress = p.panelAddress := by cases q <;> rfl
@[simp] theorem Part.modPort_resetArmed (g : PortState → PortState) : (p.modPort q g).resetArmed = p.resetArmed := by cases q <;> rfl
@[simp] theorem Part.modPort_samples (g : PortState → PortState) : (p.modPort q g).samples = p.samples := by cases q <;> rfl
@[simp] theorem Part.modPort_car (g : PortState → PortState) : (p.modPort q g).car d = p.car d := by cases q <;> rfl
@[simp] theorem Part.modPort_port (g : PortState → PortState) :
    (p.modPort q g).port r = if r = q then g (p.port q) else p.port r := by cases q <;> cases r <;> rfl

@[simp] theorem Part.raise_powered : (p.raise n).powered = p.powered := rfl
@[simp] theorem Part.raise_config : (p.raise n).config = p.config := rfl
@[simp] theorem Part.raise_store : (p.raise n).store = p.store := rfl
@[simp] theorem Part.raise_mainsInput : (p.raise n).mainsInput = p.mainsInput := rfl
@[simp] theorem Part.raise_converterInput : (p.raise n).converterInput = p.converterInput := rfl
@[simp] theorem Part.raise_pass : (p.raise n).pass = p.pass := rfl
@[simp] theorem Part.raise_timedPending : (p.raise n).timedPending = p.timedPending := rfl
@[simp] theorem Part.raise_requestPending : (p.raise n).requestPending = p.requestPending := rfl
@[simp] theorem Part.raise_commits : (p.raise n).commits = p.commits := rfl
@[simp] theorem Part.raise_supply : (p.raise n).supply = p.supply := rfl
@[simp] theorem Part.raise_time : (p.raise n).time = p.time := rfl
@[simp] theorem Part.raise_panelAddress : (p.raise n).panelAddress = p.panelAddress := rfl
@[simp] theorem Part.raise_resetArmed : (p.raise n).resetArmed = p.resetArmed := rfl
@[simp] theorem Part.raise_samples : (p.raise n).samples = p.samples := rfl
@[simp] theorem Part.raiseTo_powered : (p.raiseTo q n).powered = p.powered := p.modPort_powered q _
@[simp] theorem Part.raiseTo_config : (p.raiseTo q n).config = p.config := p.modPort_config q _
@[simp] theorem Part.raiseTo_store : (p.raiseTo q n).store = p.store := p.modPort_store q _
@[simp] theorem Part.raiseTo_mainsInput : (p.raiseTo q n).mainsInput = p.mainsInput := p.modPort_mainsInput q _
@[simp] theorem Part.raiseTo_converterInput : (p.raiseTo q n).converterInput = p.converterInput := p.modPort_converterInput q _
@[simp] theorem Part.raiseTo_pass : (p.raiseTo q n).pass = p.pass := p.modPort_pass q _
@[simp] theorem Part.raiseTo_timedPending : (p.raiseTo q n).timedPending = p.timedPending := p.modPort_timedPending q _
@[simp] theorem Part.raiseTo_requestPending : (p.raiseTo q n).requestPending = p.requestPending := p.modPort_requestPending q _
@[simp] theorem Part.raiseTo_commits : (p.raiseTo q n).commits = p.commits := p.modPort_commits q _
@[simp] theorem Part.raiseTo_supply : (p.raiseTo q n).supply = p.supply := p.modPort_supply q _
@[simp] theorem Part.raiseTo_time : (p.raiseTo q n).time = p.time := p.modPort_time q _
@[simp] theorem Part.raiseTo_panelAddress : (p.raiseTo q n).panelAddress = p.panelAddress := p.modPort_panelAddress q _
@[simp] theorem Part.raiseTo_resetArmed : (p.raiseTo q n).resetArmed = p.resetArmed := p.modPort_resetArmed q _
@[simp] theorem Part.raiseTo_samples : (p.raiseTo q n).samples = p.samples := p.modPort_samples q _
@[simp] theorem Part.raise_car : (p.raise n).car d = p.car d := rfl
@[simp] theorem Part.raiseTo_car : (p.raiseTo q n).car d = p.car d := p.modPort_car d q _
@[simp] theorem Part.raise_port : (p.raise n).port q = (p.port q).offer n := by cases q <;> rfl
@[simp] theorem Part.raise_station : (p.raise n).station = p.station.offer n := rfl
@[simp] theorem Part.raise_panel : (p.raise n).panel = p.panel.offer n := rfl
@[simp] theorem Part.raiseTo_port : (p.raiseTo q n).port r = if r = q then (p.port q).offer n else p.port r :=
  p.modPort_port q r _

@[simp] theorem Part.raiseCar_powered (k : NoticeKind) : (p.raiseCar k c).powered = p.powered := rfl
@[simp] theorem Part.raiseCar_config (k : NoticeKind) : (p.raiseCar k c).config = p.config := rfl
@[simp] theorem Part.raiseCar_store (k : NoticeKind) : (p.raiseCar k c).store = p.store := rfl
@[simp] theorem Part.raiseCar_mainsInput (k : NoticeKind) : (p.raiseCar k c).mainsInput = p.mainsInput := rfl
@[simp] theorem Part.raiseCar_converterInput (k : NoticeKind) : (p.raiseCar k c).converterInput = p.converterInput := rfl
@[simp] theorem Part.raiseCar_pass (k : NoticeKind) : (p.raiseCar k c).pass = p.pass := rfl
@[simp] theorem Part.raiseCar_timedPending (k : NoticeKind) : (p.raiseCar k c).timedPending = p.timedPending := rfl
@[simp] theorem Part.raiseCar_requestPending (k : NoticeKind) : (p.raiseCar k c).requestPending = p.requestPending := rfl
@[simp] theorem Part.raiseCar_commits (k : NoticeKind) : (p.raiseCar k c).commits = p.commits := rfl
@[simp] theorem Part.raiseCar_supply (k : NoticeKind) : (p.raiseCar k c).supply = p.supply := rfl
@[simp] theorem Part.raiseCar_time (k : NoticeKind) : (p.raiseCar k c).time = p.time := rfl
@[simp] theorem Part.raiseCar_panelAddress (k : NoticeKind) : (p.raiseCar k c).panelAddress = p.panelAddress := rfl
@[simp] theorem Part.raiseCar_resetArmed (k : NoticeKind) : (p.raiseCar k c).resetArmed = p.resetArmed := rfl
@[simp] theorem Part.raiseCar_samples (k : NoticeKind) : (p.raiseCar k c).samples = p.samples := rfl
@[simp] theorem Part.raiseCar_car (k : NoticeKind) : (p.raiseCar k c).car d = p.car d := rfl
@[simp] theorem Part.raiseCar_port (k : NoticeKind) : (p.raiseCar k c).port q = (p.port q).offer ⟨k, some c⟩ := p.raise_port q _

/-! ## The configuration as the blocks read it -/

@[simp] theorem Part.modLine_globals (g : CarLine → CarLine) : (p.modLine c g).globals = p.globals := rfl
@[simp] theorem Part.modLine_entry (g : CarLine → CarLine) : (p.modLine c g).entry d = p.entry d := rfl
@[simp] theorem Part.modInputs_globals (g : CarInputs → CarInputs) : (p.modInputs c g).globals = p.globals := rfl
@[simp] theorem Part.modInputs_entry (g : CarInputs → CarInputs) : (p.modInputs c g).entry d = p.entry d := rfl
@[simp] theorem Part.modRecord_globals (g : CarRecord → CarRecord) : (p.modRecord c g).globals = p.globals := rfl
@[simp] theorem Part.modRecord_entry (g : CarRecord → CarRecord) : (p.modRecord c g).entry d = p.entry d := rfl
@[simp] theorem Part.modTracker_globals (g : Tracker → Tracker) : (p.modTracker c g).globals = p.globals := rfl
@[simp] theorem Part.modTracker_entry (g : Tracker → Tracker) : (p.modTracker c g).entry d = p.entry d := rfl
@[simp] theorem Part.modPlanner_globals (g : CarPlanner → CarPlanner) : (p.modPlanner c g).globals = p.globals := rfl
@[simp] theorem Part.modPlanner_entry (g : CarPlanner → CarPlanner) : (p.modPlanner c g).entry d = p.entry d := rfl
@[simp] theorem Part.modPolicy_globals (g : CarPolicy → CarPolicy) : (p.modPolicy c g).globals = p.globals := rfl
@[simp] theorem Part.modPolicy_entry (g : CarPolicy → CarPolicy) : (p.modPolicy c g).entry d = p.entry d := rfl
@[simp] theorem Part.modSlots_globals (g : CarSlots → CarSlots) : (p.modSlots c g).globals = p.globals := rfl
@[simp] theorem Part.modSlots_entry (g : CarSlots → CarSlots) : (p.modSlots c g).entry d = p.entry d := rfl
@[simp] theorem Part.modBrake_globals (g : CarBrake → CarBrake) : (p.modBrake c g).globals = p.globals := rfl
@[simp] theorem Part.modBrake_entry (g : CarBrake → CarBrake) : (p.modBrake c g).entry d = p.entry d := rfl
@[simp] theorem Part.modSignals_globals (g : CarSignals → CarSignals) : (p.modSignals c g).globals = p.globals := rfl
@[simp] theorem Part.modSignals_entry (g : CarSignals → CarSignals) : (p.modSignals c g).entry d = p.entry d := rfl
@[simp] theorem Part.modCar_globals (g : CarBlock → CarBlock) : (p.modCar c g).globals = p.globals := rfl
@[simp] theorem Part.modCar_entry (g : CarBlock → CarBlock) : (p.modCar c g).entry d = p.entry d := rfl
@[simp] theorem Part.mapCars_globals (g : CarBlock → CarBlock) : (p.mapCars g).globals = p.globals := rfl
@[simp] theorem Part.mapCars_entry (g : CarBlock → CarBlock) : (p.mapCars g).entry d = p.entry d := rfl
@[simp] theorem Part.modSupply_globals (g : Supply → Supply) : (p.modSupply g).globals = p.globals := rfl
@[simp] theorem Part.modSupply_entry (g : Supply → Supply) : (p.modSupply g).entry d = p.entry d := rfl
@[simp] theorem Part.raise_globals (n : Notice) : (p.raise n).globals = p.globals := rfl
@[simp] theorem Part.raise_entry (n : Notice) : (p.raise n).entry d = p.entry d := rfl
@[simp] theorem Part.raiseCar_globals (k : NoticeKind) : (p.raiseCar k c).globals = p.globals := rfl
@[simp] theorem Part.raiseCar_entry (k : NoticeKind) : (p.raiseCar k c).entry d = p.entry d := rfl
@[simp] theorem Part.modPort_globals (q : Port) (g : PortState → PortState) : (p.modPort q g).globals = p.globals := by
  cases q <;> rfl
@[simp] theorem Part.modPort_entry (q : Port) (g : PortState → PortState) : (p.modPort q g).entry d = p.entry d := by
  cases q <;> rfl
@[simp] theorem Part.markUnsaved_globals : p.markUnsaved.globals = p.globals := rfl
@[simp] theorem Part.markUnsaved_entry : p.markUnsaved.entry d = p.entry d := rfl

end Sys2Proof.Machine
end

