-- ==== Sys2Proof/Laws/Frames.lean ====
section
/-!
SUPPORT. The frames of Safety.lean as relations: each holds of a part and itself, composes, and holds of the updates that
meanings are built from.
-/

namespace Sys2Proof.Machine

/-- Every car is one of the eight. -/
theorem mem_allCars (c : Car) : c ∈ allCars := by revert c; decide

/-! ## KeepsRest -/

theorem KeepsRest.refl (p : Part) : KeepsRest p p := by constructor <;> rfl

theorem KeepsRest.trans {p q r : Part} (h : KeepsRest p q) (k : KeepsRest q r) : KeepsRest p r where
  powered := k.powered.trans h.powered
  config := k.config.trans h.config
  store := k.store.trans h.store
  mainsInput := k.mainsInput.trans h.mainsInput
  converterInput := k.converterInput.trans h.converterInput
  timedPending := k.timedPending.trans h.timedPending
  commits := k.commits.trans h.commits
  time := k.time.trans h.time
  panelAddress := k.panelAddress.trans h.panelAddress
  resetArmed := k.resetArmed.trans h.resetArmed
  samples := k.samples.trans h.samples
  station := by rw [k.station, h.station]
  panel := by rw [k.panel, h.panel]

theorem PortState.offer_keeps (x : PortState) (n : Notice) : x.offer n = { x with notices := (x.offer n).notices } := by
  unfold PortState.offer; split <;> rfl

theorem keepsRest_modCar (p : Part) (c : Car) (f : CarBlock → CarBlock) : KeepsRest p (p.modCar c f) := by
  constructor <;> rfl

theorem keepsRest_mapCars (p : Part) (f : CarBlock → CarBlock) : KeepsRest p (p.mapCars f) := by
  constructor <;> rfl

theorem keepsRest_modSupply (p : Part) (f : Supply → Supply) : KeepsRest p (p.modSupply f) := by
  constructor <;> rfl

theorem keepsRest_raise (p : Part) (n : Notice) : KeepsRest p (p.raise n) := by
  constructor <;> first | rfl | exact PortState.offer_keeps _ _

/-! ## KeepsPlans -/

theorem KeepsPlans.refl (p : Part) : KeepsPlans p p := ⟨rfl, rfl, rfl⟩

theorem KeepsPlans.trans {p q r : Part} (h : KeepsPlans p q) (k : KeepsPlans q r) : KeepsPlans p r :=
  ⟨k.pass.trans h.pass, k.requestPending.trans h.requestPending, k.supply.trans h.supply⟩

theorem keepsPlans_modCar (p : Part) (c : Car) (f : CarBlock → CarBlock) : KeepsPlans p (p.modCar c f) := ⟨rfl, rfl, rfl⟩

theorem keepsPlans_raise (p : Part) (n : Notice) : KeepsPlans p (p.raise n) := ⟨rfl, rfl, rfl⟩

/-! ## Folds over cars -/

/-- A fold of steps that each keep a relation keeps it, if the relation holds of a part and itself and composes. -/
theorem foldl_keeps {α : Type} {R : Part → Part → Prop} (refl : ∀ p, R p p)
    (trans : ∀ {p q r}, R p q → R q r → R p r) (f : Part → α → Part) (step : ∀ p a, R p (f p a)) :
    ∀ (l : List α) (p : Part), R p (l.foldl f p)
  | [], p => refl p
  | a :: l, p => trans (step p a) (foldl_keeps refl trans f step l (f p a))

/-- A fold of steps over cars, each of which leaves every car but its own, leaves a car it does not step over. -/
theorem foldl_car_of_not_mem (f : Part → Car → Part) (step : ∀ p c d, d ≠ c → (f p c).car d = p.car d) (d : Car) :
    ∀ (l : List Car) (p : Part), d ∉ l → (l.foldl f p).car d = p.car d
  | [], _, _ => rfl
  | c :: l, p, h => by
      have hc : d ≠ c := fun e => h (by simp [e])
      have hl : d ∉ l := fun m => h (by simp [m])
      simpa [List.foldl_cons] using (foldl_car_of_not_mem f step d l (f p c) hl).trans (step p c d hc)

end Sys2Proof.Machine
end

