-- ==== Sys2Proof/Laws/Arbiter.lean ====
section
/-!
SUPPORT. What the operations of the Grant Arbiter can do: a change of a car's state, a grant, a selection (R156).
-/

namespace Sys2Proof.Machine

variable (p : Part) (c d : Car)

/-! ## setState -/

theorem Part.setState_car (new : RescueState) (held : Option HeldCause) :
    (p.setState c new held).car d =
      if d = c then
        { p.car c with
          record := (p.car c).record.moveTo new held
          inputs :=
            if leaves .lowering (p.car c).record.state new || leaves .driving (p.car c).record.state new then
              { (p.car c).inputs with move := { (p.car c).inputs.move with armed := false } }
            else (p.car c).inputs
          signals :=
            let s := (p.car c).signals.follow p.globals (p.car c).record.state new
            if leaves .releasing (p.car c).record.state new then s.endRelease else s }
      else p.car d := by
  simp [Part.setState]

@[simp] theorem Part.setState_stateOf (new : RescueState) (held : Option HeldCause) :
    (p.setState c new held).stateOf d = if d = c then new else p.stateOf d := by
  unfold Part.stateOf; rw [Part.setState_car]; split <;> rfl

/-- A change of a car's state leaves its line, tracker, planner, policy, slots and brake. -/
theorem Part.setState_blocks (new : RescueState) (held : Option HeldCause) :
    ((p.setState c new held).car d).line = (p.car d).line ∧ ((p.setState c new held).car d).tracker = (p.car d).tracker ∧
    ((p.setState c new held).car d).planner = (p.car d).planner ∧ ((p.setState c new held).car d).policy = (p.car d).policy ∧
    ((p.setState c new held).car d).slots = (p.car d).slots ∧ ((p.setState c new held).car d).brake = (p.car d).brake := by
  rw [Part.setState_car]; by_cases h : d = c
  · subst h; simp
  · simp [h]

theorem keepsRest_setState (new : RescueState) (held : Option HeldCause) : KeepsRest p (p.setState c new held) :=
  keepsRest_modCar p c _

theorem keepsPlans_setState (new : RescueState) (held : Option HeldCause) : KeepsPlans p (p.setState c new held) :=
  keepsPlans_modCar p c _

/-! ## Grants -/

/-- What a grant and the flag of R157 leave: everything but one car and the notices. -/
structure TouchesOnly (c : Car) (p q : Part) : Prop where
  rest  : KeepsRest p q
  plans : KeepsPlans p q
  cars  : ∀ d, d ≠ c → q.car d = p.car d

theorem TouchesOnly.refl (c : Car) (p : Part) : TouchesOnly c p p := ⟨.refl p, .refl p, fun _ _ => rfl⟩

theorem TouchesOnly.trans {c : Car} {p q r : Part} (h : TouchesOnly c p q) (k : TouchesOnly c q r) : TouchesOnly c p r :=
  ⟨h.rest.trans k.rest, h.plans.trans k.plans, fun d hd => (k.cars d hd).trans (h.cars d hd)⟩

theorem touchesOnly_modCar (f : CarBlock → CarBlock) : TouchesOnly c p (p.modCar c f) :=
  ⟨keepsRest_modCar p c f, keepsPlans_modCar p c f, fun d hd => by simp [hd]⟩

theorem touchesOnly_raiseCar (k : NoticeKind) (e : Car) : TouchesOnly c p (p.raiseCar k e) :=
  ⟨keepsRest_raise p _, keepsPlans_raise p _, fun _ _ => rfl⟩

theorem touchesOnly_modRecord (f : CarRecord → CarRecord) : TouchesOnly c p (p.modRecord c f) := touchesOnly_modCar p c _
theorem touchesOnly_modLine (f : CarLine → CarLine) : TouchesOnly c p (p.modLine c f) := touchesOnly_modCar p c _
theorem touchesOnly_modBrake (f : CarBrake → CarBrake) : TouchesOnly c p (p.modBrake c f) := touchesOnly_modCar p c _
theorem touchesOnly_modSignals (f : CarSignals → CarSignals) : TouchesOnly c p (p.modSignals c f) := touchesOnly_modCar p c _
theorem touchesOnly_modInputs (f : CarInputs → CarInputs) : TouchesOnly c p (p.modInputs c f) := touchesOnly_modCar p c _
theorem touchesOnly_modSlots (f : CarSlots → CarSlots) : TouchesOnly c p (p.modSlots c f) := touchesOnly_modCar p c _
theorem touchesOnly_setState (new : RescueState) (held : Option HeldCause) : TouchesOnly c p (p.setState c new held) :=
  touchesOnly_modCar p c _

theorem touchesOnly_grantPowered (dir : Dir) : TouchesOnly c p (p.grantPowered c dir) := by
  unfold Part.grantPowered
  exact (touchesOnly_modRecord p c _).trans (touchesOnly_modLine _ c _)

theorem touchesOnly_beginMove (m : PlanMethod) : TouchesOnly c p (p.beginMove c m) := by
  cases m <;> simp only [Part.beginMove] <;> first
    | exact touchesOnly_modBrake p c _
    | exact touchesOnly_grantPowered p c _
    | exact .refl c p

theorem touchesOnly_announceMove (m : PlanMethod) : TouchesOnly c p (p.announceMove c m) := by
  unfold Part.announceMove
  split
  · exact ((touchesOnly_modRecord p c _).trans (touchesOnly_modSignals _ c _)).trans (touchesOnly_raiseCar _ c _ c)
  · exact .refl c p

/-- A grant touches its car and the notices alone (R59, R156). -/
theorem touchesOnly_grant (m : PlanMethod) : TouchesOnly c p (p.grant c m) := by
  unfold Part.grant
  split
  · refine TouchesOnly.trans ?_ (touchesOnly_announceMove _ c m)
    refine TouchesOnly.trans ?_ (touchesOnly_beginMove _ c m)
    refine TouchesOnly.trans ?_ (touchesOnly_modInputs _ c _)
    refine TouchesOnly.trans ?_ (touchesOnly_setState _ c _ _)
    exact (touchesOnly_modSlots p c _).trans (touchesOnly_modRecord _ c _)
  · exact .refl c p

/-- A car that is considered is passed over, granted or flagged: nothing else is touched (R156, R157). -/
theorem touchesOnly_consider : TouchesOnly c p (p.consider c) := by
  simp only [Part.consider]
  split
  · split
    · split
      · exact touchesOnly_grant p c _
      · unfold Part.flagShort; split
        · exact .refl c p
        · exact (touchesOnly_modRecord p c _).trans (touchesOnly_raiseCar _ c _ c)
    · exact .refl c p
  · exact .refl c p

/-! ## Selections -/

theorem Part.mem_insertCar (a b : Car) : ∀ l : List Car, b ∈ p.insertCar a l → b = a ∨ b ∈ l
  | [] => by simp [Part.insertCar]
  | e :: l => by
      unfold Part.insertCar; split
      · simp
      · have := Part.mem_insertCar a b l
        simp only [List.mem_cons]; rintro (h | h)
        · exact .inr (.inl h)
        · exact (this h).imp id .inr

/-- The Arbiter's order holds READY cars alone (R156). -/
theorem Part.mem_readyOrder (h : d ∈ p.readyOrder) : p.stateOf d = .ready := by
  have key : ∀ (l acc : List Car), d ∈ l.foldl (fun l c => p.insertCar c l) acc → d ∈ l ∨ d ∈ acc := by
    intro l
    induction l with
    | nil => intro acc h; exact .inr h
    | cons a l ih =>
        intro acc h
        rcases ih _ h with h | h
        · exact .inl (by simp [h])
        · exact (p.mem_insertCar a d acc h).imp (by simp +contextual) id
  have := (key _ [] h).resolve_right (by simp)
  simpa using (List.mem_filter.mp this).2

/-- A selection leaves everything but the cars and the notices. -/
theorem keepsRest_select : KeepsRest p p.select := by
  unfold Part.select; split
  · exact foldl_keeps KeepsRest.refl KeepsRest.trans _ (fun p c => (touchesOnly_consider p c).rest) _ p
  · exact .refl p

/-- A selection leaves the pass and the supply. -/
theorem keepsPlans_select : KeepsPlans p p.select := by
  unfold Part.select; split
  · exact foldl_keeps KeepsPlans.refl KeepsPlans.trans _ (fun p c => (touchesOnly_consider p c).plans) _ p
  · exact .refl p

/-- A selection leaves every car that is not READY (R156). -/
theorem Part.select_car (h : p.stateOf d ≠ .ready) : p.select.car d = p.car d := by
  unfold Part.select; split
  · exact foldl_car_of_not_mem _ (fun p c d hd => (touchesOnly_consider p c).cars d hd) d _ p
      (fun m => h (p.mem_readyOrder d m))
  · rfl

/-- A selection without supply ready does nothing (R152). -/
theorem Part.select_of_not_ready (h : p.supplyReady = false) : p.select = p := by simp [Part.select, h]

/-- A selection with no READY car does nothing. -/
theorem Part.select_of_none (h : ∀ d, p.stateOf d ≠ .ready) : p.select = p := by
  have : p.readyOrder = [] := List.eq_nil_iff_forall_not_mem.mpr fun d m => h d (p.mem_readyOrder d m)
  unfold Part.select; rw [this]; simp

end Sys2Proof.Machine
end

