-- ==== Sys2Proof/Laws/Rescue.lean ====
section
/-!
SUPPORT. What the operations of the Car Rescue Table and the Supply Monitor can do: the entries to a state touch their car
and the notices alone; a change of state (R60) may besides grant READY cars and ask for a pass; the judging of demand
(R146) may move the converter and grant READY cars.
-/

namespace Sys2Proof.Machine

variable (p : Part) (c d : Car)

/-! ## Entries to a state -/

theorem touchesOnly_modTracker (f : Tracker → Tracker) : TouchesOnly c p (p.modTracker c f) := touchesOnly_modCar p c _
theorem touchesOnly_modPolicy (f : CarPolicy → CarPolicy) : TouchesOnly c p (p.modPolicy c f) := touchesOnly_modCar p c _
theorem touchesOnly_modPlanner (f : CarPlanner → CarPlanner) : TouchesOnly c p (p.modPlanner c f) := touchesOnly_modCar p c _

theorem touchesOnly_toHeld (cause : HeldCause) : TouchesOnly c p (p.toHeld c cause) :=
  (touchesOnly_setState p c _ _).trans (touchesOnly_raiseCar _ c _ c)

theorem touchesOnly_toAssessing : TouchesOnly c p (p.toAssessing c) := by
  unfold Part.toAssessing; split
  · exact touchesOnly_toHeld p c _
  · split
    · exact touchesOnly_toHeld p c _
    · exact touchesOnly_setState p c _ _

theorem touchesOnly_toFailed (cause : AbortCause) : TouchesOnly c p (p.toFailed c cause) :=
  ((touchesOnly_setState p c _ _).trans (touchesOnly_modRecord _ c _)).trans (touchesOnly_raiseCar _ c _ c)

theorem touchesOnly_releaseByFrame : TouchesOnly c p (p.releaseByFrame c) := by
  simp only [Part.releaseByFrame, Part.sendGateRelease]
  exact (touchesOnly_modSignals p c _).trans (touchesOnly_modLine _ c _)

theorem touchesOnly_releaseByPulse : TouchesOnly c p (p.releaseByPulse c) := touchesOnly_modSignals p c _

theorem touchesOnly_toReleasing : TouchesOnly c p (p.toReleasing c) := by
  simp only [Part.toReleasing]; split
  · exact touchesOnly_toFailed p c _
  · split
    · exact touchesOnly_toHeld p c _
    · refine TouchesOnly.trans ?_ (touchesOnly_modSignals _ c _)
      split
      · refine TouchesOnly.trans ?_ (touchesOnly_releaseByFrame _ c)
        exact (touchesOnly_setState p c _ _).trans (touchesOnly_modRecord _ c _)
      · refine TouchesOnly.trans ?_ (touchesOnly_releaseByPulse _ c)
        exact (touchesOnly_setState p c _ _).trans (touchesOnly_modRecord _ c _)

theorem touchesOnly_toRescued : TouchesOnly c p (p.toRescued c) :=
  ((touchesOnly_setState p c _ _).trans (touchesOnly_modRecord _ c _)).trans (touchesOnly_raiseCar _ c _ c)

theorem touchesOnly_toLevelling : TouchesOnly c p (p.toLevelling c) :=
  (((touchesOnly_setState p c _ _).trans (touchesOnly_modRecord _ c _)).trans (touchesOnly_modSignals _ c _)).trans
    (touchesOnly_raiseCar _ c _ c)

theorem touchesOnly_resetToNormal : TouchesOnly c p (p.resetToNormal c) := by
  simp only [Part.resetToNormal]
  exact (touchesOnly_setState p c _ _).trans (touchesOnly_modCar _ c _)

theorem touchesOnly_judgeStall : TouchesOnly c p (p.judgeStall c) := by
  simp only [Part.judgeStall]; split
  · exact (touchesOnly_setState p c _ _).trans (touchesOnly_modRecord _ c _)
  · split
    · exact touchesOnly_resetToNormal p c
    · exact .refl c p

theorem touchesOnly_toNormal : TouchesOnly c p (p.toNormal c) :=
  (touchesOnly_resetToNormal p c).trans (touchesOnly_judgeStall _ c)

theorem touchesOnly_trap : TouchesOnly c p (p.trap c) :=
  (touchesOnly_modCar p c _).trans (touchesOnly_raiseCar _ c _ c)

theorem touchesOnly_closeBrake : TouchesOnly c p (p.closeBrake c) := touchesOnly_modBrake p c _

theorem touchesOnly_cancelIfDriving : TouchesOnly c p (p.cancelIfDriving c) := by
  unfold Part.cancelIfDriving; split
  · split
    · exact touchesOnly_modLine p c _
    · exact .refl c p
  · exact .refl c p

theorem touchesOnly_setAbort (cause : AbortCause) : TouchesOnly c p (p.setAbort c cause) := touchesOnly_modRecord p c _

theorem touchesOnly_seedTracker (z : Nat) (a : Anchor) (confirmed : Bool) : TouchesOnly c p (p.seedTracker c z a confirmed) := by
  simp only [Part.seedTracker]
  exact touchesOnly_modCar p c _

/-! ## Passes that are asked for -/

@[simp] theorem Part.askPass_requested_car : (p.askPass .requested).car d = p.car d := by
  unfold Part.askPass; split <;> rfl

theorem keepsRest_askPass_requested : KeepsRest p (p.askPass .requested) := by
  unfold Part.askPass; split <;> constructor <;> rfl

@[simp] theorem Part.askPass_requested_supply : (p.askPass .requested).supply = p.supply := by
  unfold Part.askPass; split <;> rfl

/-- The snapshot that a pass takes (R126). -/
theorem Part.passOf_eq (kind : PassKind) : p.passOf kind = ⟨kind, p.carsToPlan.map p.snapshotCar, p.globals, p.supply.usable⟩ :=
  rfl

/-- A snapshot depends on the cars, the configuration and the usable energy alone. -/
theorem passOf_congr {p q : Part} (hc : q.cars = p.cars) (hf : q.config = p.config) (hu : q.supply.usable = p.supply.usable)
    (kind : PassKind) : q.passOf kind = p.passOf kind := by
  have e : q.figures = p.figures := by funext c; simp only [Part.figures, Part.car, Part.entry, Part.globals, hc, hf]
  simp only [Part.passOf, e, Part.car, Part.stateOf, Part.globals, hc, hf, hu]

/-- A pass starts with the snapshot of the part it starts on, once a timed one has stepped the urgency (R126). -/
theorem Part.startPass_pass (kind : PassKind) :
    (p.startPass kind).pass = some ((p.startPass kind).passOf kind) := rfl

/-- A requested pass steps no urgency: it changes nothing but the pass in flight (R126). -/
theorem Part.startPass_requested : p.startPass .requested = { p with pass := some (p.passOf .requested) } := rfl

/-- A requested pass that is asked for has started, or its flag is set (R125). -/
theorem passAsked_askPass : PassAsked p (p.askPass .requested) := by
  unfold PassAsked
  cases h : p.pass with
  | some _ => simp [Part.askPass, h]
  | none => simp only [Part.askPass, h]; exact ⟨p.startPass_pass .requested, rfl⟩

/-! ## A change of a car's state (R60) -/

theorem TouchesOnly.stateOf {c d : Car} {p q : Part} (h : TouchesOnly c p q) (hd : d ≠ c) : q.stateOf d = p.stateOf d := by
  unfold Part.stateOf; rw [h.cars d hd]

/-- The part that `Part.change` hands to an entry: the brake of a car in PROBING or LOWERING is closed (R60). -/
def Part.leaving (p : Part) (c : Car) : Part := if isBrakeState (p.stateOf c) then p.closeBrake c else p

/-- What `Part.change` does once the entry is made: a car that has left a move state gives back what its state gave it, and a
selection is made (R60, R155). -/
def Part.freed (p : Part) (c : Car) (old : RescueState) : Part :=
  if isMoveState old = true ∧ p.stateOf c ≠ old then (p.modSlots c (·.releaseFor old (p.stateOf c))).select else p

/-- What `Part.change` does last: an entry to ASSESSING asks for a pass (R56). -/
def Part.passAsked (p : Part) (c : Car) : Part := if p.stateOf c = .assessing then p.askPass .requested else p

theorem touchesOnly_leaving : TouchesOnly c p (p.leaving c) := by
  unfold Part.leaving; split
  · exact touchesOnly_closeBrake p c
  · exact .refl c p

/-- A change of a car's state, in its parts. -/
theorem Part.change_eq (go : Part → Part) :
    p.change c go = ((go (p.leaving c)).freed c (p.stateOf c)).passAsked c := by
  simp only [Part.change]
  rw [show (if isBrakeState (p.stateOf c) then p.closeBrake c else p) = p.leaving c from rfl]
  generalize go (p.leaving c) = q
  have e : (if (isMoveState (p.stateOf c) && q.stateOf c != p.stateOf c) = true then
      (q.modSlots c fun x => x.releaseFor (p.stateOf c) (q.stateOf c)).select else q) = q.freed c (p.stateOf c) := by
    simp [Part.freed]
  rw [e]; rfl

/-- The pass that is asked for leaves everything but the passes. -/
theorem passAsked_keeps :
    KeepsRest p (p.passAsked c) ∧ (p.passAsked c).cars = p.cars ∧ (p.passAsked c).supply = p.supply ∧
    (p.passAsked c).station = p.station ∧ (p.passAsked c).panel = p.panel := by
  unfold Part.passAsked Part.askPass
  split
  · split <;> exact ⟨by constructor <;> rfl, rfl, rfl, rfl, rfl⟩
  · exact ⟨.refl p, rfl, rfl, rfl, rfl⟩

theorem freed_keeps (old : RescueState) :
    KeepsRest p (p.freed c old) ∧ KeepsPlans p (p.freed c old) := by
  unfold Part.freed; split
  · exact ⟨(touchesOnly_modSlots p c _).rest.trans (keepsRest_select _), (touchesOnly_modSlots p c _).plans.trans (keepsPlans_select _)⟩
  · exact ⟨.refl p, .refl p⟩

/-- What a change of a car's state leaves: all but the cars, the pass, and the notices. -/
theorem change_keeps (go : Part → Part) (h : ∀ p, TouchesOnly c p (go p)) :
    KeepsRest p (p.change c go) ∧ (p.change c go).supply = p.supply := by
  rw [Part.change_eq]
  have first : TouchesOnly c p (go (p.leaving c)) := (touchesOnly_leaving p c).trans (h _)
  obtain ⟨k1, k2⟩ := freed_keeps (go (p.leaving c)) c (p.stateOf c)
  obtain ⟨k3, -, k4, -, -⟩ := passAsked_keeps ((go (p.leaving c)).freed c (p.stateOf c)) c
  exact ⟨first.rest.trans (k1.trans k3), k4.trans (k2.supply.trans first.plans.supply)⟩

/-! ## Demand (R146) -/

/-- Demand depends on the states of the cars alone. -/
theorem demand_congr {p q : Part} (h : ∀ d, isDemandState (q.stateOf d) = isDemandState (p.stateOf d)) :
    q.demand = p.demand := by
  unfold Part.demand; congr 1; funext d; exact h d

/-- Where demand has not changed, its judging changes nothing. -/
theorem settleDemand_same {p q : Part} (h : q.demand = p.demand) : settleDemand p q = q := by
  unfold settleDemand; rw [h]; cases p.demand <;> simp

/-- A converter that is OFF, WAKING or in FAULT is left by the judging of demand. -/
theorem settleDemand_quiet {p q : Part} (h : q.supply.converter ≠ .standby) (k : q.supply.converter ≠ .on) :
    settleDemand p q = q := by
  unfold settleDemand
  cases hc : q.supply.converter <;> simp_all

/-- What the judging of demand leaves: all but the supply, the notices and the cars; and every car that is not READY. -/
theorem settleDemand_keeps (p q : Part) :
    KeepsRest q (settleDemand p q) ∧ (settleDemand p q).pass = q.pass ∧
    (settleDemand p q).requestPending = q.requestPending ∧
    ∀ d, q.stateOf d ≠ .ready → (settleDemand p q).car d = q.car d := by
  have base (q : Part) (f : Supply → Supply) : KeepsRest q (q.modSupply f) ∧ (q.modSupply f).pass = q.pass ∧
      (q.modSupply f).requestPending = q.requestPending ∧
      ∀ d, q.stateOf d ≠ .ready → (q.modSupply f).car d = q.car d :=
    ⟨keepsRest_modSupply q f, rfl, rfl, fun _ _ => rfl⟩
  have sel (q : Part) : KeepsRest q q.select ∧ q.select.pass = q.pass ∧ q.select.requestPending = q.requestPending ∧
      ∀ d, q.stateOf d ≠ .ready → q.select.car d = q.car d :=
    ⟨keepsRest_select q, (keepsPlans_select q).pass, (keepsPlans_select q).requestPending, fun d h => q.select_car d h⟩
  have chain (a b c : Part)
      (h : KeepsRest a b ∧ b.pass = a.pass ∧ b.requestPending = a.requestPending ∧
        ∀ d, a.stateOf d ≠ .ready → b.car d = a.car d)
      (k : KeepsRest b c ∧ c.pass = b.pass ∧ c.requestPending = b.requestPending ∧
        ∀ d, b.stateOf d ≠ .ready → c.car d = b.car d) :
      KeepsRest a c ∧ c.pass = a.pass ∧ c.requestPending = a.requestPending ∧
        ∀ d, a.stateOf d ≠ .ready → c.car d = a.car d :=
    ⟨h.1.trans k.1, k.2.1.trans h.2.1, k.2.2.1.trans h.2.2.1, fun d hd => by
      have e := h.2.2.2 d hd
      rw [k.2.2.2 d (by unfold Part.stateOf; rw [e]; exact hd), e]⟩
  have same (q : Part) : KeepsRest q q ∧ q.pass = q.pass ∧ q.requestPending = q.requestPending ∧
      ∀ d, q.stateOf d ≠ .ready → q.car d = q.car d := ⟨.refl q, rfl, rfl, fun _ _ => rfl⟩
  have on (q : Part) : KeepsRest q q.converterOn ∧ q.converterOn.pass = q.pass ∧
      q.converterOn.requestPending = q.requestPending ∧ ∀ d, q.stateOf d ≠ .ready → q.converterOn.car d = q.car d :=
    chain _ _ _ (base q _) (sel _)
  have wake (q : Part) : KeepsRest q q.converterWake ∧ q.converterWake.pass = q.pass ∧
      q.converterWake.requestPending = q.requestPending ∧
      ∀ d, q.stateOf d ≠ .ready → q.converterWake.car d = q.car d := by
    simp only [Part.converterWake]; split
    · exact chain _ _ _ (base q _) (on _)
    · exact base q _
  unfold settleDemand
  split
  · split
    · exact wake q
    · exact base q _
    · exact same q
  · split
    · split
      · exact base q _
      · exact same q
    · exact same q

/-! ## Running a command -/

/-- A command on a part with power. -/
theorem runPart_powered {s : State} (h : s.powered = true) (f : Part → Part) :
    runPart s f = .next { s with toPart := settleDemand s.toPart (f s.toPart) } := by
  simp [runPart, Part.after, h]

/-- A command that leaves demand as it was. -/
theorem runPart_same {s : State} (h : s.powered = true) (f : Part → Part) (k : (f s.toPart).demand = s.toPart.demand) :
    runPart s f = .next { s with toPart := f s.toPart } := by
  rw [runPart_powered h, settleDemand_same k]

/-- A part without power takes no command (log 10). -/
theorem runPart_unpowered {s : State} (h : s.powered = false) (f : Part → Part) : runPart s f = .next s := by
  simp [runPart, Part.after, h]

end Sys2Proof.Machine
end

