-- ==== Sys2Proof/Laws/Cars.lean ====
section
/-!
SUPPORT. What the entries to a state make of the blocks of their own car, in the words of Safety.lean (`CarBlock.moved` and
those built from it): one lemma for each entry, and one for each way a car leaves its state through `Part.change` (R60).
-/

namespace Sys2Proof.Machine

variable (p : Part) (c : Car)

/-! ## A change of state -/

/-- The blocks of a car after `Part.setState`. -/
def CarBlock.stated (b : CarBlock) (g : Globals) (new : RescueState) (held : Option HeldCause) : CarBlock :=
  { b with
    record := b.record.moveTo new held
    inputs :=
      if leaves .lowering b.record.state new || leaves .driving b.record.state new then
        { b.inputs with move := { b.inputs.move with armed := false } }
      else b.inputs
    signals :=
      let s := b.signals.follow g b.record.state new
      if leaves .releasing b.record.state new then s.endRelease else s }

theorem Part.setState_own (new : RescueState) (held : Option HeldCause) :
    (p.setState c new held).car c = (p.car c).stated p.globals new held := by
  rw [Part.setState_car]; simp [CarBlock.stated]

/-- A change of state with the releases that go with it (R60), for a state that no timer of its own makes special. -/
theorem CarBlock.moved_eq (b : CarBlock) (g : Globals) (new : RescueState) (held : Option HeldCause)
    (hm : isMoveState new = false)
    (hs : new = b.record.state → new ≠ .confirming ∧ new ≠ .failed ∧ new ≠ .releasing) :
    b.moved g new held =
      { b.stated g new held with
        slots := b.slots.releaseFor b.record.state new
        brake := if isBrakeState b.record.state then b.brake.close else b.brake } := by
  obtain ⟨line, inputs, record, tracker, planner, policy, slots, brake, signals⟩ := b
  obtain ⟨state⟩ := record
  simp only at hs
  cases state <;> cases new <;>
    simp [isMoveState] at hm hs ⊢ <;>
    rfl

@[simp] theorem Part.setState_globals (new : RescueState) (held : Option HeldCause) :
    (p.setState c new held).globals = p.globals := rfl

@[simp] theorem Part.setState_entry (d : Car) (new : RescueState) (held : Option HeldCause) :
    (p.setState c new held).entry d = p.entry d := rfl

@[simp] theorem CarBlock.stated_summary (b : CarBlock) (g : Globals) (new : RescueState) (held : Option HeldCause) :
    (b.stated g new held).record.summary = b.record.summary := rfl

@[simp] theorem CarBlock.stated_line (b : CarBlock) (g : Globals) (new : RescueState) (held : Option HeldCause) :
    (b.stated g new held).line = b.line := rfl

@[simp] theorem CarBlock.stated_tracker (b : CarBlock) (g : Globals) (new : RescueState) (held : Option HeldCause) :
    (b.stated g new held).tracker = b.tracker := rfl

@[simp] theorem CarBlock.stated_planner (b : CarBlock) (g : Globals) (new : RescueState) (held : Option HeldCause) :
    (b.stated g new held).planner = b.planner := rfl

@[simp] theorem CarBlock.stated_policy (b : CarBlock) (g : Globals) (new : RescueState) (held : Option HeldCause) :
    (b.stated g new held).policy = b.policy := rfl

@[simp] theorem CarBlock.stated_slots (b : CarBlock) (g : Globals) (new : RescueState) (held : Option HeldCause) :
    (b.stated g new held).slots = b.slots := rfl

@[simp] theorem CarBlock.stated_brake (b : CarBlock) (g : Globals) (new : RescueState) (held : Option HeldCause) :
    (b.stated g new held).brake = b.brake := rfl

@[simp] theorem CarBlock.stated_state (b : CarBlock) (g : Globals) (new : RescueState) (held : Option HeldCause) :
    (b.stated g new held).record.state = new := rfl

@[simp] theorem CarBlock.stated_heldCause (b : CarBlock) (g : Globals) (new : RescueState) (held : Option HeldCause) :
    (b.stated g new held).record.heldCause = held := rfl

@[simp] theorem CarBlock.stated_attempts (b : CarBlock) (g : Globals) (new : RescueState) (held : Option HeldCause) :
    (b.stated g new held).record.attempts = b.record.attempts := rfl

@[simp] theorem CarBlock.stated_trappedTime (b : CarBlock) (g : Globals) (new : RescueState) (held : Option HeldCause) :
    (b.stated g new held).record.trappedTime = b.record.trappedTime := rfl

@[simp] theorem CarBlock.stated_lastAbort (b : CarBlock) (g : Globals) (new : RescueState) (held : Option HeldCause) :
    (b.stated g new held).record.lastAbort = b.record.lastAbort := rfl

@[simp] theorem CarBlock.stated_moveId (b : CarBlock) (g : Globals) (new : RescueState) (held : Option HeldCause) :
    (b.stated g new held).record.moveId = b.record.moveId := rfl

/-! ## Entries -/

@[simp] theorem Part.raiseCar_own (k : NoticeKind) (d e : Car) : (p.raiseCar k d).car e = p.car e := rfl

theorem Part.toHeld_own (cause : HeldCause) : (p.toHeld c cause).car c = (p.car c).stated p.globals .held (some cause) := by
  simp [Part.toHeld, Part.setState_own]

theorem Part.toAssessing_own :
    (p.toAssessing c).car c = (p.car c).stated p.globals (p.car c).assessedState.1 (p.car c).assessedState.2 := by
  unfold Part.toAssessing CarBlock.assessedState Part.lockoutOn Part.chainOpen
  split
  · simp [Part.toHeld_own]
  · split
    · simp [Part.toHeld_own]
    · simp [Part.setState_own]

/-- The record of an entry to FAILED (R72). -/
def CarBlock.failedFrom (b : CarBlock) (g : Globals) (cause : AbortCause) : CarBlock :=
  let m := b.stated g .failed none
  { m with record := { m.record with
      lastAbort := some cause
      attempts := b.record.attempts + 1
      retryTimer := if b.record.attempts + 1 < 3 then some (g.retryDelay * 1000) else none } }

theorem Part.toFailed_own (cause : AbortCause) : (p.toFailed c cause).car c = (p.car c).failedFrom p.globals cause := by
  simp [Part.toFailed, Part.setState_own, CarBlock.failedFrom, seconds]

/-- The placing of a car, as the part judges it (R65, R93). -/
theorem Part.resolvedOrConfirmed_eq : p.resolvedOrConfirmed c = (p.car c).isPlaced p.globals := rfl

theorem Part.lineAlive_eq : p.lineAlive c = decide ((p.car c).line.state = .alive) := rfl

/-- The blocks of an entry to RELEASING that has passed its check (R65, R175, R176, R181). -/
def CarBlock.releasedFrom (b : CarBlock) (g : Globals) : CarBlock :=
  let m := b.stated g .releasing none
  let s := m.signals.requestTone g .release
  { m with
    record := { m.record with gateTimer := some (g.gateTimeout * 1000) }
    line :=
      if b.line.state = .alive then b.line.offerCommand (.gateRelease (b.record.summary.landing.getD 0)) else b.line
    signals :=
      if b.line.state = .alive then { s with releaseMethod := some .frame }
      else { s with releaseMethod := some .pulse, unlockTimer := some g.unlockPulse, unlockOutput := true } }

/-- The blocks of an entry to RELEASING, with its check (R65). -/
def CarBlock.releasingFrom (b : CarBlock) (g : Globals) : CarBlock :=
  if !b.inputs.zone.isOn then b.failedFrom g .stopOutsideZone
  else if b.line.state ≠ .alive ∧ b.isPlaced g = false then b.stated g .held (some .position)
  else b.releasedFrom g

theorem CarSignals.requestTone_releaseMethod (x : CarSignals) (g : Globals) (t : TonePattern) (m : Option ReleaseMethod) :
    ({ x with releaseMethod := m }).requestTone g t = { x.requestTone g t with releaseMethod := m } := by
  obtain ⟨_, _, _, _, playing⟩ := x; cases playing <;> rfl

theorem CarSignals.requestTone_startPulse (x : CarSignals) (g : Globals) (t : TonePattern) :
    (x.startPulse g).requestTone g t = (x.requestTone g t).startPulse g := by
  obtain ⟨_, _, _, _, playing⟩ := x; cases playing <;> rfl

theorem Part.toReleasing_own : (p.toReleasing c).car c = (p.car c).releasingFrom p.globals := by
  unfold Part.toReleasing CarBlock.releasingFrom
  rw [Part.resolvedOrConfirmed_eq, Part.lineAlive_eq]
  by_cases hz : (p.car c).inputs.zone.isOn = true
  · simp only [Part.zoneActive, hz, Bool.not_true, Bool.false_eq_true, if_false]
    by_cases ha : (p.car c).line.state = .alive
    · simp [ha, Part.releaseByFrame, Part.sendGateRelease, Part.setState_own, CarBlock.releasedFrom, Part.lineAlive_eq,
        CarSignals.requestTone_releaseMethod, seconds]
    · by_cases hp : (p.car c).isPlaced p.globals = false
      · simp [ha, hp, Part.toHeld_own]
      · simp [ha, hp, Part.releaseByPulse, Part.setState_own, CarBlock.releasedFrom, Part.lineAlive_eq,
          CarSignals.requestTone_startPulse, seconds]
        rfl
  · simp [Part.zoneActive, hz, Part.toFailed_own]

/-- An entry to RESCUED (R66). -/
theorem Part.toRescued_own :
    (p.toRescued c).car c =
      (let m := (p.car c).stated p.globals .rescued none
       { m with record := { m.record with
          summary := { (p.car c).record.summary with releaseTime := some (p.car c).record.trappedTime } } }) := by
  simp [Part.toRescued, Part.setState_own]

/-- An entry to NORMAL from a state that holds nothing of the Arbiter (R71, R54). -/
theorem Part.resetToNormal_own (h : isMoveState (p.stateOf c) = false) :
    (p.resetToNormal c).car c = (p.car c).returned p.globals := by
  have e := (p.car c).moved_eq p.globals .normal none rfl (by simp)
  unfold Part.stateOf at h
  simp only [Part.resetToNormal, Part.modCar_car, if_true, Part.setState_own, CarBlock.returned, e]
  generalize p.car c = b at *
  cases hs : b.record.state <;> 
    simp [hs, isMoveState, CarSlots.releaseFor, isBrakeState, CarPolicy.restartTally, CarPolicy.idleCounters] at h ⊢

/-- The judging of the stall condition (R53, R54). -/
theorem Part.judgeStall_own : (p.judgeStall c).car c = (p.car c).judged p.globals := by
  unfold Part.judgeStall CarBlock.judged
  by_cases h1 : (p.car c).record.state = .normal ∧ (p.car c).stalled = true
  · have e := (p.car c).moved_eq p.globals .confirming (none) rfl (by simp [h1.1])
    simp [h1, Part.setState_own, e, CarSlots.releaseFor, isBrakeState, seconds]
  · by_cases h2 : (p.car c).record.state = .confirming ∧ (p.car c).stalled = false
    · simp [h2, Part.resetToNormal_own, Part.stateOf, isMoveState]
    · simp [h1, h2]

/-! ## Through a change of state (R60) -/

@[simp] theorem CarSlots.releaseFor_rest {old new : RescueState} (x : CarSlots) (h : isMoveState old = false) :
    x.releaseFor old new = x := by cases old <;> simp_all [isMoveState, CarSlots.releaseFor]

@[simp] theorem Part.leaving_globals : (p.leaving c).globals = p.globals := by
  unfold Part.leaving; split <;> simp [Part.closeBrake]

theorem Part.leaving_own :
    (p.leaving c).car c =
      { p.car c with
        brake := if isBrakeState (p.car c).record.state then (p.car c).brake.close else (p.car c).brake } := by
  unfold Part.leaving Part.stateOf; split <;> simp [Part.closeBrake]

/-- What the releases make of the cars' own blocks (R155). -/
theorem Part.freed_own (old : RescueState) (h : p.stateOf c ≠ .ready) (hm : isMoveState old = true → p.stateOf c ≠ old) :
    (p.freed c old).car c = { p.car c with slots := (p.car c).slots.releaseFor old (p.stateOf c) } := by
  unfold Part.freed
  by_cases k : isMoveState old = true
  · rw [if_pos ⟨k, hm k⟩, Part.select_car _ _ (by simpa [Part.stateOf] using h)]
    simp
  · rw [if_neg fun x => k x.1]
    simp [CarSlots.releaseFor_rest _ (by simpa using k)]

/-- What a change of state makes of its own car: the blocks of the entry, with the move's releases. -/
theorem Part.change_own (go : Part → Part)
    (hr : (go (p.leaving c)).stateOf c ≠ .ready)
    (hm : isMoveState (p.stateOf c) = true → (go (p.leaving c)).stateOf c ≠ p.stateOf c) :
    (p.change c go).car c =
      (let b := (go (p.leaving c)).car c
       { b with slots := b.slots.releaseFor (p.stateOf c) b.record.state }) := by
  rw [Part.change_eq, show ∀ q : Part, (q.passAsked c).car c = q.car c from fun q => by
    unfold Part.car; rw [(passAsked_keeps q c).2.1], Part.freed_own _ _ _ hr hm]
  rfl

/-- A car leaves its state by an entry that makes `f` of its blocks and ends outside the move states and READY. -/
theorem Part.change_own_of (go : Part → Part) (f : CarBlock → Globals → CarBlock)
    (hf : ∀ q : Part, (go q).car c = f (q.car c) q.globals)
    (hr : ∀ b g, (f b g).record.state ≠ .ready ∧ isMoveState (f b g).record.state = false) :
    (p.change c go).car c =
      (let b := f { p.car c with
          brake := if isBrakeState (p.car c).record.state then (p.car c).brake.close else (p.car c).brake } p.globals
       { b with slots := b.slots.releaseFor (p.stateOf c) b.record.state }) := by
  have hst : (go (p.leaving c)).stateOf c = (f ((p.leaving c).car c) p.globals).record.state := by
    unfold Part.stateOf; rw [hf, Part.leaving_globals]
  rw [Part.change_own p c go (by rw [hst]; exact (hr _ _).1)
    (by rw [hst]; intro h e; rw [← e] at h; simp [(hr _ _).2] at h)]
  rw [hf, Part.leaving_globals, Part.leaving_own]

/-- The blocks of an entry made from the leaving blocks, with the releases, are those of `CarBlock.moved`. -/
theorem CarBlock.moved_of_stated (b : CarBlock) (g : Globals) (new : RescueState) (held : Option HeldCause)
    (hm : isMoveState new = false) (hs : new = b.record.state → new ≠ .confirming ∧ new ≠ .failed ∧ new ≠ .releasing) :
    (let x := ({ b with brake := if isBrakeState b.record.state then b.brake.close else b.brake } : CarBlock).stated g new held
     { x with slots := x.slots.releaseFor b.record.state new }) = b.moved g new held := by
  rw [CarBlock.moved_eq b g new held hm hs]
  rfl

/-- A car leaves its state for FAILED (R60, R72). -/
theorem Part.change_toFailed_own (cause : AbortCause) :
    (p.change c (·.toFailed c cause)).car c = (p.car c).failed p.globals cause := by
  rw [Part.change_own_of p c _ (fun b g => b.failedFrom g cause) (fun q => q.toFailed_own c cause)
    (fun b g => by simp [CarBlock.failedFrom, isMoveState])]
  unfold Part.stateOf CarBlock.failed CarBlock.failedFrom CarBlock.moved CarBlock.stated
  generalize p.globals = g
  obtain ⟨line, inputs, record, tracker, planner, policy, slots, brake, signals⟩ := p.car c
  obtain ⟨state⟩ := record
  cases state <;> rfl

theorem CarBlock.assessedState_rest (b : CarBlock) :
    isMoveState b.assessedState.1 = false ∧ b.assessedState.1 ≠ .ready ∧ b.assessedState.1 ≠ .confirming ∧
    b.assessedState.1 ≠ .failed ∧ b.assessedState.1 ≠ .releasing := by
  unfold CarBlock.assessedState; split
  · simp [isMoveState]
  · split <;> simp [isMoveState]

/-- A car leaves its state for ASSESSING, with its check (R60, R56). -/
theorem Part.change_toAssessing_own : (p.change c (·.toAssessing c)).car c = (p.car c).assessed p.globals := by
  rw [Part.change_own_of p c _ (fun b g => b.stated g b.assessedState.1 b.assessedState.2) (fun q => q.toAssessing_own c)
    (fun b g => ⟨by simp [b.assessedState_rest.2.1], by simp [b.assessedState_rest.1]⟩)]
  exact CarBlock.moved_of_stated _ _ _ _ (p.car c).assessedState_rest.1
    fun _ => ⟨(p.car c).assessedState_rest.2.2.1, (p.car c).assessedState_rest.2.2.2.1, (p.car c).assessedState_rest.2.2.2.2⟩

theorem CarBlock.releasingFrom_rest (b : CarBlock) (g : Globals) :
    (b.releasingFrom g).record.state ≠ .ready ∧ isMoveState (b.releasingFrom g).record.state = false := by
  unfold CarBlock.releasingFrom; split
  · simp [CarBlock.failedFrom, isMoveState]
  · split <;> simp [CarBlock.releasedFrom, isMoveState]

/-- A car leaves its state for RELEASING, with its check (R60, R65). -/
theorem Part.change_toReleasing_own (h : p.stateOf c ≠ .releasing) :
    (p.change c (·.toReleasing c)).car c = (p.car c).releasing p.globals := by
  rw [Part.change_own_of p c _ (fun b g => b.releasingFrom g) (fun q => q.toReleasing_own c)
    (fun b g => b.releasingFrom_rest g)]
  unfold Part.stateOf at h ⊢
  unfold CarBlock.releasing CarBlock.releasingFrom CarBlock.failed CarBlock.failedFrom CarBlock.released
    CarBlock.releasedFrom CarBlock.moved CarBlock.stated CarBlock.isPlaced
  generalize p.globals = g
  generalize p.car c = b at h ⊢
  obtain ⟨line, inputs, record, tracker, planner, policy, slots, brake, signals⟩ := b
  obtain ⟨state⟩ := record
  simp only at h ⊢
  split
  · cases state <;> first | exact (h rfl).elim | rfl
  · split
    · cases state <;> first | exact (h rfl).elim | rfl
    · cases state <;> first | exact (h rfl).elim | rfl

/-- A car leaves its state for HELD with a cause, its last abort cause set on the way (R75, R76). -/
theorem Part.change_abort_toHeld_own (abort : AbortCause) (cause : HeldCause) :
    (p.change c fun p => (p.setAbort c abort).toHeld c cause).car c =
      ({ p.car c with record := { (p.car c).record with lastAbort := some abort } } : CarBlock).moved p.globals .held
        (some cause) := by
  rw [Part.change_own_of p c _
    (fun b g => ({ b with record := { b.record with lastAbort := some abort } } : CarBlock).stated g .held (some cause))
    (fun q => by simp [Part.toHeld_own, Part.setAbort]) (fun b g => by simp [isMoveState])]
  exact CarBlock.moved_of_stated { p.car c with record := { (p.car c).record with lastAbort := some abort } } _ _ _ rfl
    (by simp)

/-- A car leaves its state for HELD with a cause (R75). -/
theorem Part.change_toHeld_own (cause : HeldCause) :
    (p.change c (·.toHeld c cause)).car c = (p.car c).moved p.globals .held (some cause) := by
  rw [Part.change_own_of p c _ (fun b g => b.stated g .held (some cause)) (fun q => q.toHeld_own c cause)
    (fun b g => by simp [isMoveState])]
  exact CarBlock.moved_of_stated _ _ _ _ rfl (by simp)

/-! ## Notices -/

theorem mem_addNotice (n m : Notice) : ∀ l : List Notice, m ∈ addNotice n l ↔ m = n ∨ m ∈ l
  | [] => by simp [addNotice]
  | x :: l => by
      unfold addNotice; split
      · next h => subst h; simp only [List.mem_cons]; tauto
      · split
        · simp only [List.mem_cons]
        · simp only [List.mem_cons, mem_addNotice n m l]; tauto

theorem PortState.mem_offer (x : PortState) (n m : Notice) :
    m ∈ (x.offer n).notices ↔ m ∈ x.notices ∨ (m = n ∧ maskHolds x.mask n.kind = true) := by
  unfold PortState.offer; split <;> simp_all [mem_addNotice]; tauto

theorem KeepsRest.mask {p q : Part} (h : KeepsRest p q) (port : Port) : (q.port port).mask = (p.port port).mask := by
  cases port
  · show q.station.mask = p.station.mask; rw [h.station]
  · show q.panel.mask = p.panel.mask; rw [h.panel]

/-- From p to q the pairs of `l` have been offered to the ports, and no others (R188). -/
def Offers (l : List Notice) (p q : Part) : Prop :=
  ∀ port n, n ∈ (q.port port).notices ↔
    n ∈ (p.port port).notices ∨ (n ∈ l ∧ maskHolds (p.port port).mask n.kind = true)

theorem Offers.of_eq {p q : Part} (hs : q.station.notices = p.station.notices) (hp : q.panel.notices = p.panel.notices) :
    Offers [] p q := by
  intro port n
  have : (q.port port).notices = (p.port port).notices := by cases port <;> assumption
  simp [this]

theorem Offers.refl (p : Part) : Offers [] p p := .of_eq rfl rfl

theorem Offers.trans {l m : List Notice} {p q r : Part} (h : Offers l p q) (k : Offers m q r) (e : KeepsRest p q) :
    Offers (l ++ m) p r := by
  intro port n
  rw [k port n, h port n, e.mask port, List.mem_append]; tauto

theorem offers_raise (n : Notice) : Offers [n] p (p.raise n) := by
  intro port m
  have e : ((p.raise n).port port) = (p.port port).offer n := by cases port <;> rfl
  rw [e, PortState.mem_offer]
  simp only [List.mem_singleton]
  constructor <;> rintro (h | ⟨rfl, h⟩) <;> simp [*]

/-- Notices are kept by ports alone. -/
theorem Offers.of_ports {l : List Notice} {p p' q q' : Part} (h : Offers l p' q')
    (hs : p'.station = p.station) (hp : p'.panel = p.panel) (ks : q'.station = q.station) (kp : q'.panel = q.panel) :
    Offers l p q := by
  intro port n
  have e : p'.port port = p.port port := by cases port <;> assumption
  have k : q'.port port = q.port port := by cases port <;> assumption
  rw [← e, ← k]; exact h port n

end Sys2Proof.Machine
end

