-- ==== Sys2Proof/Laws/Requests.lean ====
section
/-!
SUPPORT. What the running of a port request can do (R184, R185): a well-formed frame spells its payload, a request that
meets HANDLING leaves its filler alone, and one that is taken runs its command's handling.
-/

namespace Sys2Proof.Machine

/-! ## Frames (R192) -/

/-- The checksum makes the sum of a frame's bytes 0 (R192). -/
theorem sum_checksumOf (l : List Byte) : (l ++ [checksumOf l]).foldl (· + ·) 0 = 0 := by
  simp [checksumOf]

/-- A request frame of up to 64 payload bytes spells its payload (R185, R192). -/
theorem requestPayload_frameBody (code : Byte) (payload : List Byte) (h : payload.length ≤ 64) :
    requestPayload code (frameBody code payload) = some payload := by
  have e : (BitVec.ofNat 8 payload.length).toNat = payload.length := by simp; omega
  simp [frameBody, requestPayload, checksumOf, e, h]

/-- Tests 1 to 3 of R185 pass a well-formed frame of a command its port may give. -/
theorem judgeFrame_frameBody (q : Port) (code : Byte) (payload : List Byte) (h : payload.length ≤ 64)
    (k : isCommand code = true) (l : lengthAllowed code payload.length = true) (m : mayGive q code = true) :
    judgeFrame q code (frameBody code payload) = .ok payload := by
  simp [judgeFrame, requestPayload_frameBody, h, k, l, m]

/-! ## Fields of rules (R186) -/

/-- A number in `width` bytes has that many bytes. -/
@[simp] theorem putNat_length (width n : Nat) : (putNat width n).length = width := by
  induction width with
  | zero => rfl
  | succ width ih => simp [putNat, ih]

/-- A field of a rule has the fewest whole bytes that hold its range (R186). -/
@[simp] theorem putField_length (r : Rule) (n : Nat) : (putField r n).length = bytesFor (fieldRange n) := putNat_length _ _

/-- Every field of a valid rule lies in its range, so that its bytes hold it whole (R103, R186). -/
theorem ruleField_le_fieldRange (r : Rule) (h : validRule r = true) (n : Nat) : ruleField r n ≤ fieldRange n := by
  simp only [validRule, inRange, Bool.and_eq_true, decide_eq_true_eq] at h
  unfold ruleField fieldRange
  split
  · split <;> omega
  · cases r.quantity <;> decide
  · cases r.compare <;> decide
  · omega
  · omega
  · have := r.causes.isLt; omega
  · cases r.lineCondition <;> decide
  · cases r.weightAction <;> decide
  · omega
  · cases r.methodAction <;> decide
  · have := r.methods.isLt; omega
  · cases r.countAction <;> decide
  · cases r.countUnit <;> decide
  · omega
  · omega

/-- The bytes of a rule, field by field (Table 15). -/
theorem putRule_eq (r : Rule) :
    putRule r = putBool r.enabled ++ (putNat 1 (quantityCode r.quantity) ++ (putNat 1 (compareCode r.compare)
      ++ (putNat 2 r.low ++ (putNat 2 r.high ++ (putNat 1 r.causes.toNat ++ (putNat 1 (lineConditionCode r.lineCondition)
      ++ (putNat 1 (weightActionCode r.weightAction) ++ (putNat 2 r.weightValue
      ++ (putNat 1 (methodActionCode r.methodAction) ++ (putNat 1 r.methods.toNat
      ++ (putNat 1 (countActionCode r.countAction) ++ (putNat 1 (countUnitCode r.countUnit)
      ++ putNat 2 r.countLimit)))))))))))) := by
  cases h : r.enabled <;> simp [putRule, fieldNumbers, putField, ruleField, fieldRange, put, bytesFor, putBool, h, putNat]

/-- An image of which every field is selected is sent with the bytes of a rule after the set (R121). -/
theorem putSelected_all (image : Rule) : putSelected (BitVec.allOnes 14) image = [63, 255] ++ putRule image := rfl

/-! ## Updates of a port -/

variable (p : Part) (q : Port)

theorem Part.modPort_modPort (f g : PortState → PortState) :
    (p.modPort q f).modPort q g = p.modPort q fun x => g (f x) := by cases q <;> rfl

@[simp] theorem Part.beginHandling_car (code : Byte) (body : List Byte) (c : Car) :
    (p.beginHandling q code body).car c = p.car c :=
  p.modPort_car c q _

@[simp] theorem Part.beginHandling_stateOf (code : Byte) (body : List Byte) (c : Car) :
    (p.beginHandling q code body).stateOf c = p.stateOf c := by
  unfold Part.stateOf; rw [Part.beginHandling_car]

@[simp] theorem Part.clockFiller_car (c : Car) : (p.clockFiller q).car c = p.car c := p.modPort_car c q _

@[simp] theorem Part.clockFiller_stateOf (c : Car) : (p.clockFiller q).stateOf c = p.stateOf c := by
  unfold Part.stateOf; rw [Part.clockFiller_car]

@[simp] theorem Part.responded_car (r : ResultCode) (payload : List Byte) (c : Car) :
    (p.responded q r payload).car c = p.car c := p.modPort_car c q _

@[simp] theorem Part.responded_stateOf (r : ResultCode) (payload : List Byte) (c : Car) :
    (p.responded q r payload).stateOf c = p.stateOf c := by unfold Part.stateOf; rw [Part.responded_car]

/-- An answer that leaves the part is a response and nothing else. -/
theorem respond_unchanged (code : Byte) (body : List Byte) (r : ResultCode) (payload : List Byte) :
    Answer.respond ⟨p.beginHandling q code body, r, payload⟩ q = p.responded q r payload := by
  simp only [Answer.respond, Part.beginHandling, Part.responded, Part.modPort_modPort]

/-- A response leaves demand. -/
@[simp] theorem Part.responded_demand (r : ResultCode) (payload : List Byte) : (p.responded q r payload).demand = p.demand :=
  demand_congr fun d => by rw [Part.responded_stateOf]

/-! ## Running a request -/

/-- A request that its port takes runs the command's handling, which ends in its response (R184). -/
theorem takeRequest_of_takes {p : Part} {q : Port} (h : p.takesRequests q) (code : Byte) (body : List Byte)
    (f : Part → Answer) : p.takeRequest q code body f = (f (p.beginHandling q code body)).respond q := by
  obtain ⟨-, h2, h3⟩ := h
  simp [Part.takeRequest, h2, h3]

/-- The station request after an accepted RESET starts the soft reset and is discarded unjudged (R190). -/
theorem takeRequest_of_armed {p : Part} (h : p.resetArmed = true) (code : Byte) (body : List Byte) (f : Part → Answer) :
    p.takeRequest .station code body f = p.resetByTransaction := by simp [Part.takeRequest, h]

/-- A request that meets HANDLING leaves nothing but its filler (R184). -/
theorem takeRequest_of_handling {p : Part} {q : Port} (a : ¬(q = .station ∧ p.resetArmed = true))
    (h : (p.port q).buffer.isHandling = true) (code : Byte) (body : List Byte) (f : Part → Answer) :
    p.takeRequest q code body f = p.clockFiller q := by simp [Part.takeRequest, a, h]

/-- A request of a well-formed frame that passes tests 1 to 3 of R185. -/
theorem runRequest_frame {s : State} {q : Port} (h : s.toPart.takesRequests q) {code : Byte} {payload : List Byte}
    (n : payload.length ≤ 64) (k : isCommand code = true) (l : lengthAllowed code payload.length = true)
    (m : mayGive q code = true) (f : List Byte → Part → Answer) :
    runRequest s q code (frameBody code payload) f =
      .next { s with
        toPart := settleDemand s.toPart
          ((f payload (s.toPart.beginHandling q code (frameBody code payload))).respond q) } := by
  unfold runRequest
  rw [runPart_powered h.1, takeRequest_of_takes h]
  simp only [judgeFrame_frameBody q code payload n k l m]

/-- A request that fails test 1, 2 or 3 of R185 is answered with the test's result, and nothing else changes. -/
theorem runRequest_refused {s : State} {q : Port} (h : s.toPart.takesRequests q) {code : Byte} {body : List Byte}
    {r : ResultCode} (e : judgeFrame q code body = .error r) (f : List Byte → Part → Answer) :
    runRequest s q code body f = .next (s.answered s.toPart q r []) := by
  unfold runRequest
  rw [runPart_powered h.1, takeRequest_of_takes h]
  simp only [e, Part.refuse, respond_unchanged, settleDemand_same, Part.responded_demand, State.answered, State.withPart]

/-- A request that is answered without a change of the part. -/
theorem runRequest_answer {s : State} {q : Port} (h : s.toPart.takesRequests q) {code : Byte} {payload : List Byte}
    (n : payload.length ≤ 64) (k : isCommand code = true) (l : lengthAllowed code payload.length = true)
    (m : mayGive q code = true) {f : List Byte → Part → Answer} {r : ResultCode} {bytes : List Byte}
    (e : f payload (s.toPart.beginHandling q code (frameBody code payload)) =
      ⟨s.toPart.beginHandling q code (frameBody code payload), r, bytes⟩) :
    runRequest s q code (frameBody code payload) f = .next (s.answered s.toPart q r bytes) := by
  rw [runRequest_frame h n k l m, e, respond_unchanged, settleDemand_same (Part.responded_demand _ _ _ _)]
  rfl

/-- Test 4 of R185 passes a car that a command accepts. -/
theorem judgeCar_of_accepted {code : Byte} {c : Car} {rest : List Byte}
    (h : p.stateOf c ≠ .unconfigured ∨ takesUnconfigured code = true) :
    p.judgeCar code (BitVec.ofNat 8 c.val :: rest) = some c := by
  have hc : c.val % 256 = c.val := Nat.mod_eq_of_lt (by omega)
  have hn : ¬(p.stateOf c = .unconfigured ∧ (!takesUnconfigured code) = true) := by
    rintro ⟨a, b⟩; rcases h with h | h
    · exact h a
    · simp [h] at b
  simp only [Part.judgeCar, carOf, List.getD_cons_zero, BitVec.toNat_ofNat, hc, c.isLt, dif_pos, Option.bind_some, hn,
    if_false]

end Sys2Proof.Machine
end

