-- ==== Sys2Proof/Laws/Selection.lean ====
section
/-!
SUPPORT. What a selection depends on (R156): two parts that differ in one car that is not READY, and in what the Arbiter does
not read, have the same selection for every other car and raise the same notices by it.
-/

namespace Sys2Proof.Machine

/-- Two parts that are alike to the Grant Arbiter but for the blocks of car c other than its slots; the pending sets of `x`
hold the pairs of `l` besides those of `y`. -/
structure Alike (c : Car) (l : List Notice) (x y : Part) : Prop where
  config  : x.config = y.config
  supply  : x.supply = y.supply
  cars    : ∀ d, d ≠ c → x.car d = y.car d
  slots   : (x.car c).slots = (y.car c).slots
  masks   : ∀ port, (x.port port).mask = (y.port port).mask
  notices : ∀ port n, n ∈ (x.port port).notices ↔
    n ∈ (y.port port).notices ∨ (n ∈ l ∧ maskHolds (y.port port).mask n.kind = true)

variable {c d : Car} {l : List Notice} {x y : Part}

theorem Alike.slotsAll (h : Alike c l x y) (e : Car) : (x.car e).slots = (y.car e).slots := by
  by_cases k : e = c
  · subst k; exact h.slots
  · rw [h.cars e k]

theorem Alike.slotFree (h : Alike c l x y) (m : PlanMethod) : x.slotFree m = y.slotFree m := by
  have b : x.brakeHeld = y.brakeHeld := by unfold Part.brakeHeld; simp only [h.slotsAll]
  have d : x.driveHeld = y.driveHeld := by unfold Part.driveHeld; simp only [h.slotsAll]
  unfold Part.slotFree Part.globals; rw [b, d, h.config]

theorem Alike.affords (h : Alike c l x y) (n : Nat) : x.affords n = y.affords n := by
  have r : x.reserved = y.reserved := by unfold Part.reserved; simp only [h.slotsAll]
  unfold Part.affords; rw [r, h.supply]

theorem Alike.supplyReady (h : Alike c l x y) : x.supplyReady = y.supplyReady := by simp only [Part.supplyReady, h.supply]

@[simp] theorem Part.setState_config (p : Part) (c : Car) (new : RescueState) (held : Option HeldCause) :
    (p.setState c new held).config = p.config := rfl

/-- What a grant makes of its own car depends on that car's blocks and the configuration alone (R59, R156). -/
theorem grant_own_congr (hc : x.config = y.config) (hd : x.car d = y.car d) (m : PlanMethod) :
    (x.grant d m).car d = (y.grant d m).car d := by
  cases m <;>
    simp [Part.grant, moveStateOf, Part.announceMove, methodUsedOf, Part.beginMove, Part.grantPowered, Part.setState_own,
      Part.globals, Part.entry, hc, hd]

theorem Part.beginMove_ports (p : Part) (c : Car) (m : PlanMethod) :
    (p.beginMove c m).station = p.station ∧ (p.beginMove c m).panel = p.panel := by cases m <;> exact ⟨rfl, rfl⟩

/-- The pairs a grant raises: RESCUE_STARTED but for a probe (R59). -/
theorem offers_grant (p : Part) (d : Car) (m : PlanMethod) :
    Offers (if (methodUsedOf m).isSome then [⟨.rescueStarted, some d⟩] else []) p (p.grant d m) := by
  have announce (q : Part) : Offers (if (methodUsedOf m).isSome then [⟨.rescueStarted, some d⟩] else []) q (q.announceMove d m) := by
    unfold Part.announceMove
    cases methodUsedOf m with
    | some used => exact (offers_raise _ _).of_ports rfl rfl rfl rfl
    | none => exact .refl q
  unfold Part.grant
  cases hm : moveStateOf m with
  | some st =>
      refine (announce _).of_ports ?_ ?_ rfl rfl
      · rw [(Part.beginMove_ports _ d _).1]; rfl
      · rw [(Part.beginMove_ports _ d _).2]; rfl
  | none => cases m <;> simp [moveStateOf] at hm; exact .refl p

/-- A car that is considered fares alike in parts that are alike, and raises the same pairs (R156, R157). -/
theorem consider_own (h : Alike c l x y) (k : d ≠ c) :
    (x.consider d).car d = (y.consider d).car d ∧ ∃ m, Offers m x (x.consider d) ∧ Offers m y (y.consider d) := by
  have hd := h.cars d k
  simp only [Part.consider, hd, h.slotFree, h.affords]
  split
  · next m _ =>
    split
    · split
      · exact ⟨grant_own_congr h.config hd m, _, offers_grant x d m, offers_grant y d m⟩
      · simp only [Part.flagShort, hd]; split
        · exact ⟨hd, [], .refl x, .refl y⟩
        · exact ⟨by simp [hd], _, (offers_raise _ _).of_ports rfl rfl rfl rfl, (offers_raise _ _).of_ports rfl rfl rfl rfl⟩
    · exact ⟨hd, [], .refl x, .refl y⟩
  · exact ⟨hd, [], .refl x, .refl y⟩

theorem Alike.consider (h : Alike c l x y) (k : d ≠ c) : Alike c l (x.consider d) (y.consider d) := by
  obtain ⟨own, m, ox, oy⟩ := consider_own h k
  have tx := touchesOnly_consider x d
  have ty := touchesOnly_consider y d
  refine ⟨?_, ?_, fun e he => ?_, ?_, fun port => ?_, fun port n => ?_⟩
  · rw [tx.rest.config, ty.rest.config, h.config]
  · rw [tx.plans.supply, ty.plans.supply, h.supply]
  · by_cases hed : e = d
    · subst hed; exact own
    · rw [tx.cars e hed, ty.cars e hed, h.cars e he]
  · rw [tx.cars c k.symm, ty.cars c k.symm, h.slots]
  · rw [tx.rest.mask port, ty.rest.mask port, h.masks port]
  · rw [ox port n, oy port n, h.notices port n, h.masks port, ty.rest.mask port]; tauto

/-- Parts that are alike have the same order of READY cars, where car c is READY in neither (R156). -/
theorem Alike.readyOrder (h : Alike c l x y) (hx : x.stateOf c ≠ .ready) (hy : y.stateOf c ≠ .ready) :
    x.readyOrder = y.readyOrder ∧ c ∉ y.readyOrder := by
  have hs : ∀ e, (x.stateOf e == .ready) = (y.stateOf e == .ready) := by
    intro e
    by_cases k : e = c
    · subst k; simp [hx, hy]
    · unfold Part.stateOf; rw [h.cars e k]
  have hi : ∀ a, a ≠ c → ∀ acc : List Car, c ∉ acc → x.insertCar a acc = y.insertCar a acc := by
    intro a ha acc
    induction acc with
    | nil => intro _; rfl
    | cons b acc ih =>
        intro hb
        have hb1 : b ≠ c := fun e => hb (by simp [e])
        have hb2 : c ∉ acc := fun m => hb (by simp [m])
        have e : x.ordersBefore a b = y.ordersBefore a b := by unfold Part.ordersBefore; rw [h.cars a ha, h.cars b hb1]
        unfold Part.insertCar; rw [e, ih hb2]
  refine ⟨?_, fun m => hy (y.mem_readyOrder c m)⟩
  unfold Part.readyOrder
  simp only [hs]
  have hl : c ∉ allCars.filter fun e => y.stateOf e == .ready := by simp [hy]
  generalize (allCars.filter fun e => y.stateOf e == .ready) = cars at hl
  have key : ∀ (cars acc : List Car), c ∉ cars → c ∉ acc →
      cars.foldl (fun l c => x.insertCar c l) acc = cars.foldl (fun l c => y.insertCar c l) acc := by
    intro cars
    induction cars with
    | nil => intro acc _ _; rfl
    | cons a cars ih =>
        intro acc ha hacc
        have ha1 : a ≠ c := fun e => ha (by simp [e])
        have ha2 : c ∉ cars := fun m => ha (by simp [m])
        rw [List.foldl_cons, List.foldl_cons, hi a ha1 acc hacc]
        refine ih _ ha2 fun m => ?_
        rcases y.mem_insertCar a c acc m with e | e
        · exact ha1 e.symm
        · exact hacc e
  exact key cars [] hl (by simp)

/-- Parts that are alike but for a car that is READY in neither are alike after a selection. -/
theorem Alike.select (h : Alike c l x y) (hx : x.stateOf c ≠ .ready) (hy : y.stateOf c ≠ .ready) :
    Alike c l x.select y.select := by
  obtain ⟨order, hc⟩ := h.readyOrder hx hy
  unfold Part.select
  rw [h.supplyReady, order]
  split
  · next ready =>
    clear hx hy order ready
    generalize y.readyOrder = cars at hc
    induction cars generalizing x y with
    | nil => exact h
    | cons a cars ih =>
        have ha : a ≠ c := fun e => hc (by simp [e])
        exact ih (h.consider ha) fun m => hc (by simp [m])
  · exact h

end Sys2Proof.Machine
end

