-- ==== Sys2Proof/Laws/Events.lean ====
section
/-!
SUPPORT. What an event of one car leaves standing (`CarEvent`): through a change of state (R60), and through the judging of
demand at the end of the command (R146).
-/

namespace Sys2Proof.Machine

variable (p : Part) (c : Car)

/-! ## Demand and selections -/

/-- A grant leads to a demand state, and its car is touched alone. -/
theorem Part.consider_demandState (d e : Car) (h : isDemandState (p.stateOf e) = true) :
    isDemandState ((p.consider d).stateOf e) = true := by
  by_cases hd : e = d
  · subst hd
    simp only [Part.consider]
    split
    · next m _ =>
      split
      · split
        · simp only [Part.grant]
          split
          · next st hst =>
            have ann (q : Part) : (q.announceMove e m).stateOf e = q.stateOf e := by
              unfold Part.announceMove Part.stateOf; split <;> simp
            have beg (q : Part) : (q.beginMove e m).stateOf e = q.stateOf e := by
              unfold Part.stateOf; cases m <;> simp [Part.beginMove, Part.grantPowered]
            rw [ann, beg]
            have : ∀ q : Part, (q.modInputs e fun x => { x with move := ⟨moveDirOf m, 0, 0, (moveDirOf m).isSome, none⟩ }).stateOf e
                = q.stateOf e := fun q => by simp [Part.stateOf]
            rw [this, Part.setState_stateOf, if_pos rfl]
            cases m <;> simp [moveStateOf] at hst <;> subst hst <;> rfl
          · exact h
        · unfold Part.flagShort; split
          · exact h
          · simpa [Part.stateOf] using h
      · exact h
    · exact h
  · rw [(touchesOnly_consider p d).stateOf hd]; exact h

theorem Part.select_demand_true (h : p.demand = true) : p.select.demand = true := by
  obtain ⟨e, -, he⟩ := List.any_eq_true.mp h
  unfold Part.select; split
  · next hs =>
    refine List.any_eq_true.mpr ⟨e, mem_allCars e, ?_⟩
    clear h hs
    generalize p.readyOrder = l
    induction l generalizing p with
    | nil => exact he
    | cons d l ih => rw [List.foldl_cons]; exact ih _ (p.consider_demandState d e he)
  · exact h

/-- A selection leaves demand (R146, R156). -/
@[simp] theorem Part.select_demand : p.select.demand = p.demand := by
  cases h : p.demand
  · rw [Part.select_of_none p fun d hd => ?_]; · exact h
    have : p.demand = true := List.any_eq_true.mpr ⟨d, mem_allCars d, by simp [isDemandState, hd]⟩
    simp [h] at this
  · exact p.select_demand_true h

theorem Part.modSupply_demand (f : Supply → Supply) : (p.modSupply f).demand = p.demand := rfl

theorem Part.converterWake_demand : p.converterWake.demand = p.demand := by
  simp only [Part.converterWake]; split
  · simp [Part.converterOn, Part.modSupply_demand]
  · rfl

/-! ## The judging of demand -/

@[simp] theorem Part.demandJudged_supply (had : Bool) : (p.demandJudged had).supply = p.supplyJudged had p.demand := by
  simp only [Part.demandJudged]; split
  · exact (keepsPlans_select _).supply
  · rfl

/-- Demand is judged at the end of a command as `Part.demandJudged` says (R146 to R149, log 22). -/
theorem settleDemand_eq (p q : Part) : settleDemand p q = q.demandJudged p.demand := by
  obtain ⟨x, hx⟩ : ∃ x, q.supply.converter = x := ⟨_, rfl⟩
  obtain ⟨had, hp⟩ : ∃ b, p.demand = b := ⟨_, rfl⟩
  obtain ⟨has, hq⟩ : ∃ b, q.demand = b := ⟨_, rfl⟩
  have d (f : Supply) : ({ q with supply := f } : Part).demand = has := hq
  by_cases hi : q.converterInput.accepted = some true <;> cases had <;> cases has <;> cases x <;>
    simp [settleDemand, Part.demandJudged, Part.supplyJudged, hp, hq, hx, hi, d, Part.converterWake, Part.converterOn,
      Part.modSupply, LevelFilter.isOn, seconds, Part.globals]

/-- Where demand has not arisen, the judging of demand touches the supply alone. -/
theorem demandJudged_of_not_arisen (had : Bool) (h : had = false → p.demand = false) :
    p.demandJudged had = { p with supply := p.supplyJudged had p.demand } := by
  unfold Part.demandJudged
  rw [if_neg]
  rintro ⟨k1, k2⟩
  revert k2
  obtain ⟨x, hx⟩ : ∃ x, p.supply.converter = x := ⟨_, rfl⟩
  obtain ⟨has, hp⟩ : ∃ b, p.demand = b := ⟨_, rfl⟩
  cases had <;> cases has <;> cases x <;> simp_all [Part.supplyJudged]

/-- The supply that demand makes depends on the supply, the configuration and the ready level alone. -/
theorem supplyJudged_congr {p q : Part} (r : KeepsRest p q) (h : q.supply = p.supply) (had has : Bool) :
    q.supplyJudged had has = p.supplyJudged had has := by
  unfold Part.supplyJudged Part.globals; rw [h, r.config, r.converterInput]

@[simp] theorem Part.supplyJudged_usable (had has : Bool) : (p.supplyJudged had has).usable = p.supply.usable := by
  simp only [Part.supplyJudged]; split <;> try split
  all_goals rfl

/-! ## A turn of a car -/

/-- A car whose state gives no demand, and a part without demand, leave no demand; a selection makes none (R146). -/
theorem CarTurn.demand {c : Car} {l : List Notice} {p q : Part} (t : CarTurn c l p q)
    (k : isDemandState (q.stateOf c) = true → isDemandState (p.stateOf c) = true) (h : p.demand = false) :
    q.demand = false := by
  have none' : ∀ d, isDemandState (p.stateOf d) = false := fun d => by
    cases e : isDemandState (p.stateOf d)
    · rfl
    · have : p.demand = true := List.any_eq_true.mpr ⟨d, mem_allCars d, e⟩
      simp [h] at this
  have hm : isMoveState (p.stateOf c) = false := by
    have := none' c; unfold isDemandState at this; simp at this; exact this.2
  unfold Part.demand
  rw [List.any_eq_false]
  intro d _ e
  by_cases hd : d = c
  · subst hd; simpa [none' d] using k e
  · have := t.cars d hd
    unfold Part.handedOn at this
    rw [if_neg (by simp [hm])] at this
    have hs : q.stateOf d = p.stateOf d := by unfold Part.stateOf; rw [this]; simp [hd]
    rw [hs, none' d] at e; exact absurd e (by simp)

/-- A turn of a car that makes no demand is, once demand is judged, an event of the car; its blocks and the pass stand. -/
theorem CarTurn.event {c : Car} {l : List Notice} {p q : Part} (t : CarTurn c l p q)
    (k : isDemandState (q.stateOf c) = true → isDemandState (p.stateOf c) = true) :
    CarEvent c l p (settleDemand p q) ∧ (settleDemand p q).car c = q.car c ∧ (PassKept p q → PassKept p (settleDemand p q)) ∧
      (PassAsked p q → PassAsked p (settleDemand p q)) := by
  have e : settleDemand p q = { q with supply := q.supplyJudged p.demand q.demand } := by
    rw [settleDemand_eq, demandJudged_of_not_arisen]; exact t.demand k
  rw [e]
  refine ⟨⟨?_, t.cars, ?_, t.notices⟩, rfl, id, ?_⟩
  · exact t.rest.trans (keepsRest_modSupply q fun _ => q.supplyJudged p.demand q.demand)
  · exact supplyJudged_congr t.rest t.supply _ _
  · unfold PassAsked
    rw [passOf_congr (p := q) (q := { q with supply := q.supplyJudged p.demand q.demand }) rfl rfl (by simp)]
    exact id

/-- An update of one car, with its notices, that leaves the car in its state or takes it from outside the move states. -/
theorem TouchesOnly.turn {c : Car} {l : List Notice} {p q : Part} (h : TouchesOnly c p q) (n : Offers l p q)
    (k : isMoveState (p.stateOf c) = true → q.stateOf c = p.stateOf c) : CarTurn c l p q := by
  have e : p.handedOn c (q.car c) = p.modCar c fun _ => q.car c := by
    unfold Part.handedOn
    rw [if_neg]; rintro ⟨a, b⟩; exact b (k a)
  refine ⟨h.rest, fun d hd => ?_, h.plans.supply, fun port m => ?_⟩
  · rw [e, h.cars d hd]; simp [hd]
  · rw [e, n port m]
    have : (p.modCar c fun _ => q.car c).port port = p.port port := by cases port <;> rfl
    rw [this]

/-- A car that was not READY stands through another car's turn: a selection grants READY cars alone (R156). -/
theorem KeepsCars.stands {c d : Car} {p q : Part} (h : KeepsCars c p q) (hd : d ≠ c)
    (hr : p.stateOf d ≠ .ready) : q.car d = p.car d := by
  rw [h d hd]
  have e : (p.modCar c fun _ => q.car c).car d = p.car d := by simp [hd]
  unfold Part.handedOn; split
  · rw [Part.select_car _ _ (by unfold Part.stateOf; rw [e]; exact hr), e]
  · exact e

/-! ## A change of state -/

theorem TouchesOnly.passKept {c : Car} {p q : Part} (h : TouchesOnly c p q) : PassKept p q :=
  ⟨h.plans.pass, h.plans.requestPending⟩

theorem PassAsked.of_kept {p q r : Part} (h : PassKept p q) (k : PassAsked q r) : PassAsked p r := by
  unfold PassAsked at k ⊢; rw [h.1, h.2] at k; exact k

/-- What comes before a change of car c in the course of its event: updates of that car that leave its state, and notices. -/
structure Prelude (c : Car) (l : List Notice) (before p : Part) : Prop where
  touches : TouchesOnly c before p
  state   : p.stateOf c = before.stateOf c
  offers  : Offers l before p

theorem Prelude.refl (c : Car) (p : Part) : Prelude c [] p p := ⟨.refl c p, rfl, .refl p⟩

/-- An event of car c that ends in a change of its state: the turn of the car, and the pass. -/
theorem carTurn_change {before p : Part} {c : Car} {l m : List Notice} {go : Part → Part} (h : ∀ q, TouchesOnly c q (go q))
    (n : Offers m (p.leaving c) (go (p.leaving c))) (hr : (go (p.leaving c)).stateOf c ≠ .ready)
    (hm : isMoveState (p.stateOf c) = true → (go (p.leaving c)).stateOf c ≠ p.stateOf c)
    (b : Prelude c l before p) :
    CarTurn c (l ++ m) before (p.change c go) ∧
    (if (go (p.leaving c)).stateOf c = .assessing then PassAsked before (p.change c go)
      else PassKept before (p.change c go)) := by
  have own := p.change_own c go hr hm
  obtain ⟨kr, ks⟩ := change_keeps p c go h
  have first : TouchesOnly c before (go (p.leaving c)) := b.touches.trans ((touchesOnly_leaving p c).trans (h _))
  have off : Offers (l ++ m) before (go (p.leaving c)) := by
    refine b.offers.trans ((Offers.trans (m := m) (l := []) ?_ n (touchesOnly_leaving p c).rest)) b.touches.rest
    unfold Part.leaving; split
    · exact .of_eq rfl rfl
    · exact .refl p
  rw [b.state] at own hm
  have hch : p.change c go = ((go (p.leaving c)).freed c (before.stateOf c)).passAsked c := by rw [p.change_eq, b.state]
  generalize hq : go (p.leaving c) = q at *
  have hst : (p.change c go).stateOf c = q.stateOf c := by unfold Part.stateOf; rw [own]
  obtain ⟨-, ac, -, a3, a4⟩ := passAsked_keeps (q.freed c (before.stateOf c)) c
  have acar (d : Car) : (p.change c go).car d = (q.freed c (before.stateOf c)).car d := by
    rw [hch]; unfold Part.car; rw [ac]
  have aport (port : Port) : ((p.change c go).port port) = ((q.freed c (before.stateOf c)).port port) := by
    rw [hch]; cases port
    · exact a3
    · exact a4
  have alike : Alike c (l ++ m) (q.modSlots c (·.releaseFor (before.stateOf c) (q.stateOf c)))
      (before.modCar c fun _ => (p.change c go).car c) := by
    refine ⟨?_, ?_, fun d hd => ?_, ?_, fun port => ?_, fun port x => ?_⟩
    · simpa using first.rest.config
    · simpa using first.plans.supply
    · simp [hd, first.cars d hd]
    · simp [own, Part.stateOf]
    · have e1 : ((q.modSlots c (·.releaseFor (before.stateOf c) (q.stateOf c))).port port) = q.port port := by
        cases port <;> rfl
      have e2 : ((before.modCar c fun _ => (p.change c go).car c).port port) = before.port port := by cases port <;> rfl
      rw [e1, e2, first.rest.mask port]
    · have e1 : ((q.modSlots c (·.releaseFor (before.stateOf c) (q.stateOf c))).port port) = q.port port := by
        cases port <;> rfl
      have e2 : ((before.modCar c fun _ => (p.change c go).car c).port port) = before.port port := by cases port <;> rfl
      rw [e1, e2]; exact off port x
  have after : Alike c (l ++ m) (q.freed c (before.stateOf c)) (before.handedOn c ((p.change c go).car c)) := by
    by_cases k : isMoveState (before.stateOf c) = true
    · have e1 : q.freed c (before.stateOf c) = (q.modSlots c (·.releaseFor (before.stateOf c) (q.stateOf c))).select := by
        unfold Part.freed; rw [if_pos ⟨k, hm k⟩]
      have e2 : before.handedOn c ((p.change c go).car c) = (before.modCar c fun _ => (p.change c go).car c).select := by
        unfold Part.handedOn
        exact if_pos ⟨k, by rw [show ((p.change c go).car c).record.state = q.stateOf c from hst]; exact hm k⟩
      rw [e1, e2]
      refine alike.select ?_ ?_
      · simpa [Part.stateOf] using hr
      · have : (before.modCar c fun _ => (p.change c go).car c).stateOf c = (p.change c go).stateOf c := by simp [Part.stateOf]
        rw [this, hst]; exact hr
    · have e1 : q.freed c (before.stateOf c) = q := by unfold Part.freed; rw [if_neg fun x => k x.1]
      have e2 : before.handedOn c ((p.change c go).car c) = before.modCar c fun _ => (p.change c go).car c := by
        unfold Part.handedOn; exact if_neg fun x => k x.1
      rw [e1, e2]
      have e3 : ∀ d, (q.modSlots c (·.releaseFor (before.stateOf c) (q.stateOf c))).car d = q.car d := fun d => by
        by_cases hd : d = c
        · subst hd; simp [CarSlots.releaseFor_rest _ (show isMoveState (before.stateOf d) = false by simpa using k)]
        · simp [hd]
      have e4 : ∀ port, (q.modSlots c (·.releaseFor (before.stateOf c) (q.stateOf c))).port port = q.port port := fun port => by
        cases port <;> rfl
      obtain ⟨w1, w2, w3, w4, w5, w6⟩ := alike
      exact ⟨w1, w2, fun d hd => by rw [← e3 d]; exact w3 d hd, by rw [← e3 c]; exact w4,
        fun port => by rw [← e4 port]; exact w5 port, fun port x => by rw [← e4 port]; exact w6 port x⟩
  have hand : ∀ port, ((before.handedOn c ((p.change c go).car c)).port port).mask = (before.port port).mask := fun port => by
    have : KeepsRest before (before.handedOn c ((p.change c go).car c)) := by
      unfold Part.handedOn; split
      · exact (keepsRest_modCar before c _).trans (keepsRest_select _)
      · exact keepsRest_modCar before c _
    exact this.mask port
  refine ⟨⟨b.touches.rest.trans kr, fun d hd => ?_, ks.trans b.touches.plans.supply, fun port x => ?_⟩, ?_⟩
  · rw [acar d]; exact after.cars d hd
  · rw [aport port, after.notices port x, hand port]
  · have kept : PassKept before (q.freed c (before.stateOf c)) := by
      have := (freed_keeps q c (before.stateOf c)).2
      exact ⟨this.pass.trans first.plans.pass, this.requestPending.trans first.plans.requestPending⟩
    have hs : (q.freed c (before.stateOf c)).stateOf c = q.stateOf c := by
      rw [← hst]; exact congrArg (·.record.state) (acar c).symm
    rw [hch]
    unfold Part.passAsked
    rw [hs]
    split
    · exact (passAsked_askPass _).of_kept kept
    · exact kept

/-- An event of car c that ends in a change of its state, once demand is judged. -/
theorem carEvent_change {before p : Part} {c : Car} {l m : List Notice} {go : Part → Part} (h : ∀ q, TouchesOnly c q (go q))
    (n : Offers m (p.leaving c) (go (p.leaving c))) (hr : (go (p.leaving c)).stateOf c ≠ .ready)
    (hm : isMoveState (p.stateOf c) = true → (go (p.leaving c)).stateOf c ≠ p.stateOf c)
    (hd : isDemandState ((go (p.leaving c)).stateOf c) = true → isDemandState (before.stateOf c) = true)
    (b : Prelude c l before p) :
    CarEvent c (l ++ m) before (settleDemand before (p.change c go)) ∧
    (settleDemand before (p.change c go)).car c = (p.change c go).car c ∧
    (if (go (p.leaving c)).stateOf c = .assessing then PassAsked before (settleDemand before (p.change c go))
      else PassKept before (settleDemand before (p.change c go))) := by
  obtain ⟨t, pass⟩ := carTurn_change h n hr hm b
  have hs : (p.change c go).stateOf c = (go (p.leaving c)).stateOf c := by
    unfold Part.stateOf; rw [p.change_own c go hr hm]
  obtain ⟨e1, e2, e3, e4⟩ := t.event (by rw [hs]; exact hd)
  refine ⟨e1, e2, ?_⟩
  split at pass
  · next k => rw [if_pos k]; exact e4 pass
  · next k => rw [if_neg k]; exact e3 pass

/-! ## The entries as events -/

theorem offers_toFailed (cause : AbortCause) : Offers [⟨.carFailed, some c⟩] p (p.toFailed c cause) :=
  (offers_raise _ _).of_ports rfl rfl rfl rfl

theorem offers_toHeld (cause : HeldCause) : Offers [⟨.carHeld, some c⟩] p (p.toHeld c cause) :=
  (offers_raise _ _).of_ports rfl rfl rfl rfl

theorem offers_toAssessing : Offers ((p.car c).assessedNotices c) p (p.toAssessing c) := by
  unfold Part.toAssessing CarBlock.assessedNotices CarBlock.assessedState Part.lockoutOn Part.chainOpen
  split
  · exact offers_toHeld p c _
  · split
    · exact offers_toHeld p c _
    · exact .of_eq rfl rfl

theorem offers_toReleasing : Offers ((p.car c).releasingNotices p.globals c) p (p.toReleasing c) := by
  unfold Part.toReleasing CarBlock.releasingNotices
  rw [Part.resolvedOrConfirmed_eq, Part.lineAlive_eq]
  by_cases hz : (p.car c).inputs.zone.isOn = true
  · simp only [Part.zoneActive, hz, Bool.not_true, Bool.false_eq_true, if_false]
    by_cases hh : (p.car c).line.state ≠ .alive ∧ (p.car c).isPlaced p.globals = false
    · simpa [hh.1, hh.2] using offers_toHeld p c .position
    · rw [if_neg hh, if_neg (by simpa [Bool.and_eq_true, decide_eq_true_eq] using hh)]
      refine .of_eq ?_ ?_ <;> (simp only [Part.releaseByFrame, Part.sendGateRelease, Part.releaseByPulse]; split <;> rfl)
  · simp only [Part.zoneActive, hz]
    exact offers_toFailed p c .stopOutsideZone

@[simp] theorem Part.leaving_inputs : ((p.leaving c).car c).inputs = (p.car c).inputs := by rw [Part.leaving_own]
@[simp] theorem Part.leaving_record : ((p.leaving c).car c).record = (p.car c).record := by rw [Part.leaving_own]
@[simp] theorem Part.leaving_line : ((p.leaving c).car c).line = (p.car c).line := by rw [Part.leaving_own]
@[simp] theorem Part.leaving_tracker : ((p.leaving c).car c).tracker = (p.car c).tracker := by rw [Part.leaving_own]

/-- A turn of car c that fails it: `before` is the part its frame is said of, `p` the part that has come before. -/
theorem carTurn_toFailed {before p : Part} {c : Car} {l : List Notice} (cause : AbortCause) (b : Prelude c l before p) :
    let q := p.change c (·.toFailed c cause)
    CarTurn c (l ++ [⟨.carFailed, some c⟩]) before q ∧ q.car c = (p.car c).failed p.globals cause ∧ PassKept before q := by
  have hst (q : Part) : (q.toFailed c cause).stateOf c = .failed := by
    simp [Part.stateOf, Part.toFailed_own, CarBlock.failedFrom]
  obtain ⟨e1, e2⟩ := carTurn_change (go := (·.toFailed c cause)) (fun q => touchesOnly_toFailed q c cause)
    (offers_toFailed (p.leaving c) c cause) (by simp [hst])
    (by simp only [hst]; intro h e; rw [← e] at h; simp [isMoveState] at h) b
  refine ⟨e1, p.change_toFailed_own c cause, ?_⟩
  rwa [if_neg (by simp [hst])] at e2

/-- A turn of car c that sends it to ASSESSING. -/
theorem carTurn_toAssessing {before p : Part} {c : Car} {l : List Notice} (b : Prelude c l before p) :
    let q := p.change c (·.toAssessing c)
    CarTurn c (l ++ (p.car c).assessedNotices c) before q ∧ q.car c = (p.car c).assessed p.globals ∧
      (p.car c).AssessedPass before q := by
  have hs : ((p.leaving c).car c).assessedState = (p.car c).assessedState := by simp [CarBlock.assessedState]
  have hst : ((p.leaving c).toAssessing c).stateOf c = (p.car c).assessedState.1 := by
    unfold Part.stateOf; rw [Part.toAssessing_own, hs, CarBlock.stated_state]
  have r := (p.car c).assessedState_rest
  obtain ⟨e1, e2⟩ := carTurn_change (go := (·.toAssessing c)) (fun q => touchesOnly_toAssessing q c)
    (offers_toAssessing (p.leaving c) c) (by rw [hst]; exact r.2.1)
    (by rw [hst]; intro h e; rw [← e, r.1] at h; simp at h) b
  have hn : ((p.leaving c).car c).assessedNotices c = (p.car c).assessedNotices c := by simp [CarBlock.assessedNotices, hs]
  rw [hn] at e1
  refine ⟨e1, p.change_toAssessing_own c, ?_⟩
  rw [hst] at e2
  unfold CarBlock.AssessedPass
  have : (p.car c).assessedState.1 = .assessing ∨ (p.car c).assessedState.1 = .held := by
    unfold CarBlock.assessedState; split
    · exact .inr rfl
    · split
      · exact .inr rfl
      · exact .inl rfl
  rcases this with h | h <;> simpa [h] using e2

/-- A turn of car c that sends it to RELEASING. -/
theorem carTurn_toReleasing {before p : Part} {c : Car} {l : List Notice} (h : p.stateOf c ≠ .releasing)
    (b : Prelude c l before p) :
    let q := p.change c (·.toReleasing c)
    CarTurn c (l ++ (p.car c).releasingNotices p.globals c) before q ∧ q.car c = (p.car c).releasing p.globals ∧
      PassKept before q := by
  have hst : ((p.leaving c).toReleasing c).stateOf c = (((p.leaving c).car c).releasingFrom p.globals).record.state := by
    unfold Part.stateOf; rw [Part.toReleasing_own, Part.leaving_globals]
  have r := CarBlock.releasingFrom_rest ((p.leaving c).car c) p.globals
  have ra : (((p.leaving c).car c).releasingFrom p.globals).record.state ≠ .assessing := by
    unfold CarBlock.releasingFrom; split
    · simp [CarBlock.failedFrom]
    · split <;> simp [CarBlock.releasedFrom]
  obtain ⟨e1, e2⟩ := carTurn_change (go := (·.toReleasing c)) (fun q => touchesOnly_toReleasing q c)
    (offers_toReleasing (p.leaving c) c) (by rw [hst]; exact r.1)
    (by rw [hst]; intro h e; rw [← e, r.2] at h; simp at h) b
  have hn : ((p.leaving c).car c).releasingNotices (p.leaving c).globals c = (p.car c).releasingNotices p.globals c := by
    simp [CarBlock.releasingNotices, CarBlock.isPlaced]
  rw [hn] at e1
  refine ⟨e1, p.change_toReleasing_own c h, ?_⟩
  rwa [if_neg (by rw [hst]; exact ra)] at e2

/-! ## The turns as events -/

/-- An event of car c that fails it. -/
theorem carEvent_toFailed {before p : Part} {c : Car} {l : List Notice} (cause : AbortCause) (b : Prelude c l before p) :
    let q := settleDemand before (p.change c (·.toFailed c cause))
    CarEvent c (l ++ [⟨.carFailed, some c⟩]) before q ∧ q.car c = (p.car c).failed p.globals cause ∧ PassKept before q := by
  obtain ⟨t, own, pass⟩ := carTurn_toFailed cause b
  obtain ⟨e1, e2, e3, -⟩ := t.event (by
    rw [show (p.change c (·.toFailed c cause)).stateOf c = .failed by unfold Part.stateOf; rw [own]; rfl]
    simp [isDemandState, isMoveState])
  exact ⟨e1, e2.trans own, e3 pass⟩

/-- An event of car c that sends it to ASSESSING. -/
theorem carEvent_toAssessing {before p : Part} {c : Car} {l : List Notice} (b : Prelude c l before p) :
    let q := settleDemand before (p.change c (·.toAssessing c))
    CarEvent c (l ++ (p.car c).assessedNotices c) before q ∧ q.car c = (p.car c).assessed p.globals ∧
      (p.car c).AssessedPass before q := by
  obtain ⟨t, own, pass⟩ := carTurn_toAssessing b
  have r := (p.car c).assessedState_rest
  obtain ⟨e1, e2, e3, e4⟩ := t.event (by
    rw [show (p.change c (·.toAssessing c)).stateOf c = (p.car c).assessedState.1 by unfold Part.stateOf; rw [own]; rfl]
    simp [isDemandState, r.1, r.2.1])
  refine ⟨e1, e2.trans own, ?_⟩
  unfold CarBlock.AssessedPass at pass ⊢
  split at pass
  · next h => rw [if_pos h]; exact e3 pass
  · next h => rw [if_neg h]; exact e4 pass

/-- An event of car c that sends it to RELEASING. -/
theorem carEvent_toReleasing {before p : Part} {c : Car} {l : List Notice} (h : p.stateOf c ≠ .releasing)
    (b : Prelude c l before p) :
    let q := settleDemand before (p.change c (·.toReleasing c))
    CarEvent c (l ++ (p.car c).releasingNotices p.globals c) before q ∧ q.car c = (p.car c).releasing p.globals ∧
      PassKept before q := by
  obtain ⟨t, own, pass⟩ := carTurn_toReleasing h b
  have r : ((p.car c).releasing p.globals).record.state ≠ .ready ∧
      isMoveState ((p.car c).releasing p.globals).record.state = false := by
    unfold CarBlock.releasing; split
    · simp [CarBlock.failed, CarBlock.moved, isMoveState]
    · split <;> simp [CarBlock.released, CarBlock.moved, isMoveState]
  obtain ⟨e1, e2, e3, -⟩ := t.event (by
    rw [show (p.change c (·.toReleasing c)).stateOf c = ((p.car c).releasing p.globals).record.state by
      unfold Part.stateOf; rw [own]]
    simp [isDemandState, r.1, r.2])
  exact ⟨e1, e2.trans own, e3 pass⟩

end Sys2Proof.Machine
end

