-- ==== Sys2Proof/Tests/Slice0.lean ====
section
/-!
SUPPORT. Tests. First the manual's worked figures (expected values from spec/, named in each comment) and the refusal of an
ill-formed term; then, for every statement with hypotheses, a witness that meets them: a concrete state and operands for each
clause, at boundary values where the clause has a range.
-/

open Sys2Proof Sys2Proof.Machine

namespace Sys2Proof.Tests

/-! ## A small station -/

/-- The hoistway of the manual's examples: L = 4, heights 0, 4500, 9000, 15000 mm, W = 75, ppm 1000. -/
def shaft : CarEntry := { defaultCarEntry with present := true, landings := 4, heights := [0, 4500, 9000, 15000] }

/-- A station whose car 0 has that hoistway and stands as `b`; every other car is not present. -/
def site (b : CarBlock) : State := { State.reset with
  config := { defaultSettings with cars := defaultSettings.cars.set 0 shaft }
  cars := State.reset.cars.set 0 b }

/-- Car 0 after a load. -/
def car0 : CarBlock := .fresh shaft defaultGlobals false false false

/-- Car 0 in a state. -/
def inState (x : RescueState) : CarBlock := { car0 with record := { car0.record with state := x } }

/-- The record of a car changed. -/
def withRecord (b : CarBlock) (f : CarRecord → CarRecord) : CarBlock := { b with record := f b.record }

/-- The inputs of a car changed. -/
def withInputs (b : CarBlock) (f : CarInputs → CarInputs) : CarBlock := { b with inputs := f b.inputs }

/-- The line of a car changed. -/
def withLine (b : CarBlock) (f : CarLine → CarLine) : CarBlock := { b with line := f b.line }

/-- A level that is accepted. -/
def level (x : Bool) : LevelFilter := ⟨x, some x, none⟩

/-- A machine with another supply. -/
def supplied (s : State) (x : Supply) : State := { s with supply := x }

theorem gives {s : State} {q : Port} {code : Byte} {payload : List Byte} (hp : s.powered = true)
    (ha : s.resetArmed = false) (hb : (s.port q).buffer.isHandling = false)
    (hj : judgeFrame q code (frameBody code payload) = .ok payload) :
    s.given q code (frameBody code payload) payload :=
  ⟨⟨hp, fun h => by simp [ha] at h, hb⟩, hj⟩

theorem givesCar {s : State} {q : Port} {code n : Byte} {c : Car} {rest : List Byte} (hp : s.powered = true)
    (ha : s.resetArmed = false) (hb : (s.port q).buffer.isHandling = false)
    (hj : judgeFrame q code (frameBody code (n :: rest)) = .ok (n :: rest))
    (hc : s.judgeCar code (n :: rest) = some c) :
    s.givenCar q code (frameBody code (n :: rest)) c rest :=
  ⟨_, gives hp ha hb hj, hc, rfl⟩

/-! ## Well-formedness and decoding -/

/-- A code of Table 26 is no unknown command, and the byte 0 on the station port begins a response read (R184, R185). -/
theorem test_illFormed_refused :
    (Instr.unknownCommandRequest .panel 1 []).wellFormed = false ∧
    exec (.unknownCommandRequest .panel 1 []) State.reset = .refused .illFormed ∧
    (Instr.unknownCommandRequest .station 0 []).wellFormed = false ∧
    exec (.unknownCommandRequest .station 0 []) State.reset = .refused .illFormed := ⟨rfl, rfl, rfl, rfl⟩

/-- The table gives no row bits, so no word spells a command. -/
theorem test_no_row_has_bits : decodeTableWord 8 1 = none ∧ State.reset.withFetchWord 8 1 = State.reset := ⟨rfl, rfl⟩

/-! ## The manual's figures -/

/-- R48: −3 counts at 4000 counts per metre are 0 mm; section 3.9: 37 and 38 counts at 1200 are 30 and 31 mm. -/
theorem test_counts_to_mm : countToMm 4000 (-3) = 0 ∧ countToMm 1200 37 = 30 ∧ countToMm 1200 38 = 31 := by decide

/-- R2, section 1.7: spans of 4350, 4350 and 5850 mm, the largest 5850. -/
theorem test_geometry :
    zoneLength shaft 1 = 4350 ∧ zoneLength shaft 5 = 5850 ∧ zoneLength shaft 6 = 150 ∧ largestSpan shaft = 5850 := by decide

/-- R5: heights 0, 400, 5000 are a valid map with W = 75 and an invalid one with W = 120. -/
theorem test_map_gaps :
    validMap { shaft with landings := 3, heights := [0, 400, 5000] } = true ∧
    validMap { shaft with landings := 3, heights := [0, 400, 5000], halfWidth := 120 } = false := by decide

/-- R10: the manual's accepted table, and its two refused ones. -/
theorem test_soc_tables :
    validSoc [⟨44000, 0⟩, ⟨48000, 12000⟩, ⟨52000, 30000⟩] = true ∧
    validSoc [⟨44000, 0⟩, ⟨48000, 12000⟩, ⟨48000, 15000⟩] = false ∧
    validSoc [⟨44000, 500⟩, ⟨48000, 12000⟩, ⟨52000, 11000⟩] = false := by decide

/-- R22: with Q = 1000 a load of 1400 kg enters as 1250; with L = 4 zone 9 is absent; an offset of 160 in zone 2 is absent. -/
theorem test_status_treatment :
    (statusRecord shaft ⟨2, 1, 1400, 9, 100, 1, 0, 1⟩).map (fun r => (r.load, r.zone, r.offset))
      = some (some 1250, none, none) ∧
    (statusRecord shaft ⟨2, 1, 65535, 2, 160, 1, 0, 1⟩).map (fun r => (r.load, r.zone, r.offset))
      = some (none, some 2, none) := by decide

/-- Section 5.8: the ENTER edge of the seeded lowering. -/
theorem test_tracker_seeded_lowering :
    trackerUpdate shaft defaultGlobals (trackerSeed shaft 5 (.seed 5 2000) false) .enter .down 2040 =
      (⟨[4095, 4095, 450, 4095, 0, 4095, 4095], .edge (.enter .down), 255, 4, false⟩, false) := by decide

/-- Section 5.9: the LEAVE edge of the car that slipped out of its zone. -/
theorem test_tracker_leave :
    trackerUpdate shaft defaultGlobals ⟨[0, 4095, 0, 4095, 0, 4095, 4095], .edge (.enter .down), 0, 0, false⟩ .leave .down 160 =
      (⟨[4095, 0, 4095, 0, 4095, 4095, 4095], .edge (.leave .down), 0, 1, false⟩, false) := by decide

/-- Section 5.10: the third edge, past a silent vane. -/
theorem test_tracker_missed_vane :
    let t := (trackerUpdate shaft defaultGlobals
      ⟨[4095, 4095, 4095, 0, 4095, 454, 4095], .edge (.leave .up), 255, 3, false⟩ .enter .up 10344).1
    t.costs = [4095, 4095, 4095, 4095, 55, 4095, 0] ∧ t.confidence = 55 ∧ t.bestZone = 6 := by decide

/-- R129: the manual's car gains 104; R131: 61504 and 12017 halve to 30752 and 6008. -/
theorem test_urgency :
    occupancy defaultGlobals (some ⟨.stalled, .power, some 380, none, none, .closed, 2, true⟩) = 6 ∧
    ((car0.stepUrgency defaultGlobals).planner.urgency = 0) ∧
    (let b := { inState .ready with
       planner := { car0.planner with urgency := 5000, alarmMark := some 0 }
       line := { car0.line with
         state := .alive, lastStatus := some ⟨.stalled, .power, some 380, none, none, .closed, 2, true⟩ } }
     (b.stepUrgency defaultGlobals).planner.urgency = 5104) := by decide

/-- R135: with Q = 1000, b = 45, m = 5, loads of 380, 470 and 510 kg go UP, BALANCED and DOWN. -/
theorem test_natural_direction :
    let shot (load : Nat) := { (site (inState .ready)).snapshotCar 0 with load := some load }
    naturalDirection (shot 380) = .up ∧ naturalDirection (shot 470) = .balanced ∧ naturalDirection (shot 510) = .down := by
  decide

/-- R143: readings of 0 and 4095 are 0 and 65535 mV. -/
theorem test_battery_reading : readingToMv 0 = 0 ∧ readingToMv 4095 = 65535 := by decide

/-- Section 7.6: car 1 is planned POWERED_UP with T_ms 12267 and 118 EU, and car 0 GRAVITY_UP with 15 EU. -/
theorem test_plans :
    let e := { shaft with landings := 2, heights := [0, 4150], coilPower := 120, drivePower := 800 }
    let shot := { (site (inState .ready)).snapshotCar 0 with
      entry := e, zoneLevel := some false, view := ⟨0, some 1, 255, true, some 2160⟩ }
    let up := planCar defaultSettings.rules ⟨.timed, [], defaultGlobals, none⟩ { shot with
      load := some 470, lineState := .alive, driveAvailable := some true }
    let gravity := planCar defaultSettings.rules ⟨.timed, [], defaultGlobals, none⟩ { shot with
      load := some 380, lineState := .lost }
    (up.plan.method = some .poweredUp ∧ up.plan.travelTime = some 12267 ∧ up.plan.estimate = some 118) ∧
    (gravity.plan.method = some .gravityUp ∧ gravity.plan.distance = some 1840 ∧ gravity.plan.estimate = some 15) := by decide

/-- Section 9.9: frames 3 and 9, and the overspeed that might have been. -/
theorem test_measured_speed :
    measuredSpeed shaft defaultGlobals 14 3 = 116 ∧ measuredSpeed shaft defaultGlobals 53 8 = 165 ∧
    measuredSpeed shaft defaultGlobals 101 8 = 315 := by decide

/-- Section 9.9: from 40 up to 42 at 75 mm/s, level in the band, from 48 down to 43 at 165 mm/s. -/
theorem test_regulated_share :
    regulatedShare shaft defaultGlobals 75 40 = 42 ∧ regulatedShare shaft defaultGlobals 140 48 = 48 ∧
    regulatedShare shaft defaultGlobals 165 48 = 43 := by decide

/-- R161: with F = 40 ms, share 40 gives 16.0 ms and share 43 gives 17.2 ms. -/
theorem test_share_times : shareTime 40 40 = 16000 ∧ shareTime 40 43 = 17200 := by decide

/-- R19, R31, R191: a CANCEL of move 5 is the bytes 34, 1, 5, 216; the mark bit is set on 34 alone, and 34, with two ones and the
mark, takes a parity bit of 1. -/
theorem test_sent_cancel :
    (sentFrame (.cancel 5)).map (fun b => (b.data, b.mark, b.parity)) =
      [(34, true, true), (1, false, true), (5, false, false), (216, false, false)] ∧
    bitsOf (sentByte true 34) =
      [false, false, true, false, false, false, true, false, false, true, true, true] := by decide

/-- R186, Table 19: a converter-enable output that is inactive is sent as 1, its place in "active, inactive". -/
theorem test_output_code : putActive false = [1] ∧ putActive true = [0] := by decide

/-- A READY car of section 8.7. -/
def waiting (urgency : Nat) (m : PlanMethod) (estimate : Nat) (first : Bool) : CarBlock :=
  { inState .ready with
    record := { (inState .ready).record with first := first }
    planner := { car0.planner with
      urgency := urgency, plan := { PlanRecord.empty with planned := true, method := some m, estimate := some estimate } } }

/-- Section 8.7: the selection at the pass end. -/
theorem test_selection :
    let p : Part := { (site car0).toPart with
      supply := { Supply.fresh with belief := .absent, converter := .on, sampled := true, usable := some 300 }
      cars := #v[waiting 3900 .gravityUp 15 false, waiting 3900 .poweredUp 118 false, waiting 1200 .probe 1 true,
        { inState .lowering with slots := ⟨true, false, some 59⟩ }, car0, waiting 5000 .gravityDown 120 false,
        waiting 4200 .poweredDown 246 false, car0] }
    let q := p.select
    [0, 1, 2, 5, 6].map (fun c => (q.stateOf c, (q.car c).record.energyShort)) =
      [(.ready, false), (.driving, false), (.probing, false), (.ready, false), (.ready, true)] ∧ q.reserved = 178 := by
  decide

/-! ## Witnesses: the step, power, the store -/

theorem witness_StepTakesFront :
    ({ State.reset with pending := [.passEnd] } : State).pending = .passEnd :: [] ∧
    exec .passEnd State.reset = .next State.reset := ⟨rfl, rfl⟩

theorem witness_CommandsComplete :
    (Instr.unknownCommandRequest .panel 0 []).wellFormed = true ∧ (Instr.unknownCommandRequest .panel 47 []).wellFormed = false ∧
    Instr.passEnd.wellFormed = true ∧ ({ State.reset with powered := false } : State).powered = false ∧
    ∀ a, Instr.passEnd ≠ .powerOn a := ⟨rfl, rfl, rfl, rfl, fun _ h => by cases h⟩

/-- A machine whose car 0 is handing over a DRIVE_ACK. -/
def handing : State := site (withLine car0 fun l => { l with handover := some (.driveAck 5) })

/-- A machine 250 ms after its last battery sample, with a tick due. -/
def dueTwice : State := { State.reset with time := ⟨1000, false, 3, 250⟩ }

theorem witness_EmptyQueueSteps :
    (State.reset.pending = [] ∧ ({ State.reset with powered := false } : State).pending = []) ∧
    (handing.pending = [] ∧ handing.powered = true ∧ handing.handovers = [.driveAck 0 5]) ∧
    (dueTwice.handovers = [] ∧ dueTwice.due = [.batterySample (Config.batteryReading 0), .oneSecondTick]) ∧
    (State.reset.handovers = [] ∧ State.reset.due = []) := ⟨⟨rfl, rfl⟩, ⟨rfl, rfl, rfl⟩, ⟨rfl, rfl⟩, rfl, rfl⟩

/-- R143: the battery sample that falls due is queued alone, with a reading that nothing fixes (logs 3, 23). -/
theorem test_due_alone :
    step dueTwice = .next { dueTwice with pending := [.batterySample (Config.batteryReading 0)] } := rfl

theorem witness_TimersComeDue :
    dueTwice.due = [.batterySample (Config.batteryReading 0), .oneSecondTick] ∧
    ({ State.reset with mainsInput := ⟨true, none, some 0⟩ } : State).due = [.firstLevelAcceptance .mains true] ∧
    (site (withInputs car0 fun i => { i with chain := ⟨false, some true, some 0⟩ })).due = [.chainOpen 0] ∧
    (let s := site { car0 with brake := { CarBrake.fresh with channelA := .open, insideA := true, activeA := 43 } }
     ({ s with time := ⟨0, false, 18, 0⟩ } : State).due = [.brakeShareEnd 0 .a] ∧
       ({ s with time := ⟨0, false, 17, 0⟩ } : State).due = []) := ⟨rfl, rfl, rfl, by decide +kernel⟩

/-- A machine whose RESET has been accepted. -/
def armed : State := { State.reset with resetArmed := true }

theorem witness_ResetsLoadTheImage :
    armed.powered = true ∧ armed.resetArmed = true ∧ validImage blankImage = false ∧
    validImage ⟨defaultSettings, imageChecksum defaultSettings⟩ = true ∧ (28 : Byte) ≠ 0 ∧
    State.reset.resetArmed = false := by decide +kernel

/-- R190: the response read that fetches the OK of a RESET starts the reset. -/
theorem test_read_starts_reset :
    (match exec (.responseRead .station) { armed with timedPending := true } with
      | .next t => (t.resetArmed, t.timedPending, t.station.clocked)
      | _ => (true, true, [])) = (false, false, [90]) := by decide +kernel

/-- A machine in a phase of a SAVE. -/
def saving (x : SaveState) : State :=
  { State.reset with store := { State.reset.store with save := x, snapshot := some blankImage } }

theorem witness_SavePhases :
    (State.reset.given .station 27 (frameBody 27 []) [] ∧ State.reset.store.save = .idle) ∧
    ((saving .writing).given .station 27 (frameBody 27 []) [] ∧ (saving .writing).store.save ≠ .idle) ∧
    (State.reset.given .station 28 (frameBody 28 []) [] ∧ State.reset.store.save = .idle) ∧
    ((saving .verifying).given .station 28 (frameBody 28 []) [] ∧ (saving .verifying).store.save ≠ .idle) ∧
    ((saving .writing).powered = true ∧ (saving .writing).store.save = .writing ∧
      (saving .writing).store.snapshot = some blankImage) ∧
    ((saving .verifying).powered = true ∧ (saving .verifying).store.save = .verifying ∧
      (saving .verifying).store.snapshot = some blankImage ∧ (⟨defaultSettings, 0⟩ : StoredImage) ≠ blankImage) :=
  ⟨⟨gives rfl rfl rfl rfl, rfl⟩, ⟨gives rfl rfl rfl rfl, by decide⟩, ⟨gives rfl rfl rfl rfl, rfl⟩,
    ⟨gives rfl rfl rfl rfl, by decide⟩, by decide, by decide⟩

/-! ## Witnesses: ports -/

theorem witness_RequestsJudged :
    State.reset.takesRequests .panel ∧ ¬(Port.panel = .station ∧ (15 : Byte) = 0) ∧
    requestPayload 15 [0] = none ∧
    (requestPayload 15 (frameBody 15 []) = some [] ∧ isCommand 15 = false) ∧
    (requestPayload 1 (frameBody 1 []) = some [] ∧ lengthAllowed 1 0 = false) ∧
    (requestPayload 27 (frameBody 27 []) = some [] ∧ isCommand 27 = true ∧ lengthAllowed 27 0 = true ∧
      mayGive .panel 27 = false) ∧
    (requestPayload 1 (frameBody 1 [8]) = some [8] ∧ isCommand 1 = true ∧ lengthAllowed 1 1 = true ∧
      mayGive .panel 1 = true ∧ namesCar 1 = true ∧ ∀ c : Car, ((8 : Byte)).toNat ≠ c.val) ∧
    (requestPayload 1 (frameBody 1 [0]) = some [0] ∧ State.reset.stateOf 0 = .unconfigured ∧
      ¬(20 ≤ (1 : Byte).toNat ∧ (1 : Byte).toNat ≤ 24) ∧ ∀ c : Car, ((0 : Byte)).toNat = c.val → c = 0) ∧
    (let s : State := { armed with panel := { State.reset.panel with buffer := .handling 1 [1, 0, 254] } }
     s.powered = true ∧ ¬(Port.panel = .station ∧ s.resetArmed = true) ∧ (s.port .panel).buffer.isHandling = true) :=
  ⟨⟨rfl, (fun h => by cases h.1), rfl⟩, by decide, by decide, by decide, by decide, by decide, by decide, by decide,
    by decide⟩

theorem witness_ResponseReadBytes :
    ({ State.reset with panel := { State.reset.panel with buffer := .ready .ok [1, 2] } }.port .panel).buffer = .ready .ok [1, 2] ∧
    (State.reset.port .station).buffer = .empty ∧ State.reset.powered = true ∧ State.reset.resetArmed = false ∧
    ¬(Port.station = .station ∧ (1 : Byte) = 0) := by decide

theorem witness_ReadsAnswer :
    (site car0).givenCar .panel 1 (frameBody 1 [0]) 0 [] ∧
    (site car0).given .station 3 (frameBody 3 []) [] ∧
    (site car0).given .station 4 (frameBody 4 [0]) [0] ∧ (site car0).given .station 4 (frameBody 4 [15]) [15] ∧
    (site car0).given .station 4 (frameBody 4 [16]) [16] ∧
    (site car0).given .panel 5 (frameBody 5 []) [] ∧
    (site car0).given .panel 6 (frameBody 6 [0]) [0] ∧ (site car0).given .panel 6 (frameBody 6 [7]) [7] ∧
    (site car0).given .panel 6 (frameBody 6 [8]) [8] ∧ (site car0).given .panel 6 (frameBody 6 [9]) [9] ∧
    (site car0).given .panel 6 (frameBody 6 [10]) [10] ∧
    (site car0).given .panel 7 (frameBody 7 []) [] ∧
    (site car0).givenCar .station 20 (frameBody 20 [7]) 7 [] :=
  ⟨givesCar rfl rfl rfl rfl rfl, gives rfl rfl rfl rfl, gives rfl rfl rfl rfl, gives rfl rfl rfl rfl, gives rfl rfl rfl rfl,
    gives rfl rfl rfl rfl, gives rfl rfl rfl rfl, gives rfl rfl rfl rfl, gives rfl rfl rfl rfl, gives rfl rfl rfl rfl,
    gives rfl rfl rfl rfl, gives rfl rfl rfl rfl, givesCar rfl rfl rfl rfl rfl⟩

theorem witness_CarRead : (site car0).givenCar .panel 1 (frameBody 1 [0]) 0 [] := givesCar rfl rfl rfl rfl rfl

/-- The pending commits of section 6.8 after step 6. -/
def edits : List PendingCommit := [⟨.station, 6, { defaultRule with high := 3000 }, 16⟩, ⟨.panel, 9, defaultRule, 1⟩]

theorem witness_ReadContents :
    State.reset.given .panel 3 (frameBody 3 []) [] ∧
    (State.reset.given .station 4 (frameBody 4 [15]) [15] ∧ (15 : Byte).toNat = (15 : Fin 16).val) ∧
    (let s := { State.reset with commits := edits }
     s.given .station 4 (frameBody 4 [6]) [6] ∧ (6 : Byte).toNat = (6 : Fin 16).val ∧ (s.commits.any (·.rule == 6)) = true) ∧
    (site car0).givenCar .station 20 (frameBody 20 [7]) 7 [] ∧
    (site car0).givenCar .panel 2 (frameBody 2 [0, 14, 15]) 0 [14, 15] :=
  ⟨gives rfl rfl rfl rfl, ⟨gives rfl rfl rfl rfl, rfl⟩, ⟨gives rfl rfl rfl rfl, rfl, rfl⟩, givesCar rfl rfl rfl rfl rfl,
    givesCar rfl rfl rfl rfl rfl⟩

/-- R121, R186 on the two entries of section 6.8, steps 2 and 6: the station's high 3000 in two bytes, the panel's enabled no
in one. The set before the values is log 30's. -/
theorem test_read_pending :
    let p := { State.reset.toPart with commits := edits }
    (p.readRule 6).drop 50 = [1, 0, 0, 16, 11, 184] ∧ (p.readRule 9).drop 50 = [1, 1, 0, 1, 0] := by decide

theorem witness_ReadsAnswer_cursor :
    (site car0).givenCar .panel 2 (frameBody 2 [0, 14, 15]) 0 [14, 15] ∧
    (site car0).givenCar .panel 2 (frameBody 2 [0, 255, 1]) 0 [255, 1] ∧
    (site car0).givenCar .panel 2 (frameBody 2 [0, 15, 1]) 0 [15, 1] ∧
    (site car0).givenCar .panel 2 (frameBody 2 [0, 254, 1]) 0 [254, 1] ∧
    (site car0).givenCar .panel 2 (frameBody 2 [0, 0, 0]) 0 [0, 0] ∧
    (site car0).givenCar .panel 2 (frameBody 2 [0, 0, 16]) 0 [0, 16] :=
  ⟨givesCar rfl rfl rfl rfl rfl, givesCar rfl rfl rfl rfl rfl, givesCar rfl rfl rfl rfl rfl, givesCar rfl rfl rfl rfl rfl,
    givesCar rfl rfl rfl rfl rfl, givesCar rfl rfl rfl rfl rfl⟩

theorem witness_PortRecords :
    (State.reset.given .panel 8 (frameBody 8 [17, 255]) [17, 255] ∧
      readNotices [17, 255] = some [⟨.settingsInvalid, none⟩]) ∧
    (State.reset.given .panel 8 (frameBody 8 [18, 255]) [18, 255] ∧ readNotices [18, 255] = none) ∧
    (State.reset.given .panel 9 (frameBody 9 [1, 255, 255]) [1, 255, 255] ∧ getNat [1, 255, 255] = 2 ^ 17 - 1) ∧
    (State.reset.given .panel 9 (frameBody 9 [2, 0, 0]) [2, 0, 0] ∧ getNat [2, 0, 0] = 2 ^ 17) ∧
    (State.reset.given .panel 10 (frameBody 10 [14, 15, 255]) [14, 15, 255] ∧
      (stageFields State.reset.panel.staging (readFields [14, 15, 255])).isSome = true) ∧
    (State.reset.given .panel 10 (frameBody 10 [14, 0, 0]) [14, 0, 0] ∧
      stageFields State.reset.panel.staging (readFields [14, 0, 0]) = none) ∧
    State.reset.given .panel 11 (frameBody 11 []) [] ∧
    (stageFields ⟨defaultRule, 0⟩ [(1, 1), (14, 4095), (1, 0)]).isSome = true ∧
    (∀ f ∈ [(14, 0), (255, 65535)], f.1 < 256 ∧ f.2 < 65536) ∧ [(11 : Byte), 7].length % 2 = 0 :=
  ⟨⟨gives rfl rfl rfl rfl, by decide⟩, ⟨gives rfl rfl rfl rfl, by decide⟩, ⟨gives rfl rfl rfl rfl, by decide⟩,
    ⟨gives rfl rfl rfl rfl, by decide⟩, ⟨gives rfl rfl rfl rfl, by decide⟩, ⟨gives rfl rfl rfl rfl, by decide⟩,
    gives rfl rfl rfl rfl, by decide, by decide, by decide⟩

/-! ## Witnesses: policy and configuration -/

/-- A machine with a pass in flight. -/
def passing : State := { State.reset with pass := some ⟨.timed, [], defaultGlobals, none⟩ }

/-- A machine whose panel has staged an IN_RANGE test of 9 to 5, which no rule may hold. -/
def stagedBadly (s : State) : State := { s with panel := { s.panel with
  staging := ⟨{ defaultRule with compare := .inRange, low := 9, high := 5 }, 0b11100#14⟩ } }

theorem witness_CommitJudged :
    State.reset.given .station 12 (frameBody 12 [16]) [16] ∧
    (let s : State := { passing with commits := [⟨.panel, 3, defaultRule, 0⟩] }
     s.given .panel 12 (frameBody 12 [0]) [0] ∧ (∃ e ∈ s.commits, e.port = .panel) ∧
       ∀ e ∈ s.commits, e.port ≠ .station) ∧
    ((stagedBadly State.reset).given .panel 12 (frameBody 12 [0]) [0] ∧
      (∀ e ∈ (stagedBadly State.reset).commits, e.port ≠ .panel) ∧ (stagedBadly State.reset).pass = none ∧
      validRule (mergeRule (stagedBadly State.reset).panel.staging.selected (stagedBadly State.reset).panel.staging.image
        (stagedBadly State.reset).config.rules[(0 : Fin 16)]) = false) ∧
    ((stagedBadly passing).given .panel 12 (frameBody 12 [15]) [15] ∧ (stagedBadly passing).pass.isSome = true ∧
      validRule (mergeRule (stagedBadly passing).panel.staging.selected (stagedBadly passing).panel.staging.image
        defaultRule) = false) ∧
    (passing.given .panel 12 (frameBody 12 [15]) [15] ∧ (∀ e ∈ passing.commits, e.port ≠ .panel) ∧
      passing.pass.isSome = true ∧ validRule (mergeRule 0 defaultRule defaultRule) = true) ∧
    (State.reset.given .station 12 (frameBody 12 [15]) [15] ∧ (∀ e ∈ State.reset.commits, e.port ≠ .station) ∧
      State.reset.pass = none ∧ validRule (mergeRule State.reset.station.staging.selected
        State.reset.station.staging.image State.reset.config.rules[(15 : Fin 16)]) = true) :=
  ⟨gives rfl rfl rfl rfl, ⟨gives rfl rfl rfl rfl, by decide, by decide⟩,
    ⟨gives rfl rfl rfl rfl, by decide, rfl, by decide⟩, ⟨gives rfl rfl rfl rfl, rfl, by decide⟩,
    ⟨gives rfl rfl rfl rfl, by decide, rfl, by decide⟩, ⟨gives rfl rfl rfl rfl, by decide, rfl, by decide⟩⟩

/-- The fields of a WRITE_CAR_PARAMS after the car, of the example hoistway. -/
def params : List Byte := putParams shaft

/-- The same with an overspeed limit 10 mm/s above the rescue speed, which R5 refuses. -/
def badParams : List Byte := putParams { shaft with overspeed := 160 }

theorem witness_CarWrites_judged :
    ((site (inState .ready)).givenCar .station 22 (frameBody 22 (0 :: params)) 0 params ∧
      (site (inState .ready)).stateOf 0 = .ready) ∧
    ((site (inState .normal)).givenCar .station 22 (frameBody 22 (0 :: badParams)) 0 badParams ∧
      (site (inState .normal)).stateOf 0 = .normal ∧ (readParams shaft badParams).all validParams = false) ∧
    ((site (inState .failed)).givenCar .station 23 (frameBody 23 (0 :: putMap shaft)) 0 (putMap shaft)) ∧
    ((site (inState .inhibited)).givenCar .station 23 (frameBody 23 (0 :: putMap { shaft with halfWidth := 151 })) 0
        (putMap { shaft with halfWidth := 151 }) ∧
      validMap (readMap shaft (putMap { shaft with halfWidth := 151 })) = false) ∧
    (site (inState .confirming)).givenCar .station 24 (frameBody 24 [0, 0, 1]) 0 [0, 1] :=
  ⟨⟨givesCar rfl rfl rfl rfl rfl, by decide⟩, ⟨givesCar rfl rfl rfl rfl rfl, by decide, by decide⟩,
    givesCar rfl rfl rfl rfl rfl, ⟨givesCar rfl rfl rfl rfl rfl, by decide⟩, givesCar rfl rfl rfl rfl rfl⟩

theorem witness_CarWrites :
    ((site (inState .inhibited)).givenCar .station 22 (frameBody 22 (0 :: params)) 0 params ∧
      (site (inState .inhibited)).stateOf 0 = .inhibited ∧
      readParams ((site (inState .inhibited)).entry 0) params = some shaft ∧ validParams shaft = true) ∧
    (State.reset.givenCar .station 23 (frameBody 23 (7 :: putMap shaft)) 7 (putMap shaft) ∧
      State.reset.stateOf 7 = .unconfigured ∧
      readMap (State.reset.entry 7) (putMap shaft) = { shaft with present := false } ∧
      validMap { shaft with present := false } = true) ∧
    ((site (inState .normal)).givenCar .station 24 (frameBody 24 [0, 255, 255]) 0 [255, 255] ∧
      (site (inState .normal)).stateOf 0 = .normal) :=
  ⟨⟨givesCar rfl rfl rfl rfl rfl, by decide, by decide, by decide⟩,
    ⟨givesCar rfl rfl rfl rfl rfl, by decide, by decide, by decide⟩, ⟨givesCar rfl rfl rfl rfl rfl, by decide⟩⟩

theorem witness_GlobalWrite :
    ((site (inState .probing)).given .station 25 (frameBody 25 (putGlobals defaultGlobals)) (putGlobals defaultGlobals) ∧
      isMoveState ((site (inState .probing)).stateOf 0) = true) ∧
    (State.reset.given .station 25 (frameBody 25 (putGlobals { defaultGlobals with brakeSlots := 5 }))
        (putGlobals { defaultGlobals with brakeSlots := 5 }) ∧
      (∀ c, isMoveState (State.reset.stateOf c) = false) ∧
      (readGlobals (putGlobals { defaultGlobals with brakeSlots := 5 })).all validGlobals = false) ∧
    (State.reset.given .station 25 (frameBody 25 (putGlobals { defaultGlobals with brakeSlots := 4 }))
        (putGlobals { defaultGlobals with brakeSlots := 4 }) ∧
      readGlobals (putGlobals { defaultGlobals with brakeSlots := 4 }) = some { defaultGlobals with brakeSlots := 4 } ∧
      validGlobals { defaultGlobals with brakeSlots := 4 } = true) :=
  ⟨⟨gives rfl rfl rfl rfl, by decide⟩, ⟨gives rfl rfl rfl rfl, by decide, by decide⟩,
    ⟨gives rfl rfl rfl rfl, by decide, by decide⟩⟩

theorem witness_EnergyRecomputed :
    (State.reset.given .station 26 (frameBody 26 (putSoc [⟨1, 0⟩, ⟨1, 0⟩])) (putSoc [⟨1, 0⟩, ⟨1, 0⟩]) ∧
      (readSoc (putSoc [⟨1, 0⟩, ⟨1, 0⟩])).all validSoc = false) ∧
    (State.reset.given .station 26 (frameBody 26 (putSoc [⟨1, 0⟩, ⟨2, 0⟩])) (putSoc [⟨1, 0⟩, ⟨2, 0⟩]) ∧
      readSoc (putSoc [⟨1, 0⟩, ⟨2, 0⟩]) = some [⟨1, 0⟩, ⟨2, 0⟩] ∧ validSoc [⟨1, 0⟩, ⟨2, 0⟩] = true) ∧
    State.reset.powered = true :=
  ⟨⟨gives rfl rfl rfl rfl, by decide⟩, ⟨gives rfl rfl rfl rfl, by decide, by decide⟩, rfl⟩

theorem witness_StateOfCharge :
    let table : List SocPoint := [⟨44000, 0⟩, ⟨48000, 12000⟩, ⟨52000, 30000⟩]
    validSoc table = true ∧ (table[0]? = some ⟨44000, 0⟩ ∧ 43999 < 44000) ∧
    (table[1]? = some ⟨48000, 12000⟩ ∧ table[1 + 1]? = some ⟨52000, 30000⟩ ∧ 48000 ≤ 48000 ∧ 51999 < 52000) ∧
    (table.getLast? = some ⟨52000, 30000⟩ ∧ 52000 ≤ 52000) := by decide

/-! ## Witnesses: rules and plans -/

/-- The figures of car 0 in a snapshot: in a span, at the offset of section 7.6. -/
def figures : CarSnapshot :=
  { (site (inState .ready)).snapshotCar 0 with zoneLevel := some false, view := ⟨0, some 1, 255, true, some 2160⟩ }

/-- The plan a pass makes of a snapshot under the default rules. -/
def planOf (s : CarSnapshot) : PlanRecord := (planCar defaultSettings.rules ⟨.timed, [], defaultGlobals, none⟩ s).plan

theorem witness_RulesEvaluated :
    let r : Rule := { defaultRule with enabled := true, compare := .atBound, low := 1, high := 3, lineCondition := .lost }
    let s : CarSnapshot := { figures with
      trappedTime := 3, lineState := .lost, entry := { shaft with ruleSet := 1 } }
    ruleMatches (defaultSettings.rules.set (0 : Fin 16) { r with quantity := .trappedS }) 0 s none = true ∧
    ruleMatches (defaultSettings.rules.set (0 : Fin 16) { r with quantity := .usableEu }) 0 s none = false := by decide

theorem witness_PlansMade :
    (figures.zoneLevel ≠ some true ∧ ({ figures with zoneLevel := some true }).zoneLevel = some true) ∧
    ((planOf { figures with load := some 501 }).method = some .gravityDown ∧ moveDirOf .gravityDown = some .down) ∧
    (planOf { figures with load := some 399 }).method = some .gravityUp ∧
    (planOf { figures with load := some 500, lineState := .alive, driveAvailable := some true }).method = some .poweredDown ∧
    (planOf figures).method = some .probe ∧
    (planOf { figures with load := some 500 }).method = none := by decide

/-- A rule with a count action. -/
def counterRule (a : CountAction) (limit : Nat) : Rule :=
  { defaultRule with enabled := true, countAction := a, countLimit := limit }

/-- A machine at the end of a timed pass over car 0, which is in ASSESSING, with one rule and its counter. -/
def counted (a : CountAction) (limit : Nat) (k : RuleCounter) : State :=
  let e := { shaft with ruleSet := 1 }
  let s := site { inState .assessing with policy := { car0.policy with counters := car0.policy.counters.set (0 : Fin 16) k } }
  let t := { s with config := { s.config with
    cars := s.config.cars.set 0 e, rules := s.config.rules.set (0 : Fin 16) (counterRule a limit) } }
  { t with pass := some ⟨.timed, [t.snapshotCar 0], t.globals, none⟩ }

/-- R111: with unit SECONDS and limit 1, a COUNT_UP rule reaches its end at the first timed pass in which it matches; R112: arming
takes no step, and a COUNT_DOWN counter at 1 reaches its end at the next timed pass. -/
theorem test_counters :
    let after (s : State) : RuleCounter × Option Nat := match exec .passEnd s with
      | .next t => ((t.car 0).policy.counters[(0 : Fin 16)], (t.car 0).record.lastEscalation)
      | _ => (.idle, none)
    after (counted .countUp 1 .idle) = (⟨.reached, 1, 0⟩, some 0) ∧
    after (counted .countDown 2 .idle) = (⟨.counting, 2, 0⟩, none) ∧
    after (counted .countDown 2 ⟨.counting, 1, 0⟩) = (⟨.reached, 0, 0⟩, some 0) := by decide +kernel

theorem witness_CountersStepped :
    let s := counted .countUp 1 .idle
    s.powered = true ∧ s.commits = [] ∧ (∀ e ∈ s.commits, e.rule ≠ 0) ∧ s.pass.map (fun p => (p.kind, p.cars.map (·.car))) = some (.timed, [0]) ∧
    s.stateOf 0 = .assessing ∧ ruleMatches s.config.rules 0 (s.snapshotCar 0) none = true ∧
    (s.car 0).policy.counters[(0 : Fin 16)].state = .idle ∧
    ((counted .countDown 2 ⟨.counting, 1, 0⟩).car 0).policy.counters[(0 : Fin 16)].state = .counting ∧
    ((counted .countDown 2 ⟨.reached, 0, 0⟩).car 0).policy.counters[(0 : Fin 16)].state = .reached ∧
    s.config.rules[(1 : Fin 16)].countAction = .none := by decide

theorem witness_CommitsApplied :
    let s : State := { counted .countUp 1 .idle with commits := [⟨.panel, 0, defaultRule, 0⟩, ⟨.station, 15, defaultRule, 1⟩] }
    s.powered = true ∧ s.pass.isSome = true ∧ maskHolds (s.port .panel).mask .commitDone = true ∧
    ∀ e ∈ (counted .countUp 1 .idle).commits, e.port ≠ .station := by decide

/-! ## Witnesses: commands on a car -/

theorem witness_CarCommands :
    (site car0).givenCar .station 21 (frameBody 21 [7]) 7 [] ∧ (site car0).givenCar .panel 46 (frameBody 46 [0]) 0 [] ∧
    (site car0).givenCar .panel 47 (frameBody 47 [0]) 0 [] ∧
    ((site (inState .rescued)).givenCar .station 13 (frameBody 13 [0]) 0 [] ∧ (site (inState .rescued)).stateOf 0 = .rescued) ∧
    ((site car0).givenCar .station 13 (frameBody 13 [0]) 0 [] ∧ (site car0).stateOf 0 ≠ .rescued) :=
  ⟨givesCar rfl rfl rfl rfl rfl, givesCar rfl rfl rfl rfl rfl, givesCar rfl rfl rfl rfl rfl,
    ⟨givesCar rfl rfl rfl rfl rfl, by decide⟩, ⟨givesCar rfl rfl rfl rfl rfl, by decide⟩⟩

/-- Car 0 with its line LOST and its zone reading inactive, which is the stall condition. -/
def silentInSpan (x : RescueState) : CarBlock :=
  withInputs (withLine (inState x) fun l => { l with state := .lost }) fun i => { i with zone := level false }

theorem witness_CarRestored :
    ((site (silentInSpan .inhibited)).givenCar .panel 41 (frameBody 41 [0]) 0 [] ∧
      (site (silentInSpan .inhibited)).stateOf 0 = .inhibited ∧ ((site (silentInSpan .inhibited)).car 0).stalled = true) ∧
    ((site (inState .inhibited)).givenCar .panel 41 (frameBody 41 [0]) 0 [] ∧
      (site (inState .inhibited)).stateOf 0 = .inhibited ∧ ((site (inState .inhibited)).car 0).stalled = false) ∧
    ((site (inState .held)).givenCar .panel 41 (frameBody 41 [0]) 0 [] ∧ (site (inState .held)).stateOf 0 ≠ .inhibited) :=
  ⟨⟨givesCar rfl rfl rfl rfl rfl, by decide, by decide⟩, ⟨givesCar rfl rfl rfl rfl rfl, by decide, by decide⟩,
    ⟨givesCar rfl rfl rfl rfl rfl, by decide⟩⟩

/-- R53: the two cases of the stall condition, and what meets neither. -/
theorem test_stall_condition :
    let last (x : LineState) (m : StatusMode) := withLine car0 fun l => { l with
      state := x, lastStatus := some ⟨m, .power, none, none, none, .closed, 0, true⟩ }
    (last .alive .stalled).stalled = true ∧ (last .silent .stalled).stalled = false ∧
    (last .alive .outOfService).stalled = false ∧ (withLine car0 fun l => { l with state := .alive }).stalled = false ∧
    (silentInSpan .normal).stalled = true ∧ (withInputs (silentInSpan .normal) fun i => { i with zone := level true }).stalled = false ∧
    (withInputs (silentInSpan .normal) fun i => { i with zone := ⟨false, none, none⟩ }).stalled = false := by decide

theorem witness_FailedCleared :
    ((site (inState .failed)).givenCar .panel 44 (frameBody 44 [0]) 0 [] ∧ (site (inState .failed)).stateOf 0 = .failed) ∧
    ((site (inState .held)).givenCar .panel 44 (frameBody 44 [0]) 0 [] ∧ (site (inState .held)).stateOf 0 ≠ .failed) :=
  ⟨⟨givesCar rfl rfl rfl rfl rfl, by decide⟩, ⟨givesCar rfl rfl rfl rfl rfl, by decide⟩⟩

/-- Car 0 in HELD with a cause, its chain reading as given. -/
def heldBy (cause : HeldCause) (chain : LevelFilter) : CarBlock :=
  withInputs (withRecord (inState .held) fun r => { r with heldCause := some cause }) fun i => { i with chain := chain }

theorem witness_HoldAndInhibit_hold :
    ((site (heldBy .safety (level true))).givenCar .panel 43 (frameBody 43 [0]) 0 [] ∧
      ((site (heldBy .safety (level true))).car 0).record.state = .held ∧
      ((site (heldBy .safety (level true))).car 0).record.heldCause = some .safety ∧
      ((site (heldBy .safety (level true))).car 0).inputs.chain.accepted = some true) ∧
    ((site (heldBy .safety ⟨true, none, none⟩)).givenCar .panel 43 (frameBody 43 [0]) 0 [] ∧
      ((site (heldBy .safety ⟨true, none, none⟩)).car 0).inputs.chain.accepted ≠ some true) ∧
    ((site (heldBy .lockout (level true))).givenCar .panel 43 (frameBody 43 [0]) 0 [] ∧
      ((site (heldBy .lockout (level true))).car 0).record.heldCause ≠ some .safety) :=
  ⟨⟨givesCar rfl rfl rfl rfl rfl, by decide, by decide, by decide⟩, ⟨givesCar rfl rfl rfl rfl rfl, by decide⟩,
    ⟨givesCar rfl rfl rfl rfl rfl, by decide⟩⟩

theorem witness_HoldAndInhibit_inhibit :
    ((site (inState .driving)).givenCar .panel 40 (frameBody 40 [0]) 0 [] ∧ (site (inState .driving)).stateOf 0 ≠ .inhibited) ∧
    ((site (inState .inhibited)).givenCar .panel 40 (frameBody 40 [0]) 0 [] ∧
      (site (inState .inhibited)).stateOf 0 = .inhibited) :=
  ⟨⟨givesCar rfl rfl rfl rfl rfl, by decide⟩, ⟨givesCar rfl rfl rfl rfl rfl, by decide⟩⟩

theorem witness_PositionConfirmed :
    (readOffset [0, 0, 0, 0] = some none ∧ readOffset [1, 0, 0, 150] = some (some 150) ∧
      readOffset [1, 0, 0, 151] = some (some 151)) ∧
    (site (inState .held)).givenCar .panel 42 (frameBody 42 [0, 6, 0, 0, 0, 0]) 0 [6, 0, 0, 0, 0] ∧
    ((site (inState .ready)).givenCar .panel 42 (frameBody 42 [0, 7, 0, 0, 0, 0]) 0 [7, 0, 0, 0, 0] ∧
      ¬((7 : Byte).toNat < 2 * ((site (inState .ready)).entry 0).landings - 1)) ∧
    ((site (inState .ready)).givenCar .panel 42 (frameBody 42 [0, 6, 1, 0, 0, 151]) 0 [6, 1, 0, 0, 151] ∧
      zoneLength ((site (inState .ready)).entry 0) 6 = 150) ∧
    ((site (heldBy .position (level true))).givenCar .panel 42 (frameBody 42 [0, 6, 1, 0, 0, 150]) 0 [6, 1, 0, 0, 150] ∧
      ((site (heldBy .position (level true))).car 0).record.heldCause = some .position) ∧
    ((site (heldBy .position (level true))).givenCar .panel 42 (frameBody 42 [0, 5, 0, 0, 0, 0]) 0 [5, 0, 0, 0, 0]) ∧
    (site (inState .levelling)).givenCar .panel 42 (frameBody 42 [0, 0, 0, 0, 0, 0]) 0 [0, 0, 0, 0, 0] ∧
    (site (inState .assessing)).givenCar .panel 42 (frameBody 42 [0, 6, 0, 0, 0, 0]) 0 [6, 0, 0, 0, 0] ∧
    (site (inState .ready)).givenCar .panel 42 (frameBody 42 [0, 6, 0, 0, 0, 0]) 0 [6, 0, 0, 0, 0] :=
  ⟨by decide, givesCar rfl rfl rfl rfl rfl, ⟨givesCar rfl rfl rfl rfl rfl, by decide⟩,
    ⟨givesCar rfl rfl rfl rfl rfl, by decide⟩, ⟨givesCar rfl rfl rfl rfl rfl, by decide⟩, givesCar rfl rfl rfl rfl rfl,
    givesCar rfl rfl rfl rfl rfl, givesCar rfl rfl rfl rfl rfl, givesCar rfl rfl rfl rfl rfl⟩

/-- A machine that believes the mains PRESENT. -/
def onMains (s : State) : State := supplied s { Supply.fresh with belief := .present }

/-- A machine off the mains with the converter ON and 300 EU usable. -/
def onBattery (s : State) : State :=
  supplied s { Supply.fresh with belief := .absent, converter := .on, enable := true, sampled := true, usable := some 300 }

theorem witness_FirstIsGranted :
    ((site (inState .held)).givenCar .panel 45 (frameBody 45 [0]) 0 [] ∧ (site (inState .held)).stateOf 0 = .held) ∧
    ((site (inState .assessing)).givenCar .panel 45 (frameBody 45 [0]) 0 [] ∧
      (site (inState .assessing)).stateOf 0 = .assessing) ∧
    (let s := onBattery (site (waiting 0 .probe 300 false))
     s.givenCar .panel 45 (frameBody 45 [0]) 0 [] ∧ s.stateOf 0 = .ready ∧ s.supplyReady = true ∧
       300 ≤ s.supply.usable.getD 0 - s.reserved ∧ s.brakeHeld < s.globals.brakeSlots) ∧
    (let s := onMains (site (waiting 0 .gravityUp 65535 false))
     s.givenCar .panel 45 (frameBody 45 [0]) 0 [] ∧ s.supplyReady = true ∧ s.brakeHeld < s.globals.brakeSlots) ∧
    (let s := onMains (site (waiting 0 .poweredDown 65535 false))
     s.givenCar .panel 45 (frameBody 45 [0]) 0 [] ∧ s.supplyReady = true ∧ s.driveHeld < s.globals.driveSlots) ∧
    (let s := site (waiting 0 .probe 300 false)
     s.givenCar .panel 45 (frameBody 45 [0]) 0 [] ∧ s.stateOf 0 = .ready ∧ s.supplyReady = false) ∧
    (let s := onBattery (site (waiting 0 .probe 301 false))
     s.givenCar .panel 45 (frameBody 45 [0]) 0 [] ∧ s.supplyReady = true ∧ s.brakeHeld < s.globals.brakeSlots ∧
       ¬(s.supply.belief = .present ∨ 301 ≤ s.supply.usable.getD 0 - s.reserved) ∧
       (s.car 0).record.energyShort = false ∧ maskHolds (s.port .station).mask .energyShort = true) ∧
    (let s := onMains (site (waiting 0 .poweredUp 1 false))
     let t : State := { s with config := { s.config with globals := { s.globals with driveSlots := 0 } } }
     t.givenCar .panel 45 (frameBody 45 [0]) 0 [] ∧ ¬(t.driveHeld < t.globals.driveSlots)) :=
  ⟨⟨givesCar rfl rfl rfl rfl rfl, by decide⟩, ⟨givesCar rfl rfl rfl rfl rfl, by decide⟩,
    ⟨givesCar rfl rfl rfl rfl rfl, by decide⟩, ⟨givesCar rfl rfl rfl rfl rfl, by decide⟩,
    ⟨givesCar rfl rfl rfl rfl rfl, by decide⟩, ⟨givesCar rfl rfl rfl rfl rfl, by decide⟩,
    ⟨givesCar rfl rfl rfl rfl rfl, by decide⟩, ⟨givesCar rfl rfl rfl rfl rfl, by decide⟩⟩

/-- R81, R154: SET_FIRST of an ASSESSING car takes the override from a READY car, which the selection grants all the same. -/
theorem test_set_first_selects :
    let s := onMains (site (inState .assessing))
    let s : State := { s with cars := s.cars.set 1 (waiting 0 .probe 300 true) }
    s.stateOf 0 = .assessing ∧ s.stateOf 1 = .ready ∧ ∃ t, exec (.setFirst .panel (frameBody 45 [0])) s = .next t ∧
      (t.car 0).record.first = true ∧ (t.car 1).record.first = false ∧ t.stateOf 1 = .probing :=
  ⟨rfl, rfl, _, rfl, by decide +kernel, by decide +kernel, by decide +kernel⟩

theorem witness_SelectionGrants :
    State.reset.supplyReady = false ∧
    (let p := (onBattery (site (waiting 0 .probe 301 false))).toPart
     p.supplyReady = true ∧ p.readyOrder = [0] ∧ (p.car 0).planner.plan.method = some .probe) ∧
    (maskHolds State.reset.panel.mask .rescueStarted = true ∧ (waiting 0 .gravityUp 1 false).slots = ⟨false, false, none⟩) ∧
    ((waiting 0 .poweredUp 1 false).slots = ⟨false, false, none⟩ ∧ PlanMethod.poweredUp ≠ .none ∧
      (site (waiting 0 .poweredUp 1 false)).stateOf 0 = .ready) := by decide

/-- A machine whose converter stands in a state, off the mains, with the ready input as given. -/
def converter (b : CarBlock) (x : ConverterState) (failures : Nat) (ready : Option Bool) : State :=
  { supplied (site b) { Supply.fresh with
      belief := .absent, converter := x, wakeTimer := some 1, standbyTimer := some 1, wakeFailures := failures } with
    converterInput := ⟨ready.getD false, ready, none⟩ }

theorem witness_SupplyFaultCleared :
    ((converter car0 .standby 0 none).given .station 14 (frameBody 14 []) [] ∧
      (converter car0 .standby 0 none).supply.converter ≠ .fault) ∧
    ((converter car0 .fault 3 none).given .station 14 (frameBody 14 []) [] ∧
      (converter car0 .fault 3 none).supply.converter = .fault ∧ (converter car0 .fault 3 none).demand = false) ∧
    ((converter (inState .ready) .fault 3 (some false)).given .station 14 (frameBody 14 []) [] ∧
      (converter (inState .ready) .fault 3 (some false)).demand = true ∧
      (converter (inState .ready) .fault 3 (some false)).converterInput.accepted ≠ some true) ∧
    ((converter (inState .ready) .fault 3 (some true)).given .station 14 (frameBody 14 []) [] ∧
      (converter (inState .ready) .fault 3 (some true)).demand = true ∧
      (converter (inState .ready) .fault 3 (some true)).converterInput.accepted = some true) :=
  ⟨⟨gives rfl rfl rfl rfl, by decide⟩, ⟨gives rfl rfl rfl rfl, by decide⟩, ⟨gives rfl rfl rfl rfl, by decide⟩,
    ⟨gives rfl rfl rfl rfl, by decide⟩⟩

/-! ## Witnesses: car lines -/

/-- Car 0 with a number of bytes in its FIFO. -/
def fifo (n : Nat) : CarBlock := withLine car0 fun l => { l with fifo := List.replicate n (0, false) }

theorem witness_BytesJudged :
    (let b : LineByte := ⟨1, false, false, false⟩
     b.stop = false) ∧
    (let b : LineByte := ⟨1, true, true, true⟩
     b.stop = true ∧ (onesOf b.data + b.mark.toNat + b.parity.toNat) % 2 = 1) ∧
    (let b : LineByte := ⟨1, false, true, true⟩
     b.stop = true ∧ (onesOf b.data + b.mark.toNat + b.parity.toNat) % 2 = 0 ∧
       4 ≤ ((site (fifo 4)).car 0).line.fifo.length) ∧
    (let s := site (withLine (fifo 3) fun l => { l with handover := some (.driveAck 0) })
     (s.car 0).line.fifo.length < 4 ∧ (s.car 0).line.handover.isSome = true ∧ s.powered = true) := by decide

theorem witness_FrameAssembled :
    (car0.line.assembly = ⟨.hunt, 0, 0, [], 0⟩ ∧ car0.line.handover = none ∧ car0.line.fifo = []) ∧
    (frameOf 18 [255] = some (.driveAck 255) ∧ frameValid shaft (.driveAck 255) = true ∧
      checksumOf [18, 1, 255] = 238 ∧ (238 : Byte) ≠ 0) ∧
    (frameOf 19 [0, 3] = some (.moveDone 0 3) ∧ frameValid shaft (.moveDone 0 3) = true) ∧
    (frameOf 19 [0, 4] = some (.moveDone 0 4) ∧ frameValid shaft (.moveDone 0 4) = false) := by decide

/-- Car 0's line with a state of assembly. -/
def assembling (a : Assembly) : CarLine := { car0.line with assembly := a }

theorem witness_FramesJudged :
    (car0.line.handover = none ∧ car0.line.fifo = []) ∧
    ((assembling ⟨.header, 18, 0, [], 18⟩).handover = none ∧ (24 : Byte).toNat = 24 ∧ (25 : Byte).toNat = 25) ∧
    ((assembling ⟨.payload, 18, 1, [], 19⟩).fifo = [] ∧ ([] : List Byte).length + 1 = 1) ∧
    (let a : Assembly := ⟨.check, 19, 2, [0, 3], 24⟩
     (assembling a).assembly.state = .check ∧ a.sum + 232 = 0 ∧ a.sum + 231 ≠ 0 ∧ a.payload = [0, 3] ∧
       (3 : Byte).toNat < shaft.landings ∧ ¬((4 : Byte).toNat < shaft.landings)) ∧
    ((∀ kind ∈ [(33 : Byte), 34, 35, 36, 0], kind ≠ 17 ∧ kind ≠ 18 ∧ kind ≠ 19 ∧ kind ≠ 20 ∧ kind ≠ 21)) ∧
    statusRecord shaft ⟨4, 1, 0, 0, 0, 1, 0, 1⟩ = none ∧
    (let f : StatusFrame := ⟨2, 1, 0, 0, 0, 1, 0, 2⟩
     f.driveAvailable ≠ 0 ∧ f.driveAvailable ≠ 1) := by decide

/-- R20, R21: an unfinished frame is a bad frame when a marked byte comes, and so is a frame of one of the part's own kinds. -/
theorem test_bad_frames :
    ((assembling ⟨.payload, 17, 10, [1], 28⟩).receive shaft ⟨18, true, true, true⟩ =
      { assembling ⟨.header, 18, 0, [], 18⟩ with badFrames := 1 }) ∧
    ((assembling ⟨.check, 34, 1, [5], 40⟩).receive shaft ⟨216, false, false, true⟩ =
      { assembling ⟨.hunt, 0, 0, [], 0⟩ with badFrames := 1 }) := by decide

/-- A STATUS of car 0 with a mode: POWER, 380 kg, zone 3 at 1200 mm, closed, no presses, drive available. -/
def statusOf (mode : Byte) : StatusFrame := ⟨mode, 1, 380, 3, 1200, 1, 0, 1⟩

/-- The record it enters as. -/
def recordOf (mode : StatusMode) : StatusRecord := ⟨mode, .power, some 380, some 3, some 1200, .closed, 0, true⟩

theorem witness_StatusSeen :
    (statusRecord shaft (statusOf 1) = some (recordOf .inService) ∧
      statusRecord shaft (statusOf 2) = some (recordOf .stalled) ∧
      statusRecord shaft (statusOf 3) = some (recordOf .outOfService) ∧ (statusOf 1).driveAvailable = 1) ∧
    (∀ x ∈ [RescueState.normal, .confirming, .probing, .levelling, .inhibited, .unconfigured, .rescued, .releasing, .assessing,
        .ready, .failed], (site (inState x)).stateOf 0 = x ∧ (site (inState x)).powered = true) ∧
    (site (inState .releasing)).entry 0 = shaft ∧
    ((site (withLine (inState .releasing) fun l => { l with state := .alive })).car 0).line.state = .alive ∧
    ((site (inState .releasing)).car 0).line.state ≠ .alive ∧
    ((site (heldBy .position (level true))).car 0).record.heldCause = some .position ∧
    ((site (heldBy .noMethod (level true))).car 0).record.heldCause ≠ some .position ∧
    (recordOf .stalled).mode ≠ .inService ∧ (recordOf .inService).mode = .inService ∧
    (site (inState .held)).stateOf 0 = .held := by decide

theorem witness_ControllerReports :
    let s := site (withRecord (inState .driving) fun r => { r with moveId := some 255 })
    let t := site (withRecord (inState .releasing) fun r => { r with summary := ⟨none, some 3, none⟩ })
    s.powered = true ∧ ((s.car 0).record.moveId = some (255 : Byte).toNat ∧ (s.car 0).record.state = .driving) ∧
    (3 : Byte).toNat < (s.entry 0).landings ∧ ¬(4 : Byte).toNat < (s.entry 0).landings ∧
    (s.car 0).record.moveId ≠ some (0 : Byte).toNat ∧
    ((t.car 0).record.state = .releasing ∧ (t.car 0).record.summary.landing = some (3 : Byte).toNat ∧ gateOf 3 = .open) ∧
    gateOf 4 ≠ .open := by decide

/-- Car 0 in RELEASING with its line ALIVE and its tracker at a confidence. -/
def releasingAt (confidence : Nat) : CarBlock :=
  { withLine (inState .releasing) fun l => { l with state := .alive } with
    tracker := { car0.tracker with confidence := confidence } }

theorem witness_LineLost :
    let late (b : CarBlock) : CarBlock := withLine b fun l => { l with lostTimer := l.lostLimit }
    (((site (silentInSpan .normal)).car 0).line.state = .lost ∧ (State.reset.car 0).line.lostTimer < (State.reset.car 0).line.lostLimit) ∧
    (let s := site (late (inState .unconfigured))
     s.stateOf 0 = .unconfigured ∧ (s.car 0).line.state ≠ .lost ∧ (s.car 0).line.lostLimit ≤ (s.car 0).line.lostTimer) ∧
    ((site (late (inState .confirming))).stateOf 0 = .confirming ∧
      ((site (late (inState .confirming))).car 0).line.state ≠ .lost) ∧
    ((site (late (releasingAt 63))).stateOf 0 = .releasing ∧
      ((site (late (releasingAt 63))).car 0).isPlaced defaultGlobals = false) ∧
    ((site (late (releasingAt 64))).stateOf 0 = .releasing ∧
      ((site (late (releasingAt 64))).car 0).isPlaced defaultGlobals = true) := by decide

/-- R177: the line of a car in RELEASING is lost as an earlier pulse ends; the new pulse runs its full time. -/
theorem test_pulse_not_stale :
    let b : CarBlock := withInputs (withLine (releasingAt 64) fun l => { l with lostTimer := l.lostLimit }) fun i =>
      { i with zone := level true }
    let s := site { b with signals := { b.signals with unlockTimer := some 0 } }
    ∃ t u, step s = .next t ∧ t.pending = [.lostTimeout 0] ∧ step t = .next u ∧
      (u.car 0).signals.unlockTimer = some defaultGlobals.unlockPulse ∧ u.due = [] := ⟨_, _, rfl, rfl, rfl, rfl, rfl⟩

theorem witness_TransmitQueue :
    let g : PartFrame := .grant 5 .up 1 2 3
    let r : PartFrame := .rescueState .normal none
    let full : CarLine := { car0.line with queue := [g, r, g, g], overflow := some (.cancel 5) }
    let plain : CarLine := { car0.line with queue := [g, g, g, g] }
    let waiting : CarLine := { car0.line with overflow := some g }
    (site (withLine car0 fun _ => full)).powered = true ∧ full.queue.length ≤ 4 ∧
    ((car0.line.queue.length < 4 ∧ car0.line.overflow = none) ∧
      (plain.queue.drop 1).length < 4) ∧
    (4 ≤ full.queue.length ∧ full.queue = [g] ++ r :: [g, g] ∧ isRescueStateFrame r = true ∧
      ∀ x ∈ [g], isRescueStateFrame x = false) ∧
    (4 ≤ plain.queue.length ∧ plain.overflow = none ∧ ∀ x ∈ plain.queue, isRescueStateFrame x = false) ∧
    (let held : CarLine := { plain with overflow := some (.cancel 5) }
     4 ≤ held.queue.length ∧ held.overflow ≠ none ∧ ∀ x ∈ held.queue, isRescueStateFrame x = false) ∧
    (waiting.overflow.isSome = true ∧ (∀ y ∈ waiting.queue, isGrantOf 5 y = false) ∧ isGrantOf 5 g = true) ∧
    (full.queue = [] ++ g :: [r, g, g] ∧ isGrantOf 5 g = true) ∧
    (∀ x ∈ plain.queue, isGrantOf 6 x = false) := by decide

theorem witness_SentBytes :
    car0.line.transmitting = none ∧
    ({ car0.line with transmitting := some (.rescueState .held (some .position)) } : CarLine).transmitting =
      some (.rescueState .held (some .position)) := ⟨rfl, rfl⟩

/-! ## Witnesses: inputs -/

/-- Car 0 in a state, its zone reading as given. -/
def zoned (x : RescueState) (zone : Bool) : CarBlock := withInputs (inState x) fun i => { i with zone := level zone }

theorem witness_LevelsFiltered :
    State.reset.powered = true ∧ (State.reset.filter .mains).candidate ≠ true ∧
    (State.reset.filter (.zone 7)).candidate = false ∧
    ((site (zoned .normal true)).filter (.zone 0)).accepted.isSome = true ∧
    ((State.reset.filter (.chain 0)).accepted = none ∧ (State.reset.filter (.lockout 7)).accepted = none) ∧
    (State.reset.filter (.zone 0)).accepted = none ∧
    ((site (zoned .normal true)).filter (.zone 0)).accepted = some true := by decide

theorem witness_EdgeAtRest :
    (∀ x ∈ [RescueState.normal, .confirming, .unconfigured, .held, .failed, .rescued, .inhibited, .assessing, .ready],
      ((site (zoned x true)).car 0).inputs.zone.accepted = some (EdgeKind.leave == .leave) ∧
      isMoveState ((site (zoned x true)).stateOf 0) = false ∧ (site (zoned x true)).stateOf 0 = x) ∧
    (((site (zoned .releasing true)).car 0).inputs.zone.accepted = some (EdgeKind.leave == .leave) ∧
      (site (zoned .releasing true)).stateOf 0 = .releasing) ∧
    ((site (zoned .ready false)).car 0).inputs.zone.accepted = some (EdgeKind.enter == .leave) := by decide

theorem witness_EdgeInMove :
    (∀ x ∈ [RescueState.probing, .lowering, .levelling, .driving],
      ((site (zoned x true)).car 0).inputs.zone.accepted = some (EdgeKind.leave == .leave) ∧
      isMoveState ((site (zoned x true)).stateOf 0) = true ∧
      ¬(EdgeKind.leave = .enter ∧ ((site (zoned x true)).stateOf 0 = .lowering ∨ (site (zoned x true)).stateOf 0 = .probing))) ∧
    (((site (zoned .driving false)).car 0).inputs.zone.accepted = some (EdgeKind.enter == .leave) ∧
      isMoveState ((site (zoned .driving false)).stateOf 0) = true) := by decide

theorem witness_EnterEdgeLevels :
    (let s := site (withInputs (zoned .lowering false) fun i => { i with move := ⟨some .down, -1201, 1201, true, some .down⟩ })
     (s.car 0).inputs.zone.accepted = some false ∧ s.stateOf 0 = .lowering ∧ (s.car 0).inputs.move.dir = some .down) ∧
    (let s := site (withInputs (zoned .probing false) fun i => { i with move := ⟨none, 0, 0, false, some .up⟩ })
     s.stateOf 0 = .probing ∧ (s.car 0).inputs.move.travel = 0 ∧ (s.car 0).inputs.move.lastStep = some .up) ∧
    (let s := site (withInputs (zoned .probing false) fun i => { i with move := ⟨none, 0, 0, false, none⟩ })
     (s.car 0).inputs.zone.accepted = some false ∧ s.stateOf 0 = .probing ∧ (s.car 0).inputs.move.lastStep = none) := by decide

/-- R45: an ENTER edge in a probe without a counted step levels the car with a disturbed tracker. -/
theorem test_edge_without_direction :
    let b := withInputs (zoned .probing false) fun i => { i with move := ⟨none, 0, 0, false, none⟩ }
    ∃ t, exec (.zoneEdge 0 .enter) (site { b with tracker := trackerSeed shaft 3 (.seed 3 100) true }) = .next t ∧
      t.stateOf 0 = .levelling ∧ (t.car 0).tracker = ⟨[0, 0, 0, 0, 0, 0, 0], .none, 0, 0, false⟩ :=
  ⟨_, rfl, by decide +kernel, by decide +kernel⟩

/-- R62, R178: a landing that a probe reaches has no method used, whatever an earlier grant left (log 32). -/
theorem test_probe_landing_method :
    let b := withInputs (zoned .probing false) fun i => { i with move := ⟨none, 5, 0, false, some .up⟩ }
    ∃ t, exec (.zoneEdge 0 .enter) (site (withRecord b fun r => { r with summary := ⟨some .gravityUp, none, none⟩ })) = .next t ∧
      t.stateOf 0 = .levelling ∧ (t.car 0).record.summary.methodUsed = none := ⟨_, rfl, by decide +kernel, by decide +kernel⟩

theorem witness_TrackerUpdated :
    (trackerUpdate shaft defaultGlobals (trackerSeed shaft 5 (.seed 5 2000) false) .enter .down 2040).2 = false ∧
    (trackerUpdate shaft defaultGlobals (trackerSeed shaft 2 (.seed 2 75) false) .enter .down 3750).2 = true := by decide

/-- A machine whose car 0 reads its chain closed and its lockout as given. -/
def guarded (b : CarBlock) (locked : Bool) : State :=
  site (withInputs b fun i => { i with chain := level true, lockout := level locked })

theorem witness_ChainAndLockout :
    (∀ x ∈ [RescueState.assessing, .ready, .probing, .lowering, .levelling, .driving, .releasing, .normal, .failed],
      ((guarded (inState x) false).car 0).inputs.chain.accepted = some true ∧
      ((guarded (inState x) false).car 0).inputs.lockout.accepted = some false ∧
      ((guarded (inState x) false).car 0).record.state = x) ∧
    ((guarded (heldBy .noMethod (level true)) false).car 0).record.heldCause = some .noMethod ∧
    (let s := guarded (withRecord (heldBy .lockout (level true)) fun r => { r with attempts := 3 }) true
     (s.car 0).inputs.lockout.accepted = some true ∧ (s.car 0).record.state = .held ∧
       (s.car 0).record.heldCause = some .lockout ∧ (s.car 0).record.attempts = 3) ∧
    (let s := guarded (withRecord (heldBy .lockout (level true)) fun r => { r with attempts := 2 }) true
     (s.car 0).record.heldCause = some .lockout ∧ (s.car 0).record.attempts ≠ 3) ∧
    ((guarded (inState .normal) true).car 0).record.state ≠ .held := by decide

/-- Car 0 in a state with an encoder pair 00 and a move record. -/
def counting (x : RescueState) (m : MoveRecord) : CarBlock :=
  withInputs (inState x) fun i => { i with encoder := some (false, false), move := m }

theorem witness_EncoderCounts :
    (site car0).powered = true ∧ ((site car0).car 0).inputs.encoder = none ∧
    ((site (counting .normal ⟨none, 0, 0, false, none⟩)).car 0).inputs.encoder = some (false, false) ∧
    ((false, false) : Bool × Bool).1 ≠ ((true, true) : Bool × Bool).1 ∧
    ((true, false) : Bool × Bool) = (!false, false) ∧ ((false, false) : Bool × Bool) = (!true, false) ∧
    ((site (counting .probing ⟨none, 0, 0, false, none⟩)).car 0).inputs.move.armed = false ∧
    ((site (counting .levelling ⟨some .down, -5, 5, false, none⟩)).car 0).inputs.move.armed = false ∧
    -- at 1000 counts per metre a back travel of 30 mm does not exceed the reversal distance, one of 31 mm does
    ((site (counting .driving ⟨some .up, 451, 480, true, none⟩)).car 0).inputs.move.armed = true ∧
    (¬((defaultGlobals.reversal : Int) < countToMm 1000 (480 - 450)) ∧
      (defaultGlobals.reversal : Int) < countToMm 1000 (480 - 449)) ∧
    -- a lowering with a plan distance of 78 mm has a run limit of 678 mm
    (let s := site { counting .lowering ⟨some .down, -678, 678, true, none⟩ with
       planner := { car0.planner with plan := { PlanRecord.empty with distance := some 78 } } }
     (s.car 0).planner.plan.distance.getD 0 + s.globals.runMargin = 678 ∧
       countToMm 1000 678 < countToMm 1000 679 ∧ (678 : Int) < countToMm 1000 679) := by decide

/-! ## Witnesses: clocks and timers -/

theorem witness_SecondTick :
    (State.reset.powered = true ∧ State.reset.pass = none) ∧ (passing.powered = true ∧ passing.pass.isSome = true) := by decide

theorem witness_UrgencyStepped :
    (let s := site { inState .ready with planner := { car0.planner with urgency := 61439 } }
     s.powered = true ∧ s.pass = none ∧
       61440 ≤ (s.car 0).planner.urgency + min 4095 ((s.car 0).planner.weight + s.globals.defaultOcc * s.globals.kOcc)) ∧
    State.reset.pass = none ∧
    (let s : State := { passing with timedPending := true }
     s.powered = true ∧ s.pass.isSome = true ∧ s.timedPending = true) := by decide

theorem witness_PlanningViews :
    (∀ z, z < 2 * shaft.landings - 1 ∧ (z % 2 = 0 ↔ (some false : Option Bool) = some true) →
      4095 ≤ (trackerSeed shaft 2 .none false).costs.getD z 4095) ∧
    ((3 < 2 * shaft.landings - 1 ∧ (3 % 2 = 0 ↔ (none : Option Bool) = some true)) ∧
      (trackerSeed shaft 3 (.edge (.leave .down)) false).costs.getD 3 4095 < 4095) ∧
    State.reset.powered = true ∧ State.reset.pass = none := by
  refine ⟨fun z h => ?_, by decide, rfl, rfl⟩
  obtain ⟨h1, h2⟩ := h
  have : z < 7 := h1
  interval_cases z <;> first | decide | simp at h2

/-- A machine with a pass in flight over car 0 alone, which is in ASSESSING and reads its zone as given. -/
def planning (zone : Bool) (line : LineState) : State :=
  let s := site (withLine (zoned .assessing zone) fun l => { l with state := line })
  { s with pass := some ⟨.requested, [s.snapshotCar 0], s.globals, none⟩ }

/-- The plan of that pass. -/
def planned (zone : Bool) (line : LineState) : Option PlanMethod :=
  ((planning zone line).pass.bind fun p => p.cars.head?.map fun x => (planCar defaultSettings.rules p x).plan.method).join

theorem witness_PassResults :
    (planning true .alive).powered = true ∧
    (planning true .alive).pass.map (fun p => p.cars.map (·.car)) = some [0] ∧ ([0] : List Car).Nodup ∧
    (planning true .alive).stateOf 0 = .assessing ∧
    planned true .alive = some .none ∧ planned true .silent = some .none ∧ planned false .silent = some .probe ∧
    ((planning true .silent).car 0).isPlaced defaultGlobals = false ∧
    -- a car planned NONE that has left its zone since, and one without a method
    (let s := planning true .alive
     let t : State := { s with cars := s.cars.set 0 (zoned .assessing false) }
     t.stateOf 0 = .assessing ∧ (t.car 0).inputs.zone.isOn = false) ∧
    (planCar defaultSettings.rules ⟨.requested, [], defaultGlobals, none⟩
      { (site (zoned .assessing false)).snapshotCar 0 with locked := true }).plan.method = none := by decide

/-- R125, R126: the entry to ASSESSING of a car whose retry timer has run starts a requested pass that plans this car. -/
theorem test_requested_pass :
    let s := site (withRecord (inState .failed) fun r => { r with retryTimer := some 0, trappedTime := 90 })
    ∃ t, exec (.retryTimerExpiry 0) s = .next t ∧
      t.pass.map (fun a => (a.kind, a.cars.map fun x => (x.car, x.trappedTime))) = some (.requested, [(0, 90)]) :=
  ⟨_, rfl, by decide +kernel⟩

/-- R128: of the passes that wait at the end of a pass, the timed one starts, and the requested one with it. -/
theorem test_waiting_passes :
    let s : State := { planning false .silent with requestPending := true }
    (∃ t, exec .passEnd s = .next t ∧ t.pass.map (·.kind) = some .requested ∧ t.requestPending = false) ∧
    ∃ t, exec .passEnd { s with timedPending := true } = .next t ∧ t.pass.map (·.kind) = some .timed ∧
      t.requestPending = false :=
  ⟨⟨_, rfl, by decide +kernel, by decide +kernel⟩, ⟨_, rfl, by decide +kernel, by decide +kernel⟩⟩

/-- R57, R146, R147: a pass that makes a car READY wakes a converter in STANDBY. -/
theorem test_pass_wakes :
    ∃ t, exec .passEnd (supplied (planning false .silent) { Supply.fresh with belief := .absent, converter := .standby }) = .next t ∧
      t.stateOf 0 = .ready ∧ t.supply.converter = .waking ∧ t.supply.wakeTimer = some defaultGlobals.wakeLimit :=
  ⟨_, rfl, by decide +kernel, by decide +kernel, by decide +kernel⟩

/-- Car 0 in a state with its channels OPEN and started, for an opening. -/
def opened (x : RescueState) (kind : OpeningKind) (frames : Nat) (window : List Nat) (count : Int) : CarBlock :=
  { withInputs (inState x) fun i => { i with window := window, frameCount := count } with
    brake := { CarBrake.fresh with channelA := .open, channelB := .open, opening := some kind, started := true
                                   framesOpen := frames, shadowA := 48, shadowB := 48 } }

theorem witness_FrameBoundaryActs :
    ((site car0).powered = true ∧ (site car0).stateOf 0 ≠ .ready ∧ ((site car0).car 0).brake.channelA ≠ .open) ∧
    (let b := (site { car0 with brake := { CarBrake.fresh with channelA := .open } }).car 0
     b.brake.channelA = .open ∧ b.brake.started = false) ∧
    (let b := (site (opened .lowering .lowering 8 [5, 6, 7, 7, 7, 7, 7] 7)).car 0
     b.brake.channelA = .open ∧ b.brake.started = true ∧ b.brake.opening = some .lowering ∧
       53 * 1000000 / (1000 * 40 * 8) ≤ shaft.overspeed) ∧
    ((site (opened .lowering .lowering 8 [5, 6, 7, 7, 7, 7, 7] 55)).stateOf 0 = .lowering ∧
      shaft.overspeed < 101 * 1000000 / (1000 * 40 * 8)) ∧
    (let b := (site (opened .probing .probe 8 [] 0)).car 0
     b.brake.opening = some .probe ∧ min 65535 (b.brake.framesOpen + 1) ≠ defaultGlobals.probeFrames) ∧
    (let b := (site (opened .probing .probe 9 [] 0)).car 0
     b.brake.opening = some .probe ∧ min 65535 (b.brake.framesOpen + 1) = defaultGlobals.probeFrames ∧
       b.record.state = .probing) := by decide

/-- R168, R72: an overspeed locks both channels and fails the car, with CAR_FAILED on both ports. -/
theorem test_overspeed :
    ∃ t, exec .frameBoundary (site (opened .lowering .lowering 8 [5, 6, 7, 7, 7, 7, 7] 55)) = .next t ∧
      t.stateOf 0 = .failed ∧ (t.car 0).brake.channelA = .locked ∧ (t.car 0).brake.channelB = .locked ∧
      ⟨.carFailed, some 0⟩ ∈ t.station.notices ∧ ⟨.carFailed, some 0⟩ ∈ t.panel.notices :=
  ⟨_, rfl, by decide +kernel, by decide +kernel, by decide +kernel, by decide +kernel, by decide +kernel⟩

/-- Car 0 in a state with every timer of its record at its last millisecond. -/
def timing (x : RescueState) (age : Option Nat) : CarBlock :=
  withRecord (inState x) fun r => { r with
    confirmTimer := some 1, retryTimer := some 1, ackTimer := some 1, moveTimer := some 1, dwellTimer := some 1
    slipTimer := some 1, gateTimer := some 1, motionAge := age }

theorem witness_RecordTimers :
    (∀ x ∈ [RescueState.confirming, .failed, .driving, .releasing, .levelling],
      let r := ((site (timing x none)).car 0).record
      r.state = x ∧ r.confirmTimer.isSome = true ∧ r.retryTimer.isSome = true ∧ r.ackTimer.isSome = true ∧
      r.moveTimer.isSome = true ∧ r.gateTimer.isSome = true ∧ r.dwellTimer.isSome = true ∧ r.slipTimer.isSome = true) ∧
    (((site (timing .levelling (some 499))).car 0).record.motionAge = some 499 ∧ 499 < defaultGlobals.stopDwell) ∧
    (((site (timing .levelling (some 500))).car 0).record.motionAge = some 500 ∧ ¬500 < defaultGlobals.stopDwell) ∧
    (let r := ((site car0).car 0).record
     r.confirmTimer = none ∧ r.retryTimer = none ∧ r.ackTimer = none ∧ r.moveTimer = none ∧ r.dwellTimer = none ∧
       r.slipTimer = none ∧ r.gateTimer = none) := by decide

/-- Car 0 with signals. -/
def signalling (x : CarSignals) : State := site { car0 with signals := x }

theorem witness_SignalTimers :
    (let s := signalling { CarSignals.fresh with unlockTimer := some 1, unlockOutput := true }
     s.powered = true ∧ (s.car 0).signals.unlockTimer.isSome = true) ∧
    (let x := CarSignals.fresh
     ({ x with reassurance := some 1, silenced := true }.silenced = true) ∧
     ({ x with reassurance := some 1 }.silenced = false ∧ { x with reassurance := some 1 }.playing = none) ∧
     ({ x with reassurance := some 1, playing := some ⟨.release, 4, 1, 250, 250, true⟩ }.playing.isSome = true)) ∧
    (let p : Playing := ⟨.moveStart, 1, 1, 250, 250, false⟩
     let q : Playing := ⟨.moveStart, 2, 1, 250, 250, true⟩
     p.segment < 2 ∧ 2 ≤ q.segment ∧ q.segment ≤ 2) ∧
    (let k : CarBrake := { CarBrake.fresh with channelA := .open, channelB := .open, activeA := 99, activeB := 0 }
     k.channelA = .open ∧ k.activeA < 100 ∧ k.channelB = .open ∧ k.activeB < 100) := by decide

/-! ## Witnesses: supply -/

/-- A machine with a mains input and a belief. -/
def mains (b : CarBlock) (accepted : Option Bool) (belief : MainsBelief) (x : ConverterState) : State :=
  { supplied (site b) { Supply.fresh with belief := belief, converter := x, stableTimer := some 1 } with
    mainsInput := ⟨accepted.getD false, accepted, none⟩ }

theorem witness_MainsBelieved :
    ((mains car0 (some false) .absent .on).powered = true ∧ (mains car0 (some false) .absent .on).mainsInput.accepted = some false) ∧
    (mains car0 none .unknown .off).mainsInput.accepted = none ∧
    ((mains (inState .lowering) (some true) .present .off).mainsInput.accepted = some true ∧
      (mains (inState .lowering) (some true) .present .off).supply.belief = .present ∧
      (mains (inState .lowering) (some true) .present .off).demand = true) ∧
    ((mains car0 (some true) .present .off).supply.converter = .off ∧ (mains car0 (some true) .present .off).demand = false) ∧
    (({ mains (inState .ready) (some true) .present .off with converterInput := level true }).converterInput.accepted = some true ∧
      ({ mains (inState .ready) (some true) .present .off with converterInput := level true }).demand = true) ∧
    (mains (inState .ready) (some true) .present .off).converterInput.accepted ≠ some true ∧
    State.reset.supply.stableTimer = none ∧
    ((mains car0 (some true) .absent .on).supply.stableTimer.isSome = true ∧
      (mains car0 (some true) .absent .on).supply.belief ≠ .present) ∧
    (mains car0 (some true) .unknown .off).supply.belief = .unknown ∧
    ((mains car0 (some true) .absent .on).mainsInput.accepted = some true ∧
      (mains car0 (some true) .absent .on).supply.belief = .absent) ∧
    ((mains car0 (some false) .present .off).supply.stableTimer.isSome = true ∧
      (mains car0 (some false) .present .off).supply.belief = .present) ∧
    (mains (inState .lowering) (some true) .present .off).flying = [0] ∧
    ((mains (inState .driving) (some true) .absent .on).flying = [0] ∧
      ((mains (inState .driving) (some true) .absent .on).car 0).assessedState = (.assessing, none)) := by decide

theorem witness_ConverterEvents :
    ((converter car0 .standby 0 (some false)).converterInput.accepted = some false ∧
      (converter car0 .standby 0 (some false)).supply.converter ≠ .waking) ∧
    ((converter (inState .ready) .waking 2 none).converterInput.accepted = none ∧
      (converter (inState .ready) .waking 2 none).supply.converter = .waking) ∧
    ((converter car0 .standby 0 (some true)).converterInput.accepted = some true ∧
      (converter car0 .standby 0 (some true)).supply.converter ≠ .on) ∧
    ((converter (inState .driving) .on 0 (some true)).converterInput.accepted = some true ∧
      (converter (inState .driving) .on 0 (some true)).supply.converter = .on) ∧
    ((converter car0 .waking 2 none).supply.wakeTimer.isSome = true ∧ 2 ≤ (converter car0 .waking 2 none).supply.wakeFailures) ∧
    ((converter car0 .waking 1 none).supply.wakeFailures < 2 ∧ (converter car0 .waking 1 none).demand = false) ∧
    ((converter (inState .ready) .waking 1 (some false)).demand = true ∧
      (converter (inState .ready) .waking 1 (some false)).converterInput.accepted ≠ some true) ∧
    ((converter car0 .on 0 (some true)).supply.standbyTimer.isSome = true ∧ (converter car0 .on 0 (some true)).demand = false ∧
      (converter car0 .on 0 (some true)).powered = true) ∧
    ((converter (inState .ready) .waking 1 (some true)).demand = true ∧
      (converter (inState .ready) .waking 1 (some true)).converterInput.accepted = some true) ∧
    ((supplied (site car0) { Supply.fresh with converter := .on }).supply.standbyTimer = none ∧
      (supplied (site car0) { Supply.fresh with converter := .waking }).supply.wakeTimer = none ∧
      (converter car0 .off 0 none).supply.converter ≠ .waking ∧ (converter car0 .off 0 none).supply.converter ≠ .on) ∧
    ((converter (inState .levelling) .on 0 (some true)).demand = true ∧
      (converter (inState .levelling) .on 0 (some true)).supply.standbyTimer.isSome = true) := by decide

/-- R37: a first acceptance as not ready is no loss of the converter. -/
theorem test_first_not_ready :
    ∃ t, exec (.firstLevelAcceptance .converter false) (converter (inState .lowering) .on 0 none) = .next t ∧
      t.supply.converter = .on ∧ t.stateOf 0 = .lowering ∧ t.converterInput.accepted = some false :=
  ⟨_, rfl, by decide +kernel, by decide +kernel, by decide +kernel⟩

/-- R148, R154: the ready level that ends a wake makes the selection that grants a READY car. -/
theorem test_ready_grants :
    ∃ t, exec .converterReady { supplied (site (waiting 0 .probe 300 false)) { Supply.fresh with
        belief := .absent, converter := .waking, wakeTimer := some 1, sampled := true, usable := some 300 } with
        converterInput := level false } = .next t ∧
      t.supply.converter = .on ∧ t.stateOf 0 = .probing ∧ (t.car 0).slots = ⟨true, false, some 300⟩ :=
  ⟨_, rfl, by decide +kernel, by decide +kernel, by decide +kernel⟩

/-! ## Witnesses: encodings and invariants -/

theorem witness_PayloadsRoundTrip :
    validParams { shaft with overspeed := 170 } = true ∧ validMap { shaft with halfWidth := 150 } = true ∧
    validGlobals defaultGlobals = true ∧ validSoc [⟨44000, 0⟩, ⟨52000, 30000⟩] = true ∧
    ∀ n ∈ ([⟨.carStalled, some 7⟩, ⟨.settingsInvalid, none⟩] : List Notice), n.car.isSome = carriesCar n.kind := by decide

/-- A car that is LOWERING under its grant: it holds a brake slot and its estimate. -/
def lowering : CarBlock :=
  { opened .lowering .lowering 0 [] 0 with
    slots := ⟨true, false, some 15⟩
    planner := { car0.planner with plan := { PlanRecord.empty with estimate := some 15 } } }

theorem witness_MoveAccountsKept :
    MoveAccounts (site lowering).toPart ∧
    step (site lowering) = .next ⟨(site lowering).toPart.passMs, []⟩ :=
  ⟨by unfold MoveAccounts CarBlock.accounted; decide, rfl⟩

theorem witness_OutputsGuardedKept :
    OutputsGuarded (site lowering).toPart ∧ (site lowering).powered = true ∧
    ((site lowering).entry 0).polarityA = .activeHigh ∧
    (let b := { lowering with signals := { CarSignals.fresh with lamp := .flash, playing := some ⟨.moveStart, 0, 1, 250, 250, true⟩ } }
     (supplied (site b) { Supply.fresh with converter := .on, enable := true }).supply.enable = true ∧
     b.signals.lamp = .flash ∧ ∀ x, b.signals.playing = some x → x.segment % 2 = 0) ∧
    OutputsFollow (site car0).toPart ∧ step { site car0 with pending := [.lampFlashPhase] } =
      .next { site car0 with time := { (site car0).time with flashLit := false } } :=
  ⟨by unfold OutputsGuarded; decide, by decide, by decide, ⟨by decide, by decide, by rintro x ⟨⟩; decide⟩,
    ⟨by decide, fun c => ⟨by revert c; decide, fun x h => by
      have silent : ∀ c, ((site car0).car c).signals.playing = none := by decide
      simp [silent] at h⟩⟩, rfl⟩

/-- R174: the gate-unlock, lamp and tone outputs are high when active and low when inactive; R180: a FLASH lamp is dark out
of the lit phase. -/
theorem test_signal_pins :
    let s := site { car0 with signals := { CarSignals.fresh with unlockOutput := true, lamp := .flash } }
    s.unlockPin 0 = some true ∧ s.lampPin 0 = some false ∧ s.tonePin 0 = some false ∧
    ({ s with time := { s.time with flashLit := true } }).lampPin 0 = some true ∧
    ({ s with powered := false }).unlockPin 0 = none := by decide

/-- R163: an OPEN channel inside its share drives its output only with the chain closed and the lockout off. -/
theorem test_brake_output :
    let b := { lowering with brake := { lowering.brake with insideA := true } }
    let on := withInputs b fun i => { i with chain := level true, lockout := level false }
    on.brakeOutput .a = true ∧
    (withInputs on fun i => { i with chain := ⟨true, none, none⟩ }).brakeOutput .a = false ∧
    (site on).toPart.brakePin 0 .a = some true := by decide

theorem witness_NoticesOrderedKept :
    NoticesOrdered State.reset.toPart ∧
    NoticeSetOrdered [⟨.carStalled, some 0⟩, ⟨.carStalled, some 7⟩, ⟨.settingsInvalid, none⟩] := by
  unfold NoticesOrdered NoticeSetOrdered; decide

theorem witness_UrgencyBoundKept :
    let s := site { inState .ready with planner := { car0.planner with urgency := 61439 } }
    (∀ c, (s.car c).planner.urgency < 61440) ∧ ∃ t, step { s with pending := [.oneSecondTick] } = .next t := by
  refine ⟨by decide, _, rfl⟩

end Sys2Proof.Tests
end

