-- ==== Sys2Proof/Proofs/CarRequests.lean ====
section
/-!
PROOFS. Requests that name a car (R184, R185), from the part their handling starts on to the part that has answered: a
handling that is refused, one that touches its own car alone, and one that is a turn of the car (`CarTurn`).
-/

namespace Sys2Proof.Machine

/-! ## The handling of a request that is given -/

/-- Test 4 of R185 reads the states of the cars, which the taking of the request leaves. -/
@[simp] theorem Part.judgeCar_beginHandling (p : Part) (q : Port) (code : Byte) (body payload : List Byte) (code' : Byte) :
    (p.beginHandling q code body).judgeCar code' payload = p.judgeCar code' payload := by
  simp only [Part.judgeCar, Part.beginHandling_stateOf]

@[simp] theorem Part.beginHandling_globals (p : Part) (q : Port) (code : Byte) (body : List Byte) :
    (p.beginHandling q code body).globals = p.globals := p.modPort_globals q _

/-- The request of a car that passes all tests of R185 runs its command's handling for that car. -/
theorem runCarRequest_of_given {s : State} {q : Port} {code : Byte} {body rest : List Byte} {c : Car}
    (g : s.givenCar q code body c rest) (h : Car → List Byte → Part → Answer) :
    runCarRequest s q code body h = .next (s.withPart
      (settleDemand s.toPart ((h c rest (s.toPart.beginHandling q code body)).respond q))) := by
  obtain ⟨payload, ⟨takes, frame⟩, car, rfl⟩ := g
  unfold runCarRequest runRequest
  rw [runPart_powered takes.1, takeRequest_of_takes takes]
  simp only [frame, Part.judgeCar_beginHandling, car]
  rfl

/-- A request that its command's handling refuses is answered with the result, and nothing else changes (R185). -/
theorem runCarRequest_of_refused {s : State} {q : Port} {code : Byte} {body rest : List Byte} {c : Car} {r : ResultCode}
    {h : Car → List Byte → Part → Answer} (g : s.givenCar q code body c rest)
    (e : h c rest (s.toPart.beginHandling q code body) = (s.toPart.beginHandling q code body).refuse r) :
    runCarRequest s q code body h = .next (s.answered s.toPart q r []) := by
  rw [runCarRequest_of_given g, e, Part.refuse, respond_unchanged, settleDemand_same (Part.responded_demand _ _ _ _)]
  rfl

/-! ## The response at the end of the handling

The response writes the buffer of its port alone, so that what the handling has done to the rest stands. -/

section
variable (p : Part) (q : Port) (r : ResultCode) (payload : List Byte)

@[simp] theorem respond_car (c : Car) : (Answer.respond ⟨p, r, payload⟩ q).car c = p.car c := p.modPort_car c q _

@[simp] theorem respond_stateOf (c : Car) : (Answer.respond ⟨p, r, payload⟩ q).stateOf c = p.stateOf c := by
  unfold Part.stateOf; rw [respond_car]

theorem respond_keepsPlans : KeepsPlans p (Answer.respond ⟨p, r, payload⟩ q) :=
  ⟨p.modPort_pass q _, p.modPort_requestPending q _, p.modPort_supply q _⟩

@[simp] theorem respond_notices (port : Port) :
    ((Answer.respond ⟨p, r, payload⟩ q).port port).notices = (p.port port).notices := by
  simp only [Answer.respond, Part.modPort_port]; split
  · next h => rw [h]
  · rfl

@[simp] theorem respond_mask (port : Port) : ((Answer.respond ⟨p, r, payload⟩ q).port port).mask = (p.port port).mask := by
  simp only [Answer.respond, Part.modPort_port]; split
  · next h => rw [h]
  · rfl

@[simp] theorem respond_passOf (kind : PassKind) : (Answer.respond ⟨p, r, payload⟩ q).passOf kind = p.passOf kind := by
  cases q <;> rfl

end

section
variable {c : Car} {l : List Notice} {p p' : Part} (q : Port) (r : ResultCode) (payload : List Byte)

theorem KeepsRest.respond (h : KeepsRest p p') :
    KeepsRest (Answer.respond ⟨p, r, payload⟩ q) (Answer.respond ⟨p', r, payload⟩ q) := by
  obtain ⟨h1, h2, h3, h4, h5, h6, h7, h8, h9, h10, h11, station, panel⟩ := h
  cases q
  · exact ⟨h1, h2, h3, h4, h5, h6, h7, h8, h9, h10, h11,
      congrArg (fun x : PortState => { x with buffer := .ready r payload }) station, panel⟩
  · exact ⟨h1, h2, h3, h4, h5, h6, h7, h8, h9, h10, h11, station,
      congrArg (fun x : PortState => { x with buffer := .ready r payload }) panel⟩

theorem PassKept.respond (h : PassKept p p') :
    PassKept (Answer.respond ⟨p, r, payload⟩ q) (Answer.respond ⟨p', r, payload⟩ q) := by
  unfold PassKept at h ⊢
  simpa only [(respond_keepsPlans _ q r payload).pass, (respond_keepsPlans _ q r payload).requestPending] using h

theorem PassAsked.respond (h : PassAsked p p') :
    PassAsked (Answer.respond ⟨p, r, payload⟩ q) (Answer.respond ⟨p', r, payload⟩ q) := by
  unfold PassAsked at h ⊢
  simpa only [(respond_keepsPlans _ q r payload).pass, (respond_keepsPlans _ q r payload).requestPending, respond_passOf]
    using h

/-- A response leaves the pass in flight and its waiting requests. -/
theorem passKept_responded : PassKept p (p.responded q r payload) := ⟨p.modPort_pass q _, p.modPort_requestPending q _⟩

theorem PassKept.trans {p p' p'' : Part} (h : PassKept p p') (k : PassKept p' p'') : PassKept p p'' :=
  ⟨k.1.trans h.1, k.2.trans h.2⟩

/-- The selection that an event of a car makes reads no response buffer (R154, R156). -/
theorem alike_handedOn_respond (p : Part) {b : CarBlock} (hb : b.record.state ≠ .ready) :
    Alike c [] ((Answer.respond ⟨p, r, payload⟩ q).handedOn c b) (p.handedOn c b) := by
  have alike : Alike c [] ((Answer.respond ⟨p, r, payload⟩ q).modCar c fun _ => b) (p.modCar c fun _ => b) := by
    have ports (x : Part) (port : Port) : (x.modCar c fun _ => b).port port = x.port port := by cases port <;> rfl
    refine ⟨p.modPort_config q _, p.modPort_supply q _, fun d hd => ?_, ?_, fun port => ?_, fun port n => ?_⟩
    · simp [hd]
    · simp
    · rw [ports, ports, respond_mask]
    · rw [ports, ports, respond_notices]; simp
  unfold Part.handedOn
  rw [respond_stateOf]
  split
  · exact alike.select (by simpa [Part.stateOf] using hb) (by simpa [Part.stateOf] using hb)
  · exact alike

/-- A turn of a car is a turn of the part that has answered, too. -/
theorem CarTurn.respond (t : CarTurn c l p p') (hr : p'.stateOf c ≠ .ready) :
    CarTurn c l (Answer.respond ⟨p, r, payload⟩ q) (Answer.respond ⟨p', r, payload⟩ q) := by
  have alike := alike_handedOn_respond (c := c) q r payload p (b := p'.car c) hr
  refine ⟨t.rest.respond q r payload, fun d hd => ?_, ?_, fun port n => ?_⟩
  · rw [respond_car, respond_car, t.cars d hd, alike.cars d hd]
  · rw [(respond_keepsPlans p' q r payload).supply, (respond_keepsPlans p q r payload).supply, t.supply]
  · rw [respond_notices, respond_mask, respond_car, t.notices port n, alike.notices port n]; simp

end

/-! ## What an accepted request leaves standing -/

/-- The judging of demand reads of the part before the command only whether it had demand (R146). -/
theorem settleDemand_before {p p' : Part} (h : p'.demand = p.demand) (q : Part) : settleDemand p' q = settleDemand p q := by
  rw [settleDemand_eq, settleDemand_eq, h]

/-- A touch of one car that neither makes nor ends its demand leaves demand (R146). -/
theorem TouchesOnly.demand {c : Car} {p q : Part} (h : TouchesOnly c p q)
    (k : isDemandState (q.stateOf c) = isDemandState (p.stateOf c)) : q.demand = p.demand :=
  demand_congr fun d => by
    by_cases hd : d = c
    · rw [hd, k]
    · rw [h.stateOf hd]

section
variable {s : State} {q : Port} {code : Byte} {body rest : List Byte} {c : Car} {h : Car → List Byte → Part → Answer}
  {a : Part}

/-- An accepted request whose handling touches its own car alone, offers no pair and leaves demand: `b` is the car as the
handling leaves it. -/
theorem runCarRequest_onlyCar {b : CarBlock} (g : s.givenCar q code body c rest)
    (e : h c rest (s.toPart.beginHandling q code body) = a.accept)
    (t : TouchesOnly c (s.toPart.beginHandling q code body) a)
    (ports : a.station = (s.toPart.beginHandling q code body).station ∧ a.panel = (s.toPart.beginHandling q code body).panel)
    (hb : a.car c = b) (k : isDemandState b.record.state = isDemandState (s.stateOf c)) :
    ∃ u, runCarRequest s q code body h = .next u ∧ u.car c = b ∧
      OnlyCar c (s.responded q .ok []) u.toPart ∧ PassKept s.toPart u.toPart := by
  subst hb
  have demand : (Answer.respond ⟨a, .ok, []⟩ q).demand = s.demand := by
    rw [demand_congr (p := a) fun d => by rw [respond_stateOf], t.demand (by rw [Part.beginHandling_stateOf]; exact k)]
    exact demand_congr fun d => by rw [Part.beginHandling_stateOf]
  refine ⟨_, runCarRequest_of_given g h, ?_⟩
  rw [e, Part.accept, settleDemand_same demand, ← respond_unchanged s.toPart q code body .ok []]
  refine ⟨respond_car a q .ok [] c, ⟨t.rest.respond q .ok [], fun d hd => ?_, ?_, ?_⟩, ?_⟩
  · exact (respond_car a q .ok [] d).trans ((t.cars d hd).trans (respond_car _ q .ok [] d).symm)
  · exact (respond_keepsPlans a q .ok []).supply.trans
      (t.plans.supply.trans (respond_keepsPlans _ q .ok []).supply.symm)
  · obtain ⟨hs, hp⟩ := ports
    cases q
    · exact ⟨congrArg (fun x : PortState => { x with buffer := .ready .ok [] }) hs, hp⟩
    · exact ⟨hs, congrArg (fun x : PortState => { x with buffer := .ready .ok [] }) hp⟩
  · have kept := t.passKept.respond q .ok []
    rw [respond_unchanged] at kept
    exact (passKept_responded q .ok []).trans kept

/-- An accepted request whose handling is a turn of its car that makes no demand. -/
theorem runCarRequest_event {l : List Notice} (g : s.givenCar q code body c rest)
    (e : h c rest (s.toPart.beginHandling q code body) = a.accept)
    (t : CarTurn c l (s.toPart.beginHandling q code body) a) (k : isDemandState (a.stateOf c) = false) :
    ∃ u, runCarRequest s q code body h = .next u ∧ u.car c = a.car c ∧ CarEvent c l (s.responded q .ok []) u.toPart ∧
      (PassKept (s.toPart.beginHandling q code body) a → PassKept s.toPart u.toPart) ∧
      (PassAsked (s.toPart.beginHandling q code body) a → PassAsked s.toPart u.toPart) := by
  have ready : a.stateOf c ≠ .ready := by intro hs; rw [hs] at k; exact absurd k (by decide)
  have answered := t.respond q .ok [] ready
  have base : PassKept s.toPart (s.responded q .ok []) := passKept_responded q .ok []
  rw [respond_unchanged] at answered
  obtain ⟨event, own, kept, asked⟩ := answered.event (by rw [respond_stateOf, k]; simp)
  rw [settleDemand_before (Part.responded_demand s.toPart q .ok [])] at event own kept asked
  refine ⟨_, runCarRequest_of_given g h, ?_⟩
  rw [e, Part.accept]
  refine ⟨own.trans (respond_car a q .ok [] c), event, fun w => ?_, fun w => ?_⟩
  · have w := w.respond q .ok []
    rw [respond_unchanged] at w
    exact base.trans (kept w)
  · have w := w.respond q .ok []
    rw [respond_unchanged] at w
    exact (asked w).of_kept base

/-- The pass of an entry to ASSESSING, carried over to parts that pass both of its cases on. -/
theorem CarBlock.AssessedPass.imp {b : CarBlock} {p p' q q' : Part} (h : b.AssessedPass p p')
    (kept : PassKept p p' → PassKept q q') (asked : PassAsked p p' → PassAsked q q') : b.AssessedPass q q' := by
  unfold CarBlock.AssessedPass at h ⊢
  split at h
  · next k => rw [if_pos k]; exact kept h
  · next k => rw [if_neg k]; exact asked h

/-- An accepted request that sends its car to ASSESSING (R56), after updates of the car that leave its state: `b` is the
car as they leave it. -/
theorem runCarRequest_toAssessing {b : CarBlock} (g : s.givenCar q code body c rest)
    (e : h c rest (s.toPart.beginHandling q code body) = (a.change c (·.toAssessing c)).accept)
    (pre : Prelude c [] (s.toPart.beginHandling q code body) a) (hb : a.car c = b) :
    ∃ u, runCarRequest s q code body h = .next u ∧ u.car c = b.assessed s.globals ∧
      CarEvent c (b.assessedNotices c) (s.responded q .ok []) u.toPart ∧ b.AssessedPass s.toPart u.toPart := by
  subst hb
  obtain ⟨turn, own, pass⟩ := carTurn_toAssessing pre
  obtain ⟨moves, ready, -⟩ := (a.car c).assessedState_rest
  have state : (a.change c (·.toAssessing c)).stateOf c = (a.car c).assessedState.1 := by
    unfold Part.stateOf; rw [own]; rfl
  obtain ⟨u, run, car, event, kept, asked⟩ := runCarRequest_event g e turn (by
    rw [state]; simp [isDemandState, moves, ready])
  have globals : a.globals = s.globals := by
    rw [show a.globals = (s.toPart.beginHandling q code body).globals by unfold Part.globals; rw [pre.touches.rest.config],
      Part.beginHandling_globals]
  exact ⟨u, run, by rw [car, own, globals], event, pass.imp kept asked⟩

end

end Sys2Proof.Machine
end

