-- ==== Sys2Proof/Proofs/CarRescueTable.lean ====
section
/-!
PROOFS. The Car Rescue Table: RESTORE_CAR with the stall condition (R53, R80), and CLEAR_FAILED (R74).
-/

namespace Sys2Proof.Machine

/-! ## The stall condition and the entry to NORMAL -/

/-- The stall condition holds on an ALIVE line by the last mode, on a LOST one by the zone level, and else not (R53). -/
theorem CarBlock.stalled_iff (b : CarBlock) : b.stalled = true ↔
    (b.line.state = .alive ∧ ∃ x, b.line.lastStatus = some x ∧ x.mode = .stalled) ∨
    (b.line.state = .lost ∧ b.inputs.zone.accepted = some false) := by
  unfold CarBlock.stalled
  cases b.line.state with
  | silent => simp
  | alive => simp [Option.any_eq_true]
  | lost => simp [LevelFilter.isOff]

@[simp] theorem CarBlock.returned_state (b : CarBlock) (g : Globals) : (b.returned g).record.state = .normal := rfl

@[simp] theorem CarBlock.returned_stalled (b : CarBlock) (g : Globals) : (b.returned g).stalled = b.stalled := rfl

/-- A car in NORMAL without the stall condition stands when it is judged (R53). -/
theorem CarBlock.judged_of_normal {b : CarBlock} (g : Globals) (h : b.record.state = .normal) (k : b.stalled = false) :
    b.judged g = b := by simp [CarBlock.judged, h, k]

/-- An entry to NORMAL from a state that holds nothing of the Arbiter, with the judging of the stall condition (R71). -/
theorem Part.toNormal_own {p : Part} {c : Car} (h : isMoveState (p.stateOf c) = false) :
    (p.toNormal c).car c = ((p.car c).returned p.globals).judged p.globals := by
  unfold Part.toNormal
  rw [Part.judgeStall_own, p.resetToNormal_own c h]
  rfl

/-- An entry to NORMAL offers no pair. -/
theorem Part.toNormal_ports (p : Part) (c : Car) :
    (p.toNormal c).station = p.station ∧ (p.toNormal c).panel = p.panel := by
  have judge (x : Part) : (x.judgeStall c).station = x.station ∧ (x.judgeStall c).panel = x.panel := by
    simp only [Part.judgeStall]; split
    · exact ⟨rfl, rfl⟩
    · split <;> exact ⟨rfl, rfl⟩
  exact judge (p.resetToNormal c)

/-! ## RESTORE_CAR (R80) -/

section
variable {s : State} {q : Port} {body rest : List Byte} {c : Car}

/-- RESTORE_CAR of an INHIBITED car under the stall condition (R80, R56). -/
theorem execRestoreCar_stalled (g : s.givenCar q 41 body c rest) (hs : s.stateOf c = .inhibited)
    (hc : (s.car c).stalled = true) :
    ∃ t, execRestoreCar q body s = .next t ∧ t.car c = (s.car c).assessed s.globals ∧
      CarEvent c ((s.car c).assessedNotices c) (s.responded q .ok []) t.toPart ∧
      (s.car c).AssessedPass s.toPart t.toPart :=
  runCarRequest_toAssessing g (a := s.toPart.beginHandling q 41 body) (by simp [hs, hc]) (.refl c _)
    (Part.beginHandling_car _ _ _ _ _)

/-- RESTORE_CAR of an INHIBITED car without the stall condition: NORMAL, where the judging of R71 finds none (R80, R71). -/
theorem execRestoreCar_returned (g : s.givenCar q 41 body c rest) (hs : s.stateOf c = .inhibited)
    (hc : (s.car c).stalled = false) :
    ∃ t, execRestoreCar q body s = .next t ∧ t.car c = (s.car c).returned s.globals ∧
      OnlyCar c (s.responded q .ok []) t.toPart ∧ PassKept s.toPart t.toPart := by
  have own : ((s.toPart.beginHandling q 41 body).toNormal c).car c = (s.car c).returned s.globals := by
    rw [Part.toNormal_own (by rw [Part.beginHandling_stateOf, hs]; rfl), Part.beginHandling_car, Part.beginHandling_globals,
      CarBlock.judged_of_normal _ rfl (by rw [CarBlock.returned_stalled, hc])]
  exact runCarRequest_onlyCar g (by simp [hs, hc]) (touchesOnly_toNormal _ c) (Part.toNormal_ports _ c) own
    (by rw [hs]; rfl)

/-- RESTORE_CAR of any other car changes nothing (R80). -/
theorem execRestoreCar_refused (g : s.givenCar q 41 body c rest) (hs : s.stateOf c ≠ .inhibited) :
    execRestoreCar q body s = .next (s.answered s.toPart q .notAllowed []) :=
  runCarRequest_of_refused g (by simp [hs])

end

/-- Settles O24: the stall condition by the state of the line; RESTORE_CAR by the state of its car and the condition. -/
theorem carRestored : Obligations.CarRestored := by
  unfold Obligations.CarRestored
  refine ⟨CarBlock.stalled_iff, fun s q body c rest g => ⟨fun hs hc => ?_, fun hs hc => ?_, fun hs => ?_⟩⟩
  · obtain ⟨t, run, car, event, pass⟩ := execRestoreCar_stalled g hs hc
    exact ⟨t, run, car, by rw [car]; rfl, by rw [car]; rfl, event, pass⟩
  · exact execRestoreCar_returned g hs hc
  · exact execRestoreCar_refused g hs

/-! ## CLEAR_FAILED (R74) -/

/-- A car as CLEAR_FAILED hands it to the entry to ASSESSING: no attempts, and no channel LOCKED (R74, R171). -/
def CarBlock.cleared (b : CarBlock) : CarBlock :=
  { b with record := { b.record with attempts := 0 }, brake := b.brake.unlock }

theorem unlockChannel_eq (x : ChannelState) : unlockChannel x = if x = .locked then .closed else x := by
  cases x <;> rfl

/-- The retry timer of a FAILED car stops as the car leaves its state (R73), whatever it reads before. -/
theorem CarBlock.assessed_retryTimer (b : CarBlock) (g : Globals) (t : Option Nat) (h : b.record.state = .failed) :
    ({ b with record := { b.record with retryTimer := t } } : CarBlock).assessed g = b.assessed g := by
  simp [CarBlock.assessed, CarBlock.moved, CarBlock.assessedState, h]

section
variable {s : State} {q : Port} {body rest : List Byte} {c : Car}

/-- CLEAR_FAILED of a FAILED car (R74, R56). -/
theorem execClearFailed_failed (g : s.givenCar q 44 body c rest) (hs : s.stateOf c = .failed) :
    ∃ t, execClearFailed q body s = .next t ∧ t.car c = (s.car c).cleared.assessed s.globals ∧
      CarEvent c ((s.car c).cleared.assessedNotices c) (s.responded q .ok []) t.toPart ∧
      (s.car c).cleared.AssessedPass s.toPart t.toPart :=
  have touches := (touchesOnly_modRecord (s.toPart.beginHandling q 44 body) c fun r => { r with attempts := 0 }).trans
    (touchesOnly_modBrake _ c (·.unlock))
  runCarRequest_toAssessing g (by simp [hs]) ⟨touches, by simp [Part.stateOf], .of_eq rfl rfl⟩
    (by simp [CarBlock.cleared])

/-- CLEAR_FAILED of any other car changes nothing (R74). -/
theorem execClearFailed_refused (g : s.givenCar q 44 body c rest) (hs : s.stateOf c ≠ .failed) :
    execClearFailed q body s = .next (s.answered s.toPart q .notAllowed []) :=
  runCarRequest_of_refused g (by simp [hs])

end

/-- Settles O25: CLEAR_FAILED by the state of its car; the retry timer stops with the exit from FAILED. -/
theorem failedCleared : Obligations.FailedCleared := by
  unfold Obligations.FailedCleared
  refine fun s q body c rest g => ⟨fun hs => ?_, fun hs => execClearFailed_refused g hs⟩
  obtain ⟨t, run, car, event, pass⟩ := execClearFailed_failed g hs
  refine ⟨t, run, ?_, event, pass⟩
  rw [car, ← (s.car c).cleared.assessed_retryTimer s.globals none hs]
  simp only [CarBlock.cleared, CarBrake.unlock, unlockChannel_eq]

end Sys2Proof.Machine
end

