-- ==== Sys2Proof/Proofs/StateOfCharge.lean ====
section
/-!
PROOFS. The state of charge (R144). A valid table rises from each point to every later one (R10), so the search of
`chargeFrom` passes every point up to the one at or below the sample, and stops there.
-/

namespace Sys2Proof.Machine

/-! ## The points of a valid table -/

/-- A point before another in a table: a smaller voltage and no larger energy (R10). -/
def Precedes (a b : SocPoint) : Prop := a.voltage < b.voltage ∧ a.energy ≤ b.energy

theorem Precedes.trans {a b c : SocPoint} (h : Precedes a b) (k : Precedes b c) : Precedes a c :=
  ⟨h.1.trans k.1, h.2.trans k.2⟩

theorem risingSoc_iff_isChain (t : List SocPoint) : risingSoc t = true ↔ t.IsChain Precedes := by
  fun_induction risingSoc t with
  | case1 a b rest ih => simp [ih, Precedes]
  | case2 t short =>
    match t, short with
    | [], _ => simp
    | [_], _ => simp
    | a :: b :: rest, short => exact (short a b rest rfl).elim

theorem pairwise_of_risingSoc {t : List SocPoint} (h : risingSoc t = true) : t.Pairwise Precedes :=
  letI : Trans Precedes Precedes Precedes := ⟨Precedes.trans⟩
  ((risingSoc_iff_isChain t).mp h).pairwise

/-- What R144 takes of R10: the points of a valid table rise, and their energies are 16-bit values. -/
theorem points_of_validSoc {t : List SocPoint} (h : validSoc t = true) :
    t.Pairwise Precedes ∧ ∀ p ∈ t, p.energy ≤ 65535 := by
  simp only [validSoc, inRange, Bool.and_eq_true, decide_eq_true_eq, List.all_eq_true] at h
  obtain ⟨⟨-, ranges⟩, rising⟩ := h
  exact ⟨pairwise_of_risingSoc rising, fun p hp => (ranges p hp).2.2⟩

/-- The head of a rising table has the smallest voltage. -/
theorem voltage_head_le {a p : SocPoint} {l : List SocPoint} (h : (a :: l).Pairwise Precedes) (hp : p ∈ a :: l) :
    a.voltage ≤ p.voltage := by
  rcases List.mem_cons.mp hp with rfl | later
  · exact le_rfl
  · exact ((List.pairwise_cons.mp h).1 p later).1.le

/-! ## The interpolation and the search -/

theorem energy_le_interpolate (a b : SocPoint) (v : Nat) : a.energy ≤ interpolate a b v := Nat.le_add_right ..

/-- Up to the second voltage the quotient is at most the rise of the energy: "it never leaves 0 to 65535" (R144). -/
theorem interpolate_le_energy {a b : SocPoint} {v : Nat} (h : a.energy ≤ b.energy) (hv : v ≤ b.voltage) :
    interpolate a b v ≤ b.energy := by
  have quotient : (v - a.voltage) * (b.energy - a.energy) / (b.voltage - a.voltage) ≤ b.energy - a.energy :=
    Nat.div_le_of_le_mul (Nat.mul_le_mul_right _ (Nat.sub_le_sub_right hv _))
  unfold interpolate
  omega

/-- The search passes the head of the table for a sample at or above the voltage of the next point. -/
theorem chargeFrom_tail {a b : SocPoint} {rest : List SocPoint} {v : Nat} (h : b.voltage ≤ v) :
    chargeFrom (a :: b :: rest) v = chargeFrom (b :: rest) v := if_neg h.not_gt

/-- A sample between two adjacent points is interpolated between them (R144). -/
theorem chargeFrom_between {t : List SocPoint} {v : Nat} (h : t.Pairwise Precedes) {i : Nat} {p n : SocPoint}
    (hp : t[i]? = some p) (hn : t[i + 1]? = some n) (above : p.voltage ≤ v) (below : v < n.voltage) :
    chargeFrom t v = interpolate p n v := by
  induction t generalizing i with
  | nil => simp at hp
  | cons a l ih =>
    match l, i with
    | [], _ => simp at hn
    | b :: rest, 0 =>
      obtain ⟨rfl, rfl⟩ : a = p ∧ b = n := by simpa using And.intro hp hn
      exact if_pos below
    | b :: rest, i + 1 =>
      have tail := (List.pairwise_cons.mp h).2
      have passed : b.voltage ≤ v := (voltage_head_le tail (List.mem_of_getElem? hp)).trans above
      exact (chargeFrom_tail passed).trans (ih tail hp hn)

/-- A sample at or above the last point has the last point's energy (R144). -/
theorem chargeFrom_last {t : List SocPoint} {v : Nat} (h : t.Pairwise Precedes) {p : SocPoint}
    (hp : t.getLast? = some p) (above : p.voltage ≤ v) : chargeFrom t v = p.energy := by
  induction t with
  | nil => simp at hp
  | cons a l ih =>
    match l with
    | [] =>
      obtain rfl : a = p := by simpa using hp
      rfl
    | b :: rest =>
      have tail := (List.pairwise_cons.mp h).2
      have last : (b :: rest).getLast? = some p := by simpa using hp
      have passed : b.voltage ≤ v := (voltage_head_le tail (List.mem_of_getLast? last)).trans above
      exact (chargeFrom_tail passed).trans (ih tail last)

/-- The search stays within a bound on the energies of the table. -/
theorem chargeFrom_le {t : List SocPoint} {m : Nat} (h : t.Pairwise Precedes) (bound : ∀ p ∈ t, p.energy ≤ m) (v : Nat) :
    chargeFrom t v ≤ m := by
  fun_induction chargeFrom t v with
  | case1 => exact Nat.zero_le _
  | case2 a => exact bound a List.mem_cons_self
  | case3 a b rest v below =>
    have rise : a.energy ≤ b.energy := ((List.pairwise_cons.mp h).1 b List.mem_cons_self).2
    exact (interpolate_le_energy rise below.le).trans (bound b (by simp))
  | case4 a b rest v _ ih => exact ih (List.pairwise_cons.mp h).2 fun p hp => bound p (List.mem_cons_of_mem a hp)

/-! ## The state of charge -/

theorem stateOfCharge_below {t : List SocPoint} {v : Nat} {p : SocPoint} (hp : t[0]? = some p) (below : v < p.voltage) :
    stateOfCharge t v = 0 := by
  cases t with
  | nil => simp at hp
  | cons a l =>
    obtain rfl : a = p := by simpa using hp
    exact if_pos below

/-- At or above any point of a rising table the state of charge is the search's. -/
theorem stateOfCharge_above {t : List SocPoint} {v : Nat} {p : SocPoint} (h : t.Pairwise Precedes) (hp : p ∈ t)
    (above : p.voltage ≤ v) : stateOfCharge t v = chargeFrom t v := by
  cases t with
  | nil => simp at hp
  | cons a l => exact if_neg ((voltage_head_le h hp).trans above).not_gt

theorem stateOfCharge_le {t : List SocPoint} {m : Nat} (h : t.Pairwise Precedes) (bound : ∀ p ∈ t, p.energy ≤ m) (v : Nat) :
    stateOfCharge t v ≤ m := by
  fun_cases stateOfCharge t v with
  | case1 => exact Nat.zero_le _
  | case2 a l below => exact Nat.zero_le _
  | case3 a l above => exact chargeFrom_le h bound v

/-- Settles O18: the table rises, so the search ends at the point at or below the sample. -/
theorem stateOfCharge_of_validSoc : Obligations.StateOfCharge := by
  unfold Obligations.StateOfCharge
  intro table v valid
  obtain ⟨rising, bound⟩ := points_of_validSoc valid
  refine ⟨fun p hp below => stateOfCharge_below hp below, fun i p n hp hn above below => ?_, fun p hp above => ?_,
    stateOfCharge_le rising bound v⟩
  · have charge : stateOfCharge table v = interpolate p n v :=
      (stateOfCharge_above rising (List.mem_of_getElem? hp) above).trans (chargeFrom_between rising hp hn above below)
    have rise : p.energy ≤ n.energy := by
      obtain ⟨hi, rfl⟩ := List.getElem?_eq_some_iff.mp hp
      obtain ⟨hj, rfl⟩ := List.getElem?_eq_some_iff.mp hn
      exact (List.pairwise_iff_getElem.mp rising i (i + 1) hi hj i.lt_succ_self).2
    rw [charge]
    exact ⟨rfl, energy_le_interpolate p n v, interpolate_le_energy rise below.le⟩
  · exact (stateOfCharge_above rising (List.mem_of_getLast? hp) above).trans (chargeFrom_last rising hp above)

end Sys2Proof.Machine
end

