-- ==== Sys2Proof/Proofs/Parts.lean ====
section
/-!
PROOFS. When two parts are the same: car by car, and after updates of one car, of every car, and of the supply.
-/

namespace Sys2Proof.Machine

variable {p q : Part} {c d : Car} {f g : CarBlock → CarBlock}

theorem Part.cars_ext (h : ∀ c, p.car c = q.car c) : p.cars = q.cars :=
  Vector.ext fun i hi => h ⟨i, hi⟩

theorem Part.modCar_congr (h : f (p.car c) = g (p.car c)) : p.modCar c f = p.modCar c g :=
  congrArg (fun b => { p with cars := p.cars.set c b }) h

theorem Part.modCar_self (h : f (p.car c) = p.car c) : p.modCar c f = p := by
  have : (p.modCar c f).cars = p.cars := Part.cars_ext fun d => by
    by_cases hd : d = c
    · subst hd; simpa using h
    · simp [hd]
  exact congrArg (fun v => ({ p with cars := v } : Part)) this

theorem Part.modCar_modCar : (p.modCar c f).modCar c g = p.modCar c fun b => g (f b) := by
  have : ((p.modCar c f).modCar c g).cars = (p.modCar c fun b => g (f b)).cars := Part.cars_ext fun d => by
    by_cases hd : d = c
    · subst hd; simp
    · simp [hd]
  exact congrArg (fun v => ({ p with cars := v } : Part)) this

theorem Part.mapCars_congr (h : ∀ c, f (p.car c) = g (p.car c)) : p.mapCars f = p.mapCars g := by
  have : (p.mapCars f).cars = (p.mapCars g).cars := Part.cars_ext fun d => by simpa using h d
  exact congrArg (fun v => ({ p with cars := v } : Part)) this

/-- A fold over all cars of an update of each leaves the part with every car updated. -/
theorem Part.foldl_modCar (p : Part) (f : CarBlock → CarBlock) : allCars.foldl (fun p c => p.modCar c f) p = p.mapCars f := by
  have fold (l : List Car) (p : Part) : l.foldl (fun p c => p.modCar c f) p =
      { p with cars := l.foldl (fun v (c : Car) => v.set c (f v[c])) p.cars } := by
    induction l generalizing p with
    | nil => rfl
    | cons c l ih => rw [List.foldl_cons, ih]; rfl
  rw [fold]
  unfold Part.mapCars; congr 1
  ext i hi : 1
  match i, hi with
  | 0, _ | 1, _ | 2, _ | 3, _ | 4, _ | 5, _ | 6, _ | 7, _ => simp [allCars]

end Sys2Proof.Machine
end

