-- ==== Sys2Proof/Proofs/Kept.lean ====
section
/-!
PROOFS. The five invariants of a safe run as one relation between a part and the part after it: each is kept on its own, so
that no invariant rests on another. What an update of one car has to keep of its blocks, and what an update of the rest has
to keep.
-/

namespace Sys2Proof.Machine

/-! ## The invariants, car by car -/

/-- The guarded outputs of one car: its brake (R163), its place while it is released (R65, R66), its unlock output (R176). -/
def CarBlock.guarded (b : CarBlock) (g : Globals) : Prop :=
  (b.brake.anyOpen = true → isBrakeState b.record.state = true) ∧
  (b.record.state = .releasing → b.inputs.zone.isOn = true) ∧
  (b.signals.unlockOutput = true → b.record.state = .releasing ∧ b.inputs.zone.isOn = true ∧ b.isPlaced g = true)

/-- A tone is active in the bursts of its pattern alone (R181). -/
def CarSignals.inBursts (x : CarSignals) : Prop := ∀ y, x.playing = some y → y.output = true → y.segment % 2 = 0

/-- The outputs of one car follow what they show: its lamp the car's state (R180), its tone the pattern (R181). -/
def CarBlock.shown (b : CarBlock) : Prop := b.signals.lamp = lampOf b.record.state ∧ b.signals.inBursts

/-- Converter-enable follows the converter's state (Table 20). -/
def Supply.follows (x : Supply) : Prop := x.enable = true ↔ x.converter = .waking ∨ x.converter = .on

theorem outputsGuarded_iff (p : Part) : OutputsGuarded p ↔ ∀ c, (p.car c).guarded p.globals := by
  simp [OutputsGuarded, CarBlock.guarded, Part.unlockBound, Part.stateOf, Part.zoneActive, Part.resolvedOrConfirmed_eq,
    and_assoc]

theorem outputsFollow_iff (p : Part) : OutputsFollow p ↔ p.supply.follows ∧ ∀ c, (p.car c).shown := Iff.rfl

/-! ## The relation -/

/-- From p to q the pending sets stay ordered. -/
def NoticesKept (p q : Part) : Prop := NoticesOrdered p → NoticesOrdered q

/-- From p to q each of the five invariants is kept. -/
structure Kept (p q : Part) : Prop where
  accounts : MoveAccounts p → MoveAccounts q
  guarded  : OutputsGuarded p → OutputsGuarded q
  follows  : OutputsFollow p → OutputsFollow q
  notices  : NoticesKept p q
  urgency  : (∀ c, (p.car c).planner.urgency < 61440) → ∀ c, (q.car c).planner.urgency < 61440

theorem NoticesKept.refl (p : Part) : NoticesKept p p := id

theorem NoticesKept.trans {p q r : Part} (h : NoticesKept p q) (k : NoticesKept q r) : NoticesKept p r := k ∘ h

theorem NoticesKept.of_ports {p q : Part} (hs : q.station.notices = p.station.notices)
    (hp : q.panel.notices = p.panel.notices) : NoticesKept p q := by
  unfold NoticesKept NoticesOrdered; rw [hs, hp]; exact id

theorem Kept.refl (p : Part) : Kept p p := ⟨id, id, id, id, id⟩

theorem Kept.trans {p q r : Part} (h : Kept p q) (k : Kept q r) : Kept p r :=
  ⟨k.accounts ∘ h.accounts, k.guarded ∘ h.guarded, k.follows ∘ h.follows, h.notices.trans k.notices, k.urgency ∘ h.urgency⟩

/-- The same with the later part first, so that the part between need not be written. -/
theorem Kept.after {p q r : Part} (k : Kept q r) (h : Kept p q) : Kept p r := h.trans k

/-! ## One car -/

/-- From the blocks b to the blocks b' of one car what the invariants say of it is kept, and no slot is taken. -/
structure CarKept (g : Globals) (b b' : CarBlock) : Prop where
  accounted : b.accounted → b'.accounted
  brakeSlot : b'.slots.brake = true → b.slots.brake = true
  driveSlot : b'.slots.drive = true → b.slots.drive = true
  guarded   : b.guarded g → b'.guarded g
  shown     : b.shown → b'.shown
  urgency   : b.planner.urgency < 61440 → b'.planner.urgency < 61440

theorem CarKept.refl (g : Globals) (b : CarBlock) : CarKept g b b := ⟨id, id, id, id, id, id⟩

theorem CarKept.trans {g : Globals} {b b' b'' : CarBlock} (h : CarKept g b b') (k : CarKept g b' b'') : CarKept g b b'' :=
  ⟨k.accounted ∘ h.accounted, h.brakeSlot ∘ k.brakeSlot, h.driveSlot ∘ k.driveSlot, k.guarded ∘ h.guarded,
    k.shown ∘ h.shown, k.urgency ∘ h.urgency⟩

/-- Two cars that no invariant tells apart. -/
structure CarBlock.Same (b b' : CarBlock) : Prop where
  state    : b'.record.state = b.record.state
  zone     : b'.inputs.zone.accepted = b.inputs.zone.accepted
  tracker  : b'.tracker = b.tracker
  urgency  : b'.planner.urgency ≤ b.planner.urgency
  estimate : b'.planner.plan = b.planner.plan
  slots    : b'.slots = b.slots
  channels : b'.brake.channelA = b.brake.channelA ∧ b'.brake.channelB = b.brake.channelB
  unlock   : b'.signals.unlockOutput = b.signals.unlockOutput
  lamp     : b'.signals.lamp = b.signals.lamp
  playing  : b'.signals.playing = b.signals.playing

theorem CarBlock.Same.kept {b b' : CarBlock} (g : Globals) (h : b.Same b') : CarKept g b b' := by
  obtain ⟨state, zone, tracker, urgency, estimate, slots, ⟨channelA, channelB⟩, unlock, lamp, playing⟩ := h
  refine ⟨?_, ?_, ?_, ?_, ?_, urgency.trans_lt⟩ <;>
    simp only [CarBlock.accounted, CarBlock.guarded, CarBlock.shown, CarSignals.inBursts, CarBrake.anyOpen, CarBlock.isPlaced,
      LevelFilter.isOn, state, zone, tracker, estimate, slots, channelA, channelB, unlock, lamp, playing, imp_self]

section
variable {p q : Part} {c : Car}

theorem countP_le_add_count {α : Type} [DecidableEq α] {f f' : α → Bool} {a : α} (h : ∀ x, f' x = true → f x = true ∨ x = a) :
    ∀ l : List α, l.countP f' ≤ l.countP f + l.count a
  | [] => by simp
  | x :: l => by
      have ih := countP_le_add_count h l
      have := h x
      simp only [List.countP_cons, List.count_cons, beq_iff_eq]
      split <;> split <;> split <;> simp_all <;> omega

theorem brakeHeld_le (h : ∀ c, (q.car c).slots.brake = true → (p.car c).slots.brake = true) : q.brakeHeld ≤ p.brakeHeld := by
  unfold Part.brakeHeld; rw [← List.countP_eq_length_filter, ← List.countP_eq_length_filter]
  exact List.countP_mono_left fun c _ => h c

theorem driveHeld_le (h : ∀ c, (q.car c).slots.drive = true → (p.car c).slots.drive = true) : q.driveHeld ≤ p.driveHeld := by
  unfold Part.driveHeld; rw [← List.countP_eq_length_filter, ← List.countP_eq_length_filter]
  exact List.countP_mono_left fun c _ => h c

theorem count_allCars (c : Car) : allCars.count c = 1 := by revert c; decide

theorem brakeHeld_le_succ (h : ∀ d, d ≠ c → (q.car d).slots.brake = (p.car d).slots.brake) :
    q.brakeHeld ≤ p.brakeHeld + 1 := by
  unfold Part.brakeHeld
  rw [← List.countP_eq_length_filter, ← List.countP_eq_length_filter, ← count_allCars c]
  refine countP_le_add_count (fun d hd => ?_) _
  by_cases e : d = c
  · exact .inr e
  · exact .inl (by rw [← h d e]; exact hd)

theorem driveHeld_le_succ (h : ∀ d, d ≠ c → (q.car d).slots.drive = (p.car d).slots.drive) :
    q.driveHeld ≤ p.driveHeld + 1 := by
  unfold Part.driveHeld
  rw [← List.countP_eq_length_filter, ← List.countP_eq_length_filter, ← count_allCars c]
  refine countP_le_add_count (fun d hd => ?_) _
  by_cases e : d = c
  · exact .inr e
  · exact .inl (by rw [← h d e]; exact hd)

/-- What keeps each car, the configured slots and what the supply shows keeps the invariants. -/
theorem Kept.of_cars (cars : ∀ c, CarKept p.globals (p.car c) (q.car c)) (globals : q.globals = p.globals)
    (supply : p.supply.follows → q.supply.follows) (notices : NoticesKept p q) : Kept p q where
  accounts h := by
    obtain ⟨each, brake, drive⟩ := h
    refine ⟨fun c => (cars c).accounted (each c), ?_, ?_⟩ <;> rw [globals]
    · exact (brakeHeld_le fun c => (cars c).brakeSlot).trans brake
    · exact (driveHeld_le fun c => (cars c).driveSlot).trans drive
  guarded h := by
    rw [outputsGuarded_iff] at h ⊢; rw [globals]; exact fun c => (cars c).guarded (h c)
  follows h := ⟨supply h.1, fun c => (cars c).shown (h.2 c)⟩
  notices := notices
  urgency h c := (cars c).urgency (h c)

/-- An update that no invariant sees. -/
theorem Kept.of_same (cars : q.cars = p.cars) (globals : q.globals = p.globals) (supply : q.supply = p.supply)
    (station : q.station.notices = p.station.notices) (panel : q.panel.notices = p.panel.notices) : Kept p q :=
  .of_cars (fun c => by unfold Part.car; rw [cars]; exact .refl _ _) globals (by rw [supply]; exact id) (.of_ports station panel)

theorem kept_mapCars {f : CarBlock → CarBlock} (h : ∀ c, CarKept p.globals (p.car c) (f (p.car c))) : Kept p (p.mapCars f) :=
  .of_cars (fun c => by rw [Part.mapCars_car]; exact h c) rfl id (.of_ports rfl rfl)

theorem kept_modSupply {f : Supply → Supply} (h : p.supply.follows → (f p.supply).follows) : Kept p (p.modSupply f) :=
  .of_cars (fun _ => .refl _ _) rfl h (.of_ports rfl rfl)

/-- What touches one car, and keeps it and the notices, keeps the invariants. -/
theorem TouchesOnly.kept (t : TouchesOnly c p q) (n : NoticesKept p q) (k : CarKept p.globals (p.car c) (q.car c)) :
    Kept p q := by
  refine .of_cars (fun d => ?_) (by unfold Part.globals; rw [t.rest.config]) (by rw [t.plans.supply]; exact id) n
  by_cases hd : d = c
  · rw [hd]; exact k
  · rw [t.cars d hd]; exact .refl _ _

theorem kept_modCar {f : CarBlock → CarBlock} (h : CarKept p.globals (p.car c) (f (p.car c))) : Kept p (p.modCar c f) :=
  (touchesOnly_modCar p c f).kept (.of_ports rfl rfl) (by simpa using h)

theorem kept_same {f : CarBlock → CarBlock} (h : (p.car c).Same (f (p.car c))) : Kept p (p.modCar c f) := kept_modCar (h.kept _)

end

/-! ## Notices -/

theorem noticeKey_injective : Function.Injective noticeKey := by
  rintro ⟨k, a⟩ ⟨l, b⟩ h
  have code : noticeCode k = noticeCode l := by
    simp only [noticeKey] at h
    cases a <;> cases b <;> simp only at h <;> omega
  have kind : k = l := by revert code; cases k <;> cases l <;> simp [noticeCode]
  subst kind
  simp only [noticeKey, Nat.add_left_cancel_iff] at h
  cases a with
  | none => cases b with
    | none => rfl
    | some b => simp only at h; omega
  | some a => cases b with
    | none => simp only at h; omega
    | some b => simp only at h; rw [Fin.ext h]

/-- A pair that carries a car exactly if its kind does, added to an ordered set, leaves it ordered (R188, R189). -/
theorem noticeSetOrdered_addNotice {n : Notice} (h : n.car.isSome = carriesCar n.kind) {l : List Notice} (k : NoticeSetOrdered l) :
    NoticeSetOrdered (addNotice n l) := by
  refine ⟨?_, fun m hm => ?_⟩
  · obtain ⟨sorted, -⟩ := k
    induction l with
    | nil => simp [addNotice]
    | cons m l ih =>
      obtain ⟨first, rest⟩ := List.pairwise_cons.mp sorted
      unfold addNotice
      split
      · exact sorted
      · next ne =>
        split
        · next lt =>
          refine List.pairwise_cons.mpr ⟨fun x hx => ?_, sorted⟩
          rcases List.mem_cons.mp hx with rfl | hx
          · exact lt
          · exact lt.trans (first x hx)
        · next ge =>
          refine List.pairwise_cons.mpr ⟨fun x hx => ?_, ih rest⟩
          obtain ⟨y, hy, rfl⟩ := List.mem_map.mp hx
          rcases (mem_addNotice n y l).mp hy with rfl | hy
          · exact lt_of_le_of_ne (not_lt.mp ge) fun e => ne (noticeKey_injective e.symm)
          · exact first _ (List.mem_map_of_mem hy)
  · rcases (mem_addNotice n m l).mp hm with rfl | hm
    · exact h
    · exact k.2 m hm

theorem noticeSetOrdered_offer {n : Notice} (h : n.car.isSome = carriesCar n.kind) {x : PortState}
    (k : NoticeSetOrdered x.notices) : NoticeSetOrdered (x.offer n).notices := by
  unfold PortState.offer; split
  · exact noticeSetOrdered_addNotice h k
  · exact k

theorem noticesKept_raise (p : Part) {n : Notice} (h : n.car.isSome = carriesCar n.kind) : NoticesKept p (p.raise n) :=
  fun k => ⟨noticeSetOrdered_offer h k.1, noticeSetOrdered_offer h k.2⟩

theorem noticesKept_raiseCar (p : Part) (c : Car) {k : NoticeKind} (h : carriesCar k = true) : NoticesKept p (p.raiseCar k c) :=
  noticesKept_raise p h.symm

theorem kept_raise (p : Part) {n : Notice} (h : n.car.isSome = carriesCar n.kind) : Kept p (p.raise n) :=
  .of_cars (fun _ => .refl _ _) rfl id (noticesKept_raise p h)

theorem kept_raiseCar (p : Part) (c : Car) {k : NoticeKind} (h : carriesCar k = true) : Kept p (p.raiseCar k c) :=
  kept_raise p h.symm

theorem kept_raiseTo (p : Part) (q : Port) {n : Notice} (h : n.car.isSome = carriesCar n.kind) : Kept p (p.raiseTo q n) := by
  refine .of_cars (fun c => by rw [Part.raiseTo_car]; exact .refl _ _) (p.modPort_globals q _)
    (by rw [Part.raiseTo_supply]; exact id) fun k => ?_
  cases q
  · exact ⟨noticeSetOrdered_offer h k.1, k.2⟩
  · exact ⟨k.1, noticeSetOrdered_offer h k.2⟩

/-- An update of a port that keeps its pending set. -/
theorem kept_modPort (p : Part) (q : Port) {f : PortState → PortState} (h : ∀ x, (f x).notices = x.notices) :
    Kept p (p.modPort q f) := by
  refine .of_cars (fun c => by rw [Part.modPort_car]; exact .refl _ _) (p.modPort_globals q _)
    (by rw [Part.modPort_supply]; exact id) (.of_ports ?_ ?_) <;> cases q <;> first | rfl | exact h _

end Sys2Proof.Machine
end

