-- ==== Sys2Proof/Proofs/Grants.lean ====
section
/-!
PROOFS. The Grant Arbiter: the blocks of a car that is granted (R59, R156), and the order in which a selection takes the
READY cars, each of them once (R156).
-/

namespace Sys2Proof.Machine

/-! ## The blocks of a granted car -/

/-- The record of a car that is granted method m (R59). -/
def CarRecord.granted (r : CarRecord) (g : Globals) (m : PlanMethod) (plan : PlanRecord) (id : Nat) : CarRecord :=
  { r with
    first := false
    energyShort := false
    moveId := if needsDriveSlot m then some id else r.moveId
    ackTimer := if needsDriveSlot m then some g.ackTimeout else r.ackTimer
    moveTimer := if needsDriveSlot m then some (2 * plan.travelTime.getD 0 + 10000) else r.moveTimer
    summary := { r.summary with methodUsed := (methodUsedOf m).or r.summary.methodUsed } }

/-- The blocks of a car that is granted method m, in move state st (R42, R59, R156, R164, R165, R181). -/
def CarBlock.granted (b : CarBlock) (e : CarEntry) (g : Globals) (m : PlanMethod) (st : RescueState) : CarBlock :=
  let x := b.stated g st none
  let plan := b.planner.plan
  { x with
    line := if needsDriveSlot m then
      ({ b.line with nextMoveId := (b.line.nextMoveId + 1) % 256 }).offerCommand (.grant b.line.nextMoveId
        ((moveDirOf m).getD .up) (plan.target.getD 0) (plan.estimate.getD 0) e.speed) else b.line
    inputs := { x.inputs with move := ⟨moveDirOf m, 0, 0, (moveDirOf m).isSome, none⟩ }
    record := x.record.granted g m plan b.line.nextMoveId
    slots := ⟨b.slots.brake || needsBrakeSlot m, b.slots.drive || needsDriveSlot m, some (plan.estimate.getD 0)⟩
    brake := match st with
      | .probing => b.brake.openFor e .probe g.probeShare
      | .lowering => b.brake.openFor e .lowering g.startShare
      | _ => b.brake
    signals := if (methodUsedOf m).isSome then x.signals.requestTone g .moveStart else x.signals }

theorem Part.grant_own {p : Part} {c : Car} {m : PlanMethod} {st : RescueState} (h : moveStateOf m = some st) :
    (p.grant c m).car c = (p.car c).granted (p.entry c) p.globals m st := by
  cases m <;> simp only [moveStateOf, Option.some.injEq, reduceCtorEq] at h <;> subst h <;>
    simp [Part.grant, moveStateOf, Part.beginMove, Part.announceMove, methodUsedOf, Part.grantPowered, Part.setState_own,
      CarBlock.granted, CarRecord.granted, CarBlock.stated, needsBrakeSlot, needsDriveSlot, moveDirOf, CarRecord.moveTo]

theorem Part.grant_none (p : Part) (c : Car) : p.grant c .none = p := rfl

/-- The move states that a grant leads to. -/
theorem moveStateOf_cases {m : PlanMethod} {st : RescueState} (h : moveStateOf m = some st) :
    (needsBrakeSlot m = isBrakeState st) ∧ (needsDriveSlot m = (st == .driving)) ∧ isMoveState st = true ∧
      lampOf st = .flash ∧ st ≠ .releasing := by
  cases m <;> simp only [moveStateOf, Option.some.injEq, reduceCtorEq] at h <;> subst h <;> decide

/-- A car that is considered is passed over, flagged, or granted a method whose slot is free (R156, R157). -/
theorem Part.consider_cases (p : Part) (c : Car) :
    p.consider c = p ∨
    p.consider c = (p.modRecord c fun r => { r with energyShort := true }).raiseCar .energyShort c ∨
    ∃ m st, moveStateOf m = some st ∧ p.slotFree m = true ∧ p.consider c = p.grant c m := by
  simp only [Part.consider]
  split
  · next m _ =>
    split
    · next free =>
      split
      · cases hst : moveStateOf m with
        | none => left; simp [Part.grant, hst]
        | some st => exact .inr (.inr ⟨m, st, hst, free, rfl⟩)
      · unfold Part.flagShort; split
        · exact .inl rfl
        · exact .inr (.inl rfl)
    · exact .inl rfl
  · exact .inl rfl

/-! ## The order of a selection (R156) -/

theorem Part.perm_insertCar (p : Part) (c : Car) : ∀ l : List Car, (p.insertCar c l).Perm (c :: l)
  | [] => .refl _
  | d :: l => by
      unfold Part.insertCar; split
      · exact .refl _
      · exact ((p.perm_insertCar c l).cons d).trans (.swap c d l)

theorem Part.perm_foldl_insertCar (p : Part) (l : List Car) :
    ∀ acc : List Car, (l.foldl (fun l c => p.insertCar c l) acc).Perm (l ++ acc) := by
  induction l with
  | nil => exact fun acc => .refl _
  | cons a l ih => exact fun acc => (ih _).trans (((p.perm_insertCar a acc).append_left l).trans List.perm_middle)

theorem Part.perm_readyOrder (p : Part) : p.readyOrder.Perm (allCars.filter fun c => p.stateOf c == .ready) := by
  simpa [Part.readyOrder] using p.perm_foldl_insertCar (allCars.filter fun c => p.stateOf c == .ready) []

theorem Part.mem_readyOrder_iff (p : Part) (c : Car) : c ∈ p.readyOrder ↔ p.stateOf c = .ready := by
  rw [p.perm_readyOrder.mem_iff]; simp [mem_allCars]

/-- Each READY car is taken once. -/
theorem Part.nodup_readyOrder (p : Part) : p.readyOrder.Nodup :=
  p.perm_readyOrder.nodup_iff.mpr ((by decide : allCars.Nodup).filter _)

end Sys2Proof.Machine
end

