-- ==== Sys2Proof/Proofs/KeptMoves.lean ====
section
/-!
PROOFS. The operations of the Grant Arbiter, the Car Rescue Table and the Supply Monitor keep the five invariants: entries to
a state, grants and selections, changes of state with their releases, the judging of demand, the passes.
-/

namespace Sys2Proof.Machine

/-! ## The blocks of a car after an entry -/

section
variable (b : CarBlock) (g : Globals)

@[simp] theorem CarBrake.close_anyOpen (x : CarBrake) : x.close.anyOpen = false := by
  unfold CarBrake.close; split
  · cases ha : x.channelA <;> cases hb : x.channelB <;> simp [CarBrake.still, CarBrake.anyOpen, closeChannel]
  · next h => simpa using h

@[simp] theorem CarBrake.lock_anyOpen (x : CarBrake) : x.lock.anyOpen = false := rfl

theorem CarBrake.unlock_anyOpen (x : CarBrake) : x.unlock.anyOpen = x.anyOpen := by
  cases ha : x.channelA <;> cases hb : x.channelB <;> simp [CarBrake.unlock, CarBrake.anyOpen, unlockChannel, ha, hb]

/-- A car that goes outside the move states and RELEASING gives back what it holds of the Arbiter, closed and unreleased. -/
theorem carKept_moved {new : RescueState} (held : Option HeldCause) (hm : isMoveState new = false) (hn : new ≠ .releasing) :
    CarKept g b (b.moved g new held) := by
  have hb : isBrakeState new = false := by revert hm; cases new <;> simp [isMoveState, isBrakeState]
  have hd : (new == .driving) = false := by revert hm; cases new <;> simp [isMoveState]
  refine ⟨fun ⟨h1, h2, h3⟩ => ⟨?_, ?_, ?_⟩, fun h => ?_, fun h => ?_, fun ⟨h1, h2, h3⟩ => ⟨?_, ?_, ?_⟩, fun ⟨h1, h2⟩ => ?_, id⟩
  · simp only [CarBlock.moved, hb, h1]; split <;> simp_all
  · simp only [CarBlock.moved, hd, h2]; split <;> simp_all
  · simp only [CarBlock.moved, hm, h3]; split <;> simp_all
  · simp only [CarBlock.moved] at h; split at h <;> simp_all
  · simp only [CarBlock.moved] at h; split at h <;> simp_all
  · intro h; simp only [CarBlock.moved] at h; split at h <;> simp_all
  · exact fun h => (hn h).elim
  · intro h; simp only [CarBlock.moved] at h; split at h
    · simp at h
    · next k => exact (k (h3 h).1).elim
  · exact ⟨rfl, h2⟩

/-- A car that goes from one state outside the move states to another, without the Arbiter's part. -/
theorem carKept_stated {new : RescueState} (held : Option HeldCause) (ho : isMoveState b.record.state = false)
    (hm : isMoveState new = false) (hn : new ≠ .releasing) : CarKept g b (b.stated g new held) := by
  have nb {x : RescueState} (h : isMoveState x = false) : isBrakeState x = false ∧ (x == .driving) = false := by
    revert h; cases x <;> simp [isMoveState, isBrakeState]
  refine ⟨fun ⟨h1, h2, h3⟩ => ⟨?_, ?_, ?_⟩, id, id, fun ⟨h1, h2, h3⟩ => ⟨?_, ?_, ?_⟩, fun ⟨h1, h2⟩ => ?_, id⟩
  · simpa [nb hm, nb ho] using h1
  · simpa [nb hm, nb ho] using h2
  · simpa [hm, ho] using h3
  · simpa [nb hm, nb ho] using h1
  · exact fun h => (hn h).elim
  · intro h
    by_cases k : b.record.state = .releasing
    · simp [CarBlock.stated, leaves, k, hn, CarSignals.endRelease, CarSignals.endPulse] at h
    · simp [CarBlock.stated, leaves, k, CarSignals.follow] at h
      exact (k (h3 h).1).elim
  · refine ⟨?_, ?_⟩ <;> simp only [CarBlock.stated]
    · split <;> rfl
    · split <;> exact h2

theorem carKept_failed (cause : AbortCause) : CarKept g b (b.failed g cause) :=
  (carKept_moved (new := .failed) b g none rfl (by decide)).trans (CarBlock.Same.kept g (by constructor <;> first | rfl | exact ⟨rfl, rfl⟩))

theorem carKept_assessed : CarKept g b (b.assessed g) := by
  obtain ⟨h1, -, -, -, h2⟩ := b.assessedState_rest
  exact carKept_moved b g _ h1 h2

theorem carKept_returned : CarKept g b (b.returned g) :=
  (carKept_moved (new := .normal) b g none rfl (by decide)).trans
    (CarBlock.Same.kept g (by constructor <;> first | rfl | exact Nat.zero_le _ | exact ⟨rfl, rfl⟩))

theorem carKept_judged : CarKept g b (b.judged g) := by
  unfold CarBlock.judged; split
  · exact (carKept_moved (new := .confirming) b g none rfl (by decide)).trans
      (CarBlock.Same.kept g (by constructor <;> first | rfl | exact ⟨rfl, rfl⟩))
  · split
    · exact carKept_returned b g
    · exact .refl g b

/-- A pattern that starts is in a burst (R181). -/
theorem inBursts_playingAt {x : CarSignals} {t : TonePattern} {n high low : Nat} (h : x.playing = playingAt t n high low) :
    x.inBursts := by
  intro y hy ho
  rw [h] at hy
  obtain ⟨seg, hseg, rfl⟩ := Option.map_eq_some_iff.mp hy
  have burst : ∀ i : Fin 5, ∀ s, (patternSegments t)[i.val]? = some s → s.1 = true → i.val % 2 = 0 := by
    cases t <;> decide
  have bound : n < 5 := by
    have := (List.getElem?_eq_some_iff.mp hseg).1
    cases t <;> simp [patternSegments] at this <;> omega
  exact burst ⟨n, bound⟩ seg hseg ho

theorem inBursts_requestTone {x : CarSignals} (t : TonePattern) (h : x.inBursts) : (x.requestTone g t).inBursts := by
  unfold CarSignals.requestTone; split
  · exact inBursts_playingAt rfl
  · exact h

@[simp] theorem CarSignals.requestTone_lamp (x : CarSignals) (t : TonePattern) : (x.requestTone g t).lamp = x.lamp := by
  unfold CarSignals.requestTone; split <;> rfl

@[simp] theorem CarSignals.requestTone_unlockOutput (x : CarSignals) (t : TonePattern) :
    (x.requestTone g t).unlockOutput = x.unlockOutput := by
  unfold CarSignals.requestTone; split <;> rfl

/-- An entry to RELEASING that has passed its check (R65): the car stands in its zone, placed where a pulse begins. -/
theorem carKept_released (hz : b.inputs.zone.isOn = true) (hp : b.line.state = .alive ∨ b.isPlaced g = true) :
    CarKept g b (b.released g) := by
  refine ⟨fun ⟨h1, h2, h3⟩ => ⟨?_, ?_, ?_⟩, fun h => ?_, fun h => ?_, fun ⟨h1, h2, h3⟩ => ⟨?_, ?_, ?_⟩, fun ⟨h1, h2⟩ => ⟨?_, ?_⟩, id⟩
  · simp only [CarBlock.released, CarBlock.moved, h1]; split <;> simp_all [isBrakeState]
  · simp only [CarBlock.released, CarBlock.moved, h2]; split <;> simp_all
  · simp only [CarBlock.released, CarBlock.moved, h3, isMoveState]; split <;> simp_all
  · simp only [CarBlock.released, CarBlock.moved] at h; split at h <;> simp_all
  · simp only [CarBlock.released, CarBlock.moved] at h; split at h <;> simp_all
  · intro h; simp only [CarBlock.released, CarBlock.moved] at h; split at h <;> simp_all
  · exact fun _ => hz
  · intro h
    refine ⟨rfl, hz, ?_⟩
    simp only [CarBlock.released, CarBlock.isPlaced] at h ⊢
    split at h
    · simp only [CarBlock.moved, CarSignals.requestTone_unlockOutput] at h
      split at h
      · simp at h
      · next k => exact (k (h3 h).1).elim
    · exact hp.resolve_left ‹_›
  · simp only [CarBlock.released]; split <;> simp [CarBlock.moved]
  · have := inBursts_requestTone g .release (x := (b.moved g .releasing none).signals) h2
    simp only [CarBlock.released]; split <;> exact this

theorem carKept_releasing : CarKept g b (b.releasing g) := by
  unfold CarBlock.releasing; split
  · exact carKept_failed b g _
  · split
    · exact carKept_moved b g _ rfl (by decide)
    · next hz hp => exact carKept_released b g (by simpa using hz) (by
        by_contra h; rw [not_or] at h; exact hp ⟨h.1, by simpa using h.2⟩)

end

end Sys2Proof.Machine
end

