-- ==== Sys2Proof/Proofs/KeptEvents.lean ====
section
/-!
PROOFS. The parts that commands are built from keep the five invariants: passes, grants and selections, changes of state with
their releases (R60), the converter and the mains belief.
-/

namespace Sys2Proof.Machine

variable {p q : Part} {c : Car}

/-! ## Passes -/

theorem CarKept.setUrgency {g : Globals} {b b' : CarBlock} (h : CarKept g b b') {n : Nat} (m : Option Nat)
    (k : b.planner.urgency < 61440 → n < 61440) :
    CarKept g b { b' with planner := { b'.planner with urgency := n, alarmMark := m } } :=
  ⟨h.accounted, h.brakeSlot, h.driveSlot, h.guarded, h.shown, k⟩

/-- The urgency step leaves every urgency below 61440: an increment is at most 4095, and the halving takes what has reached
the bound below it (R129, R131). -/
theorem kept_stepUrgency (p : Part) : Kept p p.stepUrgency := by
  simp only [Part.stepUrgency]
  split
  · refine Kept.trans (.of_cars (q := (p.mapCars (·.stepUrgency p.globals)).mapCars (·.halveUrgency)) (fun c => ?_) rfl id
      (.of_ports rfl rfl)) (kept_raise _ rfl)
    rw [Part.mapCars_car, Part.mapCars_car]
    unfold CarBlock.stepUrgency; split
    · next w =>
      simp only [CarBlock.halveUrgency, w, if_true]
      exact (CarKept.refl _ _).setUrgency _ fun h => by omega
    · next w => simp only [CarBlock.halveUrgency, w]; exact .refl _ _
  · next below =>
    refine kept_mapCars fun c => ?_
    have bound : ((p.car c).stepUrgency p.globals).planner.urgency < 61440 := by
      by_contra h
      exact below (List.any_eq_true.mpr ⟨c, mem_allCars c, by simpa using h⟩)
    unfold CarBlock.stepUrgency at bound ⊢; split at bound
    · next w => rw [if_pos w]; exact (CarKept.refl _ _).setUrgency _ fun _ => bound
    · next w => rw [if_neg w]; exact .refl _ _

theorem kept_startPass (p : Part) (kind : PassKind) : Kept p (p.startPass kind) := by
  have step : Kept p (if kind = .timed then p.stepUrgency else p) := by
    split
    · exact kept_stepUrgency p
    · exact .refl p
  exact step.trans (.of_same rfl rfl rfl rfl rfl)

theorem kept_askPass (p : Part) (kind : PassKind) : Kept p (p.askPass kind) := by
  unfold Part.askPass; split
  · exact kept_startPass p kind
  · cases kind <;> exact .of_same rfl rfl rfl rfl rfl

theorem kept_nextPass (p : Part) : Kept p p.nextPass := by
  simp only [Part.nextPass]; split
  · exact Kept.trans (q := { p with pass := none, timedPending := false, requestPending := false })
      (.of_same rfl rfl rfl rfl rfl) (kept_startPass _ _)
  · split
    · exact Kept.trans (q := { p with pass := none, requestPending := false }) (.of_same rfl rfl rfl rfl rfl)
        (kept_startPass _ _)
    · exact .of_same rfl rfl rfl rfl rfl

/-! ## Grants and selections -/

theorem noticesKept_grant (p : Part) (c : Car) (m : PlanMethod) : NoticesKept p (p.grant c m) := by
  have announce (q : Part) : NoticesKept q (q.announceMove c m) := by
    unfold Part.announceMove
    cases methodUsedOf m with
    | some used => exact (NoticesKept.of_ports rfl rfl).trans (noticesKept_raiseCar _ c rfl)
    | none => exact .refl q
  unfold Part.grant
  cases hm : moveStateOf m with
  | some st =>
      refine NoticesKept.trans (.of_ports ?_ ?_) (announce _)
      · rw [(Part.beginMove_ports _ c _).1]; rfl
      · rw [(Part.beginMove_ports _ c _).2]; rfl
  | none => exact .refl p

section
variable {b : CarBlock} {g : Globals} {m : PlanMethod} {st : RescueState} (e : CarEntry)

/-- A READY car holds nothing of the Arbiter, so that a grant gives it what its move state gives (R153, R156). -/
theorem granted_accounted (h : moveStateOf m = some st) (ready : b.record.state = .ready) (k : b.accounted) :
    (b.granted e g m st).accounted := by
  obtain ⟨brake, drive, -⟩ := k
  obtain ⟨needsBrake, needsDrive, moves, -⟩ := moveStateOf_cases h
  rw [ready] at brake drive
  refine ⟨?_, ?_, ?_⟩
  · simp [CarBlock.granted, brake, needsBrake, isBrakeState, CarRecord.granted]
  · simp [CarBlock.granted, drive, needsDrive, CarRecord.granted]
  · simp [CarBlock.granted, moves, CarRecord.granted]

/-- A grant opens the brake in PROBING and LOWERING alone, and releases nothing (R163, R176). -/
theorem granted_guarded (h : moveStateOf m = some st) (ready : b.record.state = .ready) (k : b.guarded g) :
    (b.granted e g m st).guarded g := by
  obtain ⟨opened, -, unlock⟩ := k
  obtain ⟨-, -, -, -, releases⟩ := moveStateOf_cases h
  have state : (b.granted e g m st).record.state = st := rfl
  refine ⟨fun k => ?_, fun k => (releases (state ▸ k)).elim, fun k => ?_⟩
  · rw [state]
    cases m <;> simp only [moveStateOf, Option.some.injEq, reduceCtorEq] at h <;> subst h <;>
      first | rfl | exact absurd (opened k) (by simp [ready, isBrakeState])
  · have : b.signals.unlockOutput = true := by
      revert k
      simp only [CarBlock.granted, CarBlock.stated, ready, leaves]
      split <;> simp [CarSignals.follow]
    exact absurd (unlock this).1 (by simp [ready])

theorem granted_shown (ready : b.record.state = .ready) (k : b.shown) :
    (b.granted e g m st).shown := by
  obtain ⟨-, tone⟩ := k
  have state : (b.granted e g m st).record.state = st := rfl
  refine ⟨?_, ?_⟩
  · rw [state]; simp only [CarBlock.granted, CarBlock.stated, ready, leaves]; split <;> simp [CarSignals.follow]
  · simp only [CarBlock.granted, CarBlock.stated, ready, leaves]; split
    · exact inBursts_requestTone g _ tone
    · exact tone

end

/-- A grant to a READY car of a method whose slot is free (R153, R156). -/
theorem kept_grant {m : PlanMethod} {st : RescueState} (h : moveStateOf m = some st) (ready : p.stateOf c = .ready)
    (free : p.slotFree m = true) : Kept p (p.grant c m) := by
  have t := touchesOnly_grant p c m
  have globals : (p.grant c m).globals = p.globals := by unfold Part.globals; rw [t.rest.config]
  have own := p.grant_own (c := c) h
  have each {P : CarBlock → Prop} (others : ∀ d, P (p.car d)) (mine : P ((p.car c).granted (p.entry c) p.globals m st)) (d : Car) :
      P ((p.grant c m).car d) := by
    by_cases hd : d = c
    · rw [hd, own]; exact mine
    · rw [t.cars d hd]; exact others d
  refine ⟨fun k => ?_, fun k => ?_, fun k => ⟨by rw [t.plans.supply]; exact k.1, ?_⟩, noticesKept_grant p c m, fun k => each (P := fun b => b.planner.urgency < 61440) k (k c)⟩
  · obtain ⟨all, brake, drive⟩ := k
    obtain ⟨mineBrake, mineDrive, -⟩ := all c
    have empty : (p.car c).slots.brake = false ∧ (p.car c).slots.drive = false := by
      unfold Part.stateOf at ready
      exact ⟨by rw [mineBrake, ready]; rfl, by rw [mineDrive, ready]; rfl⟩
    refine ⟨each all (granted_accounted _ h ready (all c)), ?_, ?_⟩ <;> rw [globals]
    · by_cases nb : needsBrakeSlot m = true
      · simp only [Part.slotFree, nb, if_true, decide_eq_true_eq] at free
        exact (brakeHeld_le_succ fun d hd => by rw [t.cars d hd]).trans free
      · refine (brakeHeld_le fun d hb => ?_).trans brake
        by_cases hd : d = c
        · rw [hd, own] at hb; simp [CarBlock.granted, empty, nb] at hb
        · rwa [t.cars d hd] at hb
    · by_cases nd : needsDriveSlot m = true
      · have nb : needsBrakeSlot m = false := by cases m <;> simp_all [needsBrakeSlot, needsDriveSlot]
        simp only [Part.slotFree, nb, nd, Bool.true_and, decide_eq_true_eq, Bool.false_eq_true, if_false] at free
        exact (driveHeld_le_succ fun d hd => by rw [t.cars d hd]).trans free
      · refine (driveHeld_le fun d hb => ?_).trans drive
        by_cases hd : d = c
        · rw [hd, own] at hb; simp [CarBlock.granted, empty, nd] at hb
        · rwa [t.cars d hd] at hb
  · rw [outputsGuarded_iff] at k ⊢; rw [globals]
    exact each (P := (·.guarded p.globals)) k (granted_guarded _ h ready (k c))
  · exact each (P := (·.shown)) k.2 (granted_shown _ ready (k.2 c))

/-- A READY car that is taken in its turn (R156, R157). -/
theorem kept_consider (ready : p.stateOf c = .ready) : Kept p (p.consider c) := by
  rcases p.consider_cases c with h | h | ⟨m, st, hst, free, h⟩ <;> rw [h]
  · exact .refl p
  · exact Kept.trans (kept_same (by constructor <;> first | rfl | exact ⟨rfl, rfl⟩)) (kept_raiseCar _ c rfl)
  · exact kept_grant hst ready free

/-- A selection takes each READY car once, so that each is READY when its turn comes (R156). -/
theorem kept_select (p : Part) : Kept p p.select := by
  unfold Part.select; split
  · next supply =>
    clear supply
    have ready : ∀ c ∈ p.readyOrder, p.stateOf c = .ready := fun c hc => p.mem_readyOrder c hc
    have once := p.nodup_readyOrder
    generalize p.readyOrder = l at ready once
    induction l generalizing p with
    | nil => exact .refl p
    | cons c l ih =>
      obtain ⟨hc, hl⟩ := List.nodup_cons.mp once
      refine (kept_consider (ready c (by simp))).trans (ih _ (fun d hd => ?_) hl)
      rw [(touchesOnly_consider p c).stateOf fun e => hc (e ▸ hd)]
      exact ready d (by simp [hd])
  · exact .refl p

/-! ## Changes of state (R60) -/

theorem noticesKept_toHeld (p : Part) (c : Car) (cause : HeldCause) : NoticesKept p (p.toHeld c cause) :=
  (NoticesKept.of_ports rfl rfl).trans (noticesKept_raiseCar _ c rfl)

theorem noticesKept_toAssessing (p : Part) (c : Car) : NoticesKept p (p.toAssessing c) := by
  unfold Part.toAssessing; split
  · exact noticesKept_toHeld p c _
  · split
    · exact noticesKept_toHeld p c _
    · exact .of_ports rfl rfl

theorem noticesKept_toFailed (p : Part) (c : Car) (cause : AbortCause) : NoticesKept p (p.toFailed c cause) :=
  (NoticesKept.of_ports rfl rfl).trans (noticesKept_raiseCar _ c rfl)

theorem noticesKept_toReleasing (p : Part) (c : Car) : NoticesKept p (p.toReleasing c) := by
  simp only [Part.toReleasing]; split
  · exact noticesKept_toFailed p c _
  · split
    · exact noticesKept_toHeld p c _
    · refine .of_ports ?_ ?_ <;> (simp only [Part.releaseByFrame, Part.sendGateRelease, Part.releaseByPulse]; split <;> rfl)

theorem noticesKept_leaving (p : Part) (c : Car) : NoticesKept p (p.leaving c) := by
  unfold Part.leaving; split
  · exact .of_ports rfl rfl
  · exact .refl p

/-- A change of state keeps the invariants when its entry keeps the notices, and the change as a whole the car: what the car
gives back comes before the selection that others profit from (R60, R155). -/
theorem kept_change {go : Part → Part} (h : ∀ q, TouchesOnly c q (go q)) (n : ∀ q, NoticesKept q (go q))
    (hr : (go (p.leaving c)).stateOf c ≠ .ready)
    (hm : isMoveState (p.stateOf c) = true → (go (p.leaving c)).stateOf c ≠ p.stateOf c)
    (k : CarKept p.globals (p.car c) ((p.change c go).car c)) : Kept p (p.change c go) := by
  have own := p.change_own c go hr hm
  have t : TouchesOnly c p (go (p.leaving c)) := (touchesOnly_leaving p c).trans (h _)
  have notices : NoticesKept p (go (p.leaving c)) := (noticesKept_leaving p c).trans (n _)
  rw [own] at k
  rw [Part.change_eq]
  generalize go (p.leaving c) = q at *
  have freed : Kept p (q.freed c (p.stateOf c)) := by
    unfold Part.freed; split
    · refine Kept.trans ?_ (kept_select _)
      exact (t.trans (touchesOnly_modSlots q c _)).kept notices (by simpa [Part.stateOf] using k)
    · next stays =>
      refine t.kept notices ?_
      have : isMoveState (p.stateOf c) = false := by
        by_contra e; rw [Bool.not_eq_false] at e; exact stays ⟨e, hm e⟩
      simpa [CarSlots.releaseFor_rest _ this] using k
  refine freed.trans ?_
  unfold Part.passAsked; split
  · exact kept_askPass _ _
  · exact .refl _

theorem kept_change_toFailed (cause : AbortCause) : Kept p (p.change c (·.toFailed c cause)) := by
  have hst (q : Part) : (q.toFailed c cause).stateOf c = .failed := by
    simp [Part.stateOf, Part.toFailed_own, CarBlock.failedFrom]
  refine kept_change (fun q => touchesOnly_toFailed q c cause) (fun q => noticesKept_toFailed q c cause) (by simp [hst])
    (fun m e => ?_) ?_
  · rw [← e, hst] at m; simp [isMoveState] at m
  · rw [Part.change_toFailed_own]; exact carKept_failed _ _ _

theorem kept_change_toHeld (cause : HeldCause) : Kept p (p.change c (·.toHeld c cause)) := by
  have hst (q : Part) : (q.toHeld c cause).stateOf c = .held := by simp [Part.stateOf, Part.toHeld_own]
  refine kept_change (fun q => touchesOnly_toHeld q c cause) (fun q => noticesKept_toHeld q c cause) (by simp [hst])
    (fun m e => ?_) ?_
  · rw [← e, hst] at m; simp [isMoveState] at m
  · rw [Part.change_toHeld_own]; exact carKept_moved _ _ _ rfl (by decide)

theorem Part.toAssessing_stateOf (p : Part) (c : Car) : (p.toAssessing c).stateOf c = (p.car c).assessedState.1 := by
  unfold Part.stateOf; rw [Part.toAssessing_own, CarBlock.stated_state]

theorem kept_change_toAssessing : Kept p (p.change c (·.toAssessing c)) := by
  have r := ((p.leaving c).car c).assessedState_rest
  refine kept_change (fun q => touchesOnly_toAssessing q c) (fun q => noticesKept_toAssessing q c)
    (by rw [Part.toAssessing_stateOf]; exact r.2.1) (fun m e => ?_) ?_
  · rw [← e, Part.toAssessing_stateOf, r.1] at m; simp at m
  · rw [Part.change_toAssessing_own]; exact carKept_assessed _ _

theorem Part.toReleasing_stateOf (p : Part) (c : Car) :
    (p.toReleasing c).stateOf c = ((p.car c).releasingFrom p.globals).record.state := by
  unfold Part.stateOf; rw [Part.toReleasing_own]

theorem kept_change_toReleasing (h : p.stateOf c ≠ .releasing) : Kept p (p.change c (·.toReleasing c)) := by
  have r := CarBlock.releasingFrom_rest ((p.leaving c).car c) (p.leaving c).globals
  refine kept_change (fun q => touchesOnly_toReleasing q c) (fun q => noticesKept_toReleasing q c)
    (by rw [Part.toReleasing_stateOf]; exact r.1) (fun m e => ?_) ?_
  · rw [← e, Part.toReleasing_stateOf, r.2] at m; simp at m
  · rw [Part.change_toReleasing_own _ _ h]; exact carKept_releasing _ _

end Sys2Proof.Machine
end

