-- ==== Sys2Proof/Proofs/KeptSupply.lean ====
section
/-!
PROOFS. The entries that commands make without a change of state (R60), the aborts, the converter, the mains belief and the
load keep the five invariants.
-/

namespace Sys2Proof.Machine

variable {p : Part} {c : Car}

/-! ## Updates that no invariant sees -/

theorem kept_modLine (p : Part) (c : Car) (f : CarLine → CarLine) : Kept p (p.modLine c f) :=
  kept_same (by constructor <;> first | rfl | exact ⟨rfl, rfl⟩)

theorem kept_modPolicy (p : Part) (c : Car) (f : CarPolicy → CarPolicy) : Kept p (p.modPolicy c f) :=
  kept_same (by constructor <;> first | rfl | exact ⟨rfl, rfl⟩)

theorem kept_modRecord (p : Part) (c : Car) {f : CarRecord → CarRecord} (h : ∀ r, (f r).state = r.state) :
    Kept p (p.modRecord c f) :=
  kept_same (by constructor <;> first | rfl | exact ⟨rfl, rfl⟩ | exact h _)

theorem kept_modInputs (p : Part) (c : Car) {f : CarInputs → CarInputs} (h : ∀ x, (f x).zone = x.zone) :
    Kept p (p.modInputs c f) :=
  kept_same (by constructor <;> first | rfl | exact ⟨rfl, rfl⟩ | exact congrArg _ (h _))

/-- An update of a brake that opens no channel. -/
theorem kept_modBrake (p : Part) (c : Car) {f : CarBrake → CarBrake}
    (h : ∀ x : CarBrake, (f x).anyOpen = true → x.anyOpen = true) : Kept p (p.modBrake c f) :=
  kept_modCar ⟨id, id, id, fun ⟨h1, h2, h3⟩ => ⟨fun k => h1 (h _ k), h2, h3⟩, id, id⟩

theorem kept_closeBrake (p : Part) (c : Car) : Kept p (p.closeBrake c) := kept_modBrake p c (by simp)

theorem kept_setAbort (p : Part) (c : Car) (cause : AbortCause) : Kept p (p.setAbort c cause) :=
  kept_modRecord p c fun _ => rfl

theorem kept_cancelIfDriving (p : Part) (c : Car) : Kept p (p.cancelIfDriving c) := by
  unfold Part.cancelIfDriving; split
  · split
    · exact kept_modLine p c _
    · exact .refl p
  · exact .refl p

/-- An update of the signals that lights no lamp, begins no pulse and keeps the tone to its bursts. -/
theorem kept_modSignals (p : Part) (c : Car) {f : CarSignals → CarSignals} (lamp : ∀ x, (f x).lamp = x.lamp)
    (unlock : ∀ x : CarSignals, (f x).unlockOutput = true → x.unlockOutput = true)
    (tone : ∀ x : CarSignals, x.inBursts → (f x).inBursts) : Kept p (p.modSignals c f) :=
  kept_modCar ⟨id, id, id, fun ⟨h1, h2, h3⟩ => ⟨h1, h2, fun k => h3 (unlock _ k)⟩,
    fun ⟨h1, h2⟩ => ⟨(lamp _).trans h1, tone _ h2⟩, id⟩

theorem kept_endPulse (p : Part) (c : Car) : Kept p (p.modSignals c (·.endPulse)) :=
  kept_modSignals p c (fun _ => rfl) (fun _ h => by simp [CarSignals.endPulse] at h) fun _ h => h

/-! ## Entries to NORMAL, and the judging of the stall condition -/

theorem kept_judgeStall (p : Part) (c : Car) : Kept p (p.judgeStall c) := by
  refine (touchesOnly_judgeStall p c).kept (.of_ports ?_ ?_) (by rw [Part.judgeStall_own]; exact carKept_judged _ _)
  all_goals simp only [Part.judgeStall]; split
  all_goals first | rfl | (split <;> rfl)

theorem kept_resetToNormal (h : isMoveState (p.stateOf c) = false) : Kept p (p.resetToNormal c) :=
  (touchesOnly_resetToNormal p c).kept (.of_ports rfl rfl) (by rw [p.resetToNormal_own c h]; exact carKept_returned _ _)

theorem kept_toNormal (h : isMoveState (p.stateOf c) = false) : Kept p (p.toNormal c) :=
  (kept_resetToNormal h).trans (kept_judgeStall _ _)

/-! ## Entries from outside the move states -/

theorem kept_setState {new : RescueState} (held : Option HeldCause) (ho : isMoveState (p.stateOf c) = false)
    (hm : isMoveState new = false) (hn : new ≠ .releasing) : Kept p (p.setState c new held) :=
  (touchesOnly_setState p c new held).kept (.of_ports rfl rfl)
    (by rw [Part.setState_own]; exact carKept_stated _ _ _ ho hm hn)

theorem kept_toHeld (cause : HeldCause) (h : isMoveState (p.stateOf c) = false) : Kept p (p.toHeld c cause) :=
  (kept_setState _ h rfl (by decide)).trans (kept_raiseCar _ c rfl)

theorem carKept_failedFrom {b : CarBlock} (g : Globals) (cause : AbortCause) (h : isMoveState b.record.state = false) :
    CarKept g b (b.failedFrom g cause) :=
  (carKept_stated (new := .failed) _ _ none h rfl (by decide)).trans
    (CarBlock.Same.kept _ (by constructor <;> first | rfl | exact ⟨rfl, rfl⟩))

theorem kept_toFailed (cause : AbortCause) (h : isMoveState (p.stateOf c) = false) : Kept p (p.toFailed c cause) :=
  (touchesOnly_toFailed p c cause).kept (noticesKept_toFailed p c cause)
    (by rw [Part.toFailed_own]; exact carKept_failedFrom _ cause h)

theorem kept_toRescued (h : isMoveState (p.stateOf c) = false) : Kept p (p.toRescued c) := by
  refine (touchesOnly_toRescued p c).kept (NoticesKept.trans (.of_ports rfl rfl) (noticesKept_raiseCar _ c rfl)) ?_
  rw [Part.toRescued_own]
  exact (carKept_stated (new := .rescued) _ _ none h rfl (by decide)).trans
    (CarBlock.Same.kept _ (by constructor <;> first | rfl | exact ⟨rfl, rfl⟩))

@[simp] theorem CarBlock.stated_zone (b : CarBlock) (g : Globals) (new : RescueState) (held : Option HeldCause) :
    (b.stated g new held).inputs.zone = b.inputs.zone := by
  simp only [CarBlock.stated]; split <;> rfl

@[simp] theorem CarBlock.releasedFrom_state (b : CarBlock) (g : Globals) : (b.releasedFrom g).record.state = .releasing := rfl
@[simp] theorem CarBlock.releasedFrom_slots (b : CarBlock) (g : Globals) : (b.releasedFrom g).slots = b.slots := rfl
@[simp] theorem CarBlock.releasedFrom_brake (b : CarBlock) (g : Globals) : (b.releasedFrom g).brake = b.brake := rfl
@[simp] theorem CarBlock.releasedFrom_isPlaced (b : CarBlock) (g : Globals) : (b.releasedFrom g).isPlaced g = b.isPlaced g := rfl
@[simp] theorem CarBlock.releasedFrom_zone (b : CarBlock) (g : Globals) : (b.releasedFrom g).inputs.zone = b.inputs.zone :=
  b.stated_zone g .releasing none

/-- An entry to RELEASING from outside the move states, from RELEASING too (R65). -/
theorem carKept_releasedFrom {b : CarBlock} {g : Globals} (ho : isMoveState b.record.state = false)
    (hz : b.inputs.zone.isOn = true) (hp : b.line.state = .alive ∨ b.isPlaced g = true) : CarKept g b (b.releasedFrom g) := by
  have nb : isBrakeState b.record.state = false ∧ (b.record.state == .driving) = false := by
    revert ho; cases b.record.state <;> simp [isMoveState, isBrakeState]
  have signals : (b.stated g .releasing none).signals = b.signals.follow g b.record.state .releasing := by
    simp [CarBlock.stated, leaves]
  refine ⟨fun ⟨h1, h2, h3⟩ => ⟨?_, ?_, ?_⟩, id, id, fun ⟨h1, h2, h3⟩ => ⟨?_, ?_, ?_⟩, fun ⟨h1, h2⟩ => ⟨?_, ?_⟩, id⟩
  · rw [b.releasedFrom_slots, h1, nb.1]; rfl
  · rw [b.releasedFrom_slots, h2, nb.2]; rfl
  · rw [b.releasedFrom_slots, h3, ho]; rfl
  · exact fun k => absurd (h1 k) (by simp [nb])
  · exact fun _ => by rw [b.releasedFrom_zone]; exact hz
  · intro k
    refine ⟨rfl, by rw [b.releasedFrom_zone]; exact hz, ?_⟩
    rw [b.releasedFrom_isPlaced]
    by_cases ha : b.line.state = .alive
    · simp only [CarBlock.releasedFrom, ha, if_true, CarSignals.requestTone_unlockOutput, signals] at k
      exact (h3 k).2.2
    · exact hp.resolve_left ha
  · simp only [CarBlock.releasedFrom, signals]; split <;> exact CarSignals.requestTone_lamp _ _ _
  · have := inBursts_requestTone g .release (x := b.signals.follow g b.record.state .releasing) h2
    simp only [CarBlock.releasedFrom, signals]; split <;> exact this

theorem kept_toReleasing (h : isMoveState (p.stateOf c) = false) : Kept p (p.toReleasing c) := by
  refine (touchesOnly_toReleasing p c).kept (noticesKept_toReleasing p c) ?_
  rw [Part.toReleasing_own]
  unfold CarBlock.releasingFrom; split
  · exact carKept_failedFrom _ _ h
  · split
    · exact carKept_stated _ _ _ h rfl (by decide)
    · next hz hp => exact carKept_releasedFrom h (by simpa using hz) (by
        by_contra k; rw [not_or] at k; exact hp ⟨k.1, by simpa using k.2⟩)

/-! ## Aborts -/

/-- A car leaves its state for ASSESSING, its last abort cause set on the way (R77). -/
theorem Part.change_abort_toAssessing_own (p : Part) (c : Car) (cause : AbortCause) :
    (p.change c fun p => (p.setAbort c cause).toAssessing c).car c =
      ({ p.car c with record := { (p.car c).record with lastAbort := some cause } } : CarBlock).assessed p.globals := by
  rw [Part.change_own_of p c _
    (fun b g => ({ b with record := { b.record with lastAbort := some cause } } : CarBlock).stated g b.assessedState.1
      b.assessedState.2)
    (fun q => by simp [Part.toAssessing_own, Part.setAbort, CarBlock.assessedState])
    (fun b g => by have r := b.assessedState_rest; simp [r.1, r.2.1])]
  have r := (p.car c).assessedState_rest
  exact CarBlock.moved_of_stated { p.car c with record := { (p.car c).record with lastAbort := some cause } } _ _ _ r.1
    fun _ => r.2.2

theorem carKept_lastAbort (g : Globals) (b : CarBlock) (cause : Option AbortCause) :
    CarKept g b { b with record := { b.record with lastAbort := cause } } :=
  CarBlock.Same.kept g (by constructor <;> first | rfl | exact ⟨rfl, rfl⟩)

theorem kept_change_abort_toAssessing (p : Part) (c : Car) (cause : AbortCause) :
    Kept p (p.change c fun p => (p.setAbort c cause).toAssessing c) := by
  have hst (q : Part) : ((q.setAbort c cause).toAssessing c).stateOf c = (q.car c).assessedState.1 := by
    rw [Part.toAssessing_stateOf]; simp [Part.setAbort, CarBlock.assessedState]
  have r := ((p.leaving c).car c).assessedState_rest
  refine kept_change (fun q => (touchesOnly_setAbort q c cause).trans (touchesOnly_toAssessing _ c))
    (fun q => NoticesKept.trans (q := q.setAbort c cause) (.of_ports rfl rfl) (noticesKept_toAssessing _ c)) (by rw [hst]; exact r.2.1) (fun m e => ?_) ?_
  · rw [← e, hst, r.1] at m; simp at m
  · rw [Part.change_abort_toAssessing_own]
    exact (carKept_lastAbort _ _ _).trans (carKept_assessed _ _)

theorem kept_change_abort_toHeld (p : Part) (c : Car) (abort : AbortCause) (cause : HeldCause) :
    Kept p (p.change c fun p => (p.setAbort c abort).toHeld c cause) := by
  have hst (q : Part) : ((q.setAbort c abort).toHeld c cause).stateOf c = .held := by simp [Part.stateOf, Part.toHeld_own]
  refine kept_change (fun q => (touchesOnly_setAbort q c abort).trans (touchesOnly_toHeld _ c cause))
    (fun q => NoticesKept.trans (q := q.setAbort c abort) (.of_ports rfl rfl) (noticesKept_toHeld _ c cause)) (by simp [hst]) (fun m e => ?_) ?_
  · rw [← e, hst] at m; simp [isMoveState] at m
  · rw [Part.change_abort_toHeld_own]
    exact (carKept_lastAbort _ _ _).trans (carKept_moved _ _ _ rfl (by decide))

theorem kept_loseSupply (p : Part) (c : Car) : Kept p (p.loseSupply c) :=
  (kept_cancelIfDriving p c).trans (kept_change_abort_toAssessing _ c _)

theorem kept_supplyLost (p : Part) (l : List Car) : Kept p (p.supplyLost l) :=
  foldl_keeps Kept.refl Kept.trans _ kept_loseSupply l p

/-! ## The converter and the mains belief -/

theorem kept_recompute (p : Part) : Kept p p.recompute := by
  have supply : Kept p (p.modSupply (·.recompute p.config.soc p.globals.reserveFloor)) := kept_modSupply id
  simp only [Part.recompute]; split
  · exact supply.trans (kept_select _)
  · exact supply

/-- The converter enters ON with its enable active: from WAKING alone (Table 20). -/
theorem kept_converterOn (h : p.supply.follows → p.supply.enable = true) : Kept p p.converterOn :=
  (kept_modSupply fun k => by simp [Supply.follows, h k]).trans (kept_select _)

theorem kept_converterWake (p : Part) : Kept p p.converterWake := by
  have wake : Kept p (p.modSupply fun s =>
      { s with converter := .waking, enable := true, wakeTimer := some p.globals.wakeLimit, standbyTimer := none }) :=
    kept_modSupply fun _ => by simp [Supply.follows]
  simp only [Part.converterWake]; split
  · exact wake.trans (kept_converterOn fun _ => rfl)
  · exact wake

theorem kept_converterStandby (p : Part) : Kept p p.converterStandby := by
  have standby : Kept p (p.modSupply fun s =>
      { s with converter := .standby, enable := false, wakeTimer := none, standbyTimer := none }) :=
    kept_modSupply fun _ => by simp [Supply.follows]
  simp only [Part.converterStandby]; split
  · exact standby.trans (kept_converterWake _)
  · exact standby

theorem kept_converterFault (p : Part) : Kept p p.converterFault :=
  (kept_modSupply fun _ => by simp [Supply.follows]).trans (kept_raise _ rfl)

theorem kept_converterBecomesReady (p : Part) : Kept p p.converterBecomesReady := by
  unfold Part.converterBecomesReady; split
  · next h => exact kept_converterOn fun k => k.mpr (.inl h)
  · exact .refl p

theorem kept_converterBecomesNotReady (p : Part) : Kept p p.converterBecomesNotReady := by
  unfold Part.converterBecomesNotReady; split
  · exact (kept_converterFault p).trans (kept_supplyLost _ _)
  · exact .refl p

theorem kept_wakeExpires (p : Part) : Kept p p.wakeExpires := by
  have counted : Kept p (p.modSupply fun s =>
      { s with wakeErrors := bump 255 s.wakeErrors, wakeFailures := bump 3 s.wakeFailures, wakeTimer := none }) :=
    kept_modSupply id
  simp only [Part.wakeExpires]; split
  · split
    · exact counted.trans (kept_converterFault _)
    · exact counted.trans (kept_converterStandby _)
  · exact .refl p

theorem kept_standbyExpires (p : Part) : Kept p p.standbyExpires := by
  unfold Part.standbyExpires; split
  · exact kept_converterStandby p
  · exact .refl p

theorem kept_settleDemand (before p : Part) : Kept p (settleDemand before p) := by
  unfold settleDemand
  split
  · split
    · exact kept_converterWake p
    · exact kept_modSupply id
    · exact .refl p
  · split
    · split
      · exact kept_modSupply id
      · exact .refl p
    · exact .refl p

theorem kept_believePresent (p : Part) : Kept p p.believePresent := by
  have believed : Kept p (p.modSupply fun s =>
      { s with belief := .present, converter := .off, enable := false, wakeTimer := none, standbyTimer := none
               wakeFailures := 0 }) := kept_modSupply fun _ => by simp [Supply.follows]
  simp only [Part.believePresent]; split
  · exact .refl p
  · refine Kept.trans ?_ (kept_select _)
    split
    · exact believed.trans (kept_supplyLost _ _)
    · exact believed

theorem kept_believeAbsent (p : Part) : Kept p p.believeAbsent := by
  have believed : Kept p (p.modSupply fun s => { s with belief := .absent }) := kept_modSupply id
  simp only [Part.believeAbsent]; split
  · exact .refl p
  · have moved := fun (q : Part) (h : Kept p q) =>
      (show Kept p (if q.supply.converter = .off then q.converterStandby else q) by
        split
        · exact h.trans (kept_converterStandby q)
        · exact h)
    split
    · exact (moved _ believed).trans (kept_supplyLost _ _)
    · exact moved _ believed

theorem kept_mainsAccepted (p : Part) (present : Bool) : Kept p (p.mainsAccepted present) := by
  unfold Part.mainsAccepted; split
  · exact kept_modSupply id
  · exact Kept.trans (kept_modSupply id) (kept_believeAbsent _)

theorem kept_mainsStableExpires (p : Part) : Kept p p.mainsStableExpires := by
  unfold Part.mainsStableExpires; split
  · exact Kept.trans (kept_modSupply id) (kept_believePresent _)
  · exact .refl p

end Sys2Proof.Machine
end

