-- ==== Sys2Proof/Proofs/KeptCommands.lean ====
section
/-!
PROOFS. Every command keeps the five invariants.
-/

namespace Sys2Proof.Machine

variable {p : Part} {c : Car}

/-! ## The load -/

theorem Part.loaded_car (p : Part) (x : Supply) (a : Fin 4) (c : Car) :
    (p.loaded x a).car c = p.freshCar (loadImage p.store.image).config c := by
  simp [Part.loaded, Part.car]

theorem noticeSetOrdered_loadImage (i : StoredImage) : NoticeSetOrdered (loadImage i).notices := by
  unfold loadImage; split
  · exact ⟨.nil, by simp⟩
  · exact ⟨List.pairwise_singleton _ _, by simp [carriesCar, noticeCode]⟩

/-- A part as a load leaves it is safe, whatever came before (R16). -/
theorem kept_loaded (p : Part) (a : Fin 4) {x : Supply} (h : x.follows) : Kept p (p.loaded x a) := by
  have slots (c : Car) : ((p.loaded x a).car c).slots = ⟨false, false, none⟩ := by rw [Part.loaded_car]; rfl
  have state (c : Car) : ((p.loaded x a).car c).record.state = .normal ∨ ((p.loaded x a).car c).record.state = .unconfigured := by
    rw [Part.loaded_car]
    show (if _ then _ else _) = _ ∨ (if _ then _ else _) = _
    split <;> simp
  refine ⟨fun _ => ⟨fun c => ?_, ?_, ?_⟩, fun _ => ?_, fun _ => ⟨h, fun c => ?_⟩, fun _ => ?_, fun _ c => ?_⟩
  · unfold CarBlock.accounted; rw [slots c]; rcases state c with e | e <;> rw [e] <;> simp [isBrakeState, isMoveState]
  · simp [Part.brakeHeld, slots]
  · simp [Part.driveHeld, slots]
  · rw [outputsGuarded_iff]; intro c
    refine ⟨fun k => ?_, fun k => ?_, fun k => ?_⟩
    · rw [Part.loaded_car] at k; cases k
    · rcases state c with e | e <;> rw [e] at k <;> cases k
    · rw [Part.loaded_car] at k; cases k
  · refine ⟨?_, fun y hy => ?_⟩
    · have : ((p.loaded x a).car c).signals.lamp = .off := by rw [Part.loaded_car]; rfl
      show ((p.loaded x a).car c).signals.lamp = lampOf ((p.loaded x a).car c).record.state
      rw [this]; rcases state c with e | e <;> rw [e] <;> rfl
    · rw [Part.loaded_car] at hy; cases hy
  · exact ⟨noticeSetOrdered_loadImage _, noticeSetOrdered_loadImage _⟩
  · rw [Part.loaded_car]; exact (by decide : (0 : Nat) < 61440)

theorem kept_softReset (p : Part) (a : Fin 4) : Kept p (p.softReset a) :=
  (kept_loaded p a (by simp [Supply.follows, Supply.kept, Supply.fresh])).trans (kept_recompute _)

theorem kept_resetByTransaction (p : Part) : Kept p p.resetByTransaction :=
  Kept.trans (q := { p with samples := p.samples + 1 }) (.of_same rfl rfl rfl rfl rfl) (kept_softReset _ _)

/-! ## Running -/

/-- The machine that a command leaves keeps the invariants. -/
def KeepsSafe (s : State) (o : Host.Outcome State Fault Refusal) : Prop := ∀ t, o = .next t → Kept s.toPart t.toPart

theorem keepsSafe_runPart {s : State} {f : Part → Part} (h : Kept s.toPart (f s.toPart)) : KeepsSafe s (runPart s f) := by
  rintro t ⟨⟩
  show Kept s.toPart (s.toPart.after f)
  unfold Part.after; split
  · exact h.trans (kept_settleDemand _ _)
  · exact .refl _

theorem kept_respond (a : Answer) (q : Port) : Kept a.part (a.respond q) := kept_modPort _ q fun _ => rfl

theorem kept_takeRequest (q : Port) (code : Byte) (body : List Byte) {h : Part → Answer}
    (k : ∀ p : Part, Kept p (h p).part) : Kept p (p.takeRequest q code body h) := by
  unfold Part.takeRequest; split
  · exact kept_resetByTransaction p
  · split
    · exact kept_modPort p q fun _ => rfl
    · exact (kept_respond _ q).after ((k _).after (kept_modPort p q fun _ => rfl))

theorem keepsSafe_runRequest {s : State} {q : Port} {code : Byte} {body : List Byte} {h : List Byte → Part → Answer}
    (k : ∀ payload (p : Part), Kept p (h payload p).part) : KeepsSafe s (runRequest s q code body h) :=
  keepsSafe_runPart (kept_takeRequest q code body fun p => by
    split
    · exact .refl p
    · exact k _ p)

theorem keepsSafe_runCarRequest {s : State} {q : Port} {code : Byte} {body : List Byte} {h : Car → List Byte → Part → Answer}
    (k : ∀ c rest (p : Part), Kept p (h c rest p).part) : KeepsSafe s (runCarRequest s q code body h) :=
  keepsSafe_runRequest fun payload p => by
    split
    · exact .refl p
    · exact k _ _ p

/-! ## Configuration and store -/

theorem kept_startSave (p : Part) : Kept p p.startSave := .of_same rfl rfl rfl rfl rfl

theorem kept_endSave (p : Part) (found : StoredImage) : Kept p (p.endSave found) := by
  unfold Part.endSave; split
  · exact (kept_raiseTo _ _ rfl).after (.of_same rfl rfl rfl rfl rfl)
  · exact (kept_raiseTo _ _ rfl).after (.of_same rfl rfl rfl rfl rfl)

theorem kept_markUnsaved (p : Part) : Kept p p.markUnsaved := .of_same rfl rfl rfl rfl rfl

theorem CarKept.setPlan {g : Globals} {b b' : CarBlock} (h : CarKept g b b') (x : PlanRecord) (weight : Nat) (mask : MethodSet)
    (k : isMoveState b'.record.state = false) :
    CarKept g b { b' with planner := { b'.planner with plan := x, weight := weight, mask := mask } } := by
  refine ⟨fun w => ?_, h.brakeSlot, h.driveSlot, h.guarded, h.shown, h.urgency⟩
  obtain ⟨h1, h2, h3⟩ := h.accounted w
  refine ⟨h1, h2, ?_⟩
  rw [k] at h3 ⊢; exact h3

/-- An update of the tracker of a car that is not in RELEASING, and of its inputs. -/
theorem kept_place (h : p.stateOf c ≠ .releasing) (t : Tracker → Tracker) (x : CarInputs → CarInputs) :
    Kept p (p.modCar c fun b => { b with tracker := t b.tracker, inputs := x b.inputs }) :=
  kept_modCar ⟨id, id, id, fun ⟨h1, _, h3⟩ => ⟨h1, fun k => (h k).elim, fun k => (h (h3 k).1).elim⟩, id, id⟩

theorem kept_seedTracker (z : Nat) (a : Anchor) (confirmed : Bool) (h : p.stateOf c ≠ .releasing) :
    Kept p (p.seedTracker c z a confirmed) :=
  kept_place h (fun _ => trackerSeed (p.entry c) z a confirmed) fun x => { x with odometry := 0 }

theorem kept_disturb (h : p.stateOf c ≠ .releasing) : Kept p (p.disturb c) := kept_place h trackerDisturb id

/-- A car as an accepted configuration write leaves it, once it is in the state of its entry (R6). -/
theorem carKept_fresh {b : CarBlock} {g : Globals} {e : CarEntry} {x : CarInputs} {t : Tracker} {s : CarSignals}
    (h : b.record.state = if e.present then .normal else .unconfigured) (hl : s.lamp = b.signals.lamp)
    (hp : s.playing = b.signals.playing) (hu : s.unlockOutput = b.signals.unlockOutput) :
    CarKept g b { b with
      record := .fresh e.present, tracker := t, inputs := x, planner := .fresh e.baseWeight, policy := .fresh, signals := s } := by
  have state : (CarRecord.fresh e.present).state = b.record.state := h.symm
  have quiet : isMoveState b.record.state = false ∧ b.record.state ≠ .releasing := by rw [h]; split <;> decide
  refine ⟨fun ⟨h1, h2, h3⟩ => ⟨?_, ?_, ?_⟩, id, id, fun ⟨h1, _, h3⟩ => ⟨?_, ?_, fun k => ?_⟩, fun ⟨h1, h2⟩ => ⟨?_, ?_⟩,
    fun _ => (by decide : (0 : Nat) < 61440)⟩
  · rw [state]; exact h1
  · rw [state]; exact h2
  · rw [quiet.1] at h3; rw [state, quiet.1]; exact h3
  · rw [state]; exact h1
  · rw [state]; exact fun k => (quiet.2 k).elim
  · exact (quiet.2 (h3 (hu ▸ k)).1).elim
  · rw [state]; exact hl.trans h1
  · exact fun y hy => h2 y (hp ▸ hy)

theorem kept_reinitialise {e : CarEntry} (h : isMoveState (p.stateOf c) = false) : Kept p (p.reinitialise c e) := by
  have quiet : isMoveState (if e.present then .normal else .unconfigured) = false ∧
      (if e.present then RescueState.normal else .unconfigured) ≠ .releasing := by split <;> decide
  refine (kept_askPass _ _).after ((kept_judgeStall _ _).after ((kept_markUnsaved _).after (Kept.after (kept_modCar ?_)
    (Kept.after (kept_setState none (p := { p with config := { p.config with cars := p.config.cars.set c e } }) h quiet.1 quiet.2)
      (.of_same rfl rfl rfl rfl rfl)))))
  exact carKept_fresh (by simp [Part.setState_own]) rfl rfl rfl

theorem kept_configureCar (p : Part) (c : Car) (e : Option CarEntry) : Kept p (p.configureCar c e).part := by
  simp only [Part.configureCar]; split
  · next h =>
    split
    · exact kept_reinitialise (by rcases h with h | h | h <;> rw [h] <;> rfl)
    · exact .refl p
  · exact .refl p

theorem kept_boundPulse (p : Part) (c : Car) : Kept p (p.boundPulse c) := by
  unfold Part.boundPulse; split
  · exact .refl p
  · exact kept_endPulse p c

/-- The blocks of a car whose unlock pulse is bounded (R176). -/
def CarBlock.bounded (b : CarBlock) (g : Globals) : CarBlock :=
  if b.record.state = .releasing ∧ b.inputs.zone.isOn = true ∧ b.isPlaced g = true then b
  else { b with signals := b.signals.endPulse }

theorem Part.boundPulse_eq (p : Part) (c : Car) : p.boundPulse c = p.modCar c (·.bounded p.globals) := by
  have bound : p.unlockBound c = true ↔ (p.car c).record.state = .releasing ∧ (p.car c).inputs.zone.isOn = true ∧
      (p.car c).isPlaced p.globals = true := by
    simp [Part.unlockBound, Part.stateOf, Part.zoneActive, Part.resolvedOrConfirmed_eq, and_assoc]
  unfold Part.boundPulse
  by_cases h : p.unlockBound c = true
  · rw [if_pos h]; exact (Part.modCar_self (f := (·.bounded p.globals)) (if_pos (bound.mp h))).symm
  · rw [if_neg h]
    exact Part.modCar_congr (if_neg fun k => h (bound.mpr k)).symm

/-- The fold that bounds every pulse bounds each car's. -/
theorem boundPulses_eq (p : Part) : allCars.foldl (fun p c => p.boundPulse c) p = p.mapCars (·.bounded p.globals) := by
  have fold (l : List Car) (g : Globals) (p : Part) (h : p.globals = g) :
      l.foldl (fun p c => p.boundPulse c) p = l.foldl (fun p c => p.modCar c (·.bounded g)) p := by
    induction l generalizing p with
    | nil => rfl
    | cons c l ih =>
      rw [List.foldl_cons, List.foldl_cons, p.boundPulse_eq, h]
      exact ih _ h
  rw [fold _ _ _ rfl, Part.foldl_modCar]

/-- An accepted WRITE_GLOBAL: no car holds a slot, as none moves, and every pulse is bounded anew (R7, R176). -/
theorem kept_applyGlobals {g : Globals} (h : p.anyMoving = false) : Kept p (p.applyGlobals g) := by
  have still (c : Car) : isMoveState (p.stateOf c) = false := by
    have := List.any_eq_false.mp h c (mem_allCars c); simpa using this
  unfold Part.applyGlobals
  refine (kept_recompute _).after ?_
  rw [boundPulses_eq]
  generalize hq : Part.mapCars _ _ = q
  have car (c : Car) : q.car c = ((p.car c).restartClocks).bounded g := by subst hq; simp; rfl
  have same (c : Car) : (q.car c).record = (p.car c).record ∧ (q.car c).slots = (p.car c).slots ∧
      (q.car c).planner = (p.car c).planner ∧ (q.car c).brake = (p.car c).brake ∧
      (q.car c).inputs.zone = (p.car c).inputs.zone ∧ (q.car c).signals.lamp = (p.car c).signals.lamp ∧
      (q.car c).signals.playing = (p.car c).signals.playing := by
    rw [car, CarBlock.bounded]; split <;> exact ⟨rfl, rfl, rfl, rfl, rfl, rfl, rfl⟩
  refine ⟨fun ⟨each, _, _⟩ => ⟨fun c => ?_, ?_, ?_⟩, fun k => ?_, fun ⟨k1, k2⟩ => ⟨?_, fun c => ?_⟩, ?_, fun k c => ?_⟩
  · obtain ⟨record, slots, planner, -⟩ := same c
    have := each c
    unfold CarBlock.accounted at this ⊢; rw [record, slots, planner]; exact this
  · have none (c : Car) : (q.car c).slots.brake = false := by
      rw [(same c).2.1, (each c).1]
      have := still c; unfold Part.stateOf at this; revert this
      cases (p.car c).record.state <;> simp [isMoveState, isBrakeState]
    simp [Part.brakeHeld, none]
  · have none (c : Car) : (q.car c).slots.drive = false := by
      rw [(same c).2.1, (each c).2.1]
      have := still c; unfold Part.stateOf at this; revert this
      cases (p.car c).record.state <;> simp [isMoveState]
    simp [Part.driveHeld, none]
  · rw [outputsGuarded_iff] at k ⊢
    intro c
    obtain ⟨record, -, -, brake, zone, -⟩ := same c
    obtain ⟨k1, k2, k3⟩ := k c
    refine ⟨by rw [record, brake]; exact k1, by rw [record, zone]; exact k2, fun out => ?_⟩
    have globals : q.globals = g := by subst hq; rfl
    rw [record, zone, globals]
    rw [car, CarBlock.bounded] at out ⊢
    split at out
    · next bound => rw [if_pos bound]; exact bound
    · simp [CarSignals.endPulse] at out
  · subst hq; exact k1
  · obtain ⟨record, -, -, -, -, lamp, playing⟩ := same c
    have := k2 c
    refine ⟨by show (q.car c).signals.lamp = lampOf (q.car c).record.state; rw [lamp, record]; exact this.1, fun y hy => ?_⟩
    rw [playing] at hy; exact this.2 y hy
  · subst hq; exact .of_ports rfl rfl
  · rw [(same c).2.2.1]; exact k c

theorem kept_applyCommit (p : Part) (k : Fin 16) (sel : FieldSet) (image : Rule) : Kept p (p.applyCommit k sel image) := by
  refine (kept_markUnsaved _).after (Kept.after (kept_mapCars fun c => ?_) (.of_same rfl rfl rfl rfl rfl))
  exact CarBlock.Same.kept _ (by constructor <;> first | rfl | exact ⟨rfl, rfl⟩)

theorem kept_applyCommits (p : Part) : Kept p p.applyCommits := by
  have fold := foldl_keeps Kept.refl Kept.trans (fun (p : Part) (c : PendingCommit) =>
      (p.applyCommit c.rule c.selected c.image).raiseTo c.port ⟨.commitDone, none⟩)
    (fun p c => (kept_raiseTo _ _ rfl).after (kept_applyCommit _ _ _ _)) p.commits p
  exact fold.trans (.of_same rfl rfl rfl rfl rfl)

theorem kept_commit (p : Part) (q : Port) (k : Fin 16) : Kept p (p.commit q k).part := by
  simp only [Part.commit]; split
  · exact .refl p
  · split
    · exact .refl p
    · split
      · exact .of_same rfl rfl rfl rfl rfl
      · exact kept_applyCommit p k _ _

/-- ACK_NOTICES takes pairs out of a pending set (R189). -/
theorem noticeSetOrdered_filter {l : List Notice} (f : Notice → Bool) (h : NoticeSetOrdered l) :
    NoticeSetOrdered (l.filter f) :=
  ⟨h.1.sublist (List.filter_sublist.map _), fun n hn => h.2 n (List.mem_of_mem_filter hn)⟩

theorem kept_ackNotices (p : Part) (q : Port) (f : Notice → Bool) :
    Kept p (p.modPort q fun x => { x with notices := x.notices.filter f }) := by
  refine .of_cars (fun c => by rw [Part.modPort_car]; exact .refl _ _) (p.modPort_globals q _)
    (by rw [Part.modPort_supply]; exact id) fun k => ?_
  cases q
  · exact ⟨noticeSetOrdered_filter f k.1, k.2⟩
  · exact ⟨k.1, noticeSetOrdered_filter f k.2⟩

end Sys2Proof.Machine
end

