-- ==== Sys2Proof/Proofs/KeptSteps.lean ====
section
/-!
PROOFS. Every command, and every step without one, keeps the five invariants; with it the obligations that say so.
-/

namespace Sys2Proof.Machine

variable {p : Part} {c : Car}

/-! ## Requests -/

theorem kept_abortForInhibit (p : Part) (c : Car) : Kept p (p.abortForInhibit c) := by
  unfold Part.abortForInhibit; split
  · exact ((kept_cancelIfDriving p c).trans (kept_closeBrake _ c)).trans (kept_setAbort _ c _)
  · exact .refl p

/-- The entry to INHIBITED (R79). -/
def Part.toInhibited (p : Part) (c : Car) : Part :=
  (p.setState c .inhibited none).modRecord c fun r => { r with attempts := 0 }

theorem Part.toInhibited_own (p : Part) (c : Car) : (p.toInhibited c).car c =
    (let m := (p.car c).stated p.globals .inhibited none; { m with record := { m.record with attempts := 0 } }) := by
  simp [Part.toInhibited, Part.setState_own]

theorem Part.change_toInhibited_own (p : Part) (c : Car) : (p.change c (·.toInhibited c)).car c =
    (let m := (p.car c).moved p.globals .inhibited none; { m with record := { m.record with attempts := 0 } }) := by
  rw [Part.change_own_of p c _
    (fun b g => let m := b.stated g .inhibited none; { m with record := { m.record with attempts := 0 } })
    (fun q => q.toInhibited_own c) (fun b g => by simp [isMoveState])]
  have := CarBlock.moved_of_stated (p.car c) p.globals .inhibited none rfl (by simp)
  rw [← this]; rfl

theorem touchesOnly_toInhibited (p : Part) (c : Car) : TouchesOnly c p (p.toInhibited c) :=
  (touchesOnly_setState p c _ _).trans (touchesOnly_modRecord _ c _)

theorem kept_change_toInhibited (p : Part) (c : Car) : Kept p (p.change c (·.toInhibited c)) := by
  have hst (q : Part) : (q.toInhibited c).stateOf c = .inhibited := by
    unfold Part.stateOf; rw [Part.toInhibited_own]; rfl
  refine kept_change (fun q => touchesOnly_toInhibited q c) (fun q => .of_ports rfl rfl) (by simp [hst]) (fun m e => ?_) ?_
  · rw [← e, hst] at m; simp [isMoveState] at m
  · rw [Part.change_toInhibited_own]
    exact (carKept_moved (new := .inhibited) _ _ none rfl (by decide)).trans
      (CarBlock.Same.kept _ (by constructor <;> first | rfl | exact ⟨rfl, rfl⟩))

theorem kept_setLanding (p : Part) (c : Car) (n : Nat) : Kept p (p.setLanding c n) := kept_modRecord p c fun _ => rfl

theorem kept_confirmed (p : Part) (c : Car) (zone : Nat) : Kept p (p.confirmed c zone) := by
  unfold Part.confirmed; split
  · next h =>
    split
    · exact Kept.trans (kept_setLanding p c _) (kept_change_toReleasing (by simp [Part.setLanding, Part.stateOf] at h ⊢; simp [h]))
    · exact .refl p
  · exact kept_setLanding p c _
  · exact kept_change_toAssessing
  · exact .refl p

theorem kept_putFirst (p : Part) (c : Car) : Kept p (p.putFirst c) := by
  have cleared : Kept p (p.mapCars fun b => { b with record := { b.record with first := false } }) :=
    kept_mapCars fun _ => CarBlock.Same.kept _ (by constructor <;> first | rfl | exact ⟨rfl, rfl⟩)
  exact cleared.trans (kept_modRecord _ c fun _ => rfl)

theorem kept_silence (p : Part) (c : Car) (t : Bool) : Kept p (p.modSignals c (·.silence t)) :=
  kept_modSignals p c (fun _ => rfl) (fun _ h => h) fun _ _ y hy => by cases hy

/-! ## Line events -/

theorem kept_handOver {f : ControllerFrame} {effect : Part → Part} (h : Kept p (effect p)) : Kept p (p.handOver c f effect) := by
  unfold Part.handOver
  refine (kept_modLine _ c _).after ?_
  split
  · exact h
  · exact kept_modLine p c _

theorem kept_releaseByFrame (p : Part) (c : Car) : Kept p (p.releaseByFrame c) := by
  have method : Kept p (p.modSignals c fun s => { s with releaseMethod := some .frame }) :=
    kept_modSignals p c (fun _ => rfl) (fun _ h => h) fun _ h => h
  refine method.trans ?_
  simp only [Part.releaseByFrame, Part.sendGateRelease]
  exact kept_modLine _ c _

theorem kept_takeStatus (p : Part) (c : Car) (record : StatusRecord) : Kept p (p.takeStatus c record) := by
  have quiet (q : Part) {x : RescueState} (h : q.stateOf c = x) (k : isMoveState x = false) : isMoveState (q.stateOf c) = false := by
    rw [h]; exact k
  have event (q : Part) (old : LineState) : Kept q (q.statusEvent c record old) := by
    have back (k : isMoveState (q.stateOf c) = false) : Kept q ((q.toNormal c).raiseCar .carReturned c) :=
      (kept_toNormal k).trans (kept_raiseCar _ c rfl)
    unfold Part.statusEvent
    split
    · exact kept_judgeStall q c
    · exact kept_judgeStall q c
    · next h => split; exacts [back (quiet q h rfl), .refl q]
    · next h => split; exacts [back (quiet q h rfl), .refl q]
    · next h => split; exacts [back (quiet q h rfl), .refl q]
    · next h =>
      split
      · exact back (quiet q h rfl)
      · split
        · exact kept_change_toReleasing (by rw [h]; decide)
        · exact .refl q
    · next h => split; exacts [kept_toNormal (quiet q h rfl), .refl q]
    · split; exacts [.refl q, kept_releaseByFrame q c]
    · exact .refl q
  have seed (q : Part) : Kept q (q.statusSeed c record) := by
    unfold Part.statusSeed; split
    · split
      · next h => exact kept_seedTracker _ _ _ (by rcases h with h | h <;> rw [h] <;> decide)
      · exact .refl q
    · exact .refl q
  have tally (q : Part) : Kept q (q.tallyStatus c record) := by
    unfold Part.tallyStatus; split
    · exact kept_modPolicy q c _
    · exact .refl q
  exact (seed _).after ((event _ _).after ((tally _).after (kept_modLine p c _)))

theorem Part.reportTaken_driving {id : Byte} (h : p.reportTaken c id = true) : p.stateOf c = .driving := by
  unfold Part.reportTaken at h; simp only [Bool.and_eq_true, beq_iff_eq] at h; exact h.2

theorem kept_moveDone (landing : Nat) (h : p.stateOf c = .driving) : Kept p (p.moveDone c landing) := by
  refine (kept_change_toReleasing ?_).after
    ((kept_setLanding _ c _).after (kept_seedTracker _ _ _ (by rw [h]; decide)))
  simpa [Part.stateOf, Part.setLanding, Part.seedTracker] using by unfold Part.stateOf at h; rw [h]; decide

/-- A car in RELEASING is pulsed where it is placed (R176, R177). -/
theorem kept_releaseByPulse (h : p.stateOf c = .releasing) (k : p.resolvedOrConfirmed c = true) :
    Kept p (p.releaseByPulse c) :=
  kept_modCar (f := fun b => { b with signals := b.signals.startPulse p.globals })
    ⟨id, id, id, fun ⟨h1, h2, _⟩ => ⟨h1, h2, fun _ => ⟨h, h2 h, k⟩⟩, fun ⟨h1, h2⟩ => ⟨h1, h2⟩, id⟩

theorem kept_loseLine (p : Part) (c : Car) : Kept p (p.loseLine c) := by
  unfold Part.loseLine
  extract_lets old p1 p2
  have first : Kept p p2 := by
    refine Kept.trans (kept_modLine p c fun l => { l with state := .lost }) ?_
    show Kept p1 p2
    simp only [p2]; split
    · exact .refl p1
    · exact kept_raiseCar p1 c rfl
  refine first.trans ?_
  split
  · next h =>
    unfold Part.lostWhileReleasing; split
    · exact kept_toHeld _ (by rw [h]; rfl)
    · next k =>
      split
      · exact kept_releaseByPulse h (by simpa using k)
      · exact .refl p2
  · exact kept_judgeStall p2 c

/-! ## Input events -/

/-- The acceptance of an input other than a zone. -/
theorem kept_setFilter {i : LevelInput} (h : ∀ c, i ≠ .zone c) (f : LevelFilter) : Kept p (p.setFilter i f) := by
  cases i with
  | zone c => exact (h c rfl).elim
  | chain c => exact kept_modInputs p c (f := fun x => { x with chain := f }) fun _ => rfl
  | lockout c => exact kept_modInputs p c (f := fun x => { x with lockout := f }) fun _ => rfl
  | mains => exact .of_same rfl rfl rfl rfl rfl
  | converter => exact .of_same rfl rfl rfl rfl rfl

theorem kept_firstAccepted (p : Part) (i : LevelInput) (level : Bool) : Kept p (p.firstAccepted i level) := by
  cases i with
  | zone c => exact kept_judgeStall p c
  | mains => exact kept_mainsAccepted p level
  | converter =>
    simp only [Part.firstAccepted]; split
    · exact kept_converterBecomesReady p
    · exact .refl p
  | chain c => exact .refl p
  | lockout c => exact .refl p

/-- The acceptance of a level of an input other than a zone. -/
theorem kept_acceptLevel {i : LevelInput} (h : ∀ c, i ≠ .zone c) {level : Bool} {changed : Part → Part}
    (k : ∀ q, Kept q (changed q)) : Kept p (p.acceptLevel i level changed) := by
  unfold Part.acceptLevel
  extract_lets q
  have set : Kept p q := kept_setFilter h _
  split
  · exact set.trans (kept_firstAccepted _ _ _)
  · split
    · exact set
    · exact set.trans (k _)

theorem kept_chainOpenEvent (p : Part) (c : Car) : Kept p (p.chainOpenEvent c) := by
  unfold Part.chainOpenEvent; split
  · exact (kept_cancelIfDriving p c).trans (kept_change_abort_toHeld _ c _ _)
  · split
    · next h => exact kept_toRescued (by rw [h]; rfl)
    · exact .refl p

theorem kept_lockoutOnEvent (p : Part) (c : Car) : Kept p (p.lockoutOnEvent c) := by
  simp only [Part.lockoutOnEvent]; split
  · refine (kept_cancelIfDriving p c).trans ?_
    by_cases h : p.stateOf c = .failed
    · simp only [h, if_true]; exact kept_change_toHeld _
    · simp only [h, if_false]; exact kept_change_abort_toHeld _ c _ _
  · exact .refl p

theorem kept_lockoutOffEvent (p : Part) (c : Car) : Kept p (p.lockoutOffEvent c) := by
  simp only [Part.lockoutOffEvent]; split
  · next h =>
    split
    · exact kept_setState none (by unfold Part.stateOf; rw [h.1]; rfl) rfl (by decide)
    · exact kept_change_toAssessing
  · exact .refl p

/-! ### Zone edges -/

theorem Part.setFilter_zone (p : Part) (c : Car) (f : LevelFilter) :
    p.setFilter (.zone c) f = p.modInputs c fun x => { x with zone := f } := rfl

/-- The blocks of a car with its zone input replaced. -/
def CarBlock.withZone (b : CarBlock) (f : LevelFilter) : CarBlock := { b with inputs := { b.inputs with zone := f } }

theorem Part.setFilter_zone_eq (p : Part) (c : Car) (f : LevelFilter) :
    p.setFilter (.zone c) f = p.modCar c (·.withZone f) := rfl

/-- The acceptance of a zone level of a car that is not in RELEASING. -/
theorem kept_setZone (h : p.stateOf c ≠ .releasing) (f : LevelFilter) : Kept p (p.setFilter (.zone c) f) :=
  kept_place h id fun x => { x with zone := f }

theorem kept_clearOdometry (p : Part) (c : Car) : Kept p (p.clearOdometry c) := kept_modInputs p c fun _ => rfl

theorem kept_updateTracker (kind : EdgeKind) (d : Dir) (h : p.stateOf c ≠ .releasing) : Kept p (p.updateTracker c kind d) := by
  simp only [Part.updateTracker]
  have update : Kept p (p.modTracker c fun _ =>
      (trackerUpdate (p.entry c) p.globals (p.car c).tracker kind d (p.distanceMm c).natAbs).1) :=
    kept_place h (fun _ => _) id
  split
  · exact update.trans (kept_raiseCar _ c rfl)
  · exact update

/-- The blocks of an entry to LEVELLING (R62, R181). -/
def CarBlock.levelledFrom (b : CarBlock) (g : Globals) : CarBlock :=
  let m := b.stated g .levelling none
  { m with
    record := { m.record with
      summary := { m.record.summary with
        landing := some (landingOf b.tracker.bestZone)
        methodUsed := if b.record.state = .probing then none else m.record.summary.methodUsed }
      dwellTimer := some g.stopDwell
      slipTimer := some (seconds g.slipLimit)
      motionAge := none }
    signals := m.signals.requestTone g .levelled }

theorem Part.toLevelling_own (p : Part) (c : Car) : (p.toLevelling c).car c = (p.car c).levelledFrom p.globals := by
  simp [Part.toLevelling, Part.setState_own, CarBlock.levelledFrom, Part.stateOf]

/-- A car that goes from PROBING or LOWERING to LEVELLING gives back its brake slot, keeps its reservation, and is closed
(R60, R62). -/
def CarBlock.levelled (b : CarBlock) (g : Globals) : CarBlock :=
  { b.levelledFrom g with slots := { b.slots with brake := false }, brake := b.brake.close }

theorem Part.change_toLevelling_own (h : isBrakeState (p.stateOf c) = true) :
    (p.change c (·.toLevelling c)).car c = (p.car c).levelled p.globals := by
  have hst (q : Part) : (q.toLevelling c).stateOf c = .levelling := by
    unfold Part.stateOf; rw [Part.toLevelling_own]; rfl
  rw [p.change_own c _ (by simp [hst]) (fun _ => by rw [hst]; intro e; rw [← e] at h; cases h)]
  rw [Part.toLevelling_own, Part.leaving_globals, Part.leaving_own]
  unfold Part.stateOf at h ⊢
  generalize p.car c = b at h
  obtain ⟨line, inputs, record, tracker, planner, policy, slots, brake, signals⟩ := b
  obtain ⟨state⟩ := record
  simp only at h
  cases state <;> first | exact absurd h (by decide) | rfl

theorem carKept_levelled {b : CarBlock} (g : Globals) (h : isBrakeState b.record.state = true) : CarKept g b (b.levelled g) := by
  have zone : (b.levelled g).inputs.zone = b.inputs.zone := b.stated_zone g .levelling none
  have moves : isMoveState b.record.state = true ∧ (b.record.state == .driving) = false ∧ b.record.state ≠ .releasing := by
    revert h; cases b.record.state <;> simp [isBrakeState, isMoveState]
  have signals : (b.levelled g).signals = (b.signals.follow g b.record.state .levelling).requestTone g .levelled := by
    simp [CarBlock.levelled, CarBlock.levelledFrom, CarBlock.stated, leaves, moves.2.2]
  refine ⟨fun ⟨_, h2, h3⟩ => ⟨rfl, ?_, ?_⟩, fun k => (by cases k), id, fun ⟨h1, _, h3⟩ => ⟨fun k => ?_, fun k => (by cases k), ?_⟩,
    fun ⟨h1, h2⟩ => ⟨?_, ?_⟩, id⟩
  · rw [moves.2.1] at h2; exact h2
  · rw [moves.1] at h3; exact h3
  · simp [CarBlock.levelled] at k
  · rw [signals, CarSignals.requestTone_unlockOutput]; exact fun k => (moves.2.2 (h3 k).1).elim
  · rw [signals, CarSignals.requestTone_lamp]; rfl
  · rw [signals]; exact inBursts_requestTone g _ h2

theorem kept_change_toLevelling (h : isBrakeState (p.stateOf c) = true) : Kept p (p.change c (·.toLevelling c)) := by
  have hst (q : Part) : (q.toLevelling c).stateOf c = .levelling := by
    unfold Part.stateOf; rw [Part.toLevelling_own]; rfl
  refine kept_change (fun q => touchesOnly_toLevelling q c)
    (fun q => (NoticesKept.of_ports rfl rfl).trans (noticesKept_raiseCar _ c rfl)) (by simp [hst])
    (fun _ => by rw [hst]; intro e; rw [← e] at h; cases h) ?_
  rw [Part.change_toLevelling_own h]
  exact carKept_levelled _ h

@[simp] theorem Part.closeBrake_stateOf (p : Part) (c d : Car) : (p.closeBrake c).stateOf d = p.stateOf d := by
  by_cases h : d = c <;> simp [Part.closeBrake, Part.stateOf, h]

@[simp] theorem Part.modInputs_stateOf (p : Part) (c d : Car) (f : CarInputs → CarInputs) :
    (p.modInputs c f).stateOf d = p.stateOf d := by
  by_cases h : d = c <;> simp [Part.stateOf, h]

theorem kept_landByEdge (d : Option Dir) (h : isBrakeState (p.stateOf c) = true) : Kept p (p.landByEdge c d) := by
  have level (q : Part) (k : Kept p q) (hq : q.stateOf c = p.stateOf c) : Kept p ((q.closeBrake c).change c (·.toLevelling c)) :=
    k.trans ((kept_closeBrake q c).trans (kept_change_toLevelling (by rw [Part.closeBrake_stateOf, hq, h])))
  simp only [Part.landByEdge]
  split
  · exact level _ (kept_modInputs p c (f := fun x => { x with move := x.move.takeDirection d }) fun _ => rfl)
      (Part.modInputs_stateOf _ _ _ _)
  · exact level p (.refl p) rfl

/-- The state of a car stands through what an edge does to its tracker. -/
theorem Part.updateTracker_stateOf (p : Part) (c : Car) (kind : EdgeKind) (d : Dir) :
    (p.updateTracker c kind d).stateOf c = p.stateOf c := by
  simp only [Part.updateTracker]; split <;> simp [Part.stateOf]

@[simp] theorem Part.disturb_stateOf (p : Part) (c : Car) : (p.disturb c).stateOf c = p.stateOf c := by
  simp [Part.disturb, Part.stateOf]

theorem kept_edgeInMove (kind : EdgeKind) (h : isMoveState (p.stateOf c) = true) : Kept p (p.edgeInMove c kind) := by
  have away : p.stateOf c ≠ .releasing := by intro e; rw [e] at h; cases h
  unfold Part.edgeInMove
  extract_lets d q r
  clear_value d
  have first : Kept p q ∧ q.stateOf c = p.stateOf c := by
    simp only [q]; split
    · exact ⟨kept_updateTracker kind _ away, p.updateTracker_stateOf c kind _⟩
    · exact ⟨kept_disturb away, p.disturb_stateOf c⟩
  refine (kept_clearOdometry _ c).after (first.1.trans ?_)
  simp only [r]; split
  · next k => exact kept_landByEdge d k.2
  · exact .refl q

/-- A zone edge of a car outside the move states and RELEASING (R53, R58). -/
theorem kept_zoneLevelEvent (kind : EdgeKind) (h : p.stateOf c ≠ .releasing) : Kept p (p.zoneLevelEvent c kind) := by
  unfold Part.zoneLevelEvent; split
  · exact kept_judgeStall p c
  · exact kept_judgeStall p c
  · exact kept_askPass p _
  · exact kept_change_toAssessing
  · next k => exact (h k).elim
  · exact .refl p

/-- A car in RELEASING that leaves its zone fails (R66): its tracker is disturbed on the way, its release ends. -/
theorem carKept_failedFrom_releasing {b : CarBlock} (g : Globals) (cause : AbortCause) (t : Tracker) (x : CarInputs)
    (h : b.record.state = .releasing) :
    CarKept g b (({ b with tracker := t, inputs := x } : CarBlock).failedFrom g cause) := by
  refine ⟨fun ⟨h1, h2, h3⟩ => ⟨?_, ?_, ?_⟩, id, id, fun ⟨h1, _, _⟩ => ⟨fun k => ?_, fun k => (by cases k), fun k => ?_⟩,
    fun ⟨_, h2⟩ => ⟨?_, ?_⟩, id⟩
  · rw [h] at h1; exact h1
  · rw [h] at h2; exact h2
  · rw [h] at h3; exact h3
  · have := h1 k; rw [h] at this; cases this
  · simp [CarBlock.failedFrom, CarBlock.stated, h, leaves, CarSignals.endRelease, CarSignals.endPulse] at k
  · simp [CarBlock.failedFrom, CarBlock.stated, h, leaves]; rfl
  · simp only [CarBlock.failedFrom, CarBlock.stated, h, leaves]; exact h2

/-- A zone edge of a car in RELEASING, from the level that it replaces: an ENTER edge finds no such car in its zone (R66). -/
theorem kept_edgeAtRest_releasing {kind : EdgeKind} {f : LevelFilter} (h : p.stateOf c = .releasing)
    (entered : kind = .enter → (p.car c).inputs.zone.isOn = false) :
    Kept p ((p.setFilter (.zone c) f).edgeAtRest c kind) := by
  refine (kept_clearOdometry _ c).after ?_
  have state : ((p.setFilter (.zone c) f).disturb c).stateOf c = .releasing := by
    rw [Part.disturb_stateOf, Part.setFilter_zone, Part.modInputs_stateOf, h]
  have touches : TouchesOnly c p ((p.setFilter (.zone c) f).disturb c) :=
    (touchesOnly_modInputs p c _).trans (touchesOnly_modTracker _ c _)
  have own : ((p.setFilter (.zone c) f).disturb c).car c =
      { p.car c with tracker := trackerDisturb (p.car c).tracker, inputs := { (p.car c).inputs with zone := f } } := by
    simp [Part.disturb, Part.setFilter_zone]
  unfold Part.zoneLevelEvent
  rw [state]
  simp only
  split
  · refine (touches.trans (touchesOnly_toFailed _ c _)).kept (noticesKept_toFailed _ c .stopOutsideZone) ?_
    rw [Part.toFailed_own, own]
    exact carKept_failedFrom_releasing _ _ _ _ h
  · next hk =>
    have outside := entered (by cases kind; rfl; exact (hk rfl).elim)
    rw [Part.boundPulse_eq]
    refine (touches.trans (touchesOnly_modCar _ c _)).kept (.of_ports rfl rfl) ?_
    rw [Part.modCar_car, if_pos rfl, own]
    have contradiction : ¬(p.car c).guarded p.globals := fun ⟨_, k, _⟩ => by simp [k h] at outside
    generalize p.car c = b at *
    unfold CarBlock.bounded; split <;> exact ⟨id, id, id, fun k => (contradiction k).elim, id, id⟩

/-- The first acceptance of a zone level: an UNKNOWN level meets neither meaning, so the car is released nowhere (R37). -/
theorem kept_setZone_first (h : (p.car c).inputs.zone.accepted = none) (f : LevelFilter) : Kept p (p.setFilter (.zone c) f) := by
  have outside : (p.car c).inputs.zone.isOn = false := by simp [LevelFilter.isOn, h]
  refine kept_modCar (f := (·.withZone f)) ⟨id, id, id, fun ⟨h1, h2, h3⟩ => ⟨h1, fun k => ?_, fun k => ?_⟩, id, id⟩
  · have := h2 k; simp [outside] at this
  · have := (h3 k).2.1; simp [outside] at this

theorem kept_zoneEdge (p : Part) (c : Car) (kind : EdgeKind) : Kept p (p.acceptLevel (.zone c) (kind == .enter) fun p =>
    if isMoveState (p.stateOf c) then p.edgeInMove c kind else p.edgeAtRest c kind) := by
  unfold Part.acceptLevel
  extract_lets q
  have state : q.stateOf c = p.stateOf c := Part.modInputs_stateOf _ _ _ _
  have same : q = p.modCar c (·.withZone ⟨kind == .enter, some (kind == .enter), none⟩) := p.setFilter_zone_eq c _
  split
  · next first => exact Kept.trans (kept_setZone_first first _) (kept_judgeStall q c)
  · next old hold =>
    have hold : (p.car c).inputs.zone.accepted = some old := hold
    split
    · next e =>
      rw [same]
      exact kept_same ⟨rfl, (hold.trans (congrArg some e)).symm, rfl, le_rfl, rfl, rfl, ⟨rfl, rfl⟩, rfl, rfl, rfl⟩
    · next differs =>
      beta_reduce
      by_cases h : p.stateOf c = .releasing
      · rw [if_neg (by rw [state, h]; decide)]
        refine kept_edgeAtRest_releasing h fun k => ?_
        subst k; cases old
        · simp [LevelFilter.isOn, hold]
        · exact (differs rfl).elim
      · have set : Kept p q := kept_setZone h _
        refine set.trans ?_
        rw [← state] at h
        split
        · next moves => exact kept_edgeInMove kind moves
        · exact (kept_clearOdometry _ c).after ((kept_zoneLevelEvent kind (by rwa [Part.disturb_stateOf])).after (kept_disturb h))

end Sys2Proof.Machine
end

