-- ==== Sys2Proof/Proofs/Invariants.lean ====
section
/-!
PROOFS. The encoder, the brake frame, the passes and the timers keep the five invariants; then every command does, and every
step. The obligations on the invariants follow.
-/

namespace Sys2Proof.Machine

variable {p : Part} {c : Car}

/-! ## The encoder -/

theorem kept_modMove (p : Part) (c : Car) (f : MoveRecord → MoveRecord) :
    Kept p (p.modInputs c fun x => { x with move := f x.move }) := kept_modInputs p c fun _ => rfl

theorem kept_motionCount (p : Part) (c : Car) : Kept p (p.motionCount c) := by
  unfold Part.motionCount; split
  · exact kept_modRecord p c fun _ => rfl
  · exact .refl p

theorem kept_reversalEvent (p : Part) (c : Car) : Kept p (p.reversalEvent c) := by
  unfold Part.reversalEvent; split
  · exact (kept_cancelIfDriving p c).trans (kept_change_toFailed _)
  · exact .refl p

theorem kept_checkReversal (p : Part) (c : Car) : Kept p (p.checkReversal c) := by
  unfold Part.checkReversal; split
  · exact (kept_reversalEvent _ c).after ((kept_closeBrake _ c).after (kept_modMove p c fun m => { m with armed := false }))
  · exact .refl p

theorem kept_checkRunLimit (p : Part) (c : Car) (before : Int) : Kept p (p.checkRunLimit c before) := by
  simp only [Part.checkRunLimit]; split
  · exact (kept_closeBrake p c).trans (kept_change_toFailed _)
  · exact .refl p

theorem kept_countStep (p : Part) (c : Car) (d : Dir) : Kept p (p.countStep c d) :=
  (kept_checkRunLimit _ c _).after ((kept_checkReversal _ c).after ((kept_motionCount _ c).after
    (kept_modInputs p c fun _ => rfl)))

theorem kept_sampleEncoder (p : Part) (c : Car) (new : Bool × Bool) : Kept p (p.sampleEncoder c new) := by
  have sampled : Kept p (p.modInputs c fun x => { x with encoder := some new }) := kept_modInputs p c fun _ => rfl
  simp only [Part.sampleEncoder]; split
  · exact sampled
  · split
    · exact sampled
    · exact sampled.trans (kept_countStep _ c _)
    · exact sampled.trans (kept_countStep _ c _)
    · exact sampled.trans (kept_modInputs _ c fun _ => rfl)

/-! ## The brake frame -/

theorem kept_probeEnd (p : Part) (c : Car) : Kept p (p.probeEnd c) := by
  simp only [Part.probeEnd]; split
  · exact kept_change_toAssessing.after (kept_modRecord p c fun _ => rfl)
  · exact .refl p

theorem kept_judgeProbe (p : Part) (c : Car) : Kept p (p.judgeProbe c) := by
  unfold Part.judgeProbe; split
  · exact (kept_closeBrake p c).trans (kept_probeEnd _ c)
  · exact .refl p

theorem kept_lock (p : Part) (c : Car) : Kept p (p.modBrake c (·.lock)) := kept_modBrake p c (by simp)

theorem kept_overspeed (p : Part) (c : Car) : Kept p (p.overspeed c) := by
  simp only [Part.overspeed]; split
  · exact (kept_lock p c).trans (kept_change_toFailed _)
  · exact kept_lock p c

theorem kept_setShadow (p : Part) (c : Car) (e : CarEntry) (share : CarBrake → Nat) :
    Kept p (p.modBrake c fun b => if share b = b.shadowA then b else b.setShadow e (share b)) :=
  kept_modBrake p c fun x h => by split at h <;> exact h

theorem kept_lastSpeed (p : Part) (c : Car) (speed : Option Nat) : Kept p (p.modBrake c fun b => { b with lastSpeed := speed }) :=
  kept_modBrake p c fun _ h => h

theorem kept_regulate (p : Part) (c : Car) : Kept p (p.regulate c) := by
  unfold Part.regulate
  extract_lets w e speed q
  have measured : Kept p q := kept_lastSpeed p c _
  split
  · exact measured.trans (kept_overspeed q c)
  · exact measured.trans (kept_setShadow q c e fun b => regulatedShare e q.globals speed b.shadowA)

theorem kept_frameEnd (p : Part) (c : Car) : Kept p (p.frameEnd c) := by
  have counted : Kept p (p.modBrake c fun b => { b with framesOpen := bump 65535 b.framesOpen }) :=
    kept_modBrake p c fun _ h => h
  simp only [Part.frameEnd]; split
  · split
    · exact counted.trans (kept_regulate _ c)
    · exact counted.trans (kept_judgeProbe _ c)
    · exact counted
  · exact .refl p

theorem same_frameStart (b : CarBlock) : b.Same b.frameStart := by
  have channels : b.brake.frameStart.channelA = b.brake.channelA ∧ b.brake.frameStart.channelB = b.brake.channelB := by
    unfold CarBrake.frameStart; split <;> exact ⟨rfl, rfl⟩
  refine ⟨rfl, ?_, rfl, le_rfl, rfl, rfl, channels, rfl, rfl, rfl⟩
  simp only [CarBlock.frameStart]; split <;> rfl

theorem kept_boundary (p : Part) (c : Car) : Kept p (p.boundary c) :=
  (kept_same (same_frameStart _)).after ((kept_frameEnd _ c).after (kept_modInputs p c fun _ => rfl))

/-! ## The end of a pass -/

/-- The states in which a car may stand while a pass writes its result. -/
def Part.resting (p : Part) (c : Car) : Prop := isMoveState (p.stateOf c) = false

theorem kept_takeResult (plan : PlanRecord) (h : isMoveState (p.stateOf c) = false) : Kept p (p.takeResult c plan) := by
  unfold Part.takeResult; split
  · refine (kept_toReleasing ?_).after (kept_modRecord p c fun _ => rfl)
    simpa [Part.stateOf] using h
  · exact kept_setState none h rfl (by decide)
  · split
    · exact .refl p
    · exact kept_toHeld _ h

theorem touchesOnly_takeResult (p : Part) (c : Car) (plan : PlanRecord) : TouchesOnly c p (p.takeResult c plan) := by
  unfold Part.takeResult; split
  · exact (touchesOnly_modRecord p c _).trans (touchesOnly_toReleasing _ c)
  · exact touchesOnly_setState p c _ _
  · split
    · exact .refl c p
    · exact touchesOnly_toHeld p c _

/-- A car that takes a result goes to no move state (R57). -/
theorem Part.takeResult_stateOf (p : Part) (c : Car) (plan : PlanRecord) (h : isMoveState (p.stateOf c) = false) :
    isMoveState ((p.takeResult c plan).stateOf c) = false := by
  unfold Part.takeResult; split
  · rw [Part.toReleasing_stateOf]; exact (CarBlock.releasingFrom_rest _ _).2
  · simp [isMoveState]
  · split
    · exact h
    · simp [Part.toHeld, isMoveState, Part.stateOf, Part.setState_own]

theorem kept_writeResult (pass : Pass) (s : CarSnapshot) (h : isMoveState (p.stateOf s.car) = false) :
    Kept p (p.writeResult pass s) := by
  unfold Part.writeResult
  extract_lets r q
  have planned : Kept p q := kept_modCar ((CarKept.refl _ _).setPlan _ _ _ h)
  refine planned.trans (kept_takeResult _ ?_)
  simpa [q, Part.stateOf] using h

theorem touchesOnly_writeResult (p : Part) (pass : Pass) (s : CarSnapshot) : TouchesOnly s.car p (p.writeResult pass s) :=
  (touchesOnly_modPlanner p s.car _).trans (touchesOnly_takeResult _ _ _)

theorem Part.writeResult_stateOf (p : Part) (pass : Pass) (s : CarSnapshot) (h : isMoveState (p.stateOf s.car) = false) :
    isMoveState ((p.writeResult pass s).stateOf s.car) = false := by
  unfold Part.writeResult
  exact Part.takeResult_stateOf _ _ _ (by simpa [Part.stateOf] using h)

/-- The results of a pass are written to cars outside the move states, which they leave there (R57, R128). -/
theorem kept_writeResults (pass : Pass) (l : List CarSnapshot) (h : ∀ s ∈ l, isMoveState (p.stateOf s.car) = false) :
    Kept p (l.foldl (fun p s => p.writeResult pass s) p) := by
  induction l generalizing p with
  | nil => exact .refl p
  | cons s l ih =>
    have hs := h s (by simp)
    refine (kept_writeResult pass s hs).trans (ih fun x hx => ?_)
    by_cases e : x.car = s.car
    · rw [e]; exact p.writeResult_stateOf pass s hs
    · rw [(touchesOnly_writeResult p pass s).stateOf e]; exact h x (by simp [hx])

theorem kept_stepRuleCounter (p : Part) (pass : Pass) (takers : List Car) (c : Car) (i : Fin 16) :
    Kept p (p.stepRuleCounter pass takers c i) := by
  simp only [Part.stepRuleCounter]; split
  · refine (kept_raiseCar _ c rfl).after ?_
    exact Kept.trans (kept_modPolicy p c _) (kept_modRecord _ c fun _ => rfl)
  · exact kept_modPolicy p c _

theorem kept_stepCounters (p : Part) (pass : Pass) (takers : List Car) : Kept p (p.stepCounters pass takers) :=
  foldl_keeps Kept.refl Kept.trans _
    (fun p c => foldl_keeps Kept.refl Kept.trans _ (fun p i => kept_stepRuleCounter p pass takers c i) allRules p) allCars p

theorem isMoveState_of_isPlanned {r : CarRecord} (h : isPlanned r = true) : isMoveState r.state = false := by
  unfold isPlanned at h; revert h; cases r.state <;> simp [isMoveState]

theorem kept_endPass (p : Part) (pass : Pass) : Kept p (p.endPass pass) := by
  unfold Part.endPass
  extract_lets takers q r
  have results : Kept p (takers.foldl (fun p s => p.writeResult pass s) p) :=
    kept_writeResults pass _ fun s hs => isMoveState_of_isPlanned (List.mem_filter.mp hs).2
  exact (((results.trans (kept_settleDemand p _)).trans
    ((kept_stepCounters _ _ _).trans (kept_applyCommits _))).trans (kept_select _)).trans (kept_nextPass _)

/-! ## Timers -/

theorem kept_trap (h : p.stateOf c = .confirming) : Kept p (p.trap c) := by
  unfold Part.trap
  extract_lets w q
  refine Kept.trans ?_ (kept_raiseCar q c rfl)
  refine kept_modCar ⟨fun ⟨h1, h2, h3⟩ => ⟨h1, h2, ?_⟩, id, id, id, id, fun _ => (by decide : (0 : Nat) < 61440)⟩
  unfold Part.stateOf at h
  simp only [h] at h3 ⊢; exact h3

theorem inBursts_endPattern {x : CarSignals} (g : Globals) : (x.endPattern g).inBursts := by
  unfold CarSignals.endPattern; split
  · exact inBursts_playingAt rfl
  · intro y hy; cases hy

theorem kept_segmentEnd (p : Part) (c : Car) : Kept p (p.modSignals c (·.segmentEnd p.globals)) := by
  have other (x : CarSignals) : (x.segmentEnd p.globals).lamp = x.lamp ∧
      (x.segmentEnd p.globals).unlockOutput = x.unlockOutput := by
    unfold CarSignals.segmentEnd; split
    · split
      · exact ⟨rfl, rfl⟩
      · unfold CarSignals.endPattern; split <;> exact ⟨rfl, rfl⟩
    · exact ⟨rfl, rfl⟩
  refine kept_modSignals p c (fun x => (other x).1) (fun x h => (other x).2 ▸ h) fun x h => ?_
  unfold CarSignals.segmentEnd; split
  · split
    · next next' hn => exact inBursts_playingAt hn.symm
    · exact inBursts_endPattern _
  · exact h

theorem Playing.segment_of_inBurst {y : Playing} (h : y.inBurst = true) : y.segment % 2 = 0 := by
  simp only [Playing.inBurst, Option.any_eq_true] at h
  obtain ⟨seg, hs, hb⟩ := h
  have := inBursts_playingAt (x := { CarSignals.fresh with playing := playingAt y.pattern y.segment 0 0 }) rfl
    ⟨y.pattern, y.segment, seg.2, 0, 0, seg.1⟩ (by simp [playingAt, hs]) hb
  exact this

theorem kept_toggle (p : Part) (c : Car) : Kept p (p.modSignals c (·.toggle)) := by
  refine kept_modSignals p c (fun _ => rfl) (fun _ h => h) fun x h y hy ho => ?_
  obtain ⟨z, hz, rfl⟩ := Option.map_eq_some_iff.mp hy
  by_cases burst : z.inBurst = true
  · rw [if_pos burst]; exact z.segment_of_inBurst burst
  · rw [if_neg burst] at ho ⊢; exact h z hz ho

theorem kept_reassure (p : Part) (c : Car) : Kept p (p.modSignals c (·.reassure p.globals)) := by
  have other (x : CarSignals) : (x.reassure p.globals).lamp = x.lamp ∧ (x.reassure p.globals).unlockOutput = x.unlockOutput := by
    simp only [CarSignals.reassure]; split
    · split <;> simp
    · exact ⟨rfl, rfl⟩
  refine kept_modSignals p c (fun x => (other x).1) (fun x h => (other x).2 ▸ h) fun x h => ?_
  simp only [CarSignals.reassure]; split
  · split
    · exact h
    · exact inBursts_requestTone _ _ h
  · exact h

theorem kept_unlockTimer (p : Part) (c : Car) :
    Kept p (p.modSignals c fun x => if x.unlockTimer.isSome then x.endPulse else x) := by
  refine kept_modSignals p c (fun x => ?_) (fun x h => ?_) fun x h => ?_
  · split <;> rfl
  · split at h
    · cases h
    · exact h
  · split <;> exact h

theorem kept_shareEnd (p : Part) (c : Car) (ch : Channel) : Kept p (p.modBrake c (·.shareEnd ch)) := by
  refine kept_modBrake p c fun x h => ?_
  cases ch <;> simp only [CarBrake.shareEnd] at h <;> split at h <;> exact h

/-! ## Commands -/

/-- An accepted request keeps what its handling keeps. -/
theorem kept_accept {p q : Part} (h : Kept p q) : Kept p q.accept.part := h

/-- A request that is refused unless a condition holds. -/
theorem kept_answer_of {b : Prop} [Decidable b] {p : Part} {x y : Answer} (hx : b → Kept p x.part) (hy : Kept p y.part) :
    Kept p (if b then x else y).part := by
  split
  · next h => exact hx h
  · exact hy

theorem keepsSafe_readCar (s : State) (q : Port) (body : List Byte) : KeepsSafe s (execReadCar q body s) :=
  keepsSafe_runCarRequest fun _ _ p => .refl p

theorem keepsSafe_readTracker (s : State) (q : Port) (body : List Byte) : KeepsSafe s (execReadTracker q body s) := by
  refine keepsSafe_runCarRequest fun c _ p => ?_
  dsimp only
  split
  · exact .refl p
  · split
    · exact kept_modPort p q (f := fun x => { x with cursor := some (c, _) }) fun _ => rfl
    · exact .refl p

theorem keepsSafe_readSupply (s : State) (q : Port) (body : List Byte) : KeepsSafe s (execReadSupply q body s) :=
  keepsSafe_runRequest fun _ p => .refl p

theorem keepsSafe_readRule (s : State) (q : Port) (body : List Byte) : KeepsSafe s (execReadRule q body s) :=
  keepsSafe_runRequest fun _ p => by split <;> exact .refl p

theorem keepsSafe_readStage (s : State) (q : Port) (body : List Byte) : KeepsSafe s (execReadStage q body s) :=
  keepsSafe_runRequest fun _ p => .refl p

theorem keepsSafe_readConfig (s : State) (q : Port) (body : List Byte) : KeepsSafe s (execReadConfig q body s) :=
  keepsSafe_runRequest fun _ p => by split <;> exact .refl p

theorem keepsSafe_readNotices (s : State) (q : Port) (body : List Byte) : KeepsSafe s (execReadNotices q body s) :=
  keepsSafe_runRequest fun _ p => .refl p

theorem keepsSafe_readLine (s : State) (q : Port) (body : List Byte) : KeepsSafe s (execReadLine q body s) :=
  keepsSafe_runCarRequest fun _ _ p => .refl p

theorem keepsSafe_unknownCommandRequest (s : State) (q : Port) (code : Byte) (body : List Byte) : KeepsSafe s (execUnknownCommandRequest q code body s) := by
  show KeepsSafe s (if isUnknownCode q code then _ else _)
  split
  · exact keepsSafe_runRequest fun _ p => .refl p
  · rintro t ⟨⟩

theorem keepsSafe_ackNotices (s : State) (q : Port) (body : List Byte) : KeepsSafe s (execAckNotices q body s) :=
  keepsSafe_runRequest fun _ p => by
    split
    · exact kept_ackNotices p q _
    · exact .refl p

theorem keepsSafe_setNoticeEnable (s : State) (q : Port) (body : List Byte) : KeepsSafe s (execSetNoticeEnable q body s) :=
  keepsSafe_runRequest fun _ p => by
    split
    · exact kept_accept (kept_modPort p q fun _ => rfl)
    · exact .refl p

theorem keepsSafe_stageRule (s : State) (q : Port) (body : List Byte) : KeepsSafe s (execStageRule q body s) :=
  keepsSafe_runRequest fun _ p => by
    split
    · exact kept_accept (kept_modPort p q fun _ => rfl)
    · exact .refl p

theorem keepsSafe_clearStage (s : State) (q : Port) (body : List Byte) : KeepsSafe s (execClearStage q body s) :=
  keepsSafe_runRequest fun _ p => kept_accept (kept_modPort p q fun _ => rfl)

theorem keepsSafe_commitRule (s : State) (q : Port) (body : List Byte) : KeepsSafe s (execCommitRule q body s) :=
  keepsSafe_runRequest fun _ p => by
    split
    · exact kept_commit p q _
    · exact .refl p

theorem keepsSafe_clearCar (s : State) (q : Port) (body : List Byte) : KeepsSafe s (execClearCar q body s) :=
  keepsSafe_runCarRequest fun c _ p =>
    kept_answer_of (fun h => kept_toNormal (by rw [h]; rfl)) (.refl p)

theorem keepsSafe_clearSupplyFault (s : State) (q : Port) (body : List Byte) : KeepsSafe s (execClearSupplyFault q body s) :=
  keepsSafe_runRequest fun _ p =>
    kept_answer_of (fun _ => (kept_modSupply id).trans (kept_converterStandby _)) (.refl p)

theorem keepsSafe_clearLineCounts (s : State) (q : Port) (body : List Byte) : KeepsSafe s (execClearLineCounts q body s) :=
  keepsSafe_runCarRequest fun c _ p => kept_accept (kept_modLine p c _)

theorem keepsSafe_writeCarParams (s : State) (q : Port) (body : List Byte) : KeepsSafe s (execWriteCarParams q body s) :=
  keepsSafe_runCarRequest fun c _ p => kept_configureCar p c _

theorem keepsSafe_writeMap (s : State) (q : Port) (body : List Byte) : KeepsSafe s (execWriteMap q body s) :=
  keepsSafe_runCarRequest fun c _ p => kept_configureCar p c _

theorem keepsSafe_writeRuleset (s : State) (q : Port) (body : List Byte) : KeepsSafe s (execWriteRuleset q body s) :=
  keepsSafe_runCarRequest fun c _ p => kept_configureCar p c _

theorem keepsSafe_writeGlobal (s : State) (q : Port) (body : List Byte) : KeepsSafe s (execWriteGlobal q body s) := by
  refine keepsSafe_runRequest fun _ p => ?_
  split
  · exact .refl p
  · next h =>
    split
    · exact kept_accept (kept_applyGlobals (Bool.eq_false_iff.mpr h))
    · exact .refl p

theorem keepsSafe_writeSocTable (s : State) (q : Port) (body : List Byte) : KeepsSafe s (execWriteSocTable q body s) :=
  keepsSafe_runRequest fun _ p => by
    split
    · next table _ =>
      have written : Kept p { p with config := { p.config with soc := table } } := .of_same rfl rfl rfl rfl rfl
      exact (written.trans (kept_markUnsaved _)).trans (kept_recompute _)
    · exact .refl p

theorem keepsSafe_saveSettings (s : State) (q : Port) (body : List Byte) : KeepsSafe s (execSaveSettings q body s) :=
  keepsSafe_runRequest fun _ p => kept_answer_of (fun _ => kept_startSave p) (.refl p)

theorem keepsSafe_reset (s : State) (q : Port) (body : List Byte) : KeepsSafe s (execReset q body s) :=
  keepsSafe_runRequest fun _ p => kept_answer_of (fun _ => .of_same rfl rfl rfl rfl rfl) (.refl p)

theorem keepsSafe_inhibitCar (s : State) (q : Port) (body : List Byte) : KeepsSafe s (execInhibitCar q body s) := by
  refine keepsSafe_runCarRequest fun c _ p => ?_
  split
  · exact .refl p
  · exact (kept_change_toInhibited _ c).after (kept_abortForInhibit p c)

theorem keepsSafe_restoreCar (s : State) (q : Port) (body : List Byte) : KeepsSafe s (execRestoreCar q body s) :=
  keepsSafe_runCarRequest fun c _ p => kept_answer_of (fun h => by
    show Kept p (if _ then _ else _)
    split
    · exact kept_change_toAssessing
    · exact kept_toNormal (by rw [h]; rfl)) (.refl p)

theorem keepsSafe_confirmPosition (s : State) (q : Port) (body : List Byte) : KeepsSafe s (execConfirmPosition q body s) := by
  refine keepsSafe_runCarRequest fun c _ p => ?_
  dsimp only
  split
  · exact .refl p
  · next h =>
    split
    · refine (kept_confirmed _ c _).after (kept_seedTracker _ _ _ ?_)
      intro k; unfold Part.stateOf at k; simp [takesConfirmation, k] at h
    · exact .refl p

theorem keepsSafe_releaseHold (s : State) (q : Port) (body : List Byte) : KeepsSafe s (execReleaseHold q body s) :=
  keepsSafe_runCarRequest fun _ _ p => kept_answer_of (fun _ => kept_change_toAssessing) (.refl p)

theorem keepsSafe_clearFailed (s : State) (q : Port) (body : List Byte) : KeepsSafe s (execClearFailed q body s) :=
  keepsSafe_runCarRequest fun c _ p => kept_answer_of (fun _ => by
    refine kept_change_toAssessing.after (Kept.after (kept_modBrake _ c fun x h => ?_) (kept_modRecord p c fun _ => rfl))
    rwa [CarBrake.unlock_anyOpen] at h) (.refl p)

theorem keepsSafe_setFirst (s : State) (q : Port) (body : List Byte) : KeepsSafe s (execSetFirst q body s) :=
  keepsSafe_runCarRequest fun c _ p =>
    kept_answer_of (fun _ => (kept_putFirst p c).trans (kept_select _)) (.refl p)

theorem keepsSafe_clearFirst (s : State) (q : Port) (body : List Byte) : KeepsSafe s (execClearFirst q body s) :=
  keepsSafe_runCarRequest fun c _ p => kept_accept (kept_modRecord p c fun _ => rfl)

theorem keepsSafe_silenceTone (s : State) (q : Port) (body : List Byte) : KeepsSafe s (execSilenceTone q body s) :=
  keepsSafe_runCarRequest fun c _ p => kept_accept (kept_silence p c _)

theorem keepsSafe_powerOn (s : State) (address : Fin 4) : KeepsSafe s (execPowerOn address s) := by
  rintro t ⟨⟩
  exact kept_loaded _ _ (by simp [Supply.follows, Supply.fresh])

theorem keepsSafe_softReset (s : State) (address : Fin 4) : KeepsSafe s (execSoftReset address s) := by
  refine keepsSafe_runPart ?_
  split
  · exact kept_softReset _ _
  · exact .refl _

theorem keepsSafe_responseRead (s : State) (port : Port) : KeepsSafe s (execResponseRead port s) := by
  have reset : Kept s.toPart (if port = .station ∧ s.resetArmed then s.toPart.resetByTransaction else s.toPart) := by
    split
    · exact kept_resetByTransaction _
    · exact .refl _
  exact keepsSafe_runPart (reset.trans (kept_modPort _ port fun _ => rfl))

theorem keepsSafe_saveWriteComplete (s : State) : KeepsSafe s (execSaveWriteComplete s) := by
  refine keepsSafe_runPart ?_
  dsimp only
  split
  · exact .of_same rfl rfl rfl rfl rfl
  · exact .refl _

theorem keepsSafe_saveVerifyComplete (s : State) (found : StoredImage) : KeepsSafe s (execSaveVerifyComplete found s) := by
  refine keepsSafe_runPart ?_
  split
  · exact kept_endSave _ _
  · exact .refl _

theorem keepsSafe_powerFail (s : State) (left : StoredImage) : KeepsSafe s (execPowerFail left s) :=
  keepsSafe_runPart (.of_same rfl rfl rfl rfl rfl)

theorem keepsSafe_carLineByte (s : State) (c : Car) (byte : LineByte) : KeepsSafe s (execCarLineByte c byte s) :=
  keepsSafe_runPart (kept_modLine _ c _)

theorem keepsSafe_status (s : State) (c : Car) (frame : StatusFrame) : KeepsSafe s (execStatus c frame s) := by
  refine keepsSafe_runPart (kept_handOver ?_)
  split
  · exact kept_takeStatus _ c _
  · exact .refl _

theorem keepsSafe_driveAck (s : State) (c : Car) (id : Byte) : KeepsSafe s (execDriveAck c id s) := by
  refine keepsSafe_runPart (kept_handOver ?_)
  split
  · exact kept_modRecord _ c fun _ => rfl
  · exact .refl _

theorem keepsSafe_moveDone (s : State) (c : Car) (id : Byte) (landing : Byte) : KeepsSafe s (execMoveDone c id landing s) := by
  refine keepsSafe_runPart (kept_handOver ?_)
  split
  · next h => exact kept_moveDone _ (Part.reportTaken_driving h)
  · exact .refl _

theorem keepsSafe_moveFail (s : State) (c : Car) (id : Byte) (reason : Byte) : KeepsSafe s (execMoveFail c id reason s) := by
  refine keepsSafe_runPart (kept_handOver ?_)
  split
  · exact (kept_change_toFailed _).after (kept_modRecord _ c fun _ => rfl)
  · exact .refl _

theorem keepsSafe_gateReport (s : State) (c : Car) (landing : Byte) (gate : Byte) : KeepsSafe s (execGateReport c landing gate s) := by
  refine keepsSafe_runPart (kept_handOver ?_)
  split
  · next h =>
    refine kept_toRescued ?_
    unfold Part.opensGate at h; simp only [Bool.and_eq_true, beq_iff_eq] at h
    rw [h.1.1]; rfl
  · exact .refl _

theorem keepsSafe_lostTimeout (s : State) (c : Car) : KeepsSafe s (execLostTimeout c s) := by
  refine keepsSafe_runPart ?_
  split
  · exact kept_loseLine _ c
  · exact .refl _

theorem keepsSafe_transmitComplete (s : State) (c : Car) : KeepsSafe s (execTransmitComplete c s) :=
  keepsSafe_runPart (kept_modLine _ c _)

theorem keepsSafe_oneSecondTick (s : State) : KeepsSafe s (execOneSecondTick s) := by
  have ticked (p : Part) : Kept p (p.mapCars fun b => { b with record := b.record.tick }) := by
    refine kept_mapCars fun c => CarBlock.Same.kept _ ?_
    have : ((p.car c).record.tick).state = (p.car c).record.state := by unfold CarRecord.tick; split <;> rfl
    exact ⟨this, rfl, rfl, le_rfl, rfl, rfl, ⟨rfl, rfl⟩, rfl, rfl, rfl⟩
  have sent (p : Part) : Kept p (p.mapCars (·.sendRescueState)) := by
    refine kept_mapCars fun c => CarBlock.Same.kept _ ?_
    unfold CarBlock.sendRescueState
    split <;> exact ⟨rfl, rfl, rfl, le_rfl, rfl, rfl, ⟨rfl, rfl⟩, rfl, rfl, rfl⟩
  have timed (p : Part) : Kept p { p with time := { p.time with sinceTick := 0, flashLit := true } } :=
    .of_same rfl rfl rfl rfl rfl
  exact keepsSafe_runPart ((((ticked _).trans (sent _)).trans (timed _)).trans (kept_askPass _ _))

theorem keepsSafe_passEnd (s : State) : KeepsSafe s (execPassEnd s) := by
  refine keepsSafe_runPart ?_
  split
  · exact kept_endPass _ _
  · exact .refl _

theorem keepsSafe_rawLevelChange (s : State) (input : LevelInput) (level : Bool) : KeepsSafe s (execRawLevelChange input level s) := by
  refine keepsSafe_runPart ?_
  dsimp only
  split
  · exact .refl _
  · cases input with
    | zone c =>
      refine kept_modCar (f := (·.withZone _)) (CarBlock.Same.kept _ ?_)
      constructor <;> first | rfl | exact ⟨rfl, rfl⟩
    | chain c => exact kept_setFilter (by simp) _
    | lockout c => exact kept_setFilter (by simp) _
    | mains => exact kept_setFilter (by simp) _
    | converter => exact kept_setFilter (by simp) _

theorem keepsSafe_firstLevelAcceptance (s : State) (input : LevelInput) (level : Bool) :
    KeepsSafe s (execFirstLevelAcceptance input level s) := by
  refine keepsSafe_runPart ?_
  split
  · next h =>
    have first : (s.toPart.filter input).accepted = none := by simpa using h
    unfold Part.acceptLevel
    rw [first]
    refine Kept.trans ?_ (kept_firstAccepted _ input level)
    cases input with
    | zone c => exact kept_setZone_first first _
    | chain c => exact kept_setFilter (by simp) _
    | lockout c => exact kept_setFilter (by simp) _
    | mains => exact kept_setFilter (by simp) _
    | converter => exact kept_setFilter (by simp) _
  · exact .refl _

theorem keepsSafe_zoneEdge (s : State) (c : Car) (kind : EdgeKind) : KeepsSafe s (execZoneEdge c kind s) :=
  keepsSafe_runPart (kept_zoneEdge _ c kind)

theorem keepsSafe_chainOpen (s : State) (c : Car) : KeepsSafe s (execChainOpen c s) :=
  keepsSafe_runPart (kept_acceptLevel (by simp) fun q => (kept_closeBrake q c).trans (kept_chainOpenEvent _ c))

theorem keepsSafe_chainClosed (s : State) (c : Car) : KeepsSafe s (execChainClosed c s) :=
  keepsSafe_runPart (kept_acceptLevel (by simp) fun q => .refl q)

theorem keepsSafe_lockoutOn (s : State) (c : Car) : KeepsSafe s (execLockoutOn c s) :=
  keepsSafe_runPart (kept_acceptLevel (by simp) fun q => (kept_closeBrake q c).trans (kept_lockoutOnEvent _ c))

theorem keepsSafe_lockoutOff (s : State) (c : Car) : KeepsSafe s (execLockoutOff c s) :=
  keepsSafe_runPart (kept_acceptLevel (by simp) fun q => kept_lockoutOffEvent q c)

theorem keepsSafe_mainsLevelChange (s : State) (present : Bool) : KeepsSafe s (execMainsLevelChange present s) :=
  keepsSafe_runPart (kept_acceptLevel (by simp) fun q => kept_mainsAccepted q present)

theorem keepsSafe_mainsStableExpiry (s : State) : KeepsSafe s (execMainsStableExpiry s) :=
  keepsSafe_runPart (kept_mainsStableExpires _)

theorem keepsSafe_converterReady (s : State) : KeepsSafe s (execConverterReady s) :=
  keepsSafe_runPart (kept_acceptLevel (by simp) kept_converterBecomesReady)

theorem keepsSafe_converterNotReady (s : State) : KeepsSafe s (execConverterNotReady s) :=
  keepsSafe_runPart (kept_acceptLevel (by simp) kept_converterBecomesNotReady)

theorem keepsSafe_wakeTimeout (s : State) : KeepsSafe s (execWakeTimeout s) := keepsSafe_runPart (kept_wakeExpires _)

theorem keepsSafe_standbyDwellExpiry (s : State) : KeepsSafe s (execStandbyDwellExpiry s) :=
  keepsSafe_runPart (kept_standbyExpires _)

theorem keepsSafe_batterySample (s : State) (reading : BitVec 12) : KeepsSafe s (execBatterySample reading s) :=
  keepsSafe_runPart ((kept_recompute _).after (Kept.after (kept_modSupply id) (.of_same rfl rfl rfl rfl rfl)))

theorem keepsSafe_encoderStep (s : State) (c : Car) (a : Bool) (b : Bool) : KeepsSafe s (execEncoderStep c a b s) :=
  keepsSafe_runPart (kept_sampleEncoder _ c _)

theorem keepsSafe_frameBoundary (s : State) : KeepsSafe s (execFrameBoundary s) := by
  have turns (p : Part) : Kept p (allCars.foldl (fun p c => p.boundary c) p) :=
    foldl_keeps Kept.refl Kept.trans _ kept_boundary allCars p
  have timed (p : Part) : Kept p { p with time := { p.time with sinceFrame := 0 } } := .of_same rfl rfl rfl rfl rfl
  exact keepsSafe_runPart (Kept.after (timed _) (turns _))

theorem keepsSafe_brakeShareEnd (s : State) (c : Car) (channel : Channel) : KeepsSafe s (execBrakeShareEnd c channel s) :=
  keepsSafe_runPart (kept_shareEnd _ c channel)

theorem keepsSafe_confirmTimerExpiry (s : State) (c : Car) : KeepsSafe s (execConfirmTimerExpiry c s) := by
  refine keepsSafe_runPart ?_
  split
  · next h => exact kept_change_toAssessing.after (kept_trap h.1)
  · exact .refl _

theorem keepsSafe_retryTimerExpiry (s : State) (c : Car) : KeepsSafe s (execRetryTimerExpiry c s) := by
  refine keepsSafe_runPart ?_
  split
  · exact kept_change_toAssessing
  · exact .refl _

theorem keepsSafe_ackTimerExpiry (s : State) (c : Car) : KeepsSafe s (execAckTimerExpiry c s) := by
  refine keepsSafe_runPart ?_
  split
  · exact (kept_cancelIfDriving _ c).trans (kept_change_toFailed _)
  · exact .refl _

theorem keepsSafe_moveTimerExpiry (s : State) (c : Car) : KeepsSafe s (execMoveTimerExpiry c s) := by
  refine keepsSafe_runPart ?_
  split
  · exact (kept_cancelIfDriving _ c).trans (kept_change_toFailed _)
  · exact .refl _

theorem keepsSafe_dwellTimerExpiry (s : State) (c : Car) : KeepsSafe s (execDwellTimerExpiry c s) := by
  refine keepsSafe_runPart ?_
  split
  · next h => exact kept_change_toReleasing (by rw [h.1]; decide)
  · exact .refl _

theorem keepsSafe_slipTimerExpiry (s : State) (c : Car) : KeepsSafe s (execSlipTimerExpiry c s) := by
  refine keepsSafe_runPart ?_
  split
  · split
    · exact (kept_lock _ c).trans (kept_change_toFailed _)
    · exact kept_modRecord _ c fun _ => rfl
  · exact .refl _

theorem keepsSafe_gateTimerExpiry (s : State) (c : Car) : KeepsSafe s (execGateTimerExpiry c s) := by
  refine keepsSafe_runPart ?_
  split
  · next h => exact kept_toFailed _ (by rw [h.1]; rfl)
  · exact .refl _

theorem keepsSafe_unlockTimerExpiry (s : State) (c : Car) : KeepsSafe s (execUnlockTimerExpiry c s) :=
  keepsSafe_runPart (kept_unlockTimer _ c)

theorem keepsSafe_reassuranceTimerExpiry (s : State) (c : Car) : KeepsSafe s (execReassuranceTimerExpiry c s) :=
  keepsSafe_runPart (kept_reassure _ c)

theorem keepsSafe_toneSegmentEnd (s : State) (c : Car) : KeepsSafe s (execToneSegmentEnd c s) :=
  keepsSafe_runPart (kept_segmentEnd _ c)

theorem keepsSafe_lampFlashPhase (s : State) : KeepsSafe s (execLampFlashPhase s) :=
  keepsSafe_runPart (.of_same rfl rfl rfl rfl rfl)

theorem keepsSafe_toneHighLowToggle (s : State) (c : Car) : KeepsSafe s (execToneHighLowToggle c s) :=
  keepsSafe_runPart (kept_toggle _ c)

/-- Every command keeps the invariants. -/
theorem keepsSafe_exec (i : Instr) (s : State) : KeepsSafe s (exec i s) := by
  cases i with
  | readCar q body => exact keepsSafe_readCar s q body
  | readTracker q body => exact keepsSafe_readTracker s q body
  | readSupply q body => exact keepsSafe_readSupply s q body
  | readRule q body => exact keepsSafe_readRule s q body
  | readStage q body => exact keepsSafe_readStage s q body
  | readConfig q body => exact keepsSafe_readConfig s q body
  | readNotices q body => exact keepsSafe_readNotices s q body
  | readLine q body => exact keepsSafe_readLine s q body
  | unknownCommandRequest q code body => exact keepsSafe_unknownCommandRequest s q code body
  | ackNotices q body => exact keepsSafe_ackNotices s q body
  | setNoticeEnable q body => exact keepsSafe_setNoticeEnable s q body
  | stageRule q body => exact keepsSafe_stageRule s q body
  | clearStage q body => exact keepsSafe_clearStage s q body
  | commitRule q body => exact keepsSafe_commitRule s q body
  | clearCar q body => exact keepsSafe_clearCar s q body
  | clearSupplyFault q body => exact keepsSafe_clearSupplyFault s q body
  | clearLineCounts q body => exact keepsSafe_clearLineCounts s q body
  | writeCarParams q body => exact keepsSafe_writeCarParams s q body
  | writeMap q body => exact keepsSafe_writeMap s q body
  | writeRuleset q body => exact keepsSafe_writeRuleset s q body
  | writeGlobal q body => exact keepsSafe_writeGlobal s q body
  | writeSocTable q body => exact keepsSafe_writeSocTable s q body
  | saveSettings q body => exact keepsSafe_saveSettings s q body
  | reset q body => exact keepsSafe_reset s q body
  | inhibitCar q body => exact keepsSafe_inhibitCar s q body
  | restoreCar q body => exact keepsSafe_restoreCar s q body
  | confirmPosition q body => exact keepsSafe_confirmPosition s q body
  | releaseHold q body => exact keepsSafe_releaseHold s q body
  | clearFailed q body => exact keepsSafe_clearFailed s q body
  | setFirst q body => exact keepsSafe_setFirst s q body
  | clearFirst q body => exact keepsSafe_clearFirst s q body
  | silenceTone q body => exact keepsSafe_silenceTone s q body
  | powerOn address => exact keepsSafe_powerOn s address
  | softReset address => exact keepsSafe_softReset s address
  | responseRead port => exact keepsSafe_responseRead s port
  | saveWriteComplete => exact keepsSafe_saveWriteComplete s
  | saveVerifyComplete found => exact keepsSafe_saveVerifyComplete s found
  | powerFail left => exact keepsSafe_powerFail s left
  | carLineByte c byte => exact keepsSafe_carLineByte s c byte
  | status c frame => exact keepsSafe_status s c frame
  | driveAck c id => exact keepsSafe_driveAck s c id
  | moveDone c id landing => exact keepsSafe_moveDone s c id landing
  | moveFail c id reason => exact keepsSafe_moveFail s c id reason
  | gateReport c landing gate => exact keepsSafe_gateReport s c landing gate
  | lostTimeout c => exact keepsSafe_lostTimeout s c
  | transmitComplete c => exact keepsSafe_transmitComplete s c
  | oneSecondTick => exact keepsSafe_oneSecondTick s
  | passEnd => exact keepsSafe_passEnd s
  | rawLevelChange input level => exact keepsSafe_rawLevelChange s input level
  | firstLevelAcceptance input level => exact keepsSafe_firstLevelAcceptance s input level
  | zoneEdge c kind => exact keepsSafe_zoneEdge s c kind
  | chainOpen c => exact keepsSafe_chainOpen s c
  | chainClosed c => exact keepsSafe_chainClosed s c
  | lockoutOn c => exact keepsSafe_lockoutOn s c
  | lockoutOff c => exact keepsSafe_lockoutOff s c
  | mainsLevelChange present => exact keepsSafe_mainsLevelChange s present
  | mainsStableExpiry => exact keepsSafe_mainsStableExpiry s
  | converterReady => exact keepsSafe_converterReady s
  | converterNotReady => exact keepsSafe_converterNotReady s
  | wakeTimeout => exact keepsSafe_wakeTimeout s
  | standbyDwellExpiry => exact keepsSafe_standbyDwellExpiry s
  | batterySample reading => exact keepsSafe_batterySample s reading
  | encoderStep c a b => exact keepsSafe_encoderStep s c a b
  | frameBoundary => exact keepsSafe_frameBoundary s
  | brakeShareEnd c channel => exact keepsSafe_brakeShareEnd s c channel
  | confirmTimerExpiry c => exact keepsSafe_confirmTimerExpiry s c
  | retryTimerExpiry c => exact keepsSafe_retryTimerExpiry s c
  | ackTimerExpiry c => exact keepsSafe_ackTimerExpiry s c
  | moveTimerExpiry c => exact keepsSafe_moveTimerExpiry s c
  | dwellTimerExpiry c => exact keepsSafe_dwellTimerExpiry s c
  | slipTimerExpiry c => exact keepsSafe_slipTimerExpiry s c
  | gateTimerExpiry c => exact keepsSafe_gateTimerExpiry s c
  | unlockTimerExpiry c => exact keepsSafe_unlockTimerExpiry s c
  | reassuranceTimerExpiry c => exact keepsSafe_reassuranceTimerExpiry s c
  | toneSegmentEnd c => exact keepsSafe_toneSegmentEnd s c
  | lampFlashPhase => exact keepsSafe_lampFlashPhase s
  | toneHighLowToggle c => exact keepsSafe_toneHighLowToggle s c

/-! ## Steps -/

theorem carKept_passMs (g : Globals) (b : CarBlock) : CarKept g b b.passMs := by
  refine ⟨id, id, id, id, fun ⟨h1, h2⟩ => ⟨h1, fun y hy => ?_⟩, id⟩
  obtain ⟨z, hz, rfl⟩ := Option.map_eq_some_iff.mp hy
  exact h2 z hz

theorem kept_passMs (p : Part) : Kept p p.passMs :=
  .of_cars (fun c => by
    have : p.passMs.car c = (p.car c).passMs := by simp [Part.passMs, Part.car]
    rw [this]; exact carKept_passMs _ _) rfl id (.of_ports rfl rfl)

theorem kept_idle (p : Part) : Kept p p.idle.1 := by
  unfold Part.idle; split
  · exact .refl p
  · split
    · exact .refl p
    · split
      · exact .refl p
      · exact kept_passMs p

/-- Every step keeps each of the invariants. -/
theorem kept_step {s t : State} (h : step s = .next t) : Kept s.toPart t.toPart := by
  unfold step at h
  split at h
  · next i rest _ => exact keepsSafe_exec i { s with pending := rest } t h
  · cases h; exact kept_idle s.toPart

/-- Settles O56: each car's slots follow its state through every step, and a grant takes a slot only where one is free. -/
theorem moveAccountsKept : Obligations.MoveAccountsKept := fun _ _ h k => (kept_step k).accounts h

/-- Settles O59: an urgency grows only by the step of R129, which halves it where it reaches the bound. -/
theorem urgencyBoundKept : Obligations.UrgencyBoundKept := fun _ _ h k => (kept_step k).urgency h

/-! ## The pending sets (R188) -/

/-- Every pair whose kind carries a car exactly if the pair does. -/
def allNotices : List Notice :=
  noticeKinds.flatMap fun k => if carriesCar k then allCars.map fun c => ⟨k, some c⟩ else [⟨k, none⟩]

theorem mem_allNotices {n : Notice} (h : n.car.isSome = carriesCar n.kind) : n ∈ allNotices := by
  obtain ⟨k, car⟩ := n
  refine List.mem_flatMap.mpr ⟨k, by cases k <;> decide, ?_⟩
  cases car with
  | none => simp only [Option.isSome_none] at h; simp [← h]
  | some c => simp only [Option.isSome_some] at h; simp [← h, mem_allCars]

theorem length_allNotices : allNotices.length = 94 := by decide

/-- An ordered set lists no pair twice, and only pairs of the 94 (R189). -/
theorem noticeSetOrdered_length {l : List Notice} (h : NoticeSetOrdered l) : l.length ≤ 94 := by
  have distinct : l.Nodup := List.Nodup.of_map noticeKey (h.1.imp fun h => ne_of_lt h)
  rw [← length_allNotices]
  exact (distinct.subperm fun n hn => mem_allNotices (h.2 n hn)).length_le

/-- Settles O58: every pair is added in its place, and taken out whole. -/
theorem noticesOrderedKept : Obligations.NoticesOrderedKept := by
  refine ⟨fun _ _ h k => (kept_step k).notices h, fun l => noticeSetOrdered_length, fun p q => ?_⟩
  unfold PortState.attention
  cases (p.port q).notices with
  | nil => simp
  | cons n l => simp

/-! ## The outputs -/

/-- A brake output is active by R163. -/
theorem CarBlock.brakeOutput_iff (b : CarBlock) (ch : Channel) : b.brakeOutput ch = true ↔
    (match ch with
      | .a => b.brake.channelA = .open ∧ b.brake.insideA = true
      | .b => b.brake.channelB = .open ∧ b.brake.insideB = true) ∧
    (b.record.state = .probing ∨ b.record.state = .lowering) ∧
      b.inputs.chain.accepted = some true ∧ b.inputs.lockout.accepted = some false := by
  have brake : isBrakeState b.record.state = true ↔ b.record.state = .probing ∨ b.record.state = .lowering := by
    cases b.record.state <;> simp [isBrakeState]
  cases ch <;> simp [CarBlock.brakeOutput, brake, LevelFilter.isOn, LevelFilter.isOff, and_assoc]

/-- A brake output is driven by its polarity, and by a part with power alone (R159, R161). -/
theorem Part.brakePin_eq (p : Part) (c : Car) (ch : Channel) :
    (p.powered = false → p.brakePin c ch = none) ∧
    (p.powered = true →
      ((match ch with | .a => (p.entry c).polarityA | .b => (p.entry c).polarityB) = .activeHigh →
        p.brakePin c ch = some ((p.car c).brakeOutput ch)) ∧
      ((match ch with | .a => (p.entry c).polarityA | .b => (p.entry c).polarityB) = .activeLow →
        p.brakePin c ch = some (!(p.car c).brakeOutput ch))) := by
  unfold Part.brakePin
  cases ch <;> refine ⟨fun h => by simp [h], fun h => ⟨fun k => ?_, fun k => ?_⟩⟩ <;> simp only [h, if_true] <;>
    simp only at k <;> cases (p.car c).brakeOutput _ <;> simp [k]

theorem lampOutput_iff (t : TimeBase) (x : CarSignals) :
    lampOutput t x = true ↔ x.lamp = .steady ∨ (x.lamp = .flash ∧ t.flashLit = true) := by
  unfold lampOutput; cases x.lamp <;> simp

/-- Settles O57: what a step keeps of the outputs, and what drives each of them. -/
theorem outputsGuardedKept : Obligations.OutputsGuardedKept := by
  refine ⟨fun _ _ h k => (kept_step k).guarded h, fun _ _ h k => (kept_step k).follows h, fun p c ch => ?_, fun p c => ?_⟩
  · exact ⟨(p.car c).brakeOutput_iff ch, p.brakePin_eq c ch⟩
  · refine ⟨lampOutput_iff _ _, by simp [CarSignals.toneOutput, Option.any_eq_true], fun h => ?_, fun h => ?_⟩ <;>
      simp [Part.unlockPin, Part.lampPin, Part.tonePin, Part.signalPin, h]

end Sys2Proof.Machine
end

