-- ==== Sys2Proof/Proofs/Steps.lean ====
section
/-!
PROOFS. The step and its commands: the queue, well-formed commands, what an empty queue does, the commands that fall due,
and the machine right after power-on.
-/

namespace Sys2Proof.Machine

/-! ## The commands -/

/-- The codes of Table 26 are three ranges (R185). -/
theorem isCommand_eq_contains (code : Byte) : isCommand code = tableCodes.contains code.toNat := by
  revert code; decide

theorem isUnknownCode_eq_wellFormed (q : Port) (code : Byte) (body : List Byte) :
    isUnknownCode q code = (Instr.unknownCommandRequest q code body).wellFormed := by
  unfold isUnknownCode Instr.wellFormed; rw [isCommand_eq_contains]

/-- Every command but POWER_ON runs on the part (log 10). -/
theorem exec_runPart (i : Instr) (s : State) (wf : i.wellFormed = true) (h : ∀ a, i ≠ .powerOn a) :
    ∃ f, exec i s = runPart s f := by
  cases i
  case powerOn a => exact absurd rfl (h a)
  case unknownCommandRequest q code body =>
    exact ⟨_, if_pos ((isUnknownCode_eq_wellFormed q code body).trans wf)⟩
  all_goals exact ⟨_, rfl⟩

theorem exec_illFormed (i : Instr) (s : State) (h : i.wellFormed = false) : exec i s = .refused .illFormed := by
  cases i
  case unknownCommandRequest q code body =>
    have known : ¬ isUnknownCode q code = true := by rw [isUnknownCode_eq_wellFormed q code body, h]; simp
    exact if_neg known
  all_goals exact absurd h (by simp [Instr.wellFormed])

/-- Settles O2: a well-formed command is POWER_ON or runs on the part, which without power takes nothing. -/
theorem commandsComplete : Obligations.CommandsComplete := by
  intro i s
  refine ⟨fun wf => ?_, exec_illFormed i s, fun wf off h => ?_⟩
  · by_cases h : ∀ a, i ≠ .powerOn a
    · obtain ⟨f, hf⟩ := exec_runPart i s wf h
      exact ⟨_, hf⟩
    · push Not at h
      obtain ⟨a, rfl⟩ := h
      exact ⟨_, rfl⟩
  · obtain ⟨f, hf⟩ := exec_runPart i s wf h
    rw [hf, runPart_unpowered off]

/-- Settles O1: a command runs on the part, and the queue is none of it. -/
theorem stepTakesFront : Obligations.StepTakesFront := by
  refine ⟨fun i rest s h => by unfold step; rw [h], fun i s t h => ?_⟩
  cases wf : i.wellFormed with
  | false => rw [exec_illFormed i s wf] at h; cases h
  | true =>
    by_cases on : ∀ a, i ≠ .powerOn a
    · obtain ⟨f, hf⟩ := exec_runPart i s wf on
      rw [hf] at h; cases h; rfl
    · push Not at on
      obtain ⟨a, rfl⟩ := on
      cases h; rfl

/-! ## An empty queue -/

theorem handovers_eq_filterMap (p : Part) :
    p.handovers = allCars.filterMap fun c => (p.car c).line.handover.map (handoverCommand c) := by
  unfold Part.handovers
  induction allCars with
  | nil => rfl
  | cons c l ih =>
    rw [List.flatMap_cons, List.filterMap_cons, ih]
    cases (p.car c).line.handover <;> rfl

theorem LevelFilter.passMs_eq (f : LevelFilter) : f.passMs = { f with
    holding := if f.holding.map (fun n => n - 1) = some 0 ∧ f.accepted = some f.candidate then none
      else f.holding.map fun n => n - 1 } := by
  simp [LevelFilter.passMs, countDown, isDue]

/-- Settles O3: what an empty queue does, in its order (logs 2, 3, 4). -/
theorem emptyQueueSteps : Obligations.EmptyQueueSteps := by
  intro s empty handedOver less held
  have waiting : s.handovers = handedOver := by
    rw [handovers_eq_filterMap]
    refine congrArg (allCars.filterMap ·) (funext fun c => congrArg (Option.map · _) (funext fun f => ?_))
    cases f <;> rfl
  have idle : step s = .next { toPart := s.toPart.idle.1, pending := s.toPart.idle.2 } := by
    unfold step; rw [empty]
  have filtered (f : LevelFilter) : f.passMs = held f := f.passMs_eq
  rw [idle]
  unfold Part.idle
  rw [waiting]
  refine ⟨fun off => ?_, fun on some => ?_, fun on none i rest due => ?_, fun on none due => ?_⟩
  · simp [off, ← empty]
  · simp [on, some]
  · simp [on, none, due]
  · simp only [on, none, due, empty, Part.passMs, CarBlock.passMs, filtered]
    exact rfl

/-! ## The commands that fall due -/

theorem mem_dueIf {b : Bool} {i j : Instr} : i ∈ dueIf b j ↔ b = true ∧ i = j := by
  unfold dueIf; cases b <;> simp

theorem isDue_iff {t : Option Nat} : isDue t = true ↔ t = some 0 := by simp [isDue]

/-- A candidate that has held is accepted: a first time, or as a change of its level (R36, R37). -/
theorem LevelFilter.mem_due {f : LevelFilter} {input : LevelInput} {i : Instr} : i ∈ f.due input ↔ f.holding = some 0 ∧
    (f.accepted = none ∧ i = .firstLevelAcceptance input f.candidate ∨
      f.accepted.isSome = true ∧ i = levelCommand input f.candidate) := by
  unfold LevelFilter.due
  rw [mem_dueIf, isDue_iff]
  cases f.accepted <;> simp

theorem CarBrake.shareOver_a {b : CarBrake} {frame since : Nat} : b.shareOver .a frame since = true ↔
    b.channelA = .open ∧ b.insideA = true ∧ b.activeA < 100 ∧ frame * b.activeA * 10 ≤ since * 1000 := by
  simp only [CarBrake.shareOver, Bool.and_eq_true, beq_iff_eq, and_assoc, decide_eq_true_iff, shareTime.eq_1]

theorem CarBrake.shareOver_b {b : CarBrake} {frame since : Nat} : b.shareOver .b frame since = true ↔
    b.channelB = .open ∧ b.insideB = true ∧ b.activeB < 100 ∧ frame * b.activeB * 10 ≤ since * 1000 := by
  simp only [CarBrake.shareOver, Bool.and_eq_true, beq_iff_eq, and_assoc, decide_eq_true_iff, shareTime.eq_1]

theorem CarLine.isLosing_iff {l : CarLine} : l.isLosing = true ↔ l.state ≠ .lost ∧ l.lostLimit ≤ l.lostTimer := by
  simp [CarLine.isLosing]

theorem toneOver_iff {x : Option Playing} : (x.any fun q => q.left == 0) = true ↔ ∃ q, x = some q ∧ q.left = 0 := by
  simp [Option.any_eq_true]

theorem Instr.eq_ite_iff {b : Bool} {i j k : Instr} :
    (i = if b = true then j else k) ↔ b = true ∧ i = j ∨ b = false ∧ i = k := by
  cases b <;> simp

/-- Settles O4: each command is due by the one line of the list of due commands that names it. -/
theorem timersComeDue : Obligations.TimersComeDue := by
  intro s i
  dsimp only
  simp only [Part.due, CarBlock.due, List.mem_append, List.mem_flatMap, mem_dueIf, isDue_iff, LevelFilter.mem_due,
    CarBrake.shareOver_a, CarBrake.shareOver_b, CarLine.isLosing_iff, toneOver_iff, mem_allCars, true_and]
  cases i
  case zoneEdge c kind =>
    cases kind <;> simp [levelCommand, Instr.eq_ite_iff, Part.filter, and_comm, and_assoc]
    exact fun _ _ => Iff.rfl
  case brakeShareEnd c ch => cases ch <;> simp [levelCommand, Instr.eq_ite_iff, and_comm]
  case firstLevelAcceptance input level =>
    cases input <;>
      simp [levelCommand, Instr.eq_ite_iff, Part.filter, and_comm, and_assoc, eq_comm (a := level)]
  case mainsLevelChange present =>
    simp [levelCommand, Instr.eq_ite_iff, Part.filter, and_comm, and_assoc, eq_comm (a := present)]
  all_goals simp [levelCommand, Instr.eq_ite_iff, Part.filter, and_comm, and_assoc]

/-! ## Right after power-on -/

theorem State.reset_car (c : Car) : State.reset.car c = .fresh defaultCarEntry defaultGlobals false false false :=
  Vector.getElem_replicate _

/-- Settles O60: every car is UNCONFIGURED, holds nothing and shows nothing, and one pair is pending. -/
theorem invariantsAtReset : Obligations.InvariantsAtReset := by
  have one : NoticeSetOrdered [⟨.settingsInvalid, none⟩] := ⟨List.pairwise_singleton _ _, by simp [carriesCar, noticeCode]⟩
  refine ⟨⟨fun c => ?_, by decide, by decide⟩, ?_, ?_, ⟨one, one⟩, fun c => ?_⟩
  · rw [State.reset_car]; exact ⟨rfl, rfl, rfl⟩
  · rw [outputsGuarded_iff]; intro c
    rw [State.reset_car]; exact ⟨nofun, nofun, nofun⟩
  · rw [outputsFollow_iff]
    refine ⟨by unfold Supply.follows; decide, fun c => ?_⟩
    rw [State.reset_car]; exact ⟨rfl, nofun⟩
  · rw [State.reset_car]; decide

end Sys2Proof.Machine
end

