-- ==== Sys2Proof/Proofs/Requests.lean ====
section
/-!
PROOFS. What the running of a request that is given comes to, where its handling leaves the ports: the part as the handling
makes it, with the response at the request's port.
-/

namespace Sys2Proof.Machine

variable {s : State} {q : Port} {code : Byte} {body payload rest bytes : List Byte} {c : Car} {r : ResultCode} {p : Part}

/-- A request that passes tests 1 to 3 of R185 runs its command's handling. -/
theorem runRequest_of_given (g : s.given q code body payload) (h : List Byte → Part → Answer) :
    runRequest s q code body h = .next (s.withPart
      (settleDemand s.toPart ((h payload (s.toPart.beginHandling q code body)).respond q))) := by
  obtain ⟨takes, frame⟩ := g
  unfold runRequest
  rw [runPart_powered takes.1, takeRequest_of_takes takes]
  simp only [frame]
  rfl

/-- A handling that makes the part into `p` and has its request being handled still, without a change of demand. -/
theorem runRequest_of_answer {h : List Byte → Part → Answer} (g : s.given q code body payload)
    (e : h payload (s.toPart.beginHandling q code body) = ⟨p.beginHandling q code body, r, bytes⟩)
    (d : p.demand = s.toPart.demand := by rfl) : runRequest s q code body h = .next (s.answered p q r bytes) := by
  rw [runRequest_of_given g, e, respond_unchanged, settleDemand_same ((Part.responded_demand _ _ _ _).trans d)]
  rfl

/-- A request that its command's handling refuses is answered with the result, and nothing else changes (R185). -/
theorem runRequest_of_refused {h : List Byte → Part → Answer} (g : s.given q code body payload)
    (e : h payload (s.toPart.beginHandling q code body) = (s.toPart.beginHandling q code body).refuse r) :
    runRequest s q code body h = .next (s.answered s.toPart q r []) :=
  runRequest_of_answer g e

/-- The same for a request that names a car. -/
theorem runCarRequest_of_answer {h : Car → List Byte → Part → Answer} (g : s.givenCar q code body c rest)
    (e : h c rest (s.toPart.beginHandling q code body) = ⟨p.beginHandling q code body, r, bytes⟩)
    (d : p.demand = s.toPart.demand := by rfl) : runCarRequest s q code body h = .next (s.answered p q r bytes) := by
  rw [runCarRequest_of_given g, e, respond_unchanged, settleDemand_same ((Part.responded_demand _ _ _ _).trans d)]
  rfl

/-! ## What the taking of a request leaves -/

section
variable (p : Part) (q : Port) (code : Byte) (body : List Byte)

@[simp] theorem Part.beginHandling_config : (p.beginHandling q code body).config = p.config := p.modPort_config q _

@[simp] theorem Part.beginHandling_entry (c : Car) : (p.beginHandling q code body).entry c = p.entry c := by
  unfold Part.entry; rw [Part.beginHandling_config]

@[simp] theorem Part.beginHandling_store : (p.beginHandling q code body).store = p.store := by cases q <;> rfl

@[simp] theorem Part.beginHandling_supply : (p.beginHandling q code body).supply = p.supply := p.modPort_supply q _

@[simp] theorem Part.beginHandling_pass : (p.beginHandling q code body).pass = p.pass := p.modPort_pass q _

@[simp] theorem Part.beginHandling_commits : (p.beginHandling q code body).commits = p.commits := by cases q <;> rfl

@[simp] theorem Part.beginHandling_time : (p.beginHandling q code body).time = p.time := by cases q <;> rfl

@[simp] theorem Part.beginHandling_port : (p.beginHandling q code body).port q =
    { p.port q with reception := [], buffer := .handling code body, clocked := [] } := by cases q <;> rfl

end

/-! ## The Settings Store's requests (R13, R190) -/

/-- SAVE_SETTINGS with no SAVE in flight starts one; with one it is BUSY (R13). -/
theorem exec_saveSettings (g : s.given q 27 body []) :
    (s.store.save = .idle → exec (.saveSettings q body) s = .next (s.answered s.toPart.startSave q .ok [])) ∧
    (s.store.save ≠ .idle → exec (.saveSettings q body) s = .next (s.answered s.toPart q .busy [])) := by
  refine ⟨fun h => runRequest_of_answer g ?_, fun h => runRequest_of_refused g ?_⟩
  · rw [if_pos (by simpa using h)]; cases q <;> rfl
  · rw [if_neg (by simpa using h)]

/-- RESET with no SAVE in flight arms the soft reset; with one it is BUSY (R190). -/
theorem exec_reset (g : s.given q 28 body []) :
    (s.store.save = .idle → exec (.reset q body) s = .next (s.answered { s.toPart with resetArmed := true } q .ok [])) ∧
    (s.store.save ≠ .idle → exec (.reset q body) s = .next (s.answered s.toPart q .busy [])) := by
  refine ⟨fun h => runRequest_of_answer g ?_, fun h => runRequest_of_refused g ?_⟩
  · rw [if_pos (by simpa using h)]; cases q <;> rfl
  · rw [if_neg (by simpa using h)]

/-- Settles O6: the requests, the two phases of a SAVE by its state, and the stop of the part. -/
theorem savePhases : Obligations.SavePhases := by
  refine fun s => ⟨fun q body g => exec_saveSettings g, fun q body g => exec_reset g, fun on h i hi => ?_,
    fun on h i hi => ⟨?_, fun found hf => ?_⟩, fun on left => ?_⟩
  · refine (runPart_same on _ ?_).trans ?_
    · simp only [h, if_true]; rfl
    · simp only [h, if_true, hi]; rfl
  · refine (runPart_same on _ ?_).trans ?_
    · simp only [h, if_true, Part.endSave, hi]; rfl
    · simp only [h, if_true, Part.endSave, hi]; rfl
  · have other : ¬ (i = found) := fun e => hf e.symm
    refine (runPart_same on _ ?_).trans ?_
    · simp only [h, if_true, Part.endSave, hi, Option.some.injEq, other, if_false]; rfl
    · simp only [h, if_true, Part.endSave, hi, Option.some.injEq, other, if_false]; rfl
  · exact (runPart_same on _ rfl).trans rfl

end Sys2Proof.Machine
end

