-- ==== Sys2Proof/Proofs/Judging.lean ====
section
/-!
PROOFS. The judging of a request (R184, R185): the frames that test 1 passes, the codes, lengths and ports of Table 26, and
the outcome of each test for a request of any code.
-/

namespace Sys2Proof.Machine

variable {s : State} {q : Port} {code : Byte} {body payload : List Byte}

/-! ## Every request is run by its code -/

theorem eq_ofNat_of_toNat {n : Nat} (h : code.toNat = n) : code = BitVec.ofNat 8 n := by subst h; simp

theorem requestOf_unknown (h : isCommand code = false) : requestOf q code body = .unknownCommandRequest q code body := by
  unfold requestOf
  split
  case h_32 => rfl
  all_goals
    rename_i k
    obtain rfl := eq_ofNat_of_toNat k
    exact absurd h (by decide)

/-- A request of any code but the one that begins a response read is run under its code. -/
theorem exec_requestOf (s : State) (q : Port) (code : Byte) (body : List Byte) (h : ¬(q = .station ∧ code = 0)) :
    ∃ f, exec (requestOf q code body) s = runRequest s q code body f := by
  cases known : isCommand code with
  | false =>
    rw [requestOf_unknown known]
    exact ⟨_, if_pos (by unfold isUnknownCode; cases q <;> simp_all)⟩
  | true =>
    have table : code.toNat ∈ tableCodes := by simpa [isCommand_eq_contains] using known
    generalize k : code.toNat = n at table
    obtain rfl := eq_ofNat_of_toNat k
    clear k known h
    fin_cases table <;> exact ⟨_, rfl⟩

/-- A request of a code that names a car is run under test 4 of R185, too. -/
theorem exec_requestOf_namesCar (s : State) (q : Port) (body : List Byte) (h : namesCar code = true) :
    ∃ f, exec (requestOf q code body) s = runCarRequest s q code body f := by
  have codes : code.toNat ∈ [1, 2, 13, 20, 21, 22, 23, 24, 40, 41, 42, 43, 44, 45, 46, 47] := by simpa [namesCar] using h
  generalize k : code.toNat = n at codes
  obtain rfl := eq_ofNat_of_toNat k
  clear k h
  fin_cases codes
  · exact ⟨_, show execReadCar q body s = _ from rfl⟩
  · exact ⟨_, show execReadTracker q body s = _ from rfl⟩
  · exact ⟨_, show execClearCar q body s = _ from rfl⟩
  · exact ⟨_, show execReadLine q body s = _ from rfl⟩
  · exact ⟨_, show execClearLineCounts q body s = _ from rfl⟩
  · exact ⟨_, show execWriteCarParams q body s = _ from rfl⟩
  · exact ⟨_, show execWriteMap q body s = _ from rfl⟩
  · exact ⟨_, show execWriteRuleset q body s = _ from rfl⟩
  · exact ⟨_, show execInhibitCar q body s = _ from rfl⟩
  · exact ⟨_, show execRestoreCar q body s = _ from rfl⟩
  · exact ⟨_, show execConfirmPosition q body s = _ from rfl⟩
  · exact ⟨_, show execReleaseHold q body s = _ from rfl⟩
  · exact ⟨_, show execClearFailed q body s = _ from rfl⟩
  · exact ⟨_, show execSetFirst q body s = _ from rfl⟩
  · exact ⟨_, show execClearFirst q body s = _ from rfl⟩
  · exact ⟨_, show execSilenceTone q body s = _ from rfl⟩

/-! ## The four tests (R185) -/

theorem judgeFrame_badChecksum (h : requestPayload code body = none) : judgeFrame q code body = .error .badChecksum := by
  simp [judgeFrame, h]

theorem judgeFrame_badCommand (h : requestPayload code body = some payload)
    (k : isCommand code = false ∨ lengthAllowed code payload.length = false) :
    judgeFrame q code body = .error .badCommand := by
  rcases k with k | k <;> simp [judgeFrame, h, k]

theorem judgeFrame_notAllowed (h : requestPayload code body = some payload) (k : isCommand code = true)
    (l : lengthAllowed code payload.length = true) (m : mayGive q code = false) :
    judgeFrame q code body = .error .notAllowed := by simp [judgeFrame, h, k, l, m]

theorem judgeFrame_ok (h : requestPayload code body = some payload) (k : isCommand code = true)
    (l : lengthAllowed code payload.length = true) (m : mayGive q code = true) :
    judgeFrame q code body = .ok payload := by simp [judgeFrame, h, k, l, m]

/-- Test 4 of R185 fails where the first byte names no car, or an UNCONFIGURED one that the command does not take. -/
theorem judgeCar_eq_none {p : Part} (h : ∀ c : Car, (payload.getD 0 0).toNat = c.val →
    p.stateOf c = .unconfigured ∧ ¬(20 ≤ code.toNat ∧ code.toNat ≤ 24)) : p.judgeCar code payload = none := by
  unfold Part.judgeCar carOf
  split
  · next lt =>
    obtain ⟨state, range⟩ := h ⟨_, lt⟩ rfl
    have refused : takesUnconfigured code = false := by
      simpa [takesUnconfigured, inRange] using fun a => not_le.mp fun b => range ⟨a, b⟩
    simp only [Option.bind_some, state, refused]
    rfl
  · rfl

theorem runCarRequest_badCar {f : Car → List Byte → Part → Answer} (g : s.given q code body payload)
    (h : s.judgeCar code payload = none) : runCarRequest s q code body f = .next (s.answered s.toPart q .badCar []) :=
  runRequest_of_refused g (by rw [Part.judgeCar_beginHandling, h])

/-! ## Table 26 -/

/-- Test 1 of R185 passes a length of at most 64, that many bytes, and the checksum of R192. -/
theorem requestPayload_iff : requestPayload code body = some payload ↔
    payload.length ≤ 64 ∧ ∃ check, body = BitVec.ofNat 8 payload.length :: (payload ++ [check]) ∧
      code + body.foldl (· + ·) 0 = 0 := by
  have sum (l : List Byte) : (code :: l).foldl (· + ·) 0 = code + l.foldl (· + ·) 0 := by
    have shift (l : List Byte) (a b : Byte) : l.foldl (· + ·) (a + b) = a + l.foldl (· + ·) b := by
      induction l generalizing b with
      | nil => rfl
      | cons x l ih => rw [List.foldl_cons, List.foldl_cons, BitVec.add_assoc, ih]
    rw [List.foldl_cons, BitVec.add_comm 0 code, shift]
  unfold requestPayload
  constructor
  · intro h
    split at h
    · cases h
    · next len rest =>
      split at h
      · next k =>
        obtain ⟨size, small, zero⟩ := k
        cases h
        have taken : (rest.take len.toNat).length = len.toNat := by rw [List.length_take]; omega
        have ends : rest = rest.take len.toNat ++ [rest[len.toNat]'(by omega)] := by
          rw [List.take_append_getElem, List.take_of_length_le (by omega)]
        refine ⟨by omega, rest[len.toNat]'(by omega), ?_, by rw [← sum]; exact zero⟩
        rw [taken, ← ends, BitVec.ofNat_toNat, BitVec.setWidth_eq]
      · cases h
  · rintro ⟨small, check, rfl, zero⟩
    have len : (BitVec.ofNat 8 payload.length).toNat = payload.length := by
      rw [BitVec.toNat_ofNat]; omega
    simp only [len, sum, zero, small]
    simp

/-- The codes and lengths that test 2 of R185 passes (Table 26, log 15). -/
theorem command_iff (code : Byte) (n : Nat) : isCommand code = true ∧ lengthAllowed code n = true ↔
    (code.toNat ∈ [3, 5, 7, 11, 14, 27, 28] ∧ n = 0) ∨
    (code.toNat ∈ [1, 4, 6, 12, 13, 20, 21, 40, 41, 43, 44, 45, 46, 47] ∧ n = 1) ∨
    (code.toNat ∈ [2, 9, 24] ∧ n = 3) ∨
    (code.toNat = 8 ∧ ∃ pairs, pairs ≤ 32 ∧ n = 2 * pairs) ∨
    (code.toNat = 10 ∧ ∃ fields, fields ≤ 21 ∧ n = 3 * fields) ∨
    (code.toNat = 22 ∧ n = 23) ∨
    (code.toNat = 23 ∧ ∃ landings, 2 ≤ landings ∧ landings ≤ 8 ∧ n = 3 + 3 * landings) ∨
    (code.toNat = 25 ∧ n = 49) ∨
    (code.toNat = 26 ∧ ∃ points, 2 ≤ points ∧ points ≤ 8 ∧ n = 1 + 4 * points) ∨
    (code.toNat = 42 ∧ n = 6) := by
  have pairs : n % 2 = 0 ∧ n ≤ 64 ↔ ∃ k, k ≤ 32 ∧ n = 2 * k := ⟨fun h => ⟨n / 2, by omega⟩, by rintro ⟨k, h⟩; omega⟩
  have fields : n % 3 = 0 ∧ n ≤ 63 ↔ ∃ k, k ≤ 21 ∧ n = 3 * k := ⟨fun h => ⟨n / 3, by omega⟩, by rintro ⟨k, h⟩; omega⟩
  have landings : n % 3 = 0 ∧ 9 ≤ n ∧ n ≤ 27 ↔ ∃ k, 2 ≤ k ∧ k ≤ 8 ∧ n = 3 + 3 * k :=
    ⟨fun h => ⟨n / 3 - 1, by omega⟩, by rintro ⟨k, h⟩; omega⟩
  have points : n % 4 = 1 ∧ 9 ≤ n ∧ n ≤ 33 ↔ ∃ k, 2 ≤ k ∧ k ≤ 8 ∧ n = 1 + 4 * k :=
    ⟨fun h => ⟨n / 4, by omega⟩, by rintro ⟨k, h⟩; omega⟩
  unfold lengthAllowed isCommand inRange
  split <;> rename_i k
  case h_32 => simp_all
  all_goals simp [k, globalsLength, pairs, fields, landings, points]

/-- The Station and Panel columns of Table 26 (test 3 of R185). -/
theorem mayGive_eq_false_iff (q : Port) (code : Byte) : mayGive q code = false ↔
    (q = .station ∧ 40 ≤ code.toNat) ∨ (q = .panel ∧ 20 ≤ code.toNat ∧ code.toNat ≤ 28) := by
  cases q <;> simp [mayGive, inRange]

/-- Settles O7: a request of any code is run as one request, whose frame and car are judged before its command's handling. -/
theorem requestsJudged : Obligations.RequestsJudged := by
  refine ⟨fun s q code body known => ?_, fun code body payload => requestPayload_iff, command_iff,
    fun q code _ => mayGive_eq_false_iff q code⟩
  obtain ⟨f, run⟩ := exec_requestOf s q code body known
  refine ⟨fun on armed handling => ?_, fun takes => ⟨fun none => ?_, fun payload frame => ⟨fun h => ?_, fun k l => ⟨fun m => ?_,
    fun m names h => ?_⟩⟩⟩⟩
  · have demand : (s.clockFiller q).demand = s.toPart.demand := demand_congr fun d => by rw [Part.clockFiller_stateOf]
    rw [run]
    unfold runRequest
    rw [runPart_powered on, takeRequest_of_handling armed handling, settleDemand_same demand]
    rfl
  · rw [run, runRequest_refused takes (judgeFrame_badChecksum none)]
  · rw [run, runRequest_refused takes (judgeFrame_badCommand frame h)]
  · rw [run, runRequest_refused takes (judgeFrame_notAllowed frame k l m)]
  · obtain ⟨f, run⟩ := exec_requestOf_namesCar s q body names
    rw [run, runCarRequest_badCar ⟨takes, judgeFrame_ok frame k l m⟩ (judgeCar_eq_none h)]

end Sys2Proof.Machine
end

