-- ==== Sys2Proof/Proofs/Clocking.lean ====
section
/-!
PROOFS. What a port clocks out (R184): of a response read its response, of a request filler alone, as no command's handling
touches the record of what was clocked out (log 25).
-/

namespace Sys2Proof.Machine

variable {s : State} {q : Port} {code : Byte} {body : List Byte} {p p' p'' : Part} {c : Car}

/-! ## The record of the clocked bytes -/

/-- From p to p' the record of what the ports clocked out stands (log 25). -/
def KeepsClocked (p p' : Part) : Prop := ∀ port, (p'.port port).clocked = (p.port port).clocked

theorem KeepsClocked.refl (p : Part) : KeepsClocked p p := fun _ => rfl

theorem KeepsClocked.trans (h : KeepsClocked p p') (k : KeepsClocked p' p'') : KeepsClocked p p'' :=
  fun port => (k port).trans (h port)

/-- The same with the later part first, so that the part between need not be written. -/
theorem KeepsClocked.after (k : KeepsClocked p' p'') (h : KeepsClocked p p') : KeepsClocked p p'' := h.trans k

theorem KeepsClocked.of_ports (station : p'.station = p.station) (panel : p'.panel = p.panel) : KeepsClocked p p'
  | .station => congrArg (·.clocked) station
  | .panel => congrArg (·.clocked) panel

theorem KeepsRest.keepsClocked (h : KeepsRest p p') : KeepsClocked p p'
  | .station => by show p'.station.clocked = _; rw [h.station]; rfl
  | .panel => by show p'.panel.clocked = _; rw [h.panel]; rfl

theorem keepsClocked_modPort (p : Part) (q : Port) {f : PortState → PortState} (h : ∀ x, (f x).clocked = x.clocked) :
    KeepsClocked p (p.modPort q f) := by
  intro port
  cases q <;> cases port <;> first | rfl | exact h _

/-! ## Entries of the converter, and the configuration -/

theorem keepsRest_converterOn (p : Part) : KeepsRest p p.converterOn :=
  (keepsRest_modSupply p _).trans (keepsRest_select _)

theorem keepsRest_converterWake (p : Part) : KeepsRest p p.converterWake := by
  simp only [Part.converterWake]; split
  · exact (keepsRest_modSupply p _).trans (keepsRest_converterOn _)
  · exact keepsRest_modSupply p _

theorem keepsRest_converterStandby (p : Part) : KeepsRest p p.converterStandby := by
  simp only [Part.converterStandby]; split
  · exact (keepsRest_modSupply p _).trans (keepsRest_converterWake _)
  · exact keepsRest_modSupply p _

theorem keepsRest_recompute (p : Part) : KeepsRest p p.recompute := by
  simp only [Part.recompute]; split
  · exact (keepsRest_modSupply p _).trans (keepsRest_select _)
  · exact keepsRest_modSupply p _

theorem keepsRest_change {go : Part → Part} (h : ∀ p, TouchesOnly c p (go p)) (p : Part) : KeepsRest p (p.change c go) :=
  (change_keeps p c go h).1

theorem keepsClocked_reinitialise (p : Part) (c : Car) (e : CarEntry) : KeepsClocked p (p.reinitialise c e) := by
  unfold Part.reinitialise
  exact KeepsClocked.after ((touchesOnly_judgeStall _ c).rest.trans (keepsRest_askPass_requested _)).keepsClocked
    (.of_ports rfl rfl)

theorem keepsClocked_configureCar (p : Part) (c : Car) (e : Option CarEntry) : KeepsClocked p (p.configureCar c e).part := by
  unfold Part.configureCar
  cases e <;> dsimp only <;> split
  · exact .refl p
  · exact .refl p
  · exact keepsClocked_reinitialise p c _
  · exact .refl p

theorem keepsClocked_applyGlobals (p : Part) (g : Globals) : KeepsClocked p (p.applyGlobals g) := by
  have bounds (p : Part) : KeepsRest p (allCars.foldl (fun p c => p.boundPulse c) p) := by
    refine foldl_keeps KeepsRest.refl KeepsRest.trans _ (fun p c => ?_) _ p
    unfold Part.boundPulse; split
    · exact .refl p
    · exact keepsRest_modCar p c _
  unfold Part.applyGlobals
  refine KeepsClocked.after ((keepsRest_recompute _).keepsClocked.after (bounds _).keepsClocked) ?_
  exact .of_ports rfl rfl

theorem keepsClocked_commit (p : Part) (q : Port) (k : Fin 16) : KeepsClocked p (p.commit q k).part := by
  unfold Part.commit
  dsimp only
  split
  · exact .refl p
  · split
    · exact .refl p
    · split <;> exact .of_ports rfl rfl

/-! ## A request clocks out filler alone -/

theorem keepsClocked_respond (a : Answer) (q : Port) : KeepsClocked a.part (a.respond q) :=
  keepsClocked_modPort a.part q fun _ => rfl

theorem keepsClocked_accept (h : KeepsClocked p p') : KeepsClocked p p'.accept.part := h

/-- The command of a request leaves its port with nothing but filler clocked out. -/
def ClocksFiller (s : State) (q : Port) (o : Host.Outcome State Fault Refusal) : Prop :=
  s.powered = true → ∃ t, o = .next t ∧ (t.port q).clocked = []

theorem clocked_resetByTransaction (p : Part) (q : Port) : (p.resetByTransaction.port q).clocked = [] := by
  rw [Part.resetByTransaction, Part.softReset, (keepsRest_recompute _).keepsClocked q]
  cases q <;> rfl

theorem clocksFiller_runRequest {h : List Byte → Part → Answer} (k : ∀ payload p, KeepsClocked p (h payload p).part) :
    ClocksFiller s q (runRequest s q code body h) := by
  intro on
  refine ⟨_, runPart_powered on _, ?_⟩
  show ((settleDemand _ _).port q).clocked = []
  rw [(settleDemand_keeps _ _).1.keepsClocked q]
  unfold Part.takeRequest
  split
  · exact clocked_resetByTransaction _ q
  · split
    · cases q <;> rfl
    · have begun : ((s.toPart.beginHandling q code body).port q).clocked = [] := by rw [Part.beginHandling_port]
      rw [← begun]
      have handled (p : Part) : KeepsClocked p
          (match judgeFrame q code body with | .error r => p.refuse r | .ok payload => h payload p).part := by
        split
        · exact .refl p
        · exact k _ p
      exact ((handled _).trans (keepsClocked_respond _ q)) q

theorem clocksFiller_runCarRequest {h : Car → List Byte → Part → Answer}
    (k : ∀ c rest p, KeepsClocked p (h c rest p).part) : ClocksFiller s q (runCarRequest s q code body h) :=
  clocksFiller_runRequest fun payload p => by
    split
    · exact .refl p
    · exact k _ _ p

theorem keepsClocked_ite {b : Prop} [Decidable b] {x y : Answer} (hx : KeepsClocked p x.part) (hy : KeepsClocked p y.part) :
    KeepsClocked p (if b then x else y).part := by split <;> assumption

section
variable (s q body)

theorem clocksFiller_readCar : ClocksFiller s q (execReadCar q body s) := clocksFiller_runCarRequest fun _ _ p => .refl p

theorem clocksFiller_readTracker : ClocksFiller s q (execReadTracker q body s) :=
  clocksFiller_runCarRequest fun c _ p => by
    dsimp only; split
    · exact .refl p
    · exact keepsClocked_ite (keepsClocked_modPort p q (f := fun x => { x with cursor := some (c, _) }) fun _ => rfl) (.refl p)

theorem clocksFiller_readSupply : ClocksFiller s q (execReadSupply q body s) := clocksFiller_runRequest fun _ p => .refl p

theorem clocksFiller_readRule : ClocksFiller s q (execReadRule q body s) :=
  clocksFiller_runRequest fun _ p => by split <;> exact .refl p

theorem clocksFiller_readStage : ClocksFiller s q (execReadStage q body s) := clocksFiller_runRequest fun _ p => .refl p

theorem clocksFiller_readConfig : ClocksFiller s q (execReadConfig q body s) :=
  clocksFiller_runRequest fun _ p => by split <;> exact .refl p

theorem clocksFiller_readNotices : ClocksFiller s q (execReadNotices q body s) := clocksFiller_runRequest fun _ p => .refl p

theorem clocksFiller_ackNotices : ClocksFiller s q (execAckNotices q body s) :=
  clocksFiller_runRequest fun payload p => by
    split
    · next pairs _ =>
      exact keepsClocked_modPort p q (f := fun x => { x with notices := x.notices.filter fun n => !pairs.contains n })
        fun _ => rfl
    · exact .refl p

theorem clocksFiller_setNoticeEnable : ClocksFiller s q (execSetNoticeEnable q body s) :=
  clocksFiller_runRequest fun payload p => by
    split
    · next kinds _ => exact keepsClocked_modPort p q (f := fun x => { x with mask := kinds }) fun _ => rfl
    · exact .refl p

theorem clocksFiller_stageRule : ClocksFiller s q (execStageRule q body s) :=
  clocksFiller_runRequest fun payload p => by
    split
    · next staging _ => exact keepsClocked_modPort p q (f := fun x => { x with staging := staging }) fun _ => rfl
    · exact .refl p

theorem clocksFiller_clearStage : ClocksFiller s q (execClearStage q body s) :=
  clocksFiller_runRequest fun _ p =>
    keepsClocked_modPort p q (f := fun x => { x with staging := ⟨defaultRule, 0⟩ }) fun _ => rfl

theorem clocksFiller_commitRule : ClocksFiller s q (execCommitRule q body s) :=
  clocksFiller_runRequest fun _ p => by
    split
    · exact keepsClocked_commit p q _
    · exact .refl p

theorem clocksFiller_clearCar : ClocksFiller s q (execClearCar q body s) :=
  clocksFiller_runCarRequest fun c _ p => keepsClocked_ite (touchesOnly_toNormal p c).rest.keepsClocked (.refl p)

theorem clocksFiller_clearSupplyFault : ClocksFiller s q (execClearSupplyFault q body s) :=
  clocksFiller_runRequest fun _ p =>
    keepsClocked_ite ((keepsRest_modSupply p _).trans (keepsRest_converterStandby _)).keepsClocked (.refl p)

theorem clocksFiller_readLine : ClocksFiller s q (execReadLine q body s) := clocksFiller_runCarRequest fun _ _ p => .refl p

theorem clocksFiller_clearLineCounts : ClocksFiller s q (execClearLineCounts q body s) :=
  clocksFiller_runCarRequest fun c _ p => (keepsRest_modCar p c _).keepsClocked

theorem clocksFiller_writeCarParams : ClocksFiller s q (execWriteCarParams q body s) :=
  clocksFiller_runCarRequest fun c _ p => keepsClocked_configureCar p c _

theorem clocksFiller_writeMap : ClocksFiller s q (execWriteMap q body s) :=
  clocksFiller_runCarRequest fun c _ p => keepsClocked_configureCar p c _

theorem clocksFiller_writeRuleset : ClocksFiller s q (execWriteRuleset q body s) :=
  clocksFiller_runCarRequest fun c _ p => keepsClocked_configureCar p c _

theorem clocksFiller_writeGlobal : ClocksFiller s q (execWriteGlobal q body s) :=
  clocksFiller_runRequest fun payload p => keepsClocked_ite (.refl p) (by
    split
    · next g _ => exact keepsClocked_accept (keepsClocked_applyGlobals p g)
    · exact .refl p)

theorem clocksFiller_writeSocTable : ClocksFiller s q (execWriteSocTable q body s) :=
  clocksFiller_runRequest fun payload p => by
    split
    · next table _ =>
      have written : KeepsClocked p { p with config := { p.config with soc := table } }.markUnsaved := .of_ports rfl rfl
      exact written.trans (keepsRest_recompute _).keepsClocked
    · exact .refl p

theorem clocksFiller_saveSettings : ClocksFiller s q (execSaveSettings q body s) :=
  clocksFiller_runRequest fun _ p => keepsClocked_ite (.of_ports rfl rfl) (.refl p)

theorem clocksFiller_reset : ClocksFiller s q (execReset q body s) :=
  clocksFiller_runRequest fun _ p => keepsClocked_ite (.of_ports rfl rfl) (.refl p)

theorem keepsRest_abortForInhibit (p : Part) (c : Car) : KeepsRest p (p.abortForInhibit c) := by
  unfold Part.abortForInhibit; split
  · exact (((touchesOnly_cancelIfDriving p c).trans (touchesOnly_closeBrake _ c)).trans (touchesOnly_setAbort _ c _)).rest
  · exact .refl p

theorem clocksFiller_inhibitCar : ClocksFiller s q (execInhibitCar q body s) :=
  clocksFiller_runCarRequest fun c _ p => keepsClocked_ite (.refl p)
    ((keepsRest_abortForInhibit p c).trans (keepsRest_change
      (fun p => (touchesOnly_setState p c _ _).trans (touchesOnly_modRecord _ c _)) _)).keepsClocked

theorem clocksFiller_restoreCar : ClocksFiller s q (execRestoreCar q body s) :=
  clocksFiller_runCarRequest fun c _ p => keepsClocked_ite (by
    show KeepsClocked p (if _ then _ else _)
    split
    · exact (keepsRest_change (fun p => touchesOnly_toAssessing p c) p).keepsClocked
    · exact (touchesOnly_toNormal p c).rest.keepsClocked) (.refl p)

theorem keepsRest_confirmed (p : Part) (c : Car) (zone : Nat) : KeepsRest p (p.confirmed c zone) := by
  unfold Part.confirmed
  split
  · split
    · exact (keepsRest_modCar p c _).trans (keepsRest_change (fun p => touchesOnly_toReleasing p c) _)
    · exact .refl p
  · exact (touchesOnly_modRecord p c _).rest
  · exact keepsRest_change (fun p => touchesOnly_toAssessing p c) p
  · exact .refl p

theorem clocksFiller_confirmPosition : ClocksFiller s q (execConfirmPosition q body s) :=
  clocksFiller_runCarRequest fun c _ p => keepsClocked_ite (.refl p) (by
    split
    · exact ((touchesOnly_seedTracker p c _ _ _).rest.trans (keepsRest_confirmed _ c _)).keepsClocked
    · exact .refl p)

theorem clocksFiller_releaseHold : ClocksFiller s q (execReleaseHold q body s) :=
  clocksFiller_runCarRequest fun c _ p =>
    keepsClocked_ite (keepsRest_change (fun p => touchesOnly_toAssessing p c) p).keepsClocked (.refl p)

theorem clocksFiller_clearFailed : ClocksFiller s q (execClearFailed q body s) :=
  clocksFiller_runCarRequest fun c _ p => keepsClocked_ite (((keepsRest_modCar p c _).trans
    ((keepsRest_modCar _ c _).trans (keepsRest_change (fun p => touchesOnly_toAssessing p c) _))).keepsClocked) (.refl p)

theorem clocksFiller_setFirst : ClocksFiller s q (execSetFirst q body s) :=
  clocksFiller_runCarRequest fun c _ p => keepsClocked_ite
    ((keepsRest_mapCars p _).trans ((keepsRest_modCar _ c _).trans (keepsRest_select _))).keepsClocked (.refl p)

theorem clocksFiller_clearFirst : ClocksFiller s q (execClearFirst q body s) :=
  clocksFiller_runCarRequest fun c _ p => (keepsRest_modCar p c _).keepsClocked

theorem clocksFiller_silenceTone : ClocksFiller s q (execSilenceTone q body s) :=
  clocksFiller_runCarRequest fun c _ p => (keepsRest_modCar p c _).keepsClocked

end

/-- A request of any code clocks out filler alone (R184). -/
theorem clocksFiller_requestOf (s : State) (q : Port) (code : Byte) (body : List Byte) (h : ¬(q = .station ∧ code = 0)) :
    ClocksFiller s q (exec (requestOf q code body) s) := by
  cases known : isCommand code with
  | false =>
    rw [requestOf_unknown known]
    show ClocksFiller s q (if isUnknownCode q code then _ else _)
    rw [if_pos (by unfold isUnknownCode; cases q <;> simp_all)]
    exact clocksFiller_runRequest fun _ p => .refl p
  | true =>
    have table : code.toNat ∈ tableCodes := by simpa [isCommand_eq_contains] using known
    generalize k : code.toNat = n at table
    obtain rfl := eq_ofNat_of_toNat k
    clear k known h
    fin_cases table
    · exact clocksFiller_readCar s q body
    · exact clocksFiller_readTracker s q body
    · exact clocksFiller_readSupply s q body
    · exact clocksFiller_readRule s q body
    · exact clocksFiller_readStage s q body
    · exact clocksFiller_readConfig s q body
    · exact clocksFiller_readNotices s q body
    · exact clocksFiller_ackNotices s q body
    · exact clocksFiller_setNoticeEnable s q body
    · exact clocksFiller_stageRule s q body
    · exact clocksFiller_clearStage s q body
    · exact clocksFiller_commitRule s q body
    · exact clocksFiller_clearCar s q body
    · exact clocksFiller_clearSupplyFault s q body
    · exact clocksFiller_readLine s q body
    · exact clocksFiller_clearLineCounts s q body
    · exact clocksFiller_writeCarParams s q body
    · exact clocksFiller_writeMap s q body
    · exact clocksFiller_writeRuleset s q body
    · exact clocksFiller_writeGlobal s q body
    · exact clocksFiller_writeSocTable s q body
    · exact clocksFiller_saveSettings s q body
    · exact clocksFiller_reset s q body
    · exact clocksFiller_inhibitCar s q body
    · exact clocksFiller_restoreCar s q body
    · exact clocksFiller_confirmPosition s q body
    · exact clocksFiller_releaseHold s q body
    · exact clocksFiller_clearFailed s q body
    · exact clocksFiller_setFirst s q body
    · exact clocksFiller_clearFirst s q body
    · exact clocksFiller_silenceTone s q body

/-! ## A response read -/

theorem responseBytes_ready (r : ResultCode) (payload : List Byte) :
    ∃ check, responseBytes (.ready r payload) = 165 :: resultCode r :: BitVec.ofNat 8 payload.length :: (payload ++ [check]) ∧
      ((responseBytes (.ready r payload)).drop 1).foldl (· + ·) 0 = 0 :=
  ⟨_, rfl, sum_checksumOf _⟩

theorem responseBytes_notReady {b : ResponseBuffer} (h : ∀ r payload, b ≠ .ready r payload) : responseBytes b = [90] := by
  cases b with
  | ready r payload => exact absurd rfl (h r payload)
  | empty => rfl
  | handling _ _ => rfl

/-- Settles O8: the response's bytes by the buffer, and the record that every request leaves empty. -/
theorem responseReadBytes : Obligations.ResponseReadBytes := by
  intro s q on
  refine ⟨⟨_, responseBytes (s.port q).buffer, runPart_powered on _, fun unarmed => ?_, fun place => ?_, fun r payload h => ?_,
    responseBytes_notReady⟩, fun code body known => ?_⟩
  · have plain : ¬(q = .station ∧ s.resetArmed = true) := by
      rintro ⟨rfl, armed⟩; rcases unarmed with h | h
      · cases h
      · rw [armed] at h; cases h
    simp only [plain, if_false]
    rw [settleDemand_same (demand_congr fun d => by unfold Part.stateOf; rw [Part.modPort_car])]
    rfl
  · show ((settleDemand _ _).port q).clocked.getD place 0 = _
    rw [(settleDemand_keeps _ _).1.keepsClocked q]
    cases q <;> rfl
  · rw [h]; exact responseBytes_ready r payload
  · obtain ⟨t, run, clocked⟩ := clocksFiller_requestOf s q code body known on
    exact ⟨t, run, fun place => by unfold PortState.dataOut; rw [clocked]; rfl⟩

end Sys2Proof.Machine
end

