-- ==== Sys2Proof/Proofs/Payloads.lean ====
section
/-!
PROOFS. The payloads of the read commands, item by item (R27, R50, R51, R101, R121, R122, R158, R173, R182): a number of a
range takes the bytes that hold the range, and a code is its value's place in the list of its table (R186).
-/

namespace Sys2Proof.Machine

/-! ## Figures (R186) -/

/-- A number in w bytes, most significant byte first. -/
theorem putNat_eq_map (w n : Nat) :
    putNat w n = (List.range w).map fun i => BitVec.ofNat 8 (n / 256 ^ (w - 1 - i)) := by
  induction w with
  | zero => rfl
  | succ w ih =>
    rw [putNat, ih, List.range_succ_eq_map, List.map_cons, List.map_map]
    refine congrArg₂ _ (by simp) (List.map_congr_left fun i hi => ?_)
    simp only [Function.comp_apply]
    rw [show w + 1 - 1 - i.succ = w - 1 - i by omega]

/-- A field of w bytes that may be absent (R186). -/
def putMaybe (w : Nat) : Option Nat → List Byte
  | some n => 1 :: putNat w n
  | none => 0 :: putNat w 0

theorem putOption_eq_putMaybe (hi : Nat) (x : Option Nat) : putOption hi x = putMaybe (bytesFor hi) x := by
  cases x <;> rfl

theorem putBool_eq (b : Bool) : putBool b = if b then [1] else [0] := by cases b <;> rfl

theorem putActive_eq (b : Bool) : putActive b = if !b then [1] else [0] := by cases b <;> rfl

/-! ## Codes (R186) -/

theorem levelCode_eq (x : Option Bool) : levelCode x = [some true, some false, none].idxOf x := by
  rcases x with _ | _ | _ <;> rfl

theorem putDir_eq (x : Option Dir) : putDir x = putNat 1 ([some Dir.up, some .down, none].idxOf x) := by
  rcases x with _ | _ | _ <;> rfl

theorem putPattern_eq (x : Option TonePattern) :
    putPattern x =
      putNat 1 ([some TonePattern.moveStart, some .levelled, some .release, some .reassure, none].idxOf x) := by
  rcases x with _ | _ | _ | _ | _ <;> rfl

theorem planMethodCode_eq :
    planMethodCode = [PlanMethod.gravityDown, .gravityUp, .poweredUp, .poweredDown, .probe, .none].idxOf := by
  funext x; cases x <;> rfl

theorem naturalCode_eq : naturalCode = [NaturalDir.up, .down, .balanced, .unknown].idxOf := by funext x; cases x <;> rfl

theorem basisCode_eq : basisCode = [PositionBasis.landing, .known, .worstCase, .noSpan].idxOf := by
  funext x; cases x <;> rfl

theorem dirCode_eq : dirCode = [Dir.up, .down].idxOf := by funext x; cases x <;> rfl

theorem passKindCode_eq (x : PassKind) : passKindCode x = [PassKind.timed, .requested].idxOf x := by cases x <;> rfl

theorem channelCode_eq (x : ChannelState) : channelCode x = [ChannelState.closed, .open, .locked].idxOf x := by
  cases x <;> rfl

theorem openingCode_eq : openingCode = [OpeningKind.lowering, .probe].idxOf := by funext x; cases x <;> rfl

theorem releaseCode_eq : releaseCode = [ReleaseMethod.frame, .pulse].idxOf := by funext x; cases x <;> rfl

theorem lampCode_eq (x : LampMode) : lampCode x = [LampMode.off, .steady, .flash].idxOf x := by cases x <;> rfl

theorem stateCode_eq (x : RescueState) : stateCode x =
    [RescueState.unconfigured, .normal, .confirming, .assessing, .ready, .probing, .lowering, .levelling, .driving,
      .releasing, .rescued, .held, .failed, .inhibited].idxOf x := by cases x <;> rfl

theorem heldCode_eq (x : Option HeldCause) :
    heldCode x = [none, some HeldCause.safety, some .lockout, some .noMethod, some .position].idxOf x := by
  rcases x with _ | _ | _ | _ | _ <;> rfl

theorem stallCauseCode_eq : stallCauseCode = [StallCause.power, .driveFault, .safety, .unknown].idxOf := by
  funext x; cases x <;> rfl

theorem abortCode_eq : abortCode = [AbortCause.chainOpen, .lockout, .supplyLost, .inhibit, .reversal, .overspeed, .runLimit,
    .brakeSlip, .noAck, .driveFail, .driveTimeout, .gateTimeout, .stopOutsideZone].idxOf := by funext x; cases x <;> rfl

theorem probeCode_eq : probeCode = [ProbeResult.up, .down, .noDrift].idxOf := by funext x; cases x <;> rfl

theorem methodUsedCode_eq :
    methodUsedCode = [MethodUsed.gravityDown, .gravityUp, .poweredUp, .poweredDown, .none].idxOf := by
  funext x; cases x <;> rfl

/-! ## READ_CAR -/

theorem execReadCar_of_given {s : State} {q : Port} {body rest : List Byte} {c : Car} (g : s.givenCar q 1 body c rest) :
    execReadCar q body s = .next (s.answered s.toPart q .ok (s.readCar c)) := by
  have payload : (s.toPart.beginHandling q 1 body).readCar c = s.readCar c := by cases q <;> rfl
  unfold execReadCar
  rw [runCarRequest_of_answer g (p := s.toPart) (r := .ok) (bytes := s.readCar c) (by rw [payload]; rfl) rfl]

/-- Settles O10: READ_CAR answers its payload, which is its items one after the other. -/
theorem carRead : Obligations.CarRead := by
  intro s q body c rest g wide maybe yes mm level channel tone b i plan k x r
  have wideEq (w n : Nat) : wide w n = putNat w n := (putNat_eq_map w n).symm
  have maybeEq (w : Nat) (y : Option Nat) : maybe w y = putMaybe w y := by
    cases y <;> simp only [maybe, wideEq] <;> rfl
  have mmEq (n : Int) : mm n = putInt 4 (countToMm (s.entry c).ppm n) := wideEq _ _
  have levelEq (y : LevelFilter) : level y = put 2 (levelCode y.accepted) := by
    rw [levelCode_eq]; exact wideEq _ _
  have channelEq (y : ChannelState) : channel y = put 2 (channelCode y) := by rw [channelCode_eq]; exact wideEq _ _
  have toneEq (y : Option TonePattern) : tone y = putPattern y := by rw [putPattern_eq]; exact wideEq _ _
  have yesEq (y : Bool) : yes y = putBool y := (putBool_eq y).symm
  have activeEq (y : Bool) : yes (!y) = putActive y := (putActive_eq y).symm
  refine (execReadCar_of_given g).trans ?_
  refine congrArg (fun bytes => Host.Outcome.next (s.answered s.toPart q .ok bytes)) ?_
  simp only [mmEq, levelEq, channelEq, toneEq, activeEq, yesEq, maybeEq, wideEq]
  unfold Part.readCar putRecord
  simp only [putInputs, Part.putPlanner, putPlan, Part.putBrake, Part.runLimitOf, putSignals,
    putOption_eq_putMaybe, put, putDir_eq, planMethodCode_eq, naturalCode_eq, basisCode_eq, dirCode_eq, passKindCode_eq,
    openingCode_eq, releaseCode_eq, lampCode_eq, stateCode_eq, heldCode_eq, stallCauseCode_eq, abortCode_eq, probeCode_eq,
    methodUsedCode_eq, List.append_assoc, bytesFor, Nat.reduceLT, if_true, if_false]
  rfl

/-! ## READ_SUPPLY, READ_RULE, READ_LINE and READ_TRACKER -/

theorem beliefCode_eq (x : MainsBelief) : beliefCode x = [MainsBelief.unknown, .present, .absent].idxOf x := by
  cases x <;> rfl

theorem converterCode_eq (x : ConverterState) :
    converterCode x = [ConverterState.off, .standby, .waking, .on, .fault].idxOf x := by cases x <;> rfl

theorem lineStateCode_eq (x : LineState) : lineStateCode x = [LineState.silent, .alive, .lost].idxOf x := by
  cases x <;> rfl

theorem modeCode_eq (x : StatusMode) : modeCode x = [StatusMode.inService, .stalled, .outOfService].idxOf x + 1 := by
  cases x <;> rfl

theorem gateCode_eq (x : GateState) : gateCode x = [GateState.unknown, .closed, .opening, .open].idxOf x := by
  cases x <;> rfl

theorem counterStateCode_eq (x : CounterState) : counterStateCode x = [CounterState.idle, .counting, .reached].idxOf x := by
  cases x <;> rfl

theorem portCode_eq (x : Port) : portCode x = [Port.station, .panel].idxOf x := by cases x <;> rfl

theorem detailCode_eq (x : EdgeDetail) :
    detailCode x = [EdgeDetail.enter .up, .enter .down, .leave .up, .leave .down, .level].idxOf x := by
  rcases x with (_ | _) | (_ | _) | _ <;> rfl

theorem quantityCode_eq (x : Quantity) :
    quantityCode x = [Quantity.loadKg, .trappedS, .landing, .alarms, .usableEu, .urgency].idxOf x := by cases x <;> rfl

theorem compareCode_eq (x : Compare) : compareCode x = [Compare.off, .inRange, .outOfRange, .atBound].idxOf x := by
  cases x <;> rfl

theorem lineConditionCode_eq (x : LineCondition) : lineConditionCode x = [LineCondition.any, .alive, .lost].idxOf x := by
  cases x <;> rfl

theorem weightActionCode_eq (x : WeightAction) :
    weightActionCode x = [WeightAction.none, .raise, .lower, .set].idxOf x := by cases x <;> rfl

theorem methodActionCode_eq (x : MethodAction) :
    methodActionCode x = [MethodAction.none, .add, .keepOnly, .set].idxOf x := by cases x <;> rfl

theorem countActionCode_eq (x : CountAction) : countActionCode x = [CountAction.none, .countUp, .countDown].idxOf x := by
  cases x <;> rfl

theorem countUnitCode_eq (x : CountUnit) : countUnitCode x = [CountUnit.seconds, .minutes].idxOf x := by cases x <;> rfl

/-- The code or value of a field of a rule, by its place in Table 15. -/
def ruleFigures (r : Rule) : List Nat :=
  [if r.enabled then 1 else 0,
    [Quantity.loadKg, .trappedS, .landing, .alarms, .usableEu, .urgency].idxOf r.quantity,
    [Compare.off, .inRange, .outOfRange, .atBound].idxOf r.compare, r.low, r.high, r.causes.toNat,
    [LineCondition.any, .alive, .lost].idxOf r.lineCondition,
    [WeightAction.none, .raise, .lower, .set].idxOf r.weightAction, r.weightValue,
    [MethodAction.none, .add, .keepOnly, .set].idxOf r.methodAction, r.methods.toNat,
    [CountAction.none, .countUp, .countDown].idxOf r.countAction, [CountUnit.seconds, .minutes].idxOf r.countUnit,
    r.countLimit]

/-- The bytes of a field of a rule, by its place in Table 15. -/
def ruleBytes (r : Rule) (n : Nat) : List Byte :=
  putNat ([1, 1, 1, 2, 2, 1, 1, 1, 2, 1, 1, 1, 1, 2].getD n 0) ((ruleFigures r).getD n 0)

theorem putField_eq_ruleBytes (r : Rule) {n : Nat} (h : n < 14) : putField r (n + 1) = ruleBytes r n := by
  have width : bytesFor (fieldRange (n + 1)) = [1, 1, 1, 2, 2, 1, 1, 1, 2, 1, 1, 1, 1, 2].getD n 0 := by
    interval_cases n <;> rfl
  have figure : ruleField r (n + 1) = (ruleFigures r).getD n 0 := by
    interval_cases n
    · rfl
    · exact quantityCode_eq _
    · exact compareCode_eq _
    · rfl
    · rfl
    · rfl
    · exact lineConditionCode_eq _
    · exact weightActionCode_eq _
    · rfl
    · exact methodActionCode_eq _
    · rfl
    · exact countActionCode_eq _
    · exact countUnitCode_eq _
    · rfl
  rw [putField, put, width, figure, ruleBytes]

theorem fieldNumbers_eq : fieldNumbers = (List.range 14).map (· + 1) := rfl

theorem putRule_eq_ruleBytes (r : Rule) : putRule r = (List.range 14).flatMap (ruleBytes r) := by
  rw [putRule, fieldNumbers_eq, List.flatMap_map]
  exact List.flatMap_congr fun n hn => putField_eq_ruleBytes r (List.mem_range.mp hn)

theorem putSelected_eq_ruleBytes (sel : FieldSet) (r : Rule) : putSelected sel r =
    putNat 2 sel.toNat ++ ((List.range 14).filter fun n => sel.getLsbD n).flatMap (ruleBytes r) := by
  rw [putSelected, fieldNumbers_eq, List.filter_map, List.flatMap_map]
  refine congrArg _ (List.flatMap_congr fun n hn => putField_eq_ruleBytes r ?_)
  exact List.mem_range.mp (List.mem_of_mem_filter hn)

section
variable {s : State} {q : Port} {body payload rest : List Byte} {c : Car}

theorem execReadSupply_of_given (g : s.given q 3 body payload) :
    execReadSupply q body s = .next (s.answered s.toPart q .ok s.readSupply) := by
  have same : (s.toPart.beginHandling q 3 body).readSupply = s.readSupply := by cases q <;> rfl
  exact runRequest_of_answer g (by rw [same]; exact rfl) rfl

theorem execReadRule_of_given {n : Byte} {k : Fin 16} (g : s.given q 4 body [n]) (h : n.toNat = k.val) :
    execReadRule q body s = .next (s.answered s.toPart q .ok (s.readRule k)) := by
  have same : (s.toPart.beginHandling q 4 body).readRule k = s.readRule k := by cases q <;> rfl
  have rule : ruleOf (fieldAt [n] 0 1) = some k := by
    have : fieldAt [n] 0 1 = k.val := by rw [← h]; simp [fieldAt, getNat]
    rw [this, ruleOf, dif_pos k.isLt]
  exact runRequest_of_answer g (by rw [rule]; simp only [same]; exact rfl) rfl

theorem execReadRule_badValue {n : Byte} (g : s.given q 4 body [n]) (h : 16 ≤ n.toNat) :
    execReadRule q body s = .next (s.answered s.toPart q .badValue []) := by
  have rule : ruleOf (fieldAt [n] 0 1) = none := by
    have : fieldAt [n] 0 1 = n.toNat := by simp [fieldAt, getNat]
    rw [this, ruleOf, dif_neg (by omega)]
  exact runRequest_of_refused g (by rw [rule])

theorem execReadLine_of_given (g : s.givenCar q 20 body c rest) :
    execReadLine q body s = .next (s.answered s.toPart q .ok (s.car c).line.readLine) :=
  runCarRequest_of_answer g (by rw [Part.beginHandling_car]; exact rfl) rfl

/-- READ_TRACKER by the start that its code and the cursor give (R187). -/
theorem execReadTracker_of_given {start count : Byte} {used : Nat} (g : s.givenCar q 2 body c [start, count])
    (h : trackerStart (s.port q).cursor c start.toNat = some used) (lo : 1 ≤ count.toNat) (hi : count.toNat ≤ 15) :
    execReadTracker q body s = .next (s.answered
      (s.modPort q fun x => { x with cursor := some (c, nextIndex (s.entry c) used count.toNat) }) q .ok
      (s.readTracker c used count.toNat)) := by
  have same : (s.toPart.beginHandling q 2 body).readTracker c used count.toNat = s.readTracker c used count.toNat := by
    cases q <;> rfl
  have first : fieldAt [start, count] 0 1 = start.toNat := by simp [fieldAt, getNat]
  have second : fieldAt [start, count] 1 1 = count.toNat := by simp [fieldAt, getNat]
  have range : inRange count.toNat 1 15 = true := by simp [inRange, lo, hi]
  refine runCarRequest_of_answer g ?_ (by cases q <;> rfl)
  simp only [first, second, Part.beginHandling_port, h, range, if_true, same, Part.beginHandling_entry]
  cases q <;> rfl

theorem execReadTracker_badValue {start count : Byte} (g : s.givenCar q 2 body c [start, count])
    (h : (14 < start.toNat ∧ start ≠ 255) ∨ count = 0 ∨ 15 < count.toNat) :
    execReadTracker q body s = .next (s.answered s.toPart q .badValue []) := by
  have first : fieldAt [start, count] 0 1 = start.toNat := by simp [fieldAt, getNat]
  have second : fieldAt [start, count] 1 1 = count.toNat := by simp [fieldAt, getNat]
  refine runCarRequest_of_refused g ?_
  simp only [first, second]
  split
  · rfl
  · next used start_eq =>
    have range : inRange count.toNat 1 15 = false := by
      rcases h with ⟨big, other⟩ | rfl | big
      · have : start.toNat ≠ 255 := fun e => other (BitVec.eq_of_toNat_eq e)
        simp only [trackerStart, this, if_false, not_le.mpr big] at start_eq
        cases start_eq
      · rfl
      · simp [inRange]; omega
    simp [range]

end

/-- Settles O11: each payload is its items one after the other. -/
theorem readContents : Obligations.ReadContents := by
  intro s q body wide maybe yes level cars x
  have wideEq (w n : Nat) : wide w n = putNat w n := (putNat_eq_map w n).symm
  have maybeEq (w : Nat) (y : Option Nat) : maybe w y = putMaybe w y := by
    cases y <;> simp only [maybe, wideEq] <;> rfl
  have levelEq (y : LevelFilter) : level y = put 2 (levelCode y.accepted) := by
    rw [levelCode_eq]; exact wideEq _ _
  have yesEq (y : Bool) : yes y = putBool y := (putBool_eq y).symm
  have activeEq (y : Bool) : yes (!y) = putActive y := (putActive_eq y).symm
  have carsEq (f : Car → Bool) : cars f = putNat 1 (carSet f) := wideEq _ _
  refine ⟨fun payload g => ?_, fun n k g h => ?_, fun c rest g => ?_, fun c start count g small lo hi => ?_⟩
  · refine (execReadSupply_of_given g).trans ?_
    refine congrArg (fun bytes => Host.Outcome.next (s.answered s.toPart q .ok bytes)) ?_
    simp only [levelEq, activeEq, yesEq, carsEq, maybeEq, wideEq]
    unfold Part.readSupply
    simp only [putOption_eq_putMaybe, put, beliefCode_eq, converterCode_eq, bytesFor, Nat.reduceLT, if_true, if_false]
    rfl
  · intro r field bytes entries
    refine (execReadRule_of_given g h).trans ?_
    have bytesEq (r : Rule) : bytes r = ruleBytes r := funext fun n => wideEq _ _
    refine congrArg (fun bytes => Host.Outcome.next (s.answered s.toPart q .ok bytes)) ?_
    unfold Part.readRule
    simp only [putRule_eq_ruleBytes, putSelected_eq_ruleBytes, putCounter, put, counterStateCode_eq, portCode_eq, bytesEq,
      wideEq, yesEq, bytesFor, Nat.reduceLT, if_true, if_false, List.append_assoc]
    rfl
  · intro l status
    refine (execReadLine_of_given g).trans ?_
    have statusEq : status = putStatus l.lastStatus := by
      simp only [status, maybeEq, wideEq]
      cases l.lastStatus with
      | none => rfl
      | some y =>
        simp only [putStatus, Option.map_some, Option.bind_some, putOption_eq_putMaybe, modeCode_eq, gateCode_eq]
        rfl
    refine congrArg (fun bytes => Host.Outcome.next (s.answered s.toPart q .ok bytes)) ?_
    simp only [statusEq, wideEq, yesEq]
    simp only [CarLine.readLine, put, lineStateCode_eq, bytesFor, Nat.reduceLT, if_true]
    rfl
  · intro y v zone offset detail anchor costs
    have first : trackerStart (s.port q).cursor c start.toNat = some start.toNat := by
      have : start.toNat ≠ 255 := by omega
      simp [trackerStart, this, small]
    refine ⟨_, execReadTracker_of_given g first lo hi, ?_⟩
    have buffer (p : Part) (bytes : List Byte) : ((p.responded q .ok bytes).port q).buffer = .ready .ok bytes := by
      cases q <;> rfl
    refine (buffer _ _).trans (congrArg _ ?_)
    have anchorEq : anchor = anchorCode y.anchor := by simp only [anchor]; cases y.anchor <;> rfl
    have detailEq : detail = match y.anchor with | .edge d => some (detailCode d) | _ => none := by
      simp only [detail]
      cases y.anchor with
      | none => rfl
      | edge d => exact congrArg some (detailCode_eq d).symm
      | seed z o => rfl
    simp only [anchorEq, detailEq, wideEq, yesEq, maybeEq, costs]
    simp only [Part.readTracker, putAnchor, putView, putCosts, putInt, put, putOption_eq_putMaybe, bytesFor, Nat.reduceLT,
      if_true, if_false, List.append_assoc]
    rfl

/-! ## The reads (Table 26) -/

section
variable {s : State} {q : Port} {body payload : List Byte}

theorem execReadStage_of_given (g : s.given q 5 body payload) :
    execReadStage q body s = .next (s.answered s.toPart q .ok (putStage (s.port q).staging)) :=
  runRequest_of_answer g (by rw [Part.beginHandling_port]; exact rfl) rfl

theorem execReadNotices_of_given (g : s.given q 7 body payload) :
    execReadNotices q body s = .next (s.answered s.toPart q .ok ((s.port q).notices.flatMap putNotice)) :=
  runRequest_of_answer g (by rw [Part.beginHandling_port]; exact rfl) rfl

/-- READ_CONFIG by the payload that its section has, if it is one. -/
theorem execReadConfig_of_given {k : Byte} (g : s.given q 6 body [k]) : execReadConfig q body s = .next
    (match s.readConfig k.toNat with
      | some bytes => s.answered s.toPart q .ok bytes
      | none => s.answered s.toPart q .badValue []) := by
  have same : (s.toPart.beginHandling q 6 body).readConfig k.toNat = s.readConfig k.toNat := by cases q <;> rfl
  have first : fieldAt [k] 0 1 = k.toNat := by simp [fieldAt, getNat]
  cases h : s.readConfig k.toNat with
  | some bytes => exact runRequest_of_answer g (by rw [first, same, h]; exact rfl) rfl
  | none => exact runRequest_of_refused g (by rw [first, same, h])

/-- The save state, the settings source and the unsaved flag (R17). -/
def Part.putStore (p : Part) : List Byte :=
  [saveCode p.store.save, sourceCode p.store.source, if p.store.unsaved then 1 else 0].map (BitVec.ofNat 8)

theorem Part.readConfig_eq (p : Part) (n : Nat) : p.readConfig n =
    if h : n < 8 then some (putCarEntry (p.entry ⟨n, h⟩) ++ p.putStore)
    else if n = 8 then some (putGlobals p.globals ++ p.putStore)
    else if n = 9 then some (putSoc p.config.soc ++ p.putStore)
    else none := by
  have store : put 2 (saveCode p.store.save) ++ put 1 (sourceCode p.store.source) ++ putBool p.store.unsaved = p.putStore := by
    unfold Part.putStore
    cases p.store.save <;> cases p.store.source <;> cases p.store.unsaved <;> rfl
  simp only [Part.readConfig, store, carOf]
  by_cases h : n < 8
  · rw [dif_pos h, dif_pos h]
  · rw [dif_neg h, dif_neg h]

end

/-- Where a CONTINUE starts, by the port's cursor, or the start index (R187). -/
theorem trackerStart_eq {cursor : Option (Car × Nat)} {c : Car} {start : Byte} (h : start.toNat ≤ 14 ∨ start = 255) :
    trackerStart cursor c start.toNat = some (if start = 255 then continueFrom cursor c else start.toNat) := by
  by_cases all : start = 255
  · subst all; rfl
  · have low : start.toNat ≤ 14 := h.resolve_right all
    have other : start.toNat ≠ 255 := fun e => all (BitVec.eq_of_toNat_eq e)
    rw [if_neg all, trackerStart, if_neg other, if_pos low]

theorem nextIndex_eq (e : CarEntry) (start : Nat) {count : Nat} (h : 1 ≤ count) :
    nextIndex e start count = if 2 * e.landings - 2 < start + count then 0 else start + count := by
  unfold nextIndex zoneCount
  exact if_congr (by omega) rfl rfl

/-- Settles O9: each read answers its payload; READ_TRACKER moves its port's cursor. -/
theorem readsAnswer : Obligations.ReadsAnswer := by
  refine ⟨fun s q body payload => ⟨fun c rest g => execReadCar_of_given g, fun g => execReadSupply_of_given g,
    fun k g => ⟨fun i h => execReadRule_of_given g h, fun h => execReadRule_badValue g h⟩,
    fun g => execReadStage_of_given g, fun k g => ?_, fun g => execReadNotices_of_given g,
    fun c rest g => execReadLine_of_given g⟩, fun s q body c start count g => ?_⟩
  · have run := (execReadConfig_of_given g).trans (by rw [Part.readConfig_eq])
    refine ⟨fun c h => run.trans ?_, fun h => run.trans ?_, fun h => run.trans ?_, fun h => run.trans ?_⟩
    · simp only [h, dif_pos c.isLt]; rfl
    · simp only [h]; rfl
    · simp only [h]; rfl
    · rw [dif_neg (by omega), if_neg (by omega), if_neg (by omega)]
  · intro used next
    have usedEq : used = if start = 255 then continueFrom (s.port q).cursor c else start.toNat := rfl
    refine ⟨fun low lo hi => ?_, fun h => execReadTracker_badValue g h⟩
    have run := execReadTracker_of_given g (trackerStart_eq low) lo hi
    rw [← usedEq, nextIndex_eq _ _ lo] at run
    exact run

end Sys2Proof.Machine
end

