-- ==== Sys2Proof/Proofs/PortRecords.lean ====
section
/-!
PROOFS. A port's own records: the staging of fields (R115, R116), the notice mask (R188) and the acknowledged pairs (R189).
-/

namespace Sys2Proof.Machine

/-! ## Codes read back (R186) -/

theorem boolOf_some {v : Nat} {b : Bool} (h : boolOf v = some b) : (if b then 1 else 0) = v := by
  rcases v with _ | _ | v <;> simp [boolOf] at h <;> subst h <;> rfl

theorem quantityCode_of {v : Nat} {x : Quantity} (h : quantityOf v = some x) : quantityCode x = v := by
  rcases v with _ | _ | _ | _ | _ | _ | v <;> simp [quantityOf] at h <;> subst h <;> rfl

theorem compareCode_of {v : Nat} {x : Compare} (h : compareOf v = some x) : compareCode x = v := by
  rcases v with _ | _ | _ | _ | v <;> simp [compareOf] at h <;> subst h <;> rfl

theorem lineConditionCode_of {v : Nat} {x : LineCondition} (h : lineConditionOf v = some x) : lineConditionCode x = v := by
  rcases v with _ | _ | _ | v <;> simp [lineConditionOf] at h <;> subst h <;> rfl

theorem weightActionCode_of {v : Nat} {x : WeightAction} (h : weightActionOf v = some x) : weightActionCode x = v := by
  rcases v with _ | _ | _ | _ | v <;> simp [weightActionOf] at h <;> subst h <;> rfl

theorem methodActionCode_of {v : Nat} {x : MethodAction} (h : methodActionOf v = some x) : methodActionCode x = v := by
  rcases v with _ | _ | _ | _ | v <;> simp [methodActionOf] at h <;> subst h <;> rfl

theorem countActionCode_of {v : Nat} {x : CountAction} (h : countActionOf v = some x) : countActionCode x = v := by
  rcases v with _ | _ | _ | v <;> simp [countActionOf] at h <;> subst h <;> rfl

theorem countUnitCode_of {v : Nat} {x : CountUnit} (h : countUnitOf v = some x) : countUnitCode x = v := by
  rcases v with _ | _ | v <;> simp [countUnitOf] at h <;> subst h <;> rfl

/-! ## One field of a rule (R115) -/

/-- A field of Table 15 with a value of its range. -/
def admittedField (f v : Nat) : Prop := 1 ≤ f ∧ f ≤ 14 ∧ v ≤ fieldRange f ∧ (f = 14 → 1 ≤ v)

/-- A field is written exactly if its number and value are of Table 15. -/
theorem setRuleField_eq_none_iff (r : Rule) {f v : Nat} (h : v < 65536) :
    setRuleField r f v = none ↔ ¬admittedField f v := by
  unfold setRuleField admittedField
  split <;> simp [boolOf, quantityOf, compareOf, lineConditionOf, weightActionOf, methodActionOf, countActionOf,
    countUnitOf, fieldRange] <;> grind

/-- A written field holds its value. -/
theorem ruleField_setRuleField_same {r r' : Rule} {f v : Nat} (h : setRuleField r f v = some r') : ruleField r' f = v := by
  unfold setRuleField at h
  split at h
  case h_4 => cases h; rfl
  case h_5 => cases h; rfl
  case h_15 => cases h
  case h_6 | h_9 | h_11 | h_14 =>
    split at h
    · cases h; simp [ruleField]; try omega
    · cases h
  all_goals
    simp only [Option.map_eq_some_iff] at h
    obtain ⟨x, code, rfl⟩ := h
  · exact boolOf_some code
  · exact quantityCode_of code
  · exact compareCode_of code
  · exact lineConditionCode_of code
  · exact weightActionCode_of code
  · exact methodActionCode_of code
  · exact countActionCode_of code
  · exact countUnitCode_of code

/-- Every field but the written one stands. -/
theorem ruleField_setRuleField_other {r r' : Rule} {f v : Nat} (h : setRuleField r f v = some r') {n : Nat} (hn : n ≠ f) :
    ruleField r' n = ruleField r n := by
  unfold setRuleField at h
  split at h
  case h_4 => cases h; unfold ruleField; split <;> first | rfl | exact absurd rfl hn
  case h_5 => cases h; unfold ruleField; split <;> first | rfl | exact absurd rfl hn
  case h_15 => cases h
  case h_6 | h_9 | h_11 | h_14 =>
    split at h
    · cases h; unfold ruleField; split <;> first | rfl | exact absurd rfl hn
    · cases h
  all_goals
    simp only [Option.map_eq_some_iff] at h
    obtain ⟨x, -, rfl⟩ := h
    unfold ruleField; split <;> first | rfl | exact absurd rfl hn

theorem fieldIn_select {sel : FieldSet} {f n : Nat} (hf : 1 ≤ f) (hn : 1 ≤ n) (hn' : n ≤ 14) :
    fieldIn (sel ||| (1#14 <<< (f - 1))) n = true ↔ fieldIn sel n = true ∨ n = f := by
  unfold fieldIn
  simp
  grind

/-! ## Staging (R115) -/

theorem setRuleField_field {r r' : Rule} {f v : Nat} (h : setRuleField r f v = some r') : 1 ≤ f ∧ f ≤ 14 := by
  unfold setRuleField at h
  split at h <;> first | omega | cases h

/-- Staged fields: every carried field is selected and holds the last value carried for it; every other stands. -/
theorem stageFields_some {new : Staging} {n : Nat} (lo : 1 ≤ n) (hi : n ≤ 14) :
    ∀ {fields : List (Nat × Nat)} {old : Staging}, stageFields old fields = some new →
      (fieldIn new.selected n = true ↔ fieldIn old.selected n = true ∨ ∃ v, (n, v) ∈ fields) ∧
      ruleField new.image n = ((fields.reverse.find? fun f => f.1 == n).map (·.2)).getD (ruleField old.image n)
  | [], old, h => by cases h; simp
  | (f, v) :: rest, old, h => by
    obtain ⟨image, written, staged⟩ := Option.bind_eq_some_iff.mp h
    obtain ⟨selected, value⟩ := stageFields_some lo hi staged
    have first := (setRuleField_field written).1
    refine ⟨?_, ?_⟩
    · rw [selected, fieldIn_select first lo hi]
      simp only [List.mem_cons, Prod.mk.injEq]
      constructor
      · rintro ((h | rfl) | ⟨w, h⟩)
        · exact .inl h
        · exact .inr ⟨v, .inl ⟨rfl, rfl⟩⟩
        · exact .inr ⟨w, .inr h⟩
      · rintro (h | ⟨w, ⟨rfl, -⟩ | h⟩)
        · exact .inl (.inl h)
        · exact .inl (.inr rfl)
        · exact .inr ⟨w, h⟩
    · rw [value, List.reverse_cons, List.find?_append]
      cases (rest.reverse.find? fun f => f.1 == n) with
      | some g => rfl
      | none =>
        by_cases e : f = n
        · subst e; simpa using ruleField_setRuleField_same written
        · simpa [e] using ruleField_setRuleField_other written (Ne.symm e)

theorem stageFields_eq_none_iff : ∀ {fields : List (Nat × Nat)} {old : Staging},
    (∀ f ∈ fields, f.2 < 65536) → (stageFields old fields = none ↔ ∃ f ∈ fields, ¬admittedField f.1 f.2)
  | [], old, _ => by simp [stageFields]
  | (f, v) :: rest, old, h => by
    have field := setRuleField_eq_none_iff old.image (f := f) (h (f, v) (by simp))
    have others (s : Staging) := stageFields_eq_none_iff (old := s) fun g hg => h g (List.mem_cons_of_mem _ hg)
    rw [stageFields, Option.bind_eq_none_iff]
    cases written : setRuleField old.image f v with
    | none => simp [field.mp written]
    | some image =>
      have ok : admittedField f v := by by_contra hn; rw [field.mpr hn] at written; cases written
      simp [others, ok]

theorem readFields_flatMap : ∀ {fields : List (Nat × Nat)}, (∀ f ∈ fields, f.1 < 256 ∧ f.2 < 65536) →
    readFields (fields.flatMap fun f => [f.1, f.2 / 256, f.2].map (BitVec.ofNat 8)) = fields
  | [], _ => rfl
  | (f, v) :: rest, h => by
    obtain ⟨small, value⟩ := h (f, v) (by simp)
    simp only at small value
    rw [List.flatMap_cons]
    simp only [List.map_cons, List.map_nil, List.cons_append, List.nil_append, readFields, getNat, List.foldl_cons,
      List.foldl_nil, BitVec.toNat_ofNat]
    have others := readFields_flatMap fun g hg => h g (List.mem_cons_of_mem _ hg)
    simp only [List.map_cons, List.map_nil] at others
    rw [others]
    congr 2
    · omega
    · omega

/-! ## The acknowledged pairs (R189) -/

theorem noticeCode_eq (k : NoticeKind) : noticeCode k = noticeKinds.idxOf k + 1 := by cases k <;> rfl

theorem noticeKindOf_eq_some_iff {n : Nat} {k : NoticeKind} : noticeKindOf n = some k ↔ n = noticeCode k := by
  constructor
  · intro h
    have := List.find?_some h
    exact (by simpa using this : noticeCode k = n).symm
  · rintro rfl; cases k <;> rfl

/-- The byte of a pair's car. -/
def noticeCarByte (car : Option Car) : Nat := match car with
  | some c => c.val
  | none => 255

theorem toNat_eq_iff {b : Byte} {m : Nat} (h : m < 256) : b.toNat = m ↔ b = BitVec.ofNat 8 m := by
  rw [← BitVec.toNat_inj, BitVec.toNat_ofNat, Nat.mod_eq_of_lt h]

theorem noticeCode_lt (k : NoticeKind) : noticeCode k < 256 := by cases k <;> decide

theorem carOf_eq_some_iff {n : Nat} {c : Car} : carOf n = some c ↔ n = c.val := by
  unfold carOf
  split
  · rw [Option.some.injEq, Fin.ext_iff]
  · next h => exact ⟨nofun, fun e => absurd (e ▸ c.isLt) h⟩

/-- A pair reads from its kind's code and its car's byte, where it carries a car exactly if its kind does (R189, R192). -/
theorem readNotice_eq_some_iff {kind car : Byte} {n : Notice} : readNotice kind car = some n ↔
    kind = BitVec.ofNat 8 (noticeCode n.kind) ∧ car = BitVec.ofNat 8 (noticeCarByte n.car) ∧
      (n.car.isSome = true ↔ noticeCode n.kind ≤ 11) := by
  obtain ⟨k, c⟩ := n
  have carries : carriesCar k = true ↔ noticeCode k ≤ 11 := by simp [carriesCar]
  have body : (if carriesCar k then (carOf car.toNat).map fun c => (⟨k, some c⟩ : Notice)
      else if car = 255 then some ⟨k, none⟩ else none) = some ⟨k, c⟩ ↔
      car = BitVec.ofNat 8 (noticeCarByte c) ∧ (c.isSome = true ↔ noticeCode k ≤ 11) := by
    rw [← carries]
    cases carriesCar k <;> cases c with
    | none => simp [noticeCarByte]
    | some c => simp [noticeCarByte, carOf_eq_some_iff, toNat_eq_iff (b := car) (m := c.val) (by omega)]
  unfold readNotice
  rw [Option.bind_eq_some_iff, ← toNat_eq_iff (noticeCode_lt k)]
  constructor
  · rintro ⟨k', named, h⟩
    have same : k' = k := by
      split at h
      · obtain ⟨_, -, e⟩ := Option.map_eq_some_iff.mp h; cases e; rfl
      · split at h <;> cases h; rfl
    subst same
    exact ⟨noticeKindOf_eq_some_iff.mp named, body.mp h⟩
  · rintro ⟨named, h⟩
    exact ⟨k, noticeKindOf_eq_some_iff.mpr named, body.mpr h⟩

/-- A list of pairs reads from the bytes of its pairs (R189). -/
theorem readNotices_eq_some_iff : ∀ {payload : List Byte} {pairs : List Notice}, payload.length % 2 = 0 →
    (readNotices payload = some pairs ↔
      payload = (pairs.flatMap fun n => [noticeCode n.kind, noticeCarByte n.car].map (BitVec.ofNat 8)) ∧
      ∀ n ∈ pairs, (n.car.isSome = true ↔ noticeCode n.kind ≤ 11))
  | [], pairs, _ => by cases pairs <;> simp [readNotices]
  | [_], _, h => by simp at h
  | kind :: car :: rest, pairs, h => by
    have others (l : List Notice) := readNotices_eq_some_iff (payload := rest) (pairs := l)
      (by simp only [List.length_cons] at h; omega)
    rw [readNotices, Option.bind_eq_some_iff]
    simp only [Option.map_eq_some_iff]
    constructor
    · rintro ⟨n, first, l, read, rfl⟩
      obtain ⟨rfl, rfl, carries⟩ := readNotice_eq_some_iff.mp first
      obtain ⟨bytes, all⟩ := (others l).mp read
      exact ⟨by rw [List.flatMap_cons, ← bytes]; rfl, by simpa [carries] using all⟩
    · rintro ⟨bytes, all⟩
      cases pairs with
      | nil => cases bytes
      | cons n l =>
        rw [List.flatMap_cons] at bytes
        simp only [List.map_cons, List.map_nil, List.cons_append, List.nil_append, List.cons.injEq] at bytes
        obtain ⟨hk, hc, tail⟩ := bytes
        exact ⟨n, readNotice_eq_some_iff.mpr ⟨hk, hc, all n (by simp)⟩, l,
          (others l).mpr ⟨tail, fun m hm => all m (List.mem_cons_of_mem _ hm)⟩, rfl⟩

/-! ## The commands -/

section
variable {s : State} {q : Port} {body payload : List Byte}

theorem modPort_beginHandling (p : Part) (q : Port) (code : Byte) (body : List Byte) {f : PortState → PortState}
    (h : ∀ x a b c, f { x with reception := a, buffer := b, clocked := c } =
      { f x with reception := a, buffer := b, clocked := c }) :
    (p.beginHandling q code body).modPort q f = (p.modPort q f).beginHandling q code body := by
  unfold Part.beginHandling
  rw [Part.modPort_modPort, Part.modPort_modPort]
  exact congrArg _ (funext fun x => h x _ _ _)

theorem modPort_demand (p : Part) (q : Port) (f : PortState → PortState) : (p.modPort q f).demand = p.demand :=
  demand_congr fun d => by unfold Part.stateOf; rw [Part.modPort_car]

theorem execAckNotices_of_given (g : s.given q 8 body payload) :
    (∀ pairs, readNotices payload = some pairs → execAckNotices q body s = .next (s.answered
      (s.modPort q fun x => { x with notices := x.notices.filter fun n => !pairs.contains n }) q .ok [])) ∧
    (readNotices payload = none → execAckNotices q body s = .next (s.answered s.toPart q .badValue [])) := by
  refine ⟨fun pairs h => runRequest_of_answer g ?_ (modPort_demand _ _ _), fun h => runRequest_of_refused g (by rw [h])⟩
  rw [h, ← modPort_beginHandling _ _ _ _ fun _ _ _ _ => rfl]
  rfl

theorem execSetNoticeEnable_of_given (g : s.given q 9 body payload) :
    (getNat payload < 2 ^ 17 → execSetNoticeEnable q body s = .next (s.answered
      (s.modPort q fun x => { x with mask := BitVec.ofNat 17 (getNat payload) }) q .ok [])) ∧
    (2 ^ 17 ≤ getNat payload → execSetNoticeEnable q body s = .next (s.answered s.toPart q .badValue [])) := by
  refine ⟨fun h => runRequest_of_answer g ?_ (modPort_demand _ _ _), fun h => runRequest_of_refused g ?_⟩
  · have set : readSet 17 payload = some (BitVec.ofNat 17 (getNat payload)) := if_pos h
    rw [set, ← modPort_beginHandling _ _ _ _ fun _ _ _ _ => rfl]
    rfl
  · have set : readSet 17 payload = none := if_neg (not_lt.mpr h)
    rw [set]

theorem execStageRule_of_given (g : s.given q 10 body payload) :
    (∀ staging, stageFields (s.port q).staging (readFields payload) = some staging →
      execStageRule q body s = .next (s.answered (s.modPort q fun x => { x with staging := staging }) q .ok [])) ∧
    (stageFields (s.port q).staging (readFields payload) = none →
      execStageRule q body s = .next (s.answered s.toPart q .badValue [])) := by
  refine ⟨fun staging h => runRequest_of_answer g ?_ (modPort_demand _ _ _), fun h => runRequest_of_refused g ?_⟩
  · simp only [Part.beginHandling_port, h]
    rw [← modPort_beginHandling _ _ _ _ fun _ _ _ _ => rfl]
    rfl
  · simp only [Part.beginHandling_port, h]

theorem execClearStage_of_given (g : s.given q 11 body payload) : execClearStage q body s = .next (s.answered
    (s.modPort q fun x => { x with staging := ⟨defaultRule, 0⟩ }) q .ok []) :=
  runRequest_of_answer g (by rw [← modPort_beginHandling _ _ _ _ fun _ _ _ _ => rfl]; rfl) (modPort_demand _ _ _)

end

/-- Settles O12: each command writes one record of its port; what is staged and which lists read field by field. -/
theorem portRecords : Obligations.PortRecords := by
  refine ⟨fun s q body payload => ⟨fun g => execAckNotices_of_given g, fun g => execSetNoticeEnable_of_given g,
    fun g => execStageRule_of_given g, fun g => execClearStage_of_given g⟩,
    fun old new fields h n lo hi => stageFields_some lo hi h, fun old fields small => ?_, fun payload pairs even => ?_⟩
  · intro last admitted
    refine ⟨readFields_flatMap small, ?_⟩
    have same (f : Nat × Nat) : admitted f ↔ admittedField f.1 f.2 := by
      obtain ⟨f, v⟩ := f
      simp only [admitted, admittedField]
      refine and_congr_right fun lo => and_congr_right fun hi => ?_
      have range : last.getD (f - 1) 0 = fieldRange f := by interval_cases f <;> rfl
      rw [range]
    simp only [same]
    exact stageFields_eq_none_iff fun f hf => (small f hf).2
  · intro kinds code
    have codeEq (n : Notice) : code n = noticeCode n.kind := (noticeCode_eq n.kind).symm
    simp only [codeEq]
    exact readNotices_eq_some_iff even

end Sys2Proof.Machine
end

