-- ==== Sys2Proof/Proofs/Validation.lean ====
section
/-!
PROOFS. What validation admits (R5, R7, R10, R12, R103): the ranges of each group, the neighbours in a map and in a table, and
the checksum of an image.
-/

namespace Sys2Proof.Machine

theorem inRange_iff {n lo hi : Nat} : inRange n lo hi = true ↔ lo ≤ n ∧ n ≤ hi := by simp [inRange]

theorem inRange_zero_iff {n hi : Nat} : inRange n 0 hi = true ↔ n ≤ hi := by simp [inRange]

/-! ## Neighbours -/

/-- Adjacent landings rise by the gap of Table 6. -/
theorem validGaps_iff (w : Nat) : ∀ l : List Nat, validGaps w l = true ↔ ∀ i low high : Nat, l[i]? = some low →
    l[i + 1]? = some high → low < high ∧ low + (2 * w + 200) ≤ high
  | [] => by simp [validGaps]
  | [_] => by simp [validGaps]
  | h0 :: h1 :: rest => by
    rw [validGaps, Bool.and_eq_true, validGaps_iff w (h1 :: rest)]
    simp only [Bool.and_eq_true, decide_eq_true_eq]
    constructor
    · rintro ⟨first, others⟩ i low high hl hh
      cases i with
      | zero => cases hl; cases hh; exact first
      | succ i => exact others i low high hl hh
    · exact fun h => ⟨h 0 h0 h1 rfl rfl, fun i low high hl hh => h (i + 1) low high hl hh⟩

/-- The voltages of adjacent points rise, and their energies do not fall (R10). -/
theorem risingSoc_iff : ∀ t : List SocPoint, risingSoc t = true ↔ ∀ (i : Nat) (p n : SocPoint), t[i]? = some p →
    t[i + 1]? = some n → p.voltage < n.voltage ∧ p.energy ≤ n.energy
  | [] => by simp [risingSoc]
  | [_] => by simp [risingSoc]
  | a :: b :: rest => by
    rw [risingSoc, Bool.and_eq_true, risingSoc_iff (b :: rest)]
    simp only [Bool.and_eq_true, decide_eq_true_eq]
    constructor
    · rintro ⟨first, others⟩ i p n hp hn
      cases i with
      | zero => cases hp; cases hn; exact first
      | succ i => exact others i p n hp hn
    · exact fun h => ⟨h 0 a b rfl rfl, fun i p n hp hn => h (i + 1) p n hp hn⟩

/-! ## The groups -/

theorem validParams_iff (e : CarEntry) : validParams e = true ↔
    (300 ≤ e.ratedLoad ∧ e.ratedLoad ≤ 5000) ∧ (35 ≤ e.balance ∧ e.balance ≤ 55) ∧ (2 ≤ e.margin ∧ e.margin ≤ 15) ∧
    (20 ≤ e.coilPower ∧ e.coilPower ≤ 600) ∧ (100 ≤ e.drivePower ∧ e.drivePower ≤ 8000) ∧
    (50 ≤ e.efficiency ∧ e.efficiency ≤ 95) ∧ (50 ≤ e.speed ∧ e.speed ≤ 300) ∧
    (e.speed + 20 ≤ e.overspeed ∧ e.overspeed ≤ 630) ∧ (100 ≤ e.ppm ∧ e.ppm ≤ 4000) ∧ e.baseWeight ≤ 4095 ∧
    e.bShare ≤ 100 := by
  simp only [validParams, Bool.and_eq_true, inRange_iff, Nat.zero_le, true_and, and_assoc]

theorem validMap_iff (e : CarEntry) : validMap e = true ↔
    (2 ≤ e.landings ∧ e.landings ≤ 8) ∧ e.heights.length = e.landings ∧ (∀ h ∈ e.heights, h ≤ 120000) ∧
    (30 ≤ e.halfWidth ∧ e.halfWidth ≤ 150) ∧
    ∀ i low high : Nat, e.heights[i]? = some low → e.heights[i + 1]? = some high →
      low < high ∧ low + (2 * e.halfWidth + 200) ≤ high := by
  simp only [validMap, Bool.and_eq_true, inRange_iff, decide_eq_true_eq, List.all_eq_true, Nat.zero_le, true_and,
    validGaps_iff, and_assoc]

theorem validGlobals_iff (g : Globals) : validGlobals g = true ↔
    (∀ r ∈ globalRanges g, r.2.1 ≤ r.1 ∧ r.1 ≤ r.2.2) ∧ g.startShare ≤ g.maxShare ∧ g.probeShare ≤ g.maxShare := by
  simp only [validGlobals, Bool.and_eq_true, List.all_eq_true, inRange_iff, decide_eq_true_eq, and_assoc]

theorem validSoc_iff (t : List SocPoint) : validSoc t = true ↔
    (2 ≤ t.length ∧ t.length ≤ 8) ∧ (∀ p ∈ t, p.voltage ≤ 65535 ∧ p.energy ≤ 65535) ∧
    ∀ (i : Nat) (p n : SocPoint), t[i]? = some p → t[i + 1]? = some n → p.voltage < n.voltage ∧ p.energy ≤ n.energy := by
  simp only [validSoc, Bool.and_eq_true, inRange_iff, List.all_eq_true, Nat.zero_le, true_and, risingSoc_iff, and_assoc]

/-- The range of the upper bound holds that of the lower one (R103). -/
theorem validRule_iff (r : Rule) : validRule r = true ↔
    r.low ≤ r.high ∧ r.high ≤ 65535 ∧ r.weightValue ≤ 4095 ∧ 1 ≤ r.countLimit ∧ r.countLimit ≤ 4095 := by
  simp only [validRule, Bool.and_eq_true, inRange_iff, decide_eq_true_eq, Nat.zero_le, true_and]
  omega

/-! ## The image (R12) -/

theorem imageChecksum_toNat (x : Settings) :
    (imageChecksum x).toNat = ((settingsBytes x).map (·.toNat)).sum % 65536 := by
  rw [imageChecksum, BitVec.toNat_ofNat, List.sum_eq_foldl, List.foldl_map]

theorem validImage_iff (i : StoredImage) : validImage i = true ↔
    i.checksum.toNat = ((settingsBytes i.contents).map (·.toNat)).sum % 65536 ∧
    (∀ c : Car, validParams i.contents.cars[c] = true ∧ validMap i.contents.cars[c] = true) ∧
    validGlobals i.contents.globals = true ∧ validSoc i.contents.soc = true ∧
    ∀ k : Fin 16, validRule i.contents.rules[k] = true := by
  have checksum : i.checksum = imageChecksum i.contents ↔
      i.checksum.toNat = ((settingsBytes i.contents).map (·.toNat)).sum % 65536 := by
    rw [← imageChecksum_toNat, BitVec.toNat_inj]
  have cars : i.contents.cars.toList.all validCarEntry = true ↔
      ∀ c : Car, validParams i.contents.cars[c] = true ∧ validMap i.contents.cars[c] = true := by
    simp only [List.all_eq_true, validCarEntry, Bool.and_eq_true, Vector.mem_toList_iff, Vector.mem_iff_getElem]
    exact ⟨fun h c => h _ ⟨c, c.isLt, rfl⟩, by rintro h _ ⟨n, hn, rfl⟩; exact h ⟨n, hn⟩⟩
  have rules : i.contents.rules.toList.all validRule = true ↔ ∀ k : Fin 16, validRule i.contents.rules[k] = true := by
    simp only [List.all_eq_true, Vector.mem_toList_iff, Vector.mem_iff_getElem]
    exact ⟨fun h c => h _ ⟨c, c.isLt, rfl⟩, by rintro h _ ⟨n, hn, rfl⟩; exact h ⟨n, hn⟩⟩
  simp only [validImage, validSettings, Bool.and_eq_true, beq_iff_eq, checksum, cars, rules, and_assoc]

/-- Settles O13: each group by its ranges, and an image by its sum and its groups. -/
theorem settingsAdmitted : Obligations.SettingsAdmitted := by
  refine ⟨validParams_iff, validMap_iff, fun g => ?_, validSoc_iff, validRule_iff, validImage_iff⟩
  rw [validGlobals_iff]
  simp only [globalRanges, List.forall_mem_cons, Nat.zero_le, true_and, List.not_mem_nil, false_implies, implies_true,
    and_true, and_assoc]

end Sys2Proof.Machine
end

