-- ==== Sys2Proof/Proofs/Commits.lean ====
section
/-!
PROOFS. The judging of a commit (R117 to R119).
-/

namespace Sys2Proof.Machine

variable {s : State} {q : Port} {body : List Byte} {b : Byte} {k : Fin 16}

theorem ruleOf_of_eq {n : Nat} (h : n = k.val) : ruleOf n = some k := by
  subst h; exact dif_pos k.isLt

theorem fieldAt_singleton (b : Byte) : fieldAt [b] 0 1 = b.toNat := by simp [fieldAt, getNat]

/-- A COMMIT_RULE of rule k is that rule's commit. -/
theorem execCommitRule_eq (g : s.given q 12 body [b]) (h : b.toNat = k.val) {p : Part} {r : ResultCode}
    (e : (s.toPart.beginHandling q 12 body).commit q k = ⟨p.beginHandling q 12 body, r, []⟩)
    (d : p.demand = s.toPart.demand) : execCommitRule q body s = .next (s.answered p q r []) :=
  runRequest_of_answer g (by rw [fieldAt_singleton, ruleOf_of_eq h]; exact e) d

theorem execCommitRule_noRule (g : s.given q 12 body [b]) (h : 16 ≤ b.toNat) :
    execCommitRule q body s = .next (s.answered s.toPart q .badValue []) := by
  have none : ruleOf (fieldAt [b] 0 1) = none := by rw [fieldAt_singleton]; exact dif_neg (by omega)
  exact runRequest_of_refused g (by rw [none])

/-- The merged result of a commit reads no response buffer (R117). -/
theorem mergedResult_beginHandling (p : Part) (q : Port) (code : Byte) (body : List Byte) (k : Fin 16) (x : Staging) :
    (p.beginHandling q code body).mergedResult k x = p.mergedResult k x := by cases q <;> rfl

section
variable {p : Part} {code : Byte}

/-- The port of the request has an entry on the pending commit list. -/
theorem commit_busy (h : ∃ e ∈ p.commits, e.port = q) :
    (p.beginHandling q code body).commit q k = (p.beginHandling q code body).refuse .busy := by
  have listed : p.commits.any (fun e => e.port == q) = true := by simpa using h
  unfold Part.commit
  rw [Part.beginHandling_commits, if_pos listed]

theorem commit_badValue (h : ∀ e ∈ p.commits, e.port ≠ q)
    (v : validRule (p.mergedResult k (p.port q).staging) = false) :
    (p.beginHandling q code body).commit q k = (p.beginHandling q code body).refuse .badValue := by
  have unlisted : p.commits.any (fun e => e.port == q) = false := by simpa using h
  unfold Part.commit
  simp only [Part.beginHandling_commits, Part.beginHandling_port, unlisted, mergedResult_beginHandling, v]
  rfl

theorem commit_pending (h : ∀ e ∈ p.commits, e.port ≠ q)
    (v : validRule (p.mergedResult k (p.port q).staging) = true) (flight : p.pass.isSome = true) :
    (p.beginHandling q code body).commit q k = ⟨({ p with
      commits := p.commits ++ [⟨q, k, (p.port q).staging.image, (p.port q).staging.selected⟩] } : Part).beginHandling
        q code body, .pending, []⟩ := by
  have unlisted : p.commits.any (fun e => e.port == q) = false := by simpa using h
  unfold Part.commit
  simp only [Part.beginHandling_commits, Part.beginHandling_port, unlisted, mergedResult_beginHandling, v,
    Part.beginHandling_pass, flight]
  cases q <;> rfl

theorem commit_applied (h : ∀ e ∈ p.commits, e.port ≠ q)
    (v : validRule (p.mergedResult k (p.port q).staging) = true) (rest : p.pass = none) :
    (p.beginHandling q code body).commit q k =
      ⟨(p.applyCommit k (p.port q).staging.selected (p.port q).staging.image).beginHandling q code body, .ok, []⟩ := by
  have unlisted : p.commits.any (fun e => e.port == q) = false := by simpa using h
  unfold Part.commit
  simp only [Part.beginHandling_commits, Part.beginHandling_port, unlisted, mergedResult_beginHandling, v,
    Part.beginHandling_pass, rest]
  cases q <;> rfl

end

theorem applyCommit_demand (p : Part) (k : Fin 16) (sel : FieldSet) (image : Rule) :
    (p.applyCommit k sel image).demand = p.demand :=
  demand_congr fun d => by
    have : (p.applyCommit k sel image).car d = (p.mapCars fun b =>
        { b with policy := { b.policy with counters := b.policy.counters.set k .idle } }).car d := rfl
    unfold Part.stateOf; rw [this, Part.mapCars_car]

/-- Settles O14: each outcome by the pending list, the validity of the merged result, and the pass in flight. -/
theorem commitJudged : Obligations.CommitJudged := by
  intro s q body b g staging
  refine ⟨fun h => execCommitRule_noRule g h, fun k h => ⟨fun listed => execCommitRule_eq g h (commit_busy listed) rfl,
    fun unlisted => ⟨fun rest v => ?_, fun rest v => ?_, fun flight => ?_⟩⟩⟩
  · refine execCommitRule_eq g h (commit_badValue unlisted ?_) rfl
    rw [Part.mergedResult, rest]; exact v
  · refine execCommitRule_eq g h (commit_applied unlisted ?_ rest) (applyCommit_demand _ _ _ _)
    rw [Part.mergedResult, rest]; exact v
  · intro standing
    have merged : s.mergedResult k staging = mergeRule staging.selected staging.image standing := by
      rw [Part.mergedResult, if_pos flight]; rfl
    exact ⟨fun v => execCommitRule_eq g h (commit_badValue unlisted (by rw [merged]; exact v)) rfl,
      fun v => execCommitRule_eq g h (commit_pending unlisted (by rw [merged]; exact v) flight) rfl⟩

end Sys2Proof.Machine
end

