-- ==== Sys2Proof/Proofs/CarWrites.lean ====
section
/-!
PROOFS. The car configuration writes (R3 to R6): the tests of the car's state and of the fields, and the car that an accepted
write re-initialises.
-/

namespace Sys2Proof.Machine

variable {p : Part} {c : Car} {e : CarEntry}

/-! ## The re-initialised car (R6) -/

/-- The states that take a configuration write (R4). -/
def isConfigurable (x : RescueState) : Prop := x = .normal ∨ x = .unconfigured ∨ x = .inhibited

/-- The part with the entry of car c replaced (R4, R15). -/
def Part.withEntry (p : Part) (c : Car) (e : CarEntry) : Part :=
  { p with config := { p.config with cars := p.config.cars.set c e }, store := { p.store with unsaved := true } }

/-- The blocks of a re-initialised car before the stall condition is judged (R6). -/
def CarBlock.cleanedFor (b : CarBlock) (e : CarEntry) : CarBlock :=
  { b with
    record := CarRecord.fresh e.present
    tracker := ⟨List.replicate (2 * e.landings - 1) 0, .none, 0, 0, false⟩
    inputs := { b.inputs with odometry := 0 }
    planner := ⟨0, e.baseWeight, allMethods, none, .empty⟩
    policy := ⟨0, none, Vector.replicate 16 .idle⟩
    signals := { b.signals with waiting := none, silenced := false, lamp := .off, reassurance := none } }

/-- The updates of R6 on the car in the state of its entry. -/
def CarBlock.refreshed (b : CarBlock) (e : CarEntry) : CarBlock :=
  { b with
    record  := .fresh e.present
    tracker := .uniform (zoneCount e)
    inputs  := { b.inputs with odometry := 0 }
    planner := .fresh e.baseWeight
    policy  := .fresh
    signals := { b.signals with waiting := none, silenced := false } }

theorem Part.reinitialise_eq (p : Part) (c : Car) (e : CarEntry) : p.reinitialise c e =
    ((((p.withEntry c e).setState c (if e.present then .normal else .unconfigured) none).modCar c
      (·.refreshed e)).judgeStall c).askPass .requested := rfl

/-- A car of a configurable state is brought to the state of its entry with nothing of a rescue left (R6). -/
theorem refreshed_stated {b : CarBlock} (h : isConfigurable b.record.state) (g : Globals) (e : CarEntry) :
    (b.stated g (if e.present then .normal else .unconfigured) none).refreshed e = b.cleanedFor e := by
  have state : (if e.present then RescueState.normal else .unconfigured) = .normal ∨
      (if e.present then RescueState.normal else .unconfigured) = .unconfigured := by split <;> simp
  unfold CarBlock.refreshed CarBlock.cleanedFor CarBlock.stated
  generalize (if e.present then RescueState.normal else .unconfigured) = new at state
  rcases h with h | h | h <;> rcases state with rfl | rfl <;> rw [h] <;> rfl

theorem touchesOnly_reinitialise (p : Part) (c : Car) (e : CarEntry) : TouchesOnly c (p.withEntry c e)
    ((((p.withEntry c e).setState c (if e.present then .normal else .unconfigured) none).modCar c
      (·.refreshed e)).judgeStall c) :=
  ((touchesOnly_setState _ c _ _).trans (touchesOnly_modCar _ c _)).trans (touchesOnly_judgeStall _ c)

theorem Part.reinitialise_own (h : isConfigurable (p.stateOf c)) :
    (p.reinitialise c e).car c = ((p.car c).cleanedFor e).judged p.globals := by
  rw [Part.reinitialise_eq, Part.askPass_requested_car, Part.judgeStall_own, Part.modCar_car, if_pos rfl, Part.setState_own]
  exact congrArg (fun b => b.judged p.globals) (refreshed_stated h _ e)

theorem Part.judgeStall_ports (p : Part) (c : Car) :
    (p.judgeStall c).station = p.station ∧ (p.judgeStall c).panel = p.panel := by
  simp only [Part.judgeStall]; split
  · exact ⟨rfl, rfl⟩
  · split <;> exact ⟨rfl, rfl⟩

theorem Part.askPass_requested_ports (p : Part) :
    (p.askPass .requested).station = p.station ∧ (p.askPass .requested).panel = p.panel := by
  unfold Part.askPass; split <;> exact ⟨rfl, rfl⟩

/-- An accepted write leaves every other car, the supply and the ports (R6). -/
theorem onlyCar_reinitialise (p : Part) (c : Car) (e : CarEntry) : OnlyCar c (p.withEntry c e) (p.reinitialise c e) := by
  have touches := touchesOnly_reinitialise p c e
  rw [Part.reinitialise_eq]
  refine ⟨touches.rest.trans (keepsRest_askPass_requested _), fun d hd => ?_, ?_, ?_, ?_⟩
  · rw [Part.askPass_requested_car]; exact touches.cars d hd
  · rw [Part.askPass_requested_supply]; exact touches.plans.supply
  · exact (Part.askPass_requested_ports _).1.trans (Part.judgeStall_ports _ c).1
  · exact (Part.askPass_requested_ports _).2.trans (Part.judgeStall_ports _ c).2

theorem passAsked_reinitialise (p : Part) (c : Car) (e : CarEntry) : PassAsked (p.withEntry c e) (p.reinitialise c e) := by
  rw [Part.reinitialise_eq]
  exact PassAsked.of_kept (touchesOnly_reinitialise p c e).passKept (passAsked_askPass _)

/-- A re-initialised car makes no demand, and had none (R146). -/
theorem Part.reinitialise_demand (h : isConfigurable (p.stateOf c)) : (p.reinitialise c e).demand = p.demand := by
  refine demand_congr fun d => ?_
  by_cases hd : d = c
  · subst hd
    have own : (p.reinitialise d e).stateOf d = (((p.car d).cleanedFor e).judged p.globals).record.state := by
      unfold Part.stateOf; rw [Part.reinitialise_own h]
    have quiet : isDemandState (((p.car d).cleanedFor e).judged p.globals).record.state = false := by
      unfold CarBlock.judged
      split
      · rfl
      · split
        · rfl
        · show isDemandState (if e.present then .normal else .unconfigured) = false
          split <;> rfl
    rw [own, quiet]
    rcases h with h | h | h <;> rw [h] <;> rfl
  · exact congrArg (fun b : CarBlock => isDemandState b.record.state) ((onlyCar_reinitialise p c e).cars d hd)

/-! ## The response -/

theorem OnlyCar.respond {p p' : Part} (h : OnlyCar c p p') (q : Port) (r : ResultCode) (payload : List Byte) :
    OnlyCar c (Answer.respond ⟨p, r, payload⟩ q) (Answer.respond ⟨p', r, payload⟩ q) := by
  refine ⟨h.rest.respond q r payload, fun d hd => ?_, ?_, ?_⟩
  · rw [respond_car, respond_car, h.cars d hd]
  · rw [(respond_keepsPlans p' q r payload).supply, (respond_keepsPlans p q r payload).supply, h.supply]
  · obtain ⟨hs, hp⟩ := h.ports
    cases q
    · exact ⟨congrArg (fun x : PortState => { x with buffer := .ready r payload }) hs, hp⟩
    · exact ⟨hs, congrArg (fun x : PortState => { x with buffer := .ready r payload }) hp⟩

/-! ## The writes -/

/-- An accepted write of entry e for car c: the entry, the unsaved flag and the car, and a requested pass (R4, R6). -/
def EntryTaken (s : State) (q : Port) (c : Car) (e : CarEntry) (o : Host.Outcome State Fault Refusal) : Prop :=
  ∃ t, o = .next t ∧ OnlyCar c ((s.withEntry c e).responded q .ok []) t.toPart ∧
    PassAsked ((s.withEntry c e).responded q .ok []) t.toPart ∧ t.car c = ((s.car c).cleanedFor e).judged s.globals

section
variable {s : State} {q : Port} {code : Byte} {body rest : List Byte} {h : Car → List Byte → Part → Answer} {x : Option CarEntry}

theorem configureCar_busy (g : s.givenCar q code body c rest)
    (e : h c rest (s.toPart.beginHandling q code body) = (s.toPart.beginHandling q code body).configureCar c x)
    (k : ¬isConfigurable (s.stateOf c)) : runCarRequest s q code body h = .next (s.answered s.toPart q .busy []) :=
  runCarRequest_of_refused g (e.trans (if_neg (by rw [Part.beginHandling_stateOf]; exact k)))

theorem configureCar_badValue (g : s.givenCar q code body c rest)
    (e : h c rest (s.toPart.beginHandling q code body) = (s.toPart.beginHandling q code body).configureCar c none)
    (k : isConfigurable (s.stateOf c)) : runCarRequest s q code body h = .next (s.answered s.toPart q .badValue []) :=
  runCarRequest_of_refused g (e.trans (if_pos (by rw [Part.beginHandling_stateOf]; exact k)))

theorem configureCar_accepted {entry : CarEntry} (g : s.givenCar q code body c rest)
    (e : h c rest (s.toPart.beginHandling q code body) = (s.toPart.beginHandling q code body).configureCar c (some entry))
    (k : isConfigurable (s.stateOf c)) :
    EntryTaken s q c entry (runCarRequest s q code body h) := by
  have begun : isConfigurable ((s.toPart.beginHandling q code body).stateOf c) := by rwa [Part.beginHandling_stateOf]
  have accepted : h c rest (s.toPart.beginHandling q code body) =
      ((s.toPart.beginHandling q code body).reinitialise c entry).accept := e.trans (if_pos begun)
  have before : (s.withEntry c entry).responded q .ok [] =
      Answer.respond ⟨(s.toPart.beginHandling q code body).withEntry c entry, .ok, []⟩ q := by
    rw [← respond_unchanged _ q code body]; cases q <;> rfl
  have demand : (Answer.respond ⟨(s.toPart.beginHandling q code body).reinitialise c entry, .ok, []⟩ q).demand = s.demand := by
    rw [demand_congr (p := (s.toPart.beginHandling q code body).reinitialise c entry) fun d => by rw [respond_stateOf],
      Part.reinitialise_demand begun]
    exact demand_congr fun d => by rw [Part.beginHandling_stateOf]
  refine ⟨_, runCarRequest_of_given g h, ?_⟩
  rw [accepted, Part.accept, settleDemand_same demand, before]
  refine ⟨(onlyCar_reinitialise _ c entry).respond q .ok [], (passAsked_reinitialise _ c entry).respond q .ok [], ?_⟩
  refine (respond_car _ q .ok [] c).trans ?_
  rw [Part.reinitialise_own begun, Part.beginHandling_car, Part.beginHandling_globals]

end

section
variable {s : State} {q : Port} {body rest : List Byte}

theorem execWriteCarParams_busy (g : s.givenCar q 22 body c rest) (k : ¬isConfigurable (s.stateOf c)) :
    execWriteCarParams q body s = .next (s.answered s.toPart q .busy []) := configureCar_busy g (by exact rfl) k

theorem execWriteMap_busy (g : s.givenCar q 23 body c rest) (k : ¬isConfigurable (s.stateOf c)) :
    execWriteMap q body s = .next (s.answered s.toPart q .busy []) := configureCar_busy g (by exact rfl) k

theorem execWriteRuleset_busy (g : s.givenCar q 24 body c rest) (k : ¬isConfigurable (s.stateOf c)) :
    execWriteRuleset q body s = .next (s.answered s.toPart q .busy []) := configureCar_busy g (by exact rfl) k

theorem execWriteCarParams_badValue (g : s.givenCar q 22 body c rest) (k : isConfigurable (s.stateOf c))
    (bad : (readParams (s.entry c) rest).all validParams = false ∨ readParams (s.entry c) rest = none) :
    execWriteCarParams q body s = .next (s.answered s.toPart q .badValue []) := by
  have none : (readParams (s.entry c) rest).filter validParams = none := by
    rcases bad with h | h
    · cases r : readParams (s.entry c) rest with
      | none => rfl
      | some e => rw [r] at h; simpa using h
    · rw [h]; rfl
  exact configureCar_badValue g (by rw [Part.beginHandling_entry, none]) k

theorem execWriteMap_badValue (g : s.givenCar q 23 body c rest) (k : isConfigurable (s.stateOf c))
    (bad : validMap (readMap (s.entry c) rest) = false) :
    execWriteMap q body s = .next (s.answered s.toPart q .badValue []) :=
  configureCar_badValue g (by rw [Part.beginHandling_entry]; simp [Option.filter, bad]) k

theorem execWriteCarParams_accepted {e : CarEntry} (g : s.givenCar q 22 body c rest) (k : isConfigurable (s.stateOf c))
    (read : readParams (s.entry c) rest = some e) (valid : validParams e = true) :
    EntryTaken s q c e (execWriteCarParams q body s) :=
  configureCar_accepted g (by rw [Part.beginHandling_entry, read]; simp [Option.filter, valid]) k

theorem execWriteMap_accepted (g : s.givenCar q 23 body c rest) (k : isConfigurable (s.stateOf c))
    (valid : validMap (readMap (s.entry c) rest) = true) :
    EntryTaken s q c (readMap (s.entry c) rest) (execWriteMap q body s) :=
  configureCar_accepted g (by rw [Part.beginHandling_entry]; simp [Option.filter, valid]) k

theorem execWriteRuleset_accepted (g : s.givenCar q 24 body c rest) (k : isConfigurable (s.stateOf c)) :
    EntryTaken s q c { s.entry c with ruleSet := BitVec.ofNat 16 (getNat (rest.take 2)) } (execWriteRuleset q body s) :=
  configureCar_accepted g (by rw [Part.beginHandling_entry]; rfl) k

end

/-- Settles O15: BUSY and BAD_VALUE by the two tests of R4, and the re-initialised car. -/
theorem carWrites : Obligations.CarWrites := by
  intro s q body c rest configurable
  refine ⟨fun g => ⟨execWriteCarParams_busy g, execWriteCarParams_badValue g⟩,
    fun g => ⟨execWriteMap_busy g, execWriteMap_badValue g⟩, execWriteRuleset_busy, fun e i k given => ?_⟩
  intro before b cleared
  rcases given with ⟨g, rfl, read, valid⟩ | ⟨g, rfl, rfl, valid⟩ | ⟨g, rfl, rfl⟩
  · exact execWriteCarParams_accepted g k read valid
  · exact execWriteMap_accepted g k valid
  · exact execWriteRuleset_accepted g k

end Sys2Proof.Machine
end

