-- ==== Sys2Proof/Proofs/Energy.lean ====
section
/-!
PROOFS. The recomputations of energy: WRITE_GLOBAL (R7 to R9), WRITE_SOC_TABLE (R10) and a battery sample (R143), each with its
selection (R145, R154). A selection reads no response, so it is the same before an answer and after it.
-/

namespace Sys2Proof.Machine

variable {p : Part} {q : Port} {c : Car} {f : PortState → PortState}

/-! ## A selection and the response of a port -/

theorem raiseCar_modPort (hf : ∀ x n, (f x).offer n = f (x.offer n)) (k : NoticeKind) (c : Car) :
    (p.modPort q f).raiseCar k c = (p.raiseCar k c).modPort q f := by
  cases q
  · exact congrArg (fun x => ({ p with station := x, panel := p.panel.offer ⟨k, some c⟩ } : Part)) (hf _ _)
  · exact congrArg (fun x => ({ p with station := p.station.offer ⟨k, some c⟩, panel := x } : Part)) (hf _ _)

theorem modCar_modPort (g : CarBlock → CarBlock) : (p.modPort q f).modCar c g = (p.modCar c g).modPort q f := by
  cases q <;> rfl

theorem setState_modPort (new : RescueState) (held : Option HeldCause) :
    (p.modPort q f).setState c new held = (p.setState c new held).modPort q f := by cases q <;> rfl

theorem beginMove_modPort (m : PlanMethod) : (p.modPort q f).beginMove c m = (p.beginMove c m).modPort q f := by
  cases m <;> cases q <;> rfl

theorem announceMove_modPort (hf : ∀ x n, (f x).offer n = f (x.offer n)) (m : PlanMethod) :
    (p.modPort q f).announceMove c m = (p.announceMove c m).modPort q f := by
  unfold Part.announceMove
  split
  · rw [← raiseCar_modPort hf]
    cases q <;> rfl
  · rfl

theorem grant_modPort (hf : ∀ x n, (f x).offer n = f (x.offer n)) (m : PlanMethod) :
    (p.modPort q f).grant c m = (p.grant c m).modPort q f := by
  unfold Part.grant
  split
  · rw [← announceMove_modPort hf, ← beginMove_modPort]
    cases q <;> rfl
  · rfl

theorem flagShort_modPort (hf : ∀ x n, (f x).offer n = f (x.offer n)) :
    (p.modPort q f).flagShort c = (p.flagShort c).modPort q f := by
  unfold Part.flagShort
  rw [Part.modPort_car]
  split
  · rfl
  · rw [← raiseCar_modPort hf]
    exact congrArg (·.raiseCar .energyShort c) (modCar_modPort _)

theorem consider_modPort (hf : ∀ x n, (f x).offer n = f (x.offer n)) :
    (p.modPort q f).consider c = (p.consider c).modPort q f := by
  have free (m : PlanMethod) : (p.modPort q f).slotFree m = p.slotFree m := by cases q <;> rfl
  have affords (n : Nat) : (p.modPort q f).affords n = p.affords n := by cases q <;> rfl
  simp only [Part.consider, Part.modPort_car, free, affords]
  split
  · split
    · split
      · exact grant_modPort hf _
      · exact flagShort_modPort hf
    · rfl
  · rfl

theorem insertCar_modPort (l : List Car) : (p.modPort q f).insertCar c l = p.insertCar c l := by
  have orders (d : Car) : (p.modPort q f).ordersBefore c d = p.ordersBefore c d := by cases q <;> rfl
  induction l with
  | nil => rfl
  | cons d l ih => simp only [Part.insertCar, orders, ih]

theorem readyOrder_modPort : (p.modPort q f).readyOrder = p.readyOrder := by
  unfold Part.readyOrder Part.stateOf
  simp only [insertCar_modPort, Part.modPort_car]

theorem select_modPort (hf : ∀ x n, (f x).offer n = f (x.offer n)) (p : Part) (q : Port) :
    (p.modPort q f).select = p.select.modPort q f := by
  have turns : ∀ (l : List Car) (p : Part), l.foldl (fun p c => p.consider c) (p.modPort q f) =
      (l.foldl (fun p c => p.consider c) p).modPort q f := by
    intro l
    induction l with
    | nil => exact fun _ => rfl
    | cons c l ih => intro p; rw [List.foldl_cons, List.foldl_cons, consider_modPort hf, ih]
  have ready : (p.modPort q f).supplyReady = p.supplyReady := by cases q <;> rfl
  unfold Part.select
  rw [ready, readyOrder_modPort]
  split
  · exact turns _ _
  · rfl

/-- What a request's taking and its answer write: all of a port but its mask and its pending set. -/
theorem offer_exchange (x : PortState) (n : Notice) (a : List Byte) (b : ResponseBuffer) (l : List Byte) :
    ({ x with reception := a, buffer := b, clocked := l } : PortState).offer n =
      { x.offer n with reception := a, buffer := b, clocked := l } := by
  unfold PortState.offer; split <;> rfl

theorem select_beginHandling (p : Part) (q : Port) (code : Byte) (body : List Byte) :
    (p.beginHandling q code body).select = p.select.beginHandling q code body :=
  select_modPort (fun x n => offer_exchange x n _ _ _) p q

theorem select_responded (p : Part) (q : Port) (r : ResultCode) (payload : List Byte) :
    (p.responded q r payload).select = p.select.responded q r payload :=
  select_modPort (fun x n => offer_exchange x n _ _ _) p q

/-! ## A recomputation (R144, R145) -/

/-- The Supply Monitor once the energy is recomputed with a table and a reserve floor. -/
theorem Supply.recompute_eq (x : Supply) (t : List SocPoint) (floor : Nat) : x.recompute t floor = { x with
    charge := x.sample.map (stateOfCharge t)
    usable := x.sample.map fun v => stateOfCharge t v - floor } := by
  unfold Supply.recompute; simp only [Option.map_map]; rfl

/-- The part once the energy is recomputed, before the selection. -/
def Part.recomputed (p : Part) : Part := { p with supply := { p.supply with
    charge := p.supply.sample.map (stateOfCharge p.config.soc)
    usable := p.supply.sample.map fun v => stateOfCharge p.config.soc v - p.globals.reserveFloor } }

theorem Part.recompute_eq (p : Part) :
    p.recompute = if p.supply.sample.isSome = true then p.recomputed.select else p.recomputed := by
  unfold Part.recompute Part.modSupply
  simp only [Supply.recompute_eq]
  rfl

theorem recompute_beginHandling (p : Part) (q : Port) (code : Byte) (body : List Byte) :
    (p.beginHandling q code body).recompute = p.recompute.beginHandling q code body := by
  rw [Part.recompute_eq, Part.recompute_eq, Part.beginHandling_supply]
  have same : (p.beginHandling q code body).recomputed = p.recomputed.beginHandling q code body := by cases q <;> rfl
  rw [same]
  split
  · exact select_beginHandling _ _ _ _
  · rfl

theorem recompute_responded (p : Part) (q : Port) (r : ResultCode) (payload : List Byte) :
    (p.responded q r payload).recompute = p.recompute.responded q r payload := by
  rw [Part.recompute_eq, Part.recompute_eq]
  have sample : (p.responded q r payload).supply.sample = p.supply.sample := by cases q <;> rfl
  have same : (p.responded q r payload).recomputed = p.recomputed.responded q r payload := by cases q <;> rfl
  rw [same, sample]
  split
  · exact select_responded _ _ _ _
  · rfl

/-- What a recomputation leaves: all but the energy, the READY cars and the pairs that the selection raises. -/
theorem recompute_leaves (p : Part) : KeepsRest p p.recompute ∧ PassKept p p.recompute ∧
    p.recompute.supply = p.recomputed.supply ∧ p.recompute.demand = p.demand ∧
    ∀ c, p.stateOf c ≠ .ready → p.recompute.car c = p.car c := by
  refine ⟨keepsRest_recompute p, ?_⟩
  rw [Part.recompute_eq]
  split
  · have plans := keepsPlans_select p.recomputed
    exact ⟨⟨plans.pass, plans.requestPending⟩, plans.supply, Part.select_demand _, fun c h => Part.select_car _ c h⟩
  · exact ⟨⟨rfl, rfl⟩, rfl, rfl, fun _ _ => rfl⟩

/-- The machine whose energy has been recomputed on the part `before`, and what of the machine before it stands. -/
def EnergyTaken (s : State) (before : Part) (t : State) : Prop :=
  t = s.withPart (if s.supply.sample.isSome = true then before.recomputed.select else before.recomputed) ∧
  KeepsRest before t.toPart ∧ PassKept s.toPart t.toPart ∧ t.supply = before.recomputed.supply ∧
  ∀ c, s.stateOf c ≠ .ready → t.car c = before.car c

section
variable {s : State} {code : Byte} {body payload : List Byte} {h : List Byte → Part → Answer}

/-- An accepted request that ends in a recomputation of energy. -/
theorem energyTaken_of_given (g : s.given q code body payload)
    (e : h payload (s.toPart.beginHandling q code body) = (p.beginHandling q code body).recompute.accept)
    (sample : p.supply.sample = s.supply.sample) (pass : PassKept s.toPart p) (states : ∀ c, p.stateOf c = s.stateOf c) :
    ∃ t, runRequest s q code body h = .next t ∧ EnergyTaken s (p.responded q .ok []) t := by
  have same : (p.responded q .ok []).recompute = p.recompute.responded q .ok [] := recompute_responded _ _ _ _
  have demand : p.recompute.demand = s.toPart.demand :=
    (recompute_leaves p).2.2.2.1.trans (demand_congr fun c => by rw [states])
  have leaves := recompute_leaves (p.responded q .ok [])
  obtain ⟨rest, kept, supply, -, cars⟩ := leaves
  refine ⟨_, runRequest_of_answer g (p := p.recompute) (r := .ok) (bytes := []) ?_ demand, ?_⟩
  · rw [e, Part.accept, recompute_beginHandling]
  unfold EnergyTaken State.answered
  rw [← same]
  refine ⟨?_, rest, pass.trans ((passKept_responded q .ok []).trans kept), supply, fun c hc => cars c ?_⟩
  · rw [Part.recompute_eq]
    have : (p.responded q .ok []).supply.sample = s.supply.sample := by rw [← sample]; cases q <;> rfl
    rw [this]
  · rw [Part.responded_stateOf, states]; exact hc

/-! ## WRITE_SOC_TABLE and a battery sample (R10, R143) -/

/-- The part with the table replaced (R10, R15). -/
def Part.withSoc (p : Part) (t : List SocPoint) : Part :=
  { p with config := { p.config with soc := t }, store := { p.store with unsaved := true } }

theorem execWriteSocTable_badValue (g : s.given q 26 body payload)
    (bad : (readSoc payload).all validSoc = false ∨ readSoc payload = none) :
    execWriteSocTable q body s = .next (s.answered s.toPart q .badValue []) := by
  have none : (readSoc payload).filter validSoc = none := by
    rcases bad with h | h
    · cases r : readSoc payload with
      | none => rfl
      | some t => rw [r] at h; simpa using h
    · rw [h]; rfl
  exact runRequest_of_refused g (by rw [none])

theorem execWriteSocTable_accepted {t : List SocPoint} (g : s.given q 26 body payload) (read : readSoc payload = some t)
    (valid : validSoc t = true) :
    ∃ u, execWriteSocTable q body s = .next u ∧ EnergyTaken s ((s.withSoc t).responded q .ok []) u := by
  refine energyTaken_of_given g ?_ rfl ⟨rfl, rfl⟩ fun _ => rfl
  have some : (readSoc payload).filter validSoc = some t := by rw [read]; simp [Option.filter, valid]
  rw [some]
  cases q <;> rfl

/-- The part once a battery sample is taken (R143, log 23). -/
def Part.sampledAt (p : Part) (mv : Nat) : Part :=
  { p with
    samples := p.samples + 1
    time := { p.time with sinceSample := 0 }
    supply := { p.supply with sample := some mv, sampled := true } }

theorem execBatterySample_eq (reading : BitVec 12) (on : s.powered = true) :
    execBatterySample reading s = .next (s.withPart (s.sampledAt (reading.toNat * 65535 / 4095)).recompute) := by
  unfold execBatterySample
  rw [runPart_powered on, settleDemand_same]
  · rfl
  · exact (recompute_leaves _).2.2.2.1

/-- Settles O17: the two recomputations, each on the part that its command writes. -/
theorem energyRecomputed : Obligations.EnergyRecomputed := by
  refine ⟨fun s q body payload g => ⟨fun bad => execWriteSocTable_badValue g bad, fun table read valid => ?_⟩,
    fun s reading on => ?_⟩
  · intro before written
    obtain ⟨t, run, eq, rest, pass, supply, cars⟩ := execWriteSocTable_accepted g read valid
    have recomputed : ((s.withSoc table).responded q .ok []).recomputed = written := by cases q <;> rfl
    rw [recomputed] at eq supply
    refine ⟨t, run, eq, rest, pass, supply, fun c hc => (cars c hc).trans (Part.responded_car _ _ _ _ c)⟩
  · intro mv before taken
    have leaves := recompute_leaves (s.sampledAt mv)
    obtain ⟨rest, kept, supply, -, cars⟩ := leaves
    have eq : (s.sampledAt mv).recompute = taken.select := by rw [Part.recompute_eq]; rfl
    refine ⟨_, execBatterySample_eq reading on, congrArg s.withPart eq, ?_, kept, supply, cars⟩
    have written : KeepsRest before (s.sampledAt mv) := by constructor <;> rfl
    exact written.trans rest

/-! ## WRITE_GLOBAL (R7 to R9) -/

/-- The part with the global parameters replaced and the frame counter restarted (R9, R15). -/
def Part.withGlobals (p : Part) (g : Globals) : Part :=
  { p with
    config := { p.config with globals := g }
    store := { p.store with unsaved := true }
    time := { p.time with sinceFrame := 0 } }

/-- The blocks of a car under new global parameters: its line and its frame start anew, and an unlock pulse whose bound fails
ends (R9, R176). -/
def CarBlock.reclocked (b : CarBlock) (g : Globals) : CarBlock :=
  { b with
    line := { b.line with fifo := [], assembly := ⟨.hunt, 0, 0, [], 0⟩ }
    inputs := { b.inputs with frameCount := 0, window := [] }
    signals :=
      if b.record.state = .releasing ∧ b.inputs.zone.accepted = some true ∧ b.isPlaced g = true then b.signals
      else { b.signals with unlockTimer := none, unlockOutput := false } }

theorem reclocked_eq (b : CarBlock) (g : Globals) : (b.restartClocks).bounded g = b.reclocked g := by
  have bound : ((b.restartClocks).record.state = .releasing ∧ (b.restartClocks).inputs.zone.isOn = true ∧
      (b.restartClocks).isPlaced g = true) ↔
      (b.record.state = .releasing ∧ b.inputs.zone.accepted = some true ∧ b.isPlaced g = true) := by
    simp only [LevelFilter.isOn, beq_iff_eq]; exact Iff.rfl
  unfold CarBlock.bounded CarBlock.reclocked
  by_cases h : b.record.state = .releasing ∧ b.inputs.zone.accepted = some true ∧ b.isPlaced g = true
  · rw [if_pos (bound.mpr h), if_pos h]; rfl
  · rw [if_neg fun k => h (bound.mp k), if_neg h]; rfl

theorem applyGlobals_eq (p : Part) (g : Globals) :
    p.applyGlobals g = ((p.withGlobals g).mapCars (·.reclocked g)).recompute := by
  simp only [Part.applyGlobals, boundPulses_eq]
  refine congrArg Part.recompute ?_
  have blocks : (fun b : CarBlock => b.reclocked g) = fun b => (b.restartClocks).bounded g :=
    funext fun b => (reclocked_eq b g).symm
  rw [blocks]
  unfold Part.mapCars Part.withGlobals Part.markUnsaved
  simp only [Vector.map_map]
  rfl

theorem execWriteGlobal_busy (g : s.given q 25 body payload) (h : ∃ c, isMoveState (s.stateOf c) = true) :
    execWriteGlobal q body s = .next (s.answered s.toPart q .busy []) := by
  obtain ⟨c, moves⟩ := h
  have moving : (s.toPart.beginHandling q 25 body).anyMoving = true :=
    List.any_eq_true.mpr ⟨c, mem_allCars c, by rw [Part.beginHandling_stateOf]; exact moves⟩
  exact runRequest_of_refused g (if_pos moving)

theorem still_beginHandling (h : ∀ c, isMoveState (s.stateOf c) = false) :
    ¬(s.toPart.beginHandling q code body).anyMoving = true := by
  intro moving
  obtain ⟨c, -, moves⟩ := List.any_eq_true.mp moving
  rw [Part.beginHandling_stateOf, h c] at moves
  cases moves

theorem execWriteGlobal_badValue (g : s.given q 25 body payload) (still : ∀ c, isMoveState (s.stateOf c) = false)
    (bad : (readGlobals payload).all validGlobals = false ∨ readGlobals payload = none) :
    execWriteGlobal q body s = .next (s.answered s.toPart q .badValue []) := by
  have none : (readGlobals payload).filter validGlobals = none := by
    rcases bad with h | h
    · cases r : readGlobals payload with
      | none => rfl
      | some t => rw [r] at h; simpa using h
    · rw [h]; rfl
  exact runRequest_of_refused g (by rw [if_neg (still_beginHandling still), none])

theorem execWriteGlobal_accepted {x : Globals} (g : s.given q 25 body payload)
    (still : ∀ c, isMoveState (s.stateOf c) = false) (read : readGlobals payload = some x) (valid : validGlobals x = true) :
    ∃ u, execWriteGlobal q body s = .next u ∧
      EnergyTaken s (((s.withGlobals x).mapCars (·.reclocked x)).responded q .ok []) u := by
  refine energyTaken_of_given g ?_ rfl ⟨rfl, rfl⟩ fun c => ?_
  · have some : (readGlobals payload).filter validGlobals = some x := by rw [read]; simp [Option.filter, valid]
    rw [if_neg (still_beginHandling still), some]
    simp only [applyGlobals_eq]
    cases q <;> rfl
  · unfold Part.stateOf; rw [Part.mapCars_car]; rfl

end

/-- Settles O16: the two refusals, and the recomputation on the part with the new parameters. -/
theorem globalWrite : Obligations.GlobalWrite := by
  intro s q body payload given
  refine ⟨fun moves => execWriteGlobal_busy given moves, fun still => ⟨fun bad => execWriteGlobal_badValue given still bad,
    fun g read valid => ?_⟩⟩
  intro before written
  obtain ⟨t, run, eq, rest, pass, supply, cars⟩ := execWriteGlobal_accepted given still read valid
  have recomputed : (((s.withGlobals g).mapCars (·.reclocked g)).responded q .ok []).recomputed = written := by
    cases q <;> rfl
  rw [recomputed] at eq supply
  have written : KeepsRest before (((s.withGlobals g).mapCars (·.reclocked g)).responded q .ok []) := by
    cases q <;> constructor <;> rfl
  refine ⟨t, run, eq, written.trans rest, pass, supply, fun c hc => (cars c hc).trans ?_⟩
  cases q <;> rfl

end Sys2Proof.Machine
end

