-- ==== Sys2Proof/Proofs/Plans.lean ====
section
/-!
PROOFS. The evaluation of the rules (R104, R105, R107 to R109) and the plan of one car (R132 to R138).
-/

namespace Sys2Proof.Machine

/-! ## Rules -/

theorem comparePasses_iff (r : Rule) (q : Option Nat) : comparePasses r q = true ↔
    (match r.compare with
      | .off => True
      | .inRange => ∃ n, q = some n ∧ r.low ≤ n ∧ n ≤ r.high
      | .outOfRange => ∃ n, q = some n ∧ (n < r.low ∨ r.high < n)
      | .atBound => ∃ n, q = some n ∧ (n = r.low ∨ n = r.high)) := by
  unfold comparePasses
  cases r.compare <;> simp [Option.any_eq_true]

theorem causePasses_iff (r : Rule) (cause : Option StallCause) : causePasses r cause = true ↔
    r.causes = 0 ∨ ∃ x, cause = some x ∧ r.causes.getLsbD (stallCauseCode x) = true := by
  simp [causePasses, Option.any_eq_true]

theorem linePasses_iff (r : Rule) (line : LineState) : linePasses r line = true ↔
    r.lineCondition = .any ∨ (r.lineCondition = .alive ∧ line = .alive) ∨ (r.lineCondition = .lost ∧ line = .lost) := by
  unfold linePasses
  cases r.lineCondition <;> simp

theorem ruleMatches_iff (rules : Vector Rule 16) (i : Fin 16) (s : CarSnapshot) (usable : Option Nat) :
    ruleMatches rules i s usable = true ↔
      rules[i].enabled = true ∧ s.entry.ruleSet.getLsbD i.val = true ∧
      comparePasses rules[i] (quantityValue s usable rules[i].quantity) = true ∧
      causePasses rules[i] s.stallCause = true ∧ linePasses rules[i] s.lineState = true := by
  simp only [ruleMatches, Bool.and_eq_true, and_assoc]

theorem allRules_eq : allRules = List.finRange 16 := rfl

/-- Settles O19: a rule matches by its tests, and the matching rules act in index order. -/
theorem rulesEvaluated : Obligations.RulesEvaluated := by
  intro rules s usable value compares
  have valueEq (q : Quantity) : quantityValue s usable q = value q := by
    cases q with
    | alarms =>
      show s.alarmReference.map _ = if s.alarmReference.isSome then _ else _
      cases s.alarmReference <;> rfl
    | loadKg | trappedS | landing | usableEu | urgency => rfl
  refine ⟨fun i => ?_, ?_⟩
  · have passes := ruleMatches_iff rules i s usable
    rw [comparePasses_iff, causePasses_iff, linePasses_iff, valueEq] at passes
    exact passes
  · unfold evaluateRules
    rw [allRules_eq]
    refine congrArg (fun f => List.foldl f _ _) (funext fun x => funext fun i => ?_)
    split
    · unfold applyWeight applyMethods
      cases rules[i].weightAction <;> cases rules[i].methodAction <;> rfl
    · rfl

/-! ## The natural direction, and the distances (R134, R135) -/

/-- The load of the counterweight, in kg (R135). -/
def counterweight (e : CarEntry) : Nat := e.balance * e.ratedLoad / 100

theorem naturalDirection_of_load {s : CarSnapshot} {load : Nat} (h : s.load = some load) : naturalDirection s =
    (let margin := ceilDiv (s.entry.ratedLoad * s.entry.margin) 100
     if counterweight s.entry + margin < load then .down
     else if load + margin < counterweight s.entry then .up else .balanced) := by
  simp only [naturalDirection, imbalance, h, counterweight]
  exact if_congr (by omega) rfl (if_congr (by omega) rfl rfl)

theorem naturalDirection_of_none {s : CarSnapshot} (h : s.load = none) : naturalDirection s =
    (match s.probeResult with
      | some .up => .up
      | some .down => .down
      | some .noDrift => .balanced
      | none => .unknown) := by
  simp only [naturalDirection, h] <;> rfl

/-- The kilograms that a powered move lifts against the imbalance (R137). -/
def liftedLoad (s : CarSnapshot) (d : Dir) : Nat :=
  match d, s.load with
  | .up, some load => load - counterweight s.entry
  | .down, some load => counterweight s.entry - load
  | _, none => 0

theorem workEnergy_eq (s : CarSnapshot) (dir : Dir) (d : Nat) :
    workEnergy s.entry (imbalance s.entry s.load) dir d =
      ceilDiv (ceilDiv (liftedLoad s dir * 981 * d) 100000 * 100) s.entry.efficiency := by
  have nothing (x : Nat) : ceilDiv (ceilDiv (0 * 981 * d) 100000 * 100) x = 0 := by
    simp only [ceilDiv, Nat.zero_mul, Nat.zero_add]
    cases x with
    | zero => rfl
    | succ n => exact Nat.div_eq_of_lt (by omega)
  have lifts (m : Int) (n : Nat) (up : Bool) (h : up = true ↔ 0 < n) (e : 0 < n → m.natAbs = n) :
      (if up then ceilDiv (ceilDiv (m.natAbs * 981 * d) 100000 * 100) s.entry.efficiency else 0) =
        ceilDiv (ceilDiv (n * 981 * d) 100000 * 100) s.entry.efficiency := by
    cases hu : up with
    | true => rw [e (h.mp hu)]; rfl
    | false =>
      have : n = 0 := by
        have : ¬ 0 < n := fun k => by rw [h.mpr k] at hu; cases hu
        omega
      rw [this, nothing]; rfl
  unfold workEnergy imbalance liftedLoad counterweight
  cases s.load with
  | none => cases dir <;> exact (nothing _).symm
  | some load =>
    cases dir
    · exact lifts _ _ _ (by simp only [decide_eq_true_eq]; omega) (by dsimp only; omega)
    · exact lifts _ _ _ (by simp only [decide_eq_true_eq]; omega) (by dsimp only; omega)

theorem lockedMask_eq (s : CarSnapshot) (mask : MethodSet) :
    lockedMask s mask = if s.locked = true then mask &&& 0b01100#5 else mask := rfl

/-! ## The method (R136) -/

theorem chooseMethod_eq (s : CarSnapshot) (g : Globals) (mask : MethodSet) (natural : NaturalDir) (q : SpanPosition) :
    chooseMethod s g mask natural q =
      (let powered := s.lineState = .alive ∧ s.driveAvailable = some true ∧ 1 ≤ g.driveSlots ∧ q.basis ≠ .noSpan
       let either := maskHas mask .poweredUp = true ∧ maskHas mask .poweredDown = true
       if natural = .down ∧ maskHas mask .gravityDown = true then some .gravityDown
       else if natural = .up ∧ maskHas mask .gravityUp = true then some .gravityUp
       else if natural = .unknown ∧ maskHas mask .probe = true then some .probe
       else if powered ∧ (if either then q.upDistance < q.downDistance else maskHas mask .poweredUp = true) then some .poweredUp
       else if powered ∧ maskHas mask .poweredDown = true then some .poweredDown
       else none) := by
  unfold chooseMethod
  refine if_congr Iff.rfl rfl (if_congr Iff.rfl rfl (if_congr Iff.rfl rfl ?_))
  by_cases powered : s.lineState = .alive ∧ s.driveAvailable = some true ∧ 1 ≤ g.driveSlots ∧ q.basis ≠ .noSpan
  · rw [if_pos powered]
    by_cases shorter : q.upDistance < q.downDistance <;>
      cases maskHas mask .poweredUp <;> cases maskHas mask .poweredDown <;> simp [powered, shorter]
  · rw [if_neg powered]; simp [powered]

theorem chooseMethod_ne_none (s : CarSnapshot) (g : Globals) (mask : MethodSet) (natural : NaturalDir) (q : SpanPosition) :
    chooseMethod s g mask natural q ≠ some .none := by
  unfold chooseMethod
  split; · simp
  split; · simp
  split; · simp
  split
  · split
    · split <;> simp
    all_goals simp
  · simp

/-! ## The plan of a car in a span (R134 to R138) -/

section
variable (s : CarSnapshot) (g : Globals) (mask : MethodSet) (natural : NaturalDir)

/-- A plan in a span has the method of R136 and records the distances of R134. -/
theorem spanPlan_head : (spanPlan s g mask natural).planned = true ∧
    (spanPlan s g mask natural).natural = some natural ∧
    (spanPlan s g mask natural).basis = some (spanPosition s).basis ∧
    (spanPlan s g mask natural).downDistance = some (spanPosition s).downDistance ∧
    (spanPlan s g mask natural).upDistance = some (spanPosition s).upDistance ∧
    (spanPlan s g mask natural).method = chooseMethod s g mask natural (spanPosition s) := by
  have never := chooseMethod_ne_none s g mask natural (spanPosition s)
  unfold spanPlan
  dsimp only
  generalize chooseMethod s g mask natural (spanPosition s) = x at never
  cases x with
  | none => exact ⟨rfl, rfl, rfl, rfl, rfl, rfl⟩
  | some m =>
    cases m
    case none => exact absurd rfl never
    all_goals exact ⟨rfl, rfl, rfl, rfl, rfl, rfl⟩

/-- The figures of a plan that moves in a direction (R137). -/
theorem spanPlan_move {m : PlanMethod} {d : Dir} (h : chooseMethod s g mask natural (spanPosition s) = some m)
    (hd : moveDirOf m = some d) :
    spanPlan s g mask natural = movePlan s natural (spanPosition s) m d (decide (m = .poweredUp ∨ m = .poweredDown)) := by
  unfold spanPlan
  dsimp only
  rw [h]
  cases m <;> simp [moveDirOf] at hd <;> subst hd <;> rfl

theorem spanPlan_probe (h : chooseMethod s g mask natural (spanPosition s) = some .probe) :
    spanPlan s g mask natural = probePlan s g natural (spanPosition s) := by
  unfold spanPlan; dsimp only; rw [h]

theorem spanPlan_none (h : chooseMethod s g mask natural (spanPosition s) = none) :
    spanPlan s g mask natural = noPlan natural (spanPosition s) := by
  unfold spanPlan; dsimp only; rw [h]

end

/-- Settles O20: the plan by the zone level, in a span by its method. -/
theorem plansMade : Obligations.PlansMade := by
  intro rules pass s e g made plan judged mask up toEu counter margin natural far span distance target powered either
  have naturalEq : naturalDirection s = natural := by
    simp only [natural]
    cases load : s.load with
    | some load => exact naturalDirection_of_load ‹_›
    | none => rw [naturalDirection_of_none load]; cases s.probeResult with
      | none => rfl
      | some x => cases x <;> rfl
  have spanEq : spanPosition s = ⟨span.1, span.2.1, span.2.2, target .down, target .up⟩ := by
    simp only [spanPosition, span, target]
    cases s.view.bestZone with
    | none => rfl
    | some z => cases s.view.resolved <;> cases s.view.offset <;> rfl
  have placed : span.1 ≠ .noSpan ↔ s.view.bestZone.isSome = true := by
    simp only [span]
    cases s.view.bestZone with
    | none => simp
    | some z => cases s.view.resolved <;> cases s.view.offset <;> simp
  have planEq : plan = if s.zoneLevel = some true then landingPlan s natural else spanPlan s g mask natural := by
    rw [← naturalEq]; rfl
  refine ⟨rfl, rfl, ?_, ?_, fun level => ?_, fun level => ?_⟩
  · rw [planEq]; split
    · unfold landingPlan; split <;> rfl
    · exact (spanPlan_head s g mask natural).1
  · rw [planEq]; split
    · unfold landingPlan; split <;> rfl
    · exact (spanPlan_head s g mask natural).2.1
  · rw [planEq, if_pos level]
    unfold landingPlan
    cases s.view.bestZone <;> exact ⟨rfl, rfl, rfl, rfl, rfl, rfl, rfl, rfl, rfl⟩
  · rw [planEq, if_neg level]
    obtain ⟨-, -, basis, down, upward, method⟩ := spanPlan_head s g mask natural
    have methodEq := chooseMethod_eq s g mask natural (spanPosition s)
    simp only [spanEq, placed] at methodEq basis down upward
    refine ⟨basis, down, upward, method.trans (by rw [spanEq]; exact methodEq), fun m d hm hd => ?_, fun hm => ?_, fun hm => ?_⟩
    · have move := spanPlan_move s g mask natural (method.symm.trans hm) hd
      rw [move, spanEq]
      refine ⟨rfl, by cases d <;> rfl, by cases d <;> rfl, by cases d <;> rfl, ?_⟩
      simp only [movePlan, workEnergy_eq, decide_eq_true_eq]
      cases d <;> rfl
    · rw [spanPlan_probe s g mask natural (method.symm.trans hm)]
      exact ⟨rfl, rfl, rfl, rfl, rfl⟩
    · rw [spanPlan_none s g mask natural (method.symm.trans hm)]
      exact ⟨rfl, rfl, rfl, rfl, rfl⟩

end Sys2Proof.Machine
end

