-- ==== Sys2Proof/Proofs/Resets.lean ====
section
/-!
PROOFS. Resets (R16, R17, R190): what a load leaves, and that a soft reset is a load with the battery's figures kept.
-/

namespace Sys2Proof.Machine

variable {s : State} {code : Byte} {body : List Byte}

/-- What a load leaves does not rest on the count of the free values read, `n`. -/
theorem loadedFrom_loaded (p : Part) (n : Nat) (x : Supply) (a : Fin 4) :
    LoadedFrom p ({ p with samples := n }.loaded x a) where
  powered := rfl
  image := ⟨rfl, rfl, rfl⟩
  valid h := by simp [Part.loaded, loadImage, h, PortState.fresh]
  invalid h := by simp [Part.loaded, loadImage, h, PortState.fresh]
  cars c := by rw [Part.loaded_car]; rfl
  inputs := ⟨rfl, rfl⟩
  passes := ⟨rfl, rfl, rfl, rfl⟩
  ports port := by cases port <;> exact ⟨rfl, rfl, rfl, rfl, rfl⟩
  clocks := ⟨rfl, rfl⟩

theorem acknowledges_iff {p : Part} (on : p.powered = true) (a : Nat) : p.acknowledges a = true ↔ a = p.panelAddress := by
  simp [Part.acknowledges, on]

/-- The Supply Monitor that a soft reset leaves: what is kept of it, and the energy from it (R141). -/
def Part.softSupply (p : Part) : Supply :=
  let x := (loadImage p.store.image).config
  { Supply.fresh with
    sample := p.supply.sample
    sampled := p.supply.sampled
    charge := p.supply.sample.map (stateOfCharge x.soc)
    usable := p.supply.sample.map fun v => stateOfCharge x.soc v - x.globals.reserveFloor }

/-- The selection of the recomputation finds no supply ready: the belief is UNKNOWN and the converter OFF. -/
theorem softReset_eq (p : Part) (a : Fin 4) : p.softReset a = p.loaded p.softSupply a := by
  have same : (p.loaded p.supply.kept a).recomputed = p.loaded p.softSupply a := rfl
  unfold Part.softReset
  rw [Part.recompute_eq, same, Part.select_of_not_ready _ rfl, ite_self]

theorem settleDemand_off {before p : Part} (h : p.supply.converter = .off) : settleDemand before p = p :=
  settleDemand_quiet (by simp [h]) (by simp [h])

theorem settleDemand_loaded (before p : Part) (a : Fin 4) : settleDemand before (p.loaded p.softSupply a) = p.loaded p.softSupply a :=
  settleDemand_off rfl

theorem exec_softReset_armed (on : s.powered = true) (armed : s.resetArmed = true) (a : Fin 4) :
    exec (.softReset a) s = .next (s.withPart (s.toPart.loaded s.toPart.softSupply a)) := by
  show execSoftReset a s = _
  unfold execSoftReset
  rw [runPart_powered on]
  simp only [armed, if_true]
  rw [softReset_eq, settleDemand_loaded]
  rfl

/-- The part after the soft reset at the end of a station transaction. -/
def Part.transacted (p : Part) : Part := { p with samples := p.samples + 1 }.loaded p.softSupply (Config.addressInputs p.samples)

theorem resetByTransaction_eq (p : Part) : p.resetByTransaction = p.transacted := softReset_eq _ _

theorem exec_responseRead_armed (on : s.powered = true) (armed : s.resetArmed = true) :
    ∃ bytes, exec (.responseRead .station) s = .next (s.withPart
      { s.toPart.transacted with station := { s.toPart.transacted.station with clocked := bytes } }) := by
  refine ⟨responseBytes (s.port .station).buffer, ?_⟩
  show execResponseRead .station s = _
  unfold execResponseRead
  rw [runPart_powered on]
  simp only [armed, and_self, if_true, resetByTransaction_eq]
  rw [settleDemand_off rfl]
  rfl

theorem exec_requestOf_armed (on : s.powered = true) (armed : s.resetArmed = true) (h : code ≠ 0) :
    exec (requestOf .station code body) s = .next (s.withPart s.toPart.transacted) := by
  obtain ⟨f, run⟩ := exec_requestOf s .station code body (fun k => h k.2)
  rw [run]
  unfold runRequest
  rw [runPart_powered on, takeRequest_of_armed armed, resetByTransaction_eq]
  exact congrArg (fun p => Host.Outcome.next (s.withPart p)) (settleDemand_loaded _ { s.toPart with samples := _ } _)

/-- Settles O5: each reset is a load, with the supply that it keeps. -/
theorem resetsLoadTheImage : Obligations.ResetsLoadTheImage := by
  intro address s soft
  refine ⟨⟨_, rfl, loadedFrom_loaded _ s.samples _ _, rfl, acknowledges_iff rfl, rfl, rfl⟩, fun on armed => ⟨?_, ?_⟩,
    fun on unarmed => ?_⟩
  · exact ⟨_, exec_softReset_armed on armed address,
      ⟨loadedFrom_loaded _ s.samples _ _, rfl, acknowledges_iff rfl, rfl⟩, rfl⟩
  · exact ⟨s.toPart.transacted, ⟨loadedFrom_loaded _ _ _ _, rfl, acknowledges_iff rfl, rfl⟩, rfl,
      exec_responseRead_armed on armed, fun code body h => exec_requestOf_armed on armed h⟩
  · show execSoftReset address s = _
    unfold execSoftReset
    rw [runPart_same on _ (by simp only [unarmed]; rfl)]
    simp only [unarmed]
    rfl

end Sys2Proof.Machine
end

