-- ==== Sys2Proof/Proofs/CarLines.lean ====
section
/-!
PROOFS. The car lines: bytes (R19), frame assembly (R20, R21) and the treatment of STATUS (R22).
-/

namespace Sys2Proof.Machine

variable {s : State} {c : Car} {l : CarLine} {e : CarEntry} {b kind : Byte} {payload : List Byte}

theorem modLine_demand (p : Part) (c : Car) (f : CarLine → CarLine) : (p.modLine c f).demand = p.demand :=
  demand_congr fun d => by simp only [Part.stateOf, Part.modLine_car]; split <;> simp_all

theorem modLine_modLine (p : Part) (c : Car) (f g : CarLine → CarLine) :
    (p.modLine c f).modLine c g = p.modLine c fun l => g (f l) := Part.modCar_modCar

/-- A command that acts on the line of one car changes that line alone. -/
theorem runPart_modLine (on : s.powered = true) (f : Part → CarLine → CarLine) :
    runPart s (fun p => p.modLine c (f p)) = .next (s.withPart (s.modLine c (f s.toPart))) :=
  runPart_same on _ (modLine_demand _ _ _)

/-! ## Bytes -/

theorem parityGood_eq (x : LineByte) :
    parityGood x = ((onesOf x.data + x.mark.toNat + x.parity.toNat) % 2 == 0) := by
  unfold parityGood
  cases x.mark <;> cases x.parity <;> rfl

/-- The parity bit that makes the count of ones even is good (R19). -/
theorem parityGood_sent (b : Byte) (mark : Bool) : parityGood (sentByte mark b) = true := by
  rw [parityGood_eq]
  simp only [sentByte]
  generalize onesOf b + mark.toNat = n
  rcases Nat.mod_two_eq_zero_or_one n with h | h
  · simp [h]
  · simp [h]; omega

theorem drain_of_empty (h : l.fifo = []) : ∀ fuel, CarLine.drain e fuel l = l
  | 0 => rfl
  | fuel + 1 => by unfold CarLine.drain; rw [h]; cases l.handover <;> rfl

theorem drain_of_handover (h : l.handover.isSome = true) : ∀ fuel, CarLine.drain e fuel l = l
  | 0 => rfl
  | fuel + 1 => by
    obtain ⟨f, hf⟩ := Option.isSome_iff_exists.mp h
    unfold CarLine.drain; rw [hf]

/-! ## Frame assembly (R20, R21) -/

theorem takeByte_marked : l.takeByte e b true =
    if l.assembly.state = .hunt then { l with assembly := .start b } else { l.countBad with assembly := .start b } := by
  unfold CarLine.takeByte
  dsimp only
  cases l.assembly.state <;> rfl

theorem takeByte_hunt (h : l.assembly.state = .hunt) : l.takeByte e b false = l := by
  unfold CarLine.takeByte; dsimp only; rw [h]; rfl

theorem takeByte_header (h : l.assembly.state = .header) : l.takeByte e b false =
    if 24 < b.toNat then { l.countBad with assembly := .hunt }
    else { l with assembly := { l.assembly with
      state := if b = 0 then .check else .payload, length := b.toNat, sum := l.assembly.sum + b } } := by
  unfold CarLine.takeByte; dsimp only; rw [h]; rfl

theorem takeByte_payload (h : l.assembly.state = .payload) : l.takeByte e b false =
    { l with assembly := { l.assembly with
      state := if (l.assembly.payload ++ [b]).length = l.assembly.length then .check else .payload
      payload := l.assembly.payload ++ [b], sum := l.assembly.sum + b } } := by
  unfold CarLine.takeByte; dsimp only; rw [h]; rfl

theorem takeByte_check (h : l.assembly.state = .check) :
    l.takeByte e b false = l.complete e l.assembly (l.assembly.sum + b) := by
  unfold CarLine.takeByte; dsimp only; rw [h]; rfl

/-- A complete frame is handed over if it passes R21 and its field checks. -/
theorem complete_good {a : Assembly} {f : ControllerFrame} (h : frameOf a.kind a.payload = some f)
    (k : frameValid e f = true) : l.complete e a 0 = { l with assembly := .hunt, handover := some f } := by
  simp [CarLine.complete, h, k]

/-- Any other complete frame is a bad frame. -/
theorem complete_bad {a : Assembly} {sum : Byte}
    (h : sum = 0 → ∀ f, frameOf a.kind a.payload = some f → frameValid e f = false) :
    l.complete e a sum = { l.countBad with assembly := .hunt } := by
  unfold CarLine.complete
  split
  · next zero =>
    cases known : frameOf a.kind a.payload with
    | none => rfl
    | some f => simp only [h zero f known]; rfl
  · rfl

theorem complete_fifo (a : Assembly) (sum : Byte) : (l.complete e a sum).fifo = l.fifo := by
  by_cases good : sum = 0 ∧ ∃ f, frameOf a.kind a.payload = some f ∧ frameValid e f = true
  · obtain ⟨rfl, f, known, valid⟩ := good
    rw [complete_good known valid]
  · rw [complete_bad fun zero f known => by
      cases valid : frameValid e f with
      | false => rfl
      | true => exact absurd ⟨zero, f, known, valid⟩ good]
    rfl

@[simp] theorem takeByte_fifo (mark : Bool) : (l.takeByte e b mark).fifo = l.fifo := by
  cases mark with
  | true => rw [takeByte_marked]; split <;> rfl
  | false =>
    cases h : l.assembly.state with
    | hunt => rw [takeByte_hunt h]
    | header => rw [takeByte_header h]; split <;> rfl
    | payload => rw [takeByte_payload h]
    | check => rw [takeByte_check h, complete_fifo]

/-- A good byte that meets an empty FIFO and no hand-over is taken by frame assembly at once (R20). -/
theorem receive_sent (free : l.handover = none) (empty : l.fifo = []) (mark : Bool) :
    l.receive e (sentByte mark b) = l.takeByte e b mark := by
  have same : { l with fifo := [], handover := none } = l := by cases l; cases empty; cases free; rfl
  unfold CarLine.receive
  rw [parityGood_sent, empty]
  show CarLine.drain e 5 { l with fifo := [(b, mark)] } = _
  unfold CarLine.drain
  simp only [free]
  rw [same]
  exact drain_of_empty (by rw [takeByte_fifo, empty]) 4

/-- Settles O31: the tests of a byte in their order. -/
theorem bytesJudged : Obligations.BytesJudged := by
  intro s c byte on l ones dropped judged
  have parity : parityGood byte = (ones % 2 == 0) := parityGood_eq byte
  have judgedEq : judged = l.receive (s.entry c) byte := rfl
  refine ⟨?_, fun stop => ?_, fun stop odd => ?_, fun stop even full => ?_, fun stop even space busy => ?_⟩
  · exact (runPart_modLine on fun p l => l.receive (p.entry c) byte).trans
      (congrArg (fun p => Host.Outcome.next (s.withPart p)) (Part.modCar_congr rfl))
  · rw [judgedEq, CarLine.receive, stop]; rfl
  · rw [judgedEq, CarLine.receive, stop, parity, odd]; rfl
  · rw [judgedEq, CarLine.receive, stop, parity, even]; exact if_pos full
  · rw [judgedEq, CarLine.receive, stop, parity, even]
    refine ((if_neg (by decide)).trans ((if_neg (by decide)).trans (if_neg (by omega)))).trans (drain_of_handover ?_ 5)
    exact busy

/-! ## A frame, byte by byte -/

theorem receivedLength_eq_some_iff {n : Nat} : receivedLength kind = some n ↔
    (kind = 17 ∧ n = 10) ∨ (kind = 18 ∧ n = 1) ∨ ((kind = 19 ∨ kind = 20 ∨ kind = 21) ∧ n = 2) := by
  unfold receivedLength
  split; · simp_all [eq_comm]
  split; · simp_all [eq_comm]
  split; · simp_all [eq_comm]
  split; · simp_all [eq_comm]
  split; · simp_all [eq_comm]
  simp_all

theorem frameOf_eq_none_iff : frameOf kind payload = none ↔ receivedLength kind ≠ some payload.length := by
  unfold frameOf
  split
  · next h => exact ⟨fun k => by (repeat' split at k <;> try cases k), fun k => absurd h k⟩
  · next h => exact ⟨fun _ => h, fun _ => rfl⟩

theorem modeOf_isSome_iff (m : Byte) : (modeOf m).isSome = true ↔ m = 1 ∨ m = 2 ∨ m = 3 := by
  unfold modeOf
  split; · simp_all
  split; · simp_all
  split <;> simp_all

theorem frameValid_status_iff (f : StatusFrame) : frameValid e (.status f) = true ↔
    (f.mode = 1 ∨ f.mode = 2 ∨ f.mode = 3) ∧ (f.driveAvailable = 0 ∨ f.driveAvailable = 1) := by
  simp only [frameValid, Bool.and_eq_true, Bool.or_eq_true, beq_iff_eq, modeOf_isSome_iff]

/-- The line once it has judged a complete frame that spells `f`. -/
theorem complete_of_frame {a : Assembly} {f : ControllerFrame} (h : frameOf a.kind a.payload = some f) {b : Prop} [Decidable b]
    (k : frameValid e f = true ↔ b) : l.complete e a 0 =
      if b then { l with assembly := .hunt, handover := some f } else { l.countBad with assembly := .hunt } := by
  split
  · next v => exact complete_good h (k.mpr v)
  · next v =>
    exact complete_bad fun _ g hg => by
      rw [h] at hg; cases hg
      cases w : frameValid e f with
      | false => rfl
      | true => exact absurd (k.mp w) v

/-- A line with its frame in assembly replaced. -/
def CarLine.assembling (l : CarLine) (a : Assembly) : CarLine := { l with assembly := a }

theorem receive_assembling (free : l.handover = none) (empty : l.fifo = []) (a : Assembly) (mark : Bool) :
    (l.assembling a).receive e (sentByte mark b) = (l.assembling a).takeByte e b mark := by
  exact receive_sent (l := { l with assembly := a }) free empty mark

theorem takeByte_collects {acc : List Byte} {n : Nat} {sum : Byte} (h : l.assembly = ⟨.payload, kind, n, acc, sum⟩) :
    l.takeByte e b false = l.assembling
      ⟨if acc.length + 1 = n then .check else .payload, kind, n, acc ++ [b], sum + b⟩ := by
  rw [takeByte_payload (by rw [h]), h, List.length_append]; rfl

/-- The payload bytes of a frame are collected up to its length, with their sum. -/
theorem foldl_receive_payload (n : Nat) : ∀ (rest acc : List Byte) (l : CarLine) (sum : Byte), rest ≠ [] → l.handover = none →
    l.fifo = [] → acc.length + rest.length = n → l.assembly = ⟨.payload, kind, n, acc, sum⟩ →
    (rest.map (sentByte false)).foldl (fun l b => l.receive e b) l =
      l.assembling ⟨.check, kind, n, acc ++ rest, rest.foldl (· + ·) sum⟩
  | [], _, _, _, h, _, _, _, _ => absurd rfl h
  | [b], acc, l, sum, _, free, empty, len, a => by
    rw [List.map_singleton, List.foldl_cons, List.foldl_nil, receive_sent free empty, takeByte_collects a]
    exact congrArg (fun x => l.assembling ⟨x, _, _, _, _⟩) (if_pos len)
  | b :: d :: rest, acc, l, sum, _, free, empty, len, a => by
    rw [List.map_cons, List.foldl_cons, receive_sent free empty, takeByte_collects a,
      if_neg (by simp at len ⊢; omega)]
    refine (foldl_receive_payload n (d :: rest) (acc ++ [b])
      (l.assembling ⟨.payload, kind, n, acc ++ [b], sum + b⟩) (sum + b) (by simp) free empty
      (by simp at len ⊢; omega) rfl).trans ?_
    rw [List.append_assoc]; rfl

/-- Settles O32: kind, length and payload are collected, and the checksum decides with the field checks. -/
theorem frameAssembled : Obligations.FrameAssembled := by
  intro l e kind check payload f hunt free empty known body good bytes received
  have size : receivedLength kind = some payload.length := by
    by_contra h; rw [frameOf_eq_none_iff.mpr h] at known; cases known
  have len : 1 ≤ payload.length ∧ payload.length ≤ 10 := by
    rcases receivedLength_eq_some_iff.mp size with ⟨-, h⟩ | ⟨-, h⟩ | ⟨-, h⟩ <;> omega
  have lenByte : (BitVec.ofNat 8 payload.length).toNat = payload.length := by rw [BitVec.toNat_ofNat]; omega
  have nonzero : BitVec.ofNat 8 payload.length ≠ (0 : Byte) := fun h => by
    rw [h] at lenByte; exact absurd lenByte (by simp; omega)
  have collected : received = l.complete e ⟨.check, kind, payload.length, payload, body.foldl (· + ·) 0⟩
      (body.foldl (· + ·) 0 + check) := by
    have spelled : bytes = sentByte true kind :: sentByte false (BitVec.ofNat 8 payload.length) ::
        (payload.map (sentByte false) ++ [sentByte false check]) := by
      simp only [bytes, body, List.drop_succ_cons, List.drop_zero, List.cons_append, List.map_cons, List.map_append, List.map_nil]
      rfl
    have begins : l.receive e (sentByte true kind) = l.assembling (.start kind) := by
      rw [receive_sent free empty, takeByte_marked, hunt]; rfl
    have sizes : (l.assembling (.start kind)).receive e (sentByte false (BitVec.ofNat 8 payload.length)) =
        l.assembling ⟨.payload, kind, payload.length, [], kind + BitVec.ofNat 8 payload.length⟩ := by
      rw [receive_assembling free empty, takeByte_header rfl, if_neg (by omega), if_neg nonzero, lenByte]; rfl
    have collects : (payload.map (sentByte false)).foldl (fun l b => l.receive e b)
        (l.assembling ⟨.payload, kind, payload.length, [], kind + BitVec.ofNat 8 payload.length⟩) =
        l.assembling ⟨.check, kind, payload.length, payload, payload.foldl (· + ·) (kind + BitVec.ofNat 8 payload.length)⟩ :=
      foldl_receive_payload (e := e) payload.length payload []
      (l.assembling ⟨.payload, kind, payload.length, [], kind + BitVec.ofNat 8 payload.length⟩) _
      (by rintro rfl; exact absurd len.1 (by decide)) free empty (Nat.zero_add _) rfl
    simp only [received]
    rw [spelled, List.foldl_cons, begins, List.foldl_cons, sizes, List.foldl_append, collects, List.foldl_cons, List.foldl_nil,
      receive_assembling free empty, takeByte_check rfl]
    have zero : (0 : Byte) + kind = kind := by simp
    simp only [body, List.foldl_cons, zero]
    rfl
  have sum : body.foldl (· + ·) 0 + check = 0 ↔ check = checksumOf body := by
    unfold checksumOf
    generalize body.foldl (· + ·) 0 = n
    exact ⟨fun h => by bv_omega, fun h => by bv_omega⟩
  have same (l' : CarLine) (h : l'.assembly = ⟨.hunt, 0, 0, [], 0⟩) : { l' with assembly := .hunt } = l' := by
    cases l'; cases h; rfl
  refine ⟨fun h valid => ?_, fun h => ?_⟩
  · rw [collected, sum.mpr h, complete_good known valid]
    exact same { l with handover := some f } hunt
  · rw [collected, complete_bad fun zero g hg => ?_]
    · exact same l.countBad hunt
    · rw [known] at hg; cases hg
      exact h.resolve_left fun k => k (sum.mp zero)

/-! ## What frames are judged as (R20 to R22) -/

theorem statusRecord_eq (f : StatusFrame) : statusRecord e f =
    (let z := f.zone.toNat
     let known := z < 2 * e.landings - 1 ∧ z ≤ 14
     let length := if z % 2 = 0 then 2 * e.halfWidth
       else e.heights.getD (z / 2 + 1) 0 - e.heights.getD (z / 2) 0 - 2 * e.halfWidth
     (modeOf f.mode).map fun mode =>
      { mode := mode
        cause := causeOf f.cause
        load := if f.load = 65535 then none else some (min f.load.toNat (125 * e.ratedLoad / 100))
        zone := if known then some z else none
        offset := if known ∧ f.offset ≠ 65535 ∧ f.offset.toNat ≤ length then some f.offset.toNat else none
        gate := gateOf f.gate
        alarmCount := f.alarmCount.toNat
        driveAvailable := f.driveAvailable == 1 }) := by
  have top (x : BitVec 16) : x.toNat = 65535 ↔ x = 65535 := ⟨fun h => BitVec.eq_of_toNat_eq h, fun h => by rw [h]; rfl⟩
  have length : zoneLength e f.zone.toNat = if f.zone.toNat % 2 = 0 then 2 * e.halfWidth
      else e.heights.getD (f.zone.toNat / 2 + 1) 0 - e.heights.getD (f.zone.toNat / 2) 0 - 2 * e.halfWidth := by
    simp only [zoneLength, isLandingZone, beq_iff_eq]; rfl
  have load : treatLoad e f.load = if f.load = 65535 then none else some (min f.load.toNat (125 * e.ratedLoad / 100)) := by
    simp only [treatLoad, top]
  have offset : treatOffset e (treatZone e f.zone) f.offset =
      if (f.zone.toNat < 2 * e.landings - 1 ∧ f.zone.toNat ≤ 14) ∧ f.offset ≠ 65535 ∧ f.offset.toNat ≤ zoneLength e f.zone.toNat
      then some f.offset.toNat else none := by
    by_cases known : f.zone.toNat < 2 * e.landings - 1 ∧ f.zone.toNat ≤ 14
    · have zone : treatZone e f.zone = some f.zone.toNat := if_pos known
      rw [zone]
      simp only [treatOffset, Option.bind_some, top, known, and_self, true_and]
      by_cases absent : f.offset = 65535
      · simp [absent]
      · by_cases long : zoneLength e f.zone.toNat < f.offset.toNat
        · simp [long]
        · simp [long, not_lt.mp long]
    · have zone : treatZone e f.zone = none := if_neg known
      rw [zone, if_neg fun h => known h.1]; rfl
  rw [length] at offset
  simp only [statusRecord, load, offset]
  rfl

theorem exec_status_bad {f : StatusFrame} (on : s.powered = true)
    (h : statusRecord (s.entry c) f = none ∨ (f.driveAvailable ≠ 0 ∧ f.driveAvailable ≠ 1)) :
    exec (.status c f) s = .next (s.withPart (s.modLine c fun l => l.countBad.endHandover (s.entry c) (.status f))) := by
  have bad : frameValid (s.entry c) (.status f) = false := by
    rw [← Bool.not_eq_true, frameValid_status_iff, ← modeOf_isSome_iff]
    rintro ⟨mode, drive⟩
    rcases h with h | h
    · unfold statusRecord at h
      rw [Option.map_eq_none_iff] at h
      rw [h] at mode; cases mode
    · exact drive.elim h.1 h.2
  have hands (effect : Part → Part) : s.toPart.handOver c (.status f) effect =
      s.modLine c fun l => l.countBad.endHandover (s.entry c) (.status f) := by
    unfold Part.handOver
    rw [bad]
    exact modLine_modLine _ _ _ _
  show execStatus c f s = _
  unfold execStatus
  rw [runPart_powered on, hands, settleDemand_same (modLine_demand _ _ _)]
  rfl

/-- Settles O33: bytes by the state of the assembly, complete frames by kind, length and fields. -/
theorem framesJudged : Obligations.FramesJudged := by
  refine ⟨?_, fun e f => statusRecord_eq f, fun s c f on h => exec_status_bad on h⟩
  intro l e b mark free empty a got hunting bad begun
  have taken : got = l.takeByte e b mark := receive_sent free empty mark
  refine ⟨?_, ?_, ?_, ?_, ?_⟩
  · rintro rfl; exact taken.trans takeByte_marked
  · rintro rfl h; exact taken.trans (takeByte_hunt h)
  · rintro rfl h; exact taken.trans (takeByte_header h)
  · rintro rfl h; rw [taken, takeByte_payload h, List.length_append]; rfl
  · rintro rfl h
    rw [takeByte_check h] at taken
    refine ⟨fun sum => taken.trans (complete_bad fun zero => absurd zero sum), fun sum => ?_⟩
    rw [show l.assembly.sum + b = 0 from sum] at taken
    have judged {f : ControllerFrame} {k : Byte} {payload : List Byte} {p : Prop} [Decidable p]
        (kind : a.kind = k) (bytes : a.payload = payload) (spells : frameOf k payload = some f) (valid : frameValid e f = true ↔ p) :
        got = if p then { hunting with handover := some f } else bad hunting :=
      taken.trans (complete_of_frame (by rw [← spells, ← kind, ← bytes]) valid)
    refine ⟨fun other => ?_, fun mode cause l1 l0 zone o1 o0 gate alarms drive kind bytes => ?_, fun id kind bytes => ?_,
      fun id landing kind bytes => ?_, fun id reason kind bytes => ?_, fun landing gate kind bytes => ?_⟩
    · refine taken.trans (complete_bad fun _ f known => ?_)
      rw [frameOf_eq_none_iff.mpr fun size => other (receivedLength_eq_some_iff.mp size)] at known
      cases known
    · exact judged kind bytes rfl (frameValid_status_iff _)
    · exact (judged kind bytes rfl (p := True) (by simp [frameValid])).trans (if_pos trivial)
    · exact judged kind bytes rfl (by simp [frameValid])
    · exact (judged kind bytes rfl (p := True) (by simp [frameValid])).trans (if_pos trivial)
    · exact judged kind bytes rfl (by simp [frameValid])

end Sys2Proof.Machine
end

