-- ==== Sys2Proof/Proofs/Transmission.lean ====
section
/-!
PROOFS. The transmit queue with its overflow frame (R31 to R34), and the bits of a sent frame (R19, R191).
-/

namespace Sys2Proof.Machine

variable {s : State} {c : Car} {l : CarLine} {f g : PartFrame}

/-! ## The queue -/

theorem queueFull_iff : l.queueFull = true ↔ 4 ≤ l.queue.length := by simp [CarLine.queueFull]

theorem admitOverflow_of_space (h : l.queue.length < 4) :
    l.admitOverflow = { l with queue := l.queue ++ l.overflow.toList, overflow := none } := by
  have space : l.queueFull = false := by simp [CarLine.queueFull]; omega
  unfold CarLine.admitOverflow
  cases held : l.overflow with
  | some f => simp only [space]; rfl
  | none => cases l; cases held; simp

theorem startNext_of_free {rest : List PartFrame} (free : l.transmitting = none) (h : l.queue = g :: rest)
    (size : rest.length < 4) : l.startNext =
      { l with transmitting := some g, queue := rest ++ l.overflow.toList, overflow := none } := by
  unfold CarLine.startNext
  rw [free, h]
  exact admitOverflow_of_space size

theorem startNext_of_empty (h : l.queue = []) : l.startNext = l := by
  unfold CarLine.startNext; rw [h]; cases l.transmitting <;> rfl

theorem startNext_of_busy (h : l.transmitting.isSome = true) : l.startNext = l := by
  obtain ⟨x, hx⟩ := Option.isSome_iff_exists.mp h
  unfold CarLine.startNext; rw [hx]

/-- A frame that joins the tail of a queue with space, and is sent at once by a free transmitter (R31). -/
def CarLine.joined (l : CarLine) (f : PartFrame) : CarLine :=
  if l.transmitting.isSome then { l with queue := l.queue ++ [f] }
  else match l.queue with
    | [] => { l with transmitting := some f }
    | g :: rest => { l with transmitting := some g, queue := rest ++ [f] }

theorem startNext_joined (space : l.queue.length < 4) (none : l.overflow = none) :
    ({ l with queue := l.queue ++ [f] } : CarLine).startNext = l.joined f := by
  unfold CarLine.joined
  split
  · next busy => exact startNext_of_busy busy
  · next free =>
    have free : l.transmitting = Option.none := Option.not_isSome_iff_eq_none.mp free
    cases queue : l.queue with
    | nil =>
      refine (startNext_of_free (l := { l with queue := [f] }) free rfl (by decide)).trans ?_
      cases l; cases queue; cases none; rfl
    | cons g rest =>
      refine (startNext_of_free (l := { l with queue := g :: (rest ++ [f]) }) free rfl
        (by rw [queue] at space; simpa using space)).trans ?_
      cases l; cases queue; cases none; simp

theorem offer_of_space (space : l.queue.length < 4) (none : l.overflow = none) :
    l.offerCommand f = l.joined f ∧ l.offerRescueState f = l.joined f := by
  have notFull : l.queueFull = false := by simp [CarLine.queueFull]; omega
  refine ⟨Eq.trans (if_pos ?_) (startNext_joined space none), Eq.trans (if_neg ?_) (startNext_joined space none)⟩
  · simp [notFull, none]
  · simp [notFull, none]

theorem eraseP_of_first {p : PartFrame → Bool} {before after : List PartFrame} (h : p g = true) (k : ∀ x ∈ before, p x = false) :
    (before ++ g :: after).eraseP p = before ++ after ∧ (before ++ g :: after).any p = true := by
  refine ⟨?_, by simp [h]⟩
  rw [List.eraseP_append_right _ (by simpa using k), List.eraseP_cons_of_pos h]

theorem offerCommand_of_full (h : 4 ≤ l.queue.length ∨ l.overflow.isSome = true) : l.offerCommand f =
    if l.queue.any isRescueStateFrame then { l with queue := l.queue.eraseP isRescueStateFrame ++ [f] }
    else if l.overflow.isNone then { l with overflow := some f } else l := by
  unfold CarLine.offerCommand
  refine if_neg ?_
  rw [Bool.and_eq_true, Bool.not_eq_true', ← Bool.not_eq_true, queueFull_iff]
  rintro ⟨space, none⟩
  rcases h with h | h
  · exact space h
  · cases held : l.overflow <;> simp_all

/-- Settles O37: the transmit queue, offer by offer. -/
theorem transmitQueue : Obligations.TransmitQueue := by
  refine ⟨fun s c on size => ?_, fun l f space none => offer_of_space space none, fun l f full => ⟨?_, ?_, ?_⟩,
    fun l id => ⟨?_, ?_, ?_⟩⟩
  · refine ⟨(s.car c).line.endTransmission, ?_, fun h => startNext_of_empty h, fun f rest h => ?_⟩
    · exact (runPart_modLine on fun _ l => l.endTransmission).trans
        (congrArg (fun p => Host.Outcome.next (s.withPart p)) (Part.modCar_congr rfl))
    · refine startNext_of_free (l := { (s.car c).line with transmitting := none }) rfl h ?_
      rw [h] at size; simpa [Nat.lt_succ_iff] using size
  · refine if_pos ?_
    rw [Bool.or_eq_true, queueFull_iff]
    exact full
  · intro before g after h first others
    obtain ⟨erased, any⟩ := eraseP_of_first (after := after) first others
    rw [offerCommand_of_full full, h, erased, any]
    rfl
  · intro others
    rw [offerCommand_of_full full, if_neg (by simpa using others)]
    cases l.overflow <;> rfl
  · intro queued held
    unfold CarLine.offerCancel
    rw [if_neg (by simpa using queued), if_neg]
    cases h : l.overflow with
    | none => simp
    | some x => simp [held x h]
  · intro x queued held grant
    unfold CarLine.offerCancel
    rw [if_neg (by simpa using queued), if_pos (by simp [held, grant])]
  · intro before g after h first others size
    obtain ⟨erased, any⟩ := eraseP_of_first (after := after) first others
    unfold CarLine.offerCancel
    rw [h, erased, any, if_pos rfl]
    refine admitOverflow_of_space (l := { l with queue := before ++ after }) ?_
    rw [h] at size
    simp at size ⊢
    omega

/-! ## The wire -/

/-- Folding with exclusive or counts modulo 2. -/
theorem foldl_xor_eq (f : Nat → Bool) : ∀ (l : List Nat) (n : Nat), (l.map f).foldl xor (n % 2 == 1) =
    (l.foldl (fun n i => if f i then n + 1 else n) n % 2 == 1)
  | [], n => rfl
  | i :: l, n => by
    have step : xor (n % 2 == 1) (f i) = ((if f i then n + 1 else n) % 2 == 1) := by
      rcases Nat.mod_two_eq_zero_or_one n with h | h
      · cases f i <;> simp [h, Nat.add_mod]
      · cases f i <;> simp [h, Nat.add_mod]
    rw [List.map_cons, List.foldl_cons, step, foldl_xor_eq f l]
    rfl

/-- The parity bit of a sent byte is the exclusive or of the bits before it (R19). -/
theorem sentByte_parity (mark : Bool) (b : Byte) :
    (sentByte mark b).parity = (((List.range 8).map b.getLsbD) ++ [mark]).foldl xor false := by
  have ones : ((List.range 8).map b.getLsbD).foldl xor false = (onesOf b % 2 == 1) := foldl_xor_eq b.getLsbD (List.range 8) 0
  rw [List.foldl_append, ones]
  show ((onesOf b + mark.toNat) % 2 == 1) = xor (onesOf b % 2 == 1) mark
  rcases Nat.mod_two_eq_zero_or_one (onesOf b) with h | h
  · cases mark <;> simp [h, Nat.add_mod]
  · cases mark <;> simp [h, Nat.add_mod]

/-- The kind and the payload of a frame that the part sends (Table 28). -/
theorem framePayload_eq (f : PartFrame) : (frameKind f, framePayload f) =
    (match f with
      | .grant id d target cap speed => ((33, [BitVec.ofNat 8 id, if d = .up then 1 else 2, BitVec.ofNat 8 target,
          BitVec.ofNat 8 (cap / 256), BitVec.ofNat 8 cap, BitVec.ofNat 8 (speed / 256), BitVec.ofNat 8 speed]) : Byte × List Byte)
      | .cancel id => (34, [BitVec.ofNat 8 id])
      | .gateRelease landing => (35, [BitVec.ofNat 8 landing])
      | .rescueState state cause => (36, [BitVec.ofNat 8 (stateCode state), BitVec.ofNat 8 (heldCode cause)])) := by
  have one (n : Nat) : putNat 1 n = [BitVec.ofNat 8 n] := by simp [putNat]
  have two (n : Nat) : putNat 2 n = [BitVec.ofNat 8 (n / 256), BitVec.ofNat 8 n] := by simp [putNat]
  cases f with
  | grant id d target cap speed => simp only [framePayload, one, two]; cases d <;> rfl
  | cancel id => simp only [framePayload, one] <;> rfl
  | gateRelease landing => simp only [framePayload, one] <;> rfl
  | rescueState state cause => simp only [framePayload, one] <;> rfl

theorem sum_frameBytes (f : PartFrame) : frameKind f + BitVec.ofNat 8 (framePayload f).length +
    (framePayload f).foldl (· + ·) 0 + checksumOf (frameKind f :: BitVec.ofNat 8 (framePayload f).length :: framePayload f) = 0 := by
  have zero (b : Byte) : 0 + b = b := by simp
  have shift (a : Byte) (l : List Byte) : l.foldl (· + ·) a = a + l.foldl (· + ·) 0 := by
    have := List.foldl_assoc (op := (· + · : Byte → Byte → Byte)) (l := l) (a₁ := a) (a₂ := 0)
    simpa using this
  have total : (frameKind f :: BitVec.ofNat 8 (framePayload f).length :: framePayload f).foldl (· + ·) 0 =
      frameKind f + BitVec.ofNat 8 (framePayload f).length + (framePayload f).foldl (· + ·) 0 := by
    rw [List.foldl_cons, List.foldl_cons, zero, shift]
  have ends := sum_checksumOf (frameKind f :: BitVec.ofNat 8 (framePayload f).length :: framePayload f)
  rw [List.foldl_append, total] at ends
  exact ends

/-- Settles O38: the bytes of the frame in transmission, each as its twelve bits. -/
theorem sentBytes : Obligations.SentBytes := by
  intro l byte contents bits
  have bitsEq (mark : Bool) (b : Byte) : bitsOf (sentByte mark b) = bits mark b :=
    congrArg (fun x => false :: (List.map b.getLsbD (List.range 8) ++ [mark, x, true])) (sentByte_parity mark b)
  refine ⟨fun h => by unfold CarLine.wireBits CarLine.wire; rw [h]; rfl, fun f h => ?_⟩
  intro kind payload
  have fields : (frameKind f, framePayload f) = contents f := by
    rw [framePayload_eq]
    cases f with
    | rescueState state cause => simp only [stateCode_eq, heldCode_eq] <;> rfl
    | grant | cancel | gateRelease => rfl
  have kindEq : frameKind f = kind := congrArg Prod.fst fields
  have payloadEq : framePayload f = payload := congrArg Prod.snd fields
  refine ⟨checksumOf (kind :: byte payload.length :: payload), ?_, ?_⟩
  · rw [← kindEq, ← payloadEq]; exact sum_frameBytes f
  · have bytes : l.wire = sentByte true kind :: (byte payload.length :: (payload ++
        [checksumOf (kind :: byte payload.length :: payload)])).map (sentByte false) := by
      unfold CarLine.wire sentFrame frameBytes
      rw [h, ← kindEq, ← payloadEq]
      rfl
    unfold CarLine.wireBits
    rw [bytes, List.flatMap_cons, bitsEq, List.flatMap_map]
    exact congrArg (bits true kind ++ ·) (congrArg (List.flatMap · _) (funext (bitsEq false)))

end Sys2Proof.Machine
end

