-- ==== Sys2Proof/Proofs/Turns.lean ====
section
/-!
PROOFS. Events of one car: an event that touches one car and offers nothing is an update of that car's blocks, and a turn of a
car may be followed by an update of its blocks that leaves its state and its slots.
-/

namespace Sys2Proof.Machine

variable {p q : Part} {c : Car} {s : State} {l : List Notice} {b : CarBlock} {f g : CarBlock → CarBlock}

/-! ## Updates of one car -/

theorem KeepsRest.same (h : KeepsRest p q) (k : KeepsPlans p q) (station : q.station = p.station) (panel : q.panel = p.panel) :
    q = { p with cars := q.cars } := by
  obtain ⟨h1, h2, h3, h4, h5, h6, h7, h8, h9, h10, h11, -, -⟩ := h
  obtain ⟨k1, k2, k3⟩ := k
  cases p; cases q
  subst h1 h2 h3 h4 h5 h6 h7 h8 h9 h10 h11 k1 k2 k3 station panel
  rfl

/-- What touches one car and offers nothing is an update of that car. -/
theorem TouchesOnly.eq_modCar (h : TouchesOnly c p q) (station : q.station = p.station) (panel : q.panel = p.panel)
    (own : q.car c = f (p.car c)) : q = p.modCar c f := by
  have cars : q.cars = (p.modCar c f).cars := Part.cars_ext fun d => by
    by_cases hd : d = c
    · subst hd; simpa using own
    · simp [hd, h.cars d hd]
  rw [h.rest.same h.plans station panel, cars]
  rfl

theorem judgeStall_eq (p : Part) (c : Car) : p.judgeStall c = p.modCar c (·.judged p.globals) :=
  (touchesOnly_judgeStall p c).eq_modCar (Part.judgeStall_ports p c).1 (Part.judgeStall_ports p c).2 (p.judgeStall_own c)

theorem toNormal_eq (h : isMoveState (p.stateOf c) = false) :
    p.toNormal c = p.modCar c fun b => (b.returned p.globals).judged p.globals :=
  (touchesOnly_toNormal p c).eq_modCar (Part.toNormal_ports p c).1 (Part.toNormal_ports p c).2 (Part.toNormal_own h)

/-! ## Demand -/

theorem modCar_demand (h : isDemandState (f (p.car c)).record.state = isDemandState (p.stateOf c)) :
    (p.modCar c f).demand = p.demand :=
  demand_congr fun d => by
    by_cases hd : d = c
    · subst hd; simpa [Part.stateOf] using h
    · simp [Part.stateOf, hd]

/-- The judging of the stall condition moves a car between NORMAL and CONFIRMING alone, which make no demand (R53, R146). -/
theorem CarBlock.judged_isDemandState (b : CarBlock) (g : Globals) :
    isDemandState (b.judged g).record.state = isDemandState b.record.state := by
  unfold CarBlock.judged
  split
  · next h => rw [h.1]; rfl
  · split
    · next h => rw [h.1]; rfl
    · rfl

theorem CarBlock.judged_state_ne (b : CarBlock) (g : Globals) (h : b.record.state ≠ .normal) (k : b.record.state ≠ .confirming) :
    b.judged g = b := by unfold CarBlock.judged; rw [if_neg fun x => h x.1, if_neg fun x => k x.1]

/-- A command that updates one car and leaves demand. -/
theorem runPart_modCar {go : Part → Part} (on : s.powered = true) (e : go s.toPart = s.modCar c f)
    (d : isDemandState (f (s.car c)).record.state = isDemandState (s.stateOf c)) :
    runPart s go = .next (s.withPart (s.modCar c f)) := by
  rw [runPart_powered on, e, settleDemand_same (modCar_demand d)]
  rfl

/-! ## A turn and what follows it -/

theorem alike_handedOn {b' : CarBlock} (state : b'.record.state = b.record.state) (slots : b'.slots = b.slots)
    (ready : b.record.state ≠ .ready) : Alike c [] (p.handedOn c b') (p.handedOn c b) := by
  have same : Alike c [] (p.modCar c fun _ => b') (p.modCar c fun _ => b) := by
    refine ⟨rfl, rfl, fun d hd => by simp [hd], by simpa using slots, fun port => by cases port <;> rfl, fun port n => ?_⟩
    have : ((p.modCar c fun _ => b').port port) = (p.modCar c fun _ => b).port port := by cases port <;> rfl
    rw [this]; simp
  unfold Part.handedOn
  rw [state]
  dsimp only
  split
  · exact same.select (by simpa [Part.stateOf, state] using ready) (by simpa [Part.stateOf] using ready)
  · exact same

/-- A turn of a car stands when its blocks are then updated in what the Arbiter does not read. -/
theorem CarTurn.modCar (t : CarTurn c l p q) (state : (f (q.car c)).record.state = (q.car c).record.state)
    (slots : (f (q.car c)).slots = (q.car c).slots) (ready : q.stateOf c ≠ .ready) : CarTurn c l p (q.modCar c f) := by
  have own : (q.modCar c f).car c = f (q.car c) := by simp
  have alike : Alike c [] (p.handedOn c (f (q.car c))) (p.handedOn c (q.car c)) := alike_handedOn state slots ready
  refine ⟨t.rest.trans (keepsRest_modCar q c f), fun d hd => ?_, t.supply, fun port n => ?_⟩
  · rw [own, alike.cars d hd, ← t.cars d hd]; simp [hd]
  · have ports : (q.modCar c f).port port = q.port port := by cases port <;> rfl
    rw [own, ports, t.notices port n, alike.notices port n]; simp

end Sys2Proof.Machine
end

