-- ==== Sys2Proof/Proofs/Levels.lean ====
section
/-!
PROOFS. The level inputs (R36 to R38): raw changes, first acceptances, and what an acceptance hands on.
-/

namespace Sys2Proof.Machine

variable {s : State} {c : Car} {p : Part} {input : LevelInput} {level : Bool}

theorem setFilter_demand (p : Part) (i : LevelInput) (f : LevelFilter) : (p.setFilter i f).demand = p.demand := by
  cases i with
  | zone c => exact modCar_demand rfl
  | chain c => exact modCar_demand rfl
  | lockout c => exact modCar_demand rfl
  | mains => rfl
  | converter => rfl

/-- A command that leaves the part leaves the machine. -/
theorem runPart_idle {f : Part → Part} (on : s.powered = true) (h : f s.toPart = s.toPart) : runPart s f = .next s := by
  rw [runPart_powered on, h, settleDemand_same rfl]

theorem runPart_setFilter {f : Part → Part} {l : LevelFilter} (on : s.powered = true)
    (h : f s.toPart = s.toPart.setFilter input l) : runPart s f = .next (s.withPart (s.setFilter input l)) := by
  rw [runPart_powered on, h, settleDemand_same (setFilter_demand _ _ _)]
  rfl

/-! ## Acceptances -/

theorem acceptLevel_first {changed : Part → Part} (h : (p.filter input).accepted = none) :
    p.acceptLevel input level changed = (p.setFilter input ⟨level, some level, none⟩).firstAccepted input level := by
  unfold Part.acceptLevel; rw [h]

/-- A level that is accepted already is accepted silently (log 5). -/
theorem acceptLevel_repeated {changed : Part → Part} (h : (p.filter input).accepted = some level) :
    p.acceptLevel input level changed = p.setFilter input ⟨level, some level, none⟩ := by
  unfold Part.acceptLevel; rw [h]; exact if_pos rfl

theorem acceptLevel_changed {changed : Part → Part} (h : (p.filter input).accepted = some (!level)) :
    p.acceptLevel input level changed = changed (p.setFilter input ⟨level, some level, none⟩) := by
  unfold Part.acceptLevel; rw [h]; exact if_neg (by cases level <;> decide)

theorem execFirstLevelAcceptance_first (on : s.powered = true) (h : (s.filter input).accepted = none) :
    execFirstLevelAcceptance input level s = .next (s.withPart (settleDemand s.toPart
      ((s.setFilter input ⟨level, some level, none⟩).firstAccepted input level))) := by
  unfold execFirstLevelAcceptance
  rw [runPart_powered on]
  dsimp only
  rw [if_pos (by rw [h]; rfl), acceptLevel_first h]
  rfl

/-- Settles O39: the filter by the candidate, the acceptances by what the input reads. -/
theorem levelsFiltered : Obligations.LevelsFiltered := by
  intro s input level c on set
  refine ⟨fun other => ?_, fun same => ?_, fun read => ?_, fun unread quiet => ?_, fun unread zone => ?_, fun chain => ?_,
    fun zone read => ?_⟩
  · exact runPart_setFilter on (if_neg other)
  · exact runPart_idle on (if_pos same)
  · refine runPart_idle on (if_neg ?_)
    rw [Option.isNone_iff_eq_none]; intro none; rw [none] at read; cases read
  · refine (execFirstLevelAcceptance_first on unread).trans ?_
    rcases quiet with rfl | rfl
    · exact congrArg (fun p => Host.Outcome.next (s.withPart p)) (settleDemand_same (setFilter_demand _ _ _))
    · exact congrArg (fun p => Host.Outcome.next (s.withPart p)) (settleDemand_same (setFilter_demand _ _ _))
  · subst zone
    refine runPart_modCar on ?_ (CarBlock.judged_isDemandState _ _)
    have first : (s.setFilter (.zone c) ⟨level, some level, none⟩).firstAccepted (.zone c) level =
        (s.modCar c (·.withZone ⟨level, some level, none⟩)).judgeStall c := rfl
    dsimp only
    rw [if_pos (by rw [unread]; rfl), acceptLevel_first unread, first, judgeStall_eq, Part.modCar_modCar]
    exact Part.modCar_congr rfl
  · subst chain
    refine runPart_setFilter on ?_
    show s.toPart.acceptLevel (.chain c) true id = _
    cases read : (s.filter (.chain c)).accepted with
    | none => exact acceptLevel_first read
    | some old => cases old with
      | true => exact acceptLevel_repeated read
      | false => exact acceptLevel_changed read
  · subst zone
    refine runPart_setFilter on ?_
    have kind : ((if level then EdgeKind.enter else .leave) == EdgeKind.enter) = level := by cases level <;> rfl
    rw [kind]
    exact acceptLevel_repeated read

end Sys2Proof.Machine
end

