-- ==== Sys2Proof/Proofs/ZoneEdges.lean ====
section
/-!
PROOFS. Zone edges outside the move states (R46), in them (R44, R45), and the ENTER edge that levels a car (R62).
-/

namespace Sys2Proof.Machine

variable {p q : Part} {c : Car} {s : State} {b : CarBlock} {g : Globals} {kind : EdgeKind} {f : CarBlock → CarBlock} {l : List Notice}

/-! ## What clearing D leaves -/

/-- The blocks of a car with D at 0 (R41). -/
def CarBlock.unmoved (b : CarBlock) : CarBlock := { b with inputs := { b.inputs with odometry := 0 } }

theorem clearOdometry_eq (p : Part) (c : Car) : p.clearOdometry c = p.modCar c (·.unmoved) := rfl

theorem judged_unmoved (b : CarBlock) (g : Globals) : (b.judged g).unmoved = b.unmoved.judged g := by
  unfold CarBlock.judged
  have stalled : b.unmoved.stalled = b.stalled := rfl
  rw [stalled]
  split
  · next h => exact (if_pos h).symm
  · next h =>
    refine Eq.trans ?_ (if_neg h).symm
    split
    · next k => exact (if_pos k).symm
    · next k => exact (if_neg k).symm

theorem assessed_unmoved (b : CarBlock) (g : Globals) : (b.assessed g).unmoved = b.unmoved.assessed g := rfl

theorem failed_unmoved (b : CarBlock) (g : Globals) (cause : AbortCause) :
    (b.failed g cause).unmoved = b.unmoved.failed g cause := rfl

/-- A snapshot stands when a car is updated in what it does not hold (R126). -/
theorem passOf_modCar (figures : (q.modCar c f).figures c = q.figures c)
    (state : (f (q.car c)).record.state = (q.car c).record.state)
    (held : (f (q.car c)).record.heldCause = (q.car c).record.heldCause) (kind : PassKind) :
    (q.modCar c f).passOf kind = q.passOf kind := by
  have figuresAll : (q.modCar c f).figures = q.figures := by
    funext d
    by_cases hd : d = c
    · subst hd; exact figures
    · have car : (q.modCar c f).car d = q.car d := by simp [hd]
      simp only [Part.figures, car, Part.modCar_entry, Part.modCar_globals]
  have states (d : Car) : (q.modCar c f).stateOf d = q.stateOf d := by
    unfold Part.stateOf
    by_cases hd : d = c
    · subst hd; simpa using state
    · simp [hd]
  have causes (d : Car) : ((q.modCar c f).car d).record.heldCause = (q.car d).record.heldCause := by
    by_cases hd : d = c
    · subst hd; simpa using held
    · simp [hd]
  unfold Part.passOf
  rw [figuresAll]
  simp only [states, causes]
  rfl

theorem PassAsked.modCar (h : PassAsked p q) (figures : (q.modCar c f).figures c = q.figures c)
    (state : (f (q.car c)).record.state = (q.car c).record.state)
    (held : (f (q.car c)).record.heldCause = (q.car c).record.heldCause) : PassAsked p (q.modCar c f) := by
  unfold PassAsked at h ⊢
  rw [passOf_modCar figures state held]
  exact h

/-- D is not read by the planning view of a tracker without an anchor (R99). -/
theorem figures_unmoved (h : (q.car c).tracker.anchor = .none) : (q.modCar c (·.unmoved)).figures c = q.figures c := by
  have view (d : Int) : planningView (q.entry c) q.globals (q.car c).tracker (q.car c).inputs.zone.accepted d =
      planningView (q.entry c) q.globals (q.car c).tracker (q.car c).inputs.zone.accepted 0 := by
    unfold planningView; simp only [h, rawSpanOffset]
  have own : (q.modCar c (·.unmoved)).car c = (q.car c).unmoved := by simp
  simp only [Part.figures, own, Part.modCar_entry, Part.modCar_globals]
  rw [view (countToMm _ (q.car c).inputs.odometry)]
  exact congrArg _ (view _)

/-! ## An edge outside the move states -/

/-- The blocks of a car with its zone level accepted and its tracker disturbed (R46). -/
def CarBlock.disturbed (b : CarBlock) (level : Bool) : CarBlock :=
  { b.withZone ⟨level, some level, none⟩ with tracker := trackerDisturb b.tracker }

theorem execZoneEdge_changed (on : s.powered = true) (h : (s.car c).inputs.zone.accepted = some (kind == .leave)) :
    execZoneEdge c kind s = .next (s.withPart (settleDemand s.toPart
      (if isMoveState (s.stateOf c) then (s.modCar c (·.withZone ⟨kind == .enter, some (kind == .enter), none⟩)).edgeInMove c kind
       else (s.modCar c (·.withZone ⟨kind == .enter, some (kind == .enter), none⟩)).edgeAtRest c kind))) := by
  have other : (s.filter (.zone c)).accepted = some (!(kind == .enter)) := h.trans (by cases kind <;> rfl)
  unfold execZoneEdge
  rw [runPart_powered on]
  dsimp only
  rw [acceptLevel_changed other, Part.setFilter_zone_eq]
  have state : (s.toPart.modCar c (·.withZone ⟨kind == .enter, some (kind == .enter), none⟩)).stateOf c = s.stateOf c := by
    simp [Part.stateOf, CarBlock.withZone]
  rw [state]
  rfl

theorem edgeAtRest_eq (p : Part) (c : Car) (kind : EdgeKind) (level : Bool) :
    (p.modCar c (·.withZone ⟨level, some level, none⟩)).edgeAtRest c kind =
      ((p.modCar c (·.disturbed level)).zoneLevelEvent c kind).clearOdometry c := by
  unfold Part.edgeAtRest
  rw [show (p.modCar c (·.withZone ⟨level, some level, none⟩)).disturb c = p.modCar c (·.disturbed level) from
    Part.modCar_modCar (f := (·.withZone ⟨level, some level, none⟩)) (g := fun b => { b with tracker := trackerDisturb b.tracker })]

theorem failedFrom_eq (h : isMoveState b.record.state = false) (k : b.record.state ≠ .failed) (cause : AbortCause) :
    b.failedFrom g cause = b.failed g cause := by
  have brake : isBrakeState b.record.state = false := by
    revert h; cases b.record.state <;> decide
  have moved := b.moved_eq g .failed none rfl fun e => absurd e.symm k
  rw [CarSlots.releaseFor_rest _ h, brake] at moved
  unfold CarBlock.failed CarBlock.failedFrom
  rw [moved]
  rfl

theorem settleDemand_modCar (d : isDemandState (f (p.car c)).record.state = isDemandState (p.stateOf c)) :
    settleDemand p (p.modCar c f) = p.modCar c f := settleDemand_same (modCar_demand d)

theorem disturbed_state (p : Part) (c : Car) (level : Bool) : (p.modCar c (·.disturbed level)).stateOf c = p.stateOf c := by
  simp [Part.stateOf, CarBlock.disturbed, CarBlock.withZone]

/-- What comes before the change of a car at rest: its zone level and its disturbed tracker. -/
theorem prelude_disturbed (p : Part) (c : Car) (level : Bool) : Prelude c [] p (p.modCar c (·.disturbed level)) :=
  ⟨touchesOnly_modCar p c _, disturbed_state p c level, .of_eq rfl rfl⟩

theorem assessedPass_unmoved (h : b.AssessedPass p q) (k : (q.car c).tracker.anchor = .none) :
    b.AssessedPass p (q.clearOdometry c) := by
  rw [clearOdometry_eq]
  exact h.imp id fun asked => asked.modCar (figures_unmoved k) rfl rfl

/-- A READY car at rest goes back to ASSESSING (R58). -/
theorem edgeAtRest_ready (hs : p.stateOf c = .ready) (level : Bool) :
    let q := ((p.modCar c (·.disturbed level)).change c (·.toAssessing c)).clearOdometry c
    CarEvent c ((p.car c).assessedNotices c) p (settleDemand p q) ∧
      (settleDemand p q).car c = ((p.car c).disturbed level).unmoved.assessed p.globals ∧
      (p.car c).AssessedPass p (settleDemand p q) := by
  obtain ⟨turn, own, pass⟩ := carTurn_toAssessing (prelude_disturbed p c level)
  have block : (p.modCar c (·.disturbed level)).car c = (p.car c).disturbed level := by simp
  rw [block] at turn own pass
  have state : ((p.modCar c (·.disturbed level)).change c (·.toAssessing c)).stateOf c =
      ((p.car c).disturbed level).assessedState.1 := by unfold Part.stateOf; rw [own]; rfl
  obtain ⟨moves, ready, -⟩ := ((p.car c).disturbed level).assessedState_rest
  have cleared := turn.modCar (f := (·.unmoved)) rfl rfl (by rw [state]; exact ready)
  obtain ⟨event, car, kept, asked⟩ := cleared.event (by
    intro _; rw [hs]; rfl)
  refine ⟨event, car.trans ?_, (assessedPass_unmoved pass (by rw [own]; rfl)).imp kept asked⟩
  rw [Part.modCar_car, if_pos rfl, own, assessed_unmoved]
  rfl

/-- A car in RELEASING that leaves its zone fails (R66). -/
theorem edgeAtRest_releasing (hs : p.stateOf c = .releasing) (level : Bool) :
    let q := ((p.modCar c (·.disturbed level)).toFailed c .stopOutsideZone).clearOdometry c
    CarEvent c [⟨.carFailed, some c⟩] p (settleDemand p q) ∧
      (settleDemand p q).car c = ((p.car c).disturbed level).unmoved.failed p.globals .stopOutsideZone ∧
      PassKept p (settleDemand p q) := by
  have touches : TouchesOnly c p ((p.modCar c (·.disturbed level)).toFailed c .stopOutsideZone) :=
    (touchesOnly_modCar p c _).trans (touchesOnly_toFailed _ c _)
  have offers : Offers [⟨.carFailed, some c⟩] p ((p.modCar c (·.disturbed level)).toFailed c .stopOutsideZone) :=
    (offers_toFailed (p.modCar c (·.disturbed level)) c _).of_ports rfl rfl rfl rfl
  have state : ((p.car c).disturbed level).record.state = .releasing := hs
  have own : ((p.modCar c (·.disturbed level)).toFailed c .stopOutsideZone).car c =
      ((p.car c).disturbed level).failed p.globals .stopOutsideZone := by
    rw [Part.toFailed_own, Part.modCar_car, if_pos rfl, failedFrom_eq (by rw [state]; rfl) (by rw [state]; decide)]
    rfl
  have turn := touches.turn offers (by rw [hs]; intro h; cases h)
  have failed : ((p.modCar c (·.disturbed level)).toFailed c .stopOutsideZone).stateOf c = .failed := by
    unfold Part.stateOf; rw [own]; rfl
  have cleared := turn.modCar (f := (·.unmoved)) rfl rfl (by rw [failed]; decide)
  obtain ⟨event, car, kept, -⟩ := cleared.event (by
    rw [show (Part.modCar _ c (·.unmoved)).stateOf c = .failed by
      unfold Part.stateOf; rw [Part.modCar_car, if_pos rfl, own]; rfl]
    intro h; cases h)
  refine ⟨event, car.trans ?_, kept touches.passKept⟩
  rw [Part.modCar_car, if_pos rfl, own, failed_unmoved]

/-- Settles O40: an edge outside the move states, state by state. -/
theorem edgeAtRest : Obligations.EdgeAtRest := by
  intro s c kind on read rest b level disturbed
  have run := execZoneEdge_changed on read
  rw [if_neg (by rw [rest]; decide), edgeAtRest_eq] at run
  have state : (s.toPart.modCar c (·.disturbed level)).stateOf c = s.stateOf c := disturbed_state _ c level
  refine ⟨_, run, fun hs => ?_, fun hs => ?_, fun hs => ?_, fun hs => ?_, fun hs leaves => ?_⟩
  · have event : (s.toPart.modCar c (·.disturbed level)).zoneLevelEvent c kind = (s.toPart.modCar c (·.disturbed level)).judgeStall c := by
      unfold Part.zoneLevelEvent; rw [state]; rcases hs with h | h <;> rw [h]
    rw [event, judgeStall_eq, clearOdometry_eq, Part.modCar_modCar, Part.modCar_modCar,
      settleDemand_modCar (CarBlock.judged_isDemandState _ _)]
    exact congrArg s.withPart (Part.modCar_congr (judged_unmoved _ _))
  · have event : (s.toPart.modCar c (·.disturbed level)).zoneLevelEvent c kind = s.toPart.modCar c (·.disturbed level) := by
      unfold Part.zoneLevelEvent; rw [state]; rcases hs with h | h | h | h | h <;> rw [h]
    rw [event, clearOdometry_eq, Part.modCar_modCar, settleDemand_modCar rfl]
    exact congrArg s.withPart (Part.modCar_congr rfl)
  · have event : (s.toPart.modCar c (·.disturbed level)).zoneLevelEvent c kind =
        (s.toPart.modCar c (·.disturbed level)).askPass .requested := by
      unfold Part.zoneLevelEvent; rw [state, hs]
    have asked : PassAsked s.toPart ((s.toPart.modCar c (·.disturbed level)).askPass .requested) :=
      (passAsked_askPass _).of_kept (q := s.toPart.modCar c (·.disturbed level)) ⟨rfl, rfl⟩
    have car (d : Car) := Part.askPass_requested_car (s.toPart.modCar c (·.disturbed level)) d
    have demand : (((s.toPart.modCar c (·.disturbed level)).askPass .requested).modCar c (·.unmoved)).demand = s.demand :=
      demand_congr fun d => by
        unfold Part.stateOf
        by_cases hd : d = c
        · subst hd; simp [CarBlock.unmoved, CarBlock.disturbed, CarBlock.withZone]
        · simp [hd]
    rw [event, clearOdometry_eq, settleDemand_same demand]
    refine ⟨?_, ⟨?_, fun d hd => ?_, ?_, ?_⟩, asked.modCar (figures_unmoved (by rw [car]; simp [CarBlock.disturbed]; rfl)) rfl rfl⟩
    · simp only [State.withPart, Part.modCar_car, if_true, car]; rfl
    · exact (keepsRest_modCar _ _ _).trans ((keepsRest_askPass_requested _).trans (keepsRest_modCar _ _ _))
    · simp [State.withPart, hd]
    · exact Part.askPass_requested_supply _
    · exact Part.askPass_requested_ports _
  · have event : (s.toPart.modCar c (·.disturbed level)).zoneLevelEvent c kind =
        (s.toPart.modCar c (·.disturbed level)).change c (·.toAssessing c) := by
      unfold Part.zoneLevelEvent; rw [state, hs]
    rw [event]
    obtain ⟨frame, own, pass⟩ := edgeAtRest_ready hs level
    exact ⟨own, frame, pass⟩
  · have event : (s.toPart.modCar c (·.disturbed level)).zoneLevelEvent c kind =
        (s.toPart.modCar c (·.disturbed level)).toFailed c .stopOutsideZone := by
      unfold Part.zoneLevelEvent; rw [state, hs]; exact if_pos leaves
    rw [event]
    obtain ⟨frame, own, pass⟩ := edgeAtRest_releasing hs level
    exact ⟨own, frame, pass⟩

end Sys2Proof.Machine
end

