-- ==== Sys2Proof/Proofs/MoveEdges.lean ====
section
/-!
PROOFS. Zone edges in the move states (R44, R45), and the ENTER edge that levels a car (R45, R62).
-/

namespace Sys2Proof.Machine

variable {p q : Part} {c : Car} {s : State} {b : CarBlock} {kind : EdgeKind} {d : Option Dir} {l : List Notice}

/-- The direction of an edge in a move state (R44). -/
theorem edgeDirection_eq (h : isMoveState b.record.state = true) : edgeDirection b =
    if b.record.state = .probing then
      (if 0 < b.inputs.move.travel then some .up else if b.inputs.move.travel < 0 then some .down else b.inputs.move.lastStep)
    else b.inputs.move.dir := by
  unfold edgeDirection signDir
  cases state : b.record.state <;> simp [state, isMoveState] at h ⊢
  by_cases up : 0 < b.inputs.move.travel
  · simp [up]
  · by_cases down : b.inputs.move.travel < 0 <;> simp [up, down]

/-! ## What an edge makes of the tracker -/

/-- The tracker that an edge leaves, and whether every hypothesis is dead: an update in a direction, a disturbance without
one (R45, R46, R91). -/
def edgeTracker (e : CarEntry) (g : Globals) (t : Tracker) (kind : EdgeKind) (d : Option Dir) (mm : Nat) : Tracker × Bool :=
  match d with
  | some d => trackerUpdate e g t kind d mm
  | none => (trackerDisturb t, false)

/-- The part with the tracker that an edge leaves, and the pair it raises (R45, R91). -/
def Part.tracked (p : Part) (c : Car) (kind : EdgeKind) (d : Option Dir) : Part :=
  match d with
  | some d => p.updateTracker c kind d
  | none => p.disturb c

/-- What an edge makes of the tracker of a car. -/
def Part.edgeResult (p : Part) (c : Car) (kind : EdgeKind) (d : Option Dir) : Tracker × Bool :=
  edgeTracker (p.entry c) p.globals (p.car c).tracker kind d (p.distanceMm c).natAbs

/-- The pair that an edge raises: POSITION_LOST where every hypothesis is dead (R91). -/
def lostNotices (c : Car) (dead : Bool) : List Notice := if dead then [⟨.positionLost, some c⟩] else []

/-- The part with the tracker of car c replaced. -/
def Part.withTracker (p : Part) (c : Car) (t : Tracker) : Part := p.modTracker c fun _ => t

theorem tracked_eq : p.tracked c kind d = if (p.edgeResult c kind d).2 = true then
      (p.withTracker c (p.edgeResult c kind d).1).raiseCar .positionLost c
    else p.withTracker c (p.edgeResult c kind d).1 := by
  cases d with
  | none => rfl
  | some d => rfl

theorem withTracker_own (t : Tracker) : (p.withTracker c t).car c = { p.car c with tracker := t } :=
  (p.modCar_car c c _).trans (if_pos rfl)

theorem tracked_own : (p.tracked c kind d).car c = { p.car c with tracker := (p.edgeResult c kind d).1 } := by
  rw [tracked_eq]; split
  · rw [Part.raiseCar_own, withTracker_own]
  · rw [withTracker_own]

theorem touchesOnly_tracked : TouchesOnly c p (p.tracked c kind d) := by
  rw [tracked_eq]; split
  · exact (touchesOnly_modTracker p c _).trans (touchesOnly_raiseCar _ c _ c)
  · exact touchesOnly_modTracker p c _

theorem offers_tracked : Offers (lostNotices c (p.edgeResult c kind d).2) p (p.tracked c kind d) := by
  rw [tracked_eq]; unfold lostNotices; split
  · exact (offers_raise _ _).of_ports rfl rfl rfl rfl
  · exact .of_eq rfl rfl

/-- What comes before: the zone level accepted and the tracker as the edge leaves it. -/
def Part.edged (p : Part) (c : Car) (kind : EdgeKind) (d : Option Dir) : Part :=
  (p.modCar c (·.withZone ⟨kind == .enter, some (kind == .enter), none⟩)).tracked c kind d

theorem edgeResult_withZone (p : Part) (c : Car) (x : LevelFilter) (kind : EdgeKind) (d : Option Dir) :
    (p.modCar c (·.withZone x)).edgeResult c kind d = p.edgeResult c kind d := by
  have own : (p.modCar c (·.withZone x)).car c = (p.car c).withZone x := by simp
  simp only [Part.edgeResult, Part.distanceMm, own, Part.modCar_entry, Part.modCar_globals]
  rfl

theorem edged_own : (p.edged c kind d).car c =
    { (p.car c).withZone ⟨kind == .enter, some (kind == .enter), none⟩ with tracker := (p.edgeResult c kind d).1 } := by
  rw [Part.edged, tracked_own, edgeResult_withZone, Part.modCar_car, if_pos rfl]

theorem prelude_edged : Prelude c (lostNotices c (p.edgeResult c kind d).2) p (p.edged c kind d) := by
  refine ⟨(touchesOnly_modCar p c _).trans touchesOnly_tracked, ?_, ?_⟩
  · unfold Part.stateOf; rw [edged_own]; rfl
  · rw [← edgeResult_withZone p c ⟨kind == .enter, some (kind == .enter), none⟩]
    exact (offers_tracked (p := p.modCar c (·.withZone ⟨kind == .enter, some (kind == .enter), none⟩))).of_ports rfl rfl rfl rfl

theorem edgeInMove_eq :
    (p.modCar c (·.withZone ⟨kind == .enter, some (kind == .enter), none⟩)).edgeInMove c kind =
      (let d := edgeDirection (p.car c)
       (if kind = .enter ∧ isBrakeState (p.stateOf c) = true then (p.edged c kind d).landByEdge c d
        else p.edged c kind d).clearOdometry c) := by
  have direction : edgeDirection ((p.modCar c (·.withZone ⟨kind == .enter, some (kind == .enter), none⟩)).car c) =
      edgeDirection (p.car c) := by
    rw [Part.modCar_car, if_pos rfl]; rfl
  have state := (prelude_edged (p := p) (c := c) (kind := kind) (d := edgeDirection (p.car c))).state
  unfold Part.edgeInMove
  rw [direction]
  dsimp only
  rw [← state]
  rfl

theorem execZoneEdge_moving (on : s.powered = true) (h : (s.car c).inputs.zone.accepted = some (kind == .leave))
    (moves : isMoveState (s.stateOf c) = true) : execZoneEdge c kind s = .next (s.withPart (settleDemand s.toPart
      (let d := edgeDirection (s.car c)
       (if kind = .enter ∧ isBrakeState (s.stateOf c) = true then (s.edged c kind d).landByEdge c d
        else s.edged c kind d).clearOdometry c))) := by
  rw [execZoneEdge_changed on h, if_pos moves, edgeInMove_eq]

theorem PassKept.modCar (h : PassKept p q) (c : Car) (f : CarBlock → CarBlock) : PassKept p (q.modCar c f) := h

/-- Clearing D after a turn leaves it a turn (R41). -/
theorem CarTurn.unmoved (t : CarTurn c l p q) (ready : q.stateOf c ≠ .ready) : CarTurn c l p (q.modCar c (·.unmoved)) :=
  t.modCar (f := (·.unmoved)) rfl rfl ready

/-- Settles O41: the direction by the state, the tracker by the direction; the car stays in its state. -/
theorem edgeInMove : Obligations.EdgeInMove := by
  intro s c kind on read moves plain b level dir mm after tracker
  have dirEq : edgeDirection (s.car c) = dir := edgeDirection_eq moves
  have result : s.toPart.edgeResult c kind dir = (tracker, after.any (·.2)) := by
    simp only [tracker, after]
    cases dir <;> rfl
  have stays : ¬(kind = .enter ∧ isBrakeState (s.stateOf c) = true) := by
    rintro ⟨enter, brake⟩
    refine plain ⟨enter, ?_⟩
    revert brake; cases s.stateOf c <;> decide
  have run := execZoneEdge_moving on read moves
  dsimp only at run
  rw [if_neg stays, dirEq, clearOdometry_eq] at run
  have pre := prelude_edged (p := s.toPart) (c := c) (kind := kind) (d := dir)
  have turn := pre.touches.turn pre.offers fun _ => pre.state
  rw [result] at turn
  have ready : (s.toPart.edged c kind dir).stateOf c ≠ .ready := by
    rw [pre.state]; intro e; rw [e] at moves; cases moves
  have cleared := turn.unmoved ready
  have demand : ((s.toPart.edged c kind dir).modCar c (·.unmoved)).demand = s.demand :=
    (modCar_demand rfl).trans (pre.touches.demand (by rw [pre.state]))
  have state : ((s.toPart.edged c kind dir).modCar c (·.unmoved)).stateOf c = s.stateOf c := by
    rw [← pre.state]; unfold Part.stateOf; rw [Part.modCar_car, if_pos rfl]; rfl
  obtain ⟨event, -, -, -⟩ := cleared.event (by rw [state]; exact id)
  rw [settleDemand_same demand] at run event
  refine ⟨_, run, ?_, event, pre.touches.passKept, fun d hd => ?_⟩
  · show ((s.toPart.edged c kind dir).modCar c (·.unmoved)).car c = _
    rw [Part.modCar_car, if_pos rfl, edged_own, result]
    rfl
  · show ((s.toPart.edged c kind dir).modCar c (·.unmoved)).car d = _
    rw [Part.modCar_car, if_neg hd]
    exact pre.touches.cars d hd

/-! ## The ENTER edge that levels a car -/

theorem CarBrake.close_close (x : CarBrake) : x.close.close = x.close := by
  have shut : x.close.anyOpen = false := by simp
  generalize x.close = y at shut ⊢
  unfold CarBrake.close; rw [shut]; rfl

/-- The blocks of a car as an ENTER edge hands them to LEVELLING: of a probe, with the edge's direction (R42, log 24). -/
def CarBlock.landing (b : CarBlock) (d : Option Dir) : CarBlock :=
  { b with
    inputs := { b.inputs with move := if b.record.state = .probing then b.inputs.move.takeDirection d else b.inputs.move }
    brake := b.brake.close }

theorem landByEdge_eq (p : Part) (c : Car) (d : Option Dir) :
    p.landByEdge c d = (p.modCar c (·.landing d)).change c (·.toLevelling c) := by
  have before : (if p.stateOf c = .probing then p.modInputs c fun x => { x with move := x.move.takeDirection d } else p).closeBrake c =
      p.modCar c (·.landing d) := by
    unfold Part.stateOf
    split
    · next h =>
      refine (Part.modCar_modCar (f := fun b => { b with inputs := { b.inputs with move := b.inputs.move.takeDirection d } })
        (g := fun b => { b with brake := b.brake.close })).trans (Part.modCar_congr ?_)
      simp only [CarBlock.landing, h, if_true]
    · next h =>
      refine Part.modCar_congr (f := fun b => { b with brake := b.brake.close }) ?_
      simp only [CarBlock.landing, h, if_false]
  unfold Part.landByEdge
  dsimp only
  rw [before]

/-- A pair is raised by an event if it is raised by its list, in whatever order. -/
theorem CarEvent.notices_congr {l' : List Notice} (h : CarEvent c l p q) (same : ∀ n, n ∈ l ↔ n ∈ l') : CarEvent c l' p q :=
  ⟨h.rest, h.cars, h.supply, fun port n => by rw [h.notices port n, same]⟩

theorem offers_toLevelling (p : Part) (c : Car) : Offers [⟨.carLevelled, some c⟩] p (p.toLevelling c) :=
  (offers_raise _ _).of_ports rfl rfl rfl rfl

/-- A turn of a car in PROBING or LOWERING that levels it (R60, R62). -/
theorem carTurn_toLevelling {before : Part} (h : isBrakeState (p.stateOf c) = true) (b : Prelude c l before p) :
    CarTurn c (l ++ [⟨.carLevelled, some c⟩]) before (p.change c (·.toLevelling c)) ∧
      PassKept before (p.change c (·.toLevelling c)) := by
  have hst (q : Part) : (q.toLevelling c).stateOf c = .levelling := by
    unfold Part.stateOf; rw [Part.toLevelling_own]; rfl
  obtain ⟨turn, pass⟩ := carTurn_change (go := (·.toLevelling c)) (fun q => touchesOnly_toLevelling q c)
    (offers_toLevelling (p.leaving c) c) (by simp [hst])
    (by rw [hst]; intro _ e; rw [← e] at h; cases h) b
  rw [if_neg (by simp [hst])] at pass
  exact ⟨turn, pass⟩

/-- The blocks of a car that an ENTER edge takes from PROBING or LOWERING to LEVELLING (R62). -/
theorem levelled_eq (h : b.record.state = .lowering ∨ b.record.state = .probing) (d : Option Dir) (t : Tracker) (g : Globals) :
    ((({ b.withZone ⟨true, some true, none⟩ with tracker := t } : CarBlock).landing d).levelled g).unmoved =
    { b with
      tracker := t
      inputs := { b.inputs with
        zone := ⟨true, some true, none⟩
        odometry := 0
        move := if b.record.state = .probing then b.inputs.move.takeDirection d else { b.inputs.move with armed := false } }
      record := { b.record with
        state := .levelling
        heldCause := none
        summary := { b.record.summary with
          landing := some (t.bestZone / 2)
          methodUsed := if b.record.state = .probing then none else b.record.summary.methodUsed }
        dwellTimer := some g.stopDwell
        slipTimer := some (g.slipLimit * 1000)
        motionAge := none }
      slots := { b.slots with brake := false }
      brake := b.brake.close
      signals := { b.signals with lamp := .flash, reassurance := none }.requestTone g .levelled } := by
  have brake : ((({ b.withZone ⟨true, some true, none⟩ with tracker := t } : CarBlock).landing d).levelled g).unmoved.brake =
      b.brake.close := CarBrake.close_close _
  obtain ⟨line, inputs, record, tracker, planner, policy, slots, brakes, signals⟩ := b
  obtain ⟨state⟩ := record
  dsimp only at h brake
  rw [← brake]
  rcases h with rfl | rfl
  · rfl
  · rfl

/-- Settles O42: the edge's direction and tracker, then the change to LEVELLING. -/
theorem enterEdgeLevels : Obligations.EnterEdgeLevels := by
  intro s c on read hs b probed way mm after landing took
  have moves : isMoveState (s.stateOf c) = true := by rcases hs with h | h <;> rw [h] <;> rfl
  have brakes : isBrakeState (s.stateOf c) = true := by rcases hs with h | h <;> rw [h] <;> rfl
  have wayEq : edgeDirection (s.car c) = way := edgeDirection_eq moves
  have result : s.toPart.edgeResult c .enter way = after := by
    simp only [after]
    cases way <;> rfl
  have tookEq : (s.car c).inputs.move.takeDirection way = took := by
    simp only [took]
    cases way with
    | none => rfl
    | some d => cases d <;> rfl
  have run := execZoneEdge_moving (kind := .enter) on read moves
  dsimp only at run
  rw [if_pos ⟨rfl, brakes⟩, wayEq, landByEdge_eq, clearOdometry_eq] at run
  have edged := prelude_edged (p := s.toPart) (c := c) (kind := .enter) (d := way)
  have own : ((s.toPart.edged c .enter way).modCar c (·.landing way)).car c =
      ({ (s.car c).withZone ⟨true, some true, none⟩ with tracker := after.1 } : CarBlock).landing way := by
    rw [Part.modCar_car, if_pos rfl, edged_own, result]; rfl
  have state : ((s.toPart.edged c .enter way).modCar c (·.landing way)).stateOf c = s.stateOf c := by
    unfold Part.stateOf; rw [own]; rfl
  have pre : Prelude c (lostNotices c after.2) s.toPart ((s.toPart.edged c .enter way).modCar c (·.landing way)) :=
    ⟨edged.touches.trans (touchesOnly_modCar _ c _), state, (result ▸ edged.offers).of_ports rfl rfl rfl rfl⟩
  obtain ⟨turn, pass⟩ := carTurn_toLevelling (by rw [state]; exact brakes) pre
  have levelled := Part.change_toLevelling_own (p := (s.toPart.edged c .enter way).modCar c (·.landing way)) (c := c)
    (by rw [state]; exact brakes)
  rw [own] at levelled
  have level : (((s.toPart.edged c .enter way).modCar c (·.landing way)).change c (·.toLevelling c)).stateOf c = .levelling := by
    unfold Part.stateOf; rw [levelled]; rfl
  have cleared := turn.unmoved (by rw [level]; decide)
  obtain ⟨event, car, kept, -⟩ := cleared.event fun _ => by
    unfold isDemandState; rw [moves]; exact Bool.or_true _
  refine ⟨_, run, car.trans ?_, event.notices_congr fun n => ?_, kept (pass.modCar c _)⟩
  · have globals : ((s.toPart.edged c .enter way).modCar c (·.landing way)).globals = s.globals := by
      unfold Part.globals; rw [pre.touches.rest.config]
    rw [Part.modCar_car, if_pos rfl, levelled, globals, levelled_eq hs, tookEq]
    rfl
  · rw [List.mem_append, List.mem_singleton, List.mem_cons, or_comm]; rfl

end Sys2Proof.Machine
end

