-- ==== Sys2Proof/Proofs/ChainAndLockout.lean ====
section
/-!
PROOFS. The chain and the lockout (R66, R75, R76): the close request, and then the event at the car record.
-/

namespace Sys2Proof.Machine

variable {p q before : Part} {c : Car} {s : State} {b : CarBlock} {g : Globals} {l m : List Notice} {new : RescueState}

/-! ## Changes to a state without demand -/

/-- An event of car c that ends in a change to one state, which makes no demand and is not ASSESSING. -/
theorem carEvent_rest {go : Part → Part} (touches : ∀ q, TouchesOnly c q (go q)) (offers : ∀ q, Offers m q (go q))
    (state : ∀ q : Part, (go q).stateOf c = new) (quiet : isDemandState new = false) (other : new ≠ .assessing)
    (b : Prelude c l before p) :
    let q := settleDemand before (p.change c go)
    CarEvent c (l ++ m) before q ∧ q.car c = (p.change c go).car c ∧ PassKept before q := by
  have still : isMoveState new = false ∧ new ≠ .ready := by revert quiet; cases new <;> decide
  obtain ⟨event, own, pass⟩ := carEvent_change touches (offers _) (by rw [state]; exact still.2)
    (by rw [state]; intro h e; rw [← e, still.1] at h; cases h)
    (by rw [state, quiet]; intro h; cases h) b
  rw [if_neg (by rw [state]; exact other)] at pass
  exact ⟨event, own, pass⟩

/-- An event of car c, at rest, that takes it to a state without demand. -/
theorem carEvent_atRest (touches : TouchesOnly c p q) (offers : Offers l p q) (rest : isMoveState (p.stateOf c) = false)
    (quiet : isDemandState (q.stateOf c) = false) :
    CarEvent c l p (settleDemand p q) ∧ (settleDemand p q).car c = q.car c ∧ PassKept p (settleDemand p q) := by
  obtain ⟨event, own, kept, -⟩ := (touches.turn offers fun h => absurd (rest.symm.trans h) (by decide)).event fun h =>
    absurd (quiet.symm.trans h) (by decide)
  exact ⟨event, own, kept touches.passKept⟩

/-- A car at rest gives nothing back to the Arbiter when it changes its state (R60). -/
theorem stated_eq_moved (h : isMoveState b.record.state = false) (held : Option HeldCause) (rest : isMoveState new = false)
    (k : new = b.record.state → new ≠ .confirming ∧ new ≠ .failed ∧ new ≠ .releasing) :
    b.stated g new held = b.moved g new held := by
  have brake : isBrakeState b.record.state = false := by
    revert h; cases b.record.state <;> decide
  have moved := b.moved_eq g new held rest k
  rw [CarSlots.releaseFor_rest _ h, brake] at moved
  exact moved.symm

theorem cancelIfDriving_eq (p : Part) (c : Car) : p.cancelIfDriving c = p.modCar c (·.cancelled) := by
  unfold Part.cancelIfDriving Part.stateOf
  cases id : (p.car c).record.moveId with
  | none =>
    refine (ite_self _).trans (Part.modCar_self ?_).symm
    simp only [CarBlock.cancelled, id]
  | some n =>
    split
    · next driving => exact Part.modCar_congr (by simp only [CarBlock.cancelled, id, driving, if_true])
    · next other => exact (Part.modCar_self (by simp only [CarBlock.cancelled, id, other, if_false])).symm

@[simp] theorem CarBlock.cancelled_record (b : CarBlock) : b.cancelled.record = b.record := rfl

theorem prelude_modCar {f : CarBlock → CarBlock} (h : (f (p.car c)).record.state = (p.car c).record.state) :
    Prelude c [] p (p.modCar c f) :=
  ⟨touchesOnly_modCar p c f, by simpa [Part.stateOf] using h, .of_eq rfl rfl⟩

/-! ## The chain -/

/-- The blocks of a car whose chain is accepted as open, with the close request (R38, R170). -/
def CarBlock.chainOpened (b : CarBlock) : CarBlock :=
  { b with inputs := { b.inputs with chain := ⟨false, some false, none⟩ }, brake := b.brake.close }

theorem execChainOpen_eq (on : s.powered = true) (read : (s.car c).inputs.chain.accepted = some true) :
    execChainOpen c s = .next (s.withPart (settleDemand s.toPart ((s.modCar c (·.chainOpened)).chainOpenEvent c))) := by
  unfold execChainOpen
  rw [runPart_powered on]
  dsimp only
  rw [acceptLevel_changed (level := false) (input := .chain c) read]
  have opened : (s.toPart.setFilter (.chain c) ⟨false, some false, none⟩).closeBrake c = s.modCar c (·.chainOpened) :=
    Part.modCar_modCar (f := fun b => { b with inputs := { b.inputs with chain := ⟨false, some false, none⟩ } })
      (g := fun b => { b with brake := b.brake.close })
  rw [opened]
  rfl

theorem heldByChain_iff (r : CarRecord) : heldByChain r = true ↔ r.state = .assessing ∨ r.state = .ready ∨
    isMoveState r.state = true ∨ (r.state = .held ∧ r.heldCause = some .noMethod) := by
  simp only [heldByChain, Bool.or_eq_true, Bool.and_eq_true, beq_iff_eq, or_assoc]

theorem chainOpened_held (h : heldByChain (p.car c).record = true) :
    let q := settleDemand p ((p.modCar c (·.chainOpened)).chainOpenEvent c)
    q.car c = ({ (p.car c).chainOpened.cancelled with record :=
        { (p.car c).record with lastAbort := some .chainOpen } } : CarBlock).moved p.globals .held (some .safety) ∧
      CarEvent c [⟨.carHeld, some c⟩] p q ∧ PassKept p q := by
  have goes : (p.modCar c (·.chainOpened)).chainOpenEvent c = (p.modCar c fun b => b.chainOpened.cancelled).change c
      fun p => (p.setAbort c .chainOpen).toHeld c .safety := by
    unfold Part.chainOpenEvent
    rw [if_pos (by rw [Part.modCar_car, if_pos rfl]; exact h), cancelIfDriving_eq, Part.modCar_modCar]
  rw [goes]
  have state (q : Part) : ((q.setAbort c .chainOpen).toHeld c .safety).stateOf c = .held := by
    unfold Part.stateOf; rw [Part.toHeld_own]; rfl
  obtain ⟨event, own, pass⟩ := carEvent_rest (go := fun p => (p.setAbort c .chainOpen).toHeld c .safety)
    (fun q => (touchesOnly_setAbort q c _).trans (touchesOnly_toHeld _ c _))
    (fun q => (offers_toHeld (q.setAbort c .chainOpen) c .safety).of_ports rfl rfl rfl rfl) state rfl (by decide)
    (prelude_modCar (p := p) (c := c) (f := fun b => b.chainOpened.cancelled) rfl)
  refine ⟨own.trans ?_, event, pass⟩
  rw [Part.change_abort_toHeld_own, Part.modCar_car, if_pos rfl]
  rfl

/-- A RELEASING car is RESCUED when its chain opens (R66). -/
theorem chainOpened_rescued (h : p.stateOf c = .releasing) :
    let q := settleDemand p ((p.modCar c (·.chainOpened)).chainOpenEvent c)
    let m := (p.car c).chainOpened.moved p.globals .rescued none
    q.car c = { m with record := { m.record with
        summary := { (p.car c).record.summary with releaseTime := some (p.car c).record.trappedTime } } } ∧
      CarEvent c [⟨.carRescued, some c⟩] p q ∧ PassKept p q := by
  have state : (p.modCar c (·.chainOpened)).stateOf c = .releasing := by
    unfold Part.stateOf; rw [Part.modCar_car, if_pos rfl]; exact h
  have goes : (p.modCar c (·.chainOpened)).chainOpenEvent c = (p.modCar c (·.chainOpened)).toRescued c := by
    unfold Part.chainOpenEvent
    rw [if_neg, if_pos state]
    unfold Part.stateOf at state
    rw [heldByChain_iff, state]
    simp [isMoveState]
  rw [goes]
  have own : ((p.modCar c (·.chainOpened)).toRescued c).car c =
      (let m := (p.car c).chainOpened.moved p.globals .rescued none
       { m with record := { m.record with
          summary := { (p.car c).record.summary with releaseTime := some (p.car c).record.trappedTime } } }) := by
    have rest : isMoveState (p.car c).chainOpened.record.state = false := by
      show isMoveState (p.stateOf c) = false; rw [h]; rfl
    rw [Part.toRescued_own, Part.modCar_car, if_pos rfl, ← stated_eq_moved rest none rfl (by simp)]
    rfl
  obtain ⟨event, car, pass⟩ := carEvent_atRest (q := (p.modCar c (·.chainOpened)).toRescued c)
    ((touchesOnly_modCar p c _).trans (touchesOnly_toRescued _ c))
    (show Offers [⟨.carRescued, some c⟩] _ _ from (offers_raise _ _).of_ports rfl rfl rfl rfl) (by rw [h]; rfl)
    (by unfold Part.stateOf; rw [own]; rfl)
  exact ⟨car.trans own, event, pass⟩

theorem chainOpened_stands (h : heldByChain (p.car c).record = false) (k : p.stateOf c ≠ .releasing) :
    settleDemand p ((p.modCar c (·.chainOpened)).chainOpenEvent c) = p.modCar c (·.chainOpened) := by
  have own : (p.modCar c (·.chainOpened)).car c = (p.car c).chainOpened := by rw [Part.modCar_car, if_pos rfl]
  have goes : (p.modCar c (·.chainOpened)).chainOpenEvent c = p.modCar c (·.chainOpened) := by
    unfold Part.chainOpenEvent Part.stateOf
    rw [own, if_neg (by rw [show (p.car c).chainOpened.record = (p.car c).record from rfl, h]; decide)]
    exact if_neg k
  rw [goes]
  exact settleDemand_modCar rfl

/-! ## The lockout -/

/-- The blocks of a car whose lockout is accepted as on, with the close request (R38, R170). -/
def CarBlock.lockoutRead (b : CarBlock) : CarBlock :=
  { b with inputs := { b.inputs with lockout := ⟨true, some true, none⟩ }, brake := b.brake.close }

/-- The blocks of a car whose lockout is accepted as off. -/
def CarBlock.lockoutGone (b : CarBlock) : CarBlock := { b with inputs := { b.inputs with lockout := ⟨false, some false, none⟩ } }

theorem execLockoutOn_eq (on : s.powered = true) (read : (s.car c).inputs.lockout.accepted = some false) :
    execLockoutOn c s = .next (s.withPart (settleDemand s.toPart ((s.modCar c (·.lockoutRead)).lockoutOnEvent c))) := by
  unfold execLockoutOn
  rw [runPart_powered on]
  dsimp only
  rw [acceptLevel_changed (level := true) (input := .lockout c) read]
  have locked : (s.toPart.setFilter (.lockout c) ⟨true, some true, none⟩).closeBrake c = s.modCar c (·.lockoutRead) :=
    Part.modCar_modCar (f := fun b => { b with inputs := { b.inputs with lockout := ⟨true, some true, none⟩ } })
      (g := fun b => { b with brake := b.brake.close })
  rw [locked]
  rfl

theorem execLockoutOff_eq (on : s.powered = true) (read : (s.car c).inputs.lockout.accepted = some true) :
    execLockoutOff c s = .next (s.withPart (settleDemand s.toPart ((s.modCar c (·.lockoutGone)).lockoutOffEvent c))) := by
  unfold execLockoutOff
  rw [runPart_powered on]
  dsimp only
  rw [acceptLevel_changed (level := false) (input := .lockout c) read]
  rfl

theorem heldByLockout_iff (x : RescueState) : heldByLockout x = true ↔ isTrapped x = true ∧ x ≠ .rescued ∧ x ≠ .inhibited := by
  cases x <;> decide

theorem lockoutRead_held (h : heldByLockout (p.stateOf c) = true) :
    let q := settleDemand p ((p.modCar c (·.lockoutRead)).lockoutOnEvent c)
    q.car c = (if p.stateOf c = .failed then (p.car c).lockoutRead else
        { (p.car c).lockoutRead.cancelled with record := { (p.car c).record with lastAbort := some .lockout } }).moved
        p.globals .held (some .lockout) ∧
      CarEvent c [⟨.carHeld, some c⟩] p q ∧ PassKept p q := by
  have state : (p.modCar c (·.lockoutRead)).stateOf c = p.stateOf c := by
    unfold Part.stateOf; rw [Part.modCar_car, if_pos rfl]; rfl
  have pre := prelude_modCar (p := p) (c := c) (f := fun b => b.lockoutRead.cancelled) rfl
  by_cases failed : p.stateOf c = .failed
  · have goes : (p.modCar c (·.lockoutRead)).lockoutOnEvent c =
        (p.modCar c fun b => b.lockoutRead.cancelled).change c (·.toHeld c .lockout) := by
      unfold Part.lockoutOnEvent
      dsimp only
      rw [state, if_pos h, cancelIfDriving_eq, Part.modCar_modCar]
      exact congrArg (Part.change _ c) (funext fun q => by rw [if_pos failed])
    rw [goes, if_pos failed]
    obtain ⟨event, own, pass⟩ := carEvent_rest (go := (·.toHeld c .lockout)) (fun q => touchesOnly_toHeld q c _)
      (fun q => offers_toHeld q c .lockout) (fun q => by unfold Part.stateOf; rw [Part.toHeld_own]; rfl) rfl (by decide) pre
    have none : (p.car c).lockoutRead.cancelled = (p.car c).lockoutRead := by
      have notDriving : (p.car c).lockoutRead.record.state ≠ .driving := by
        show p.stateOf c ≠ .driving; rw [failed]; decide
      unfold CarBlock.cancelled
      cases (p.car c).lockoutRead.record.moveId with
      | none => rfl
      | some id => simp only [notDriving, if_false]
    refine ⟨own.trans ?_, event, pass⟩
    rw [Part.change_toHeld_own, Part.modCar_car, if_pos rfl, none]
    rfl
  · have goes : (p.modCar c (·.lockoutRead)).lockoutOnEvent c =
        (p.modCar c fun b => b.lockoutRead.cancelled).change c fun p => (p.setAbort c .lockout).toHeld c .lockout := by
      unfold Part.lockoutOnEvent
      dsimp only
      rw [state, if_pos h, cancelIfDriving_eq, Part.modCar_modCar]
      exact congrArg (Part.change _ c) (funext fun q => by rw [if_neg failed])
    rw [goes, if_neg failed]
    obtain ⟨event, own, pass⟩ := carEvent_rest (go := fun p => (p.setAbort c .lockout).toHeld c .lockout)
      (fun q => (touchesOnly_setAbort q c _).trans (touchesOnly_toHeld _ c _))
      (fun q => (offers_toHeld (q.setAbort c .lockout) c .lockout).of_ports rfl rfl rfl rfl)
      (fun q => by unfold Part.stateOf; rw [Part.toHeld_own]; rfl) rfl (by decide) pre
    refine ⟨own.trans ?_, event, pass⟩
    rw [Part.change_abort_toHeld_own, Part.modCar_car, if_pos rfl]
    rfl

theorem lockoutRead_stands (h : heldByLockout (p.stateOf c) = false) :
    settleDemand p ((p.modCar c (·.lockoutRead)).lockoutOnEvent c) = p.modCar c (·.lockoutRead) := by
  have state : (p.modCar c (·.lockoutRead)).stateOf c = p.stateOf c := by
    unfold Part.stateOf; rw [Part.modCar_car, if_pos rfl]; rfl
  have goes : (p.modCar c (·.lockoutRead)).lockoutOnEvent c = p.modCar c (·.lockoutRead) := by
    unfold Part.lockoutOnEvent
    dsimp only
    exact if_neg (by rw [state, h]; decide)
  rw [goes]
  exact settleDemand_modCar rfl

/-- A car that is held by the lockout at three attempts returns to FAILED as it was (R75). -/
theorem lockoutGone_failed (hs : (p.car c).record.state = .held) (hc : (p.car c).record.heldCause = some .lockout)
    (attempts : (p.car c).record.attempts = 3) :
    settleDemand p ((p.modCar c (·.lockoutGone)).lockoutOffEvent c) =
      p.modCar c fun b => b.lockoutGone.moved p.globals .failed none := by
  have own : (p.modCar c (·.lockoutGone)).car c = (p.car c).lockoutGone := by rw [Part.modCar_car, if_pos rfl]
  have goes : (p.modCar c (·.lockoutGone)).lockoutOffEvent c = (p.modCar c (·.lockoutGone)).setState c .failed none := by
    unfold Part.lockoutOffEvent
    dsimp only
    rw [own, if_pos ⟨hs, hc⟩]
    exact if_pos attempts
  have touches : TouchesOnly c p ((p.modCar c (·.lockoutGone)).setState c .failed none) :=
    (touchesOnly_modCar p c _).trans (touchesOnly_setState _ c _ _)
  have moved : ((p.modCar c (·.lockoutGone)).setState c .failed none).car c = (p.car c).lockoutGone.moved p.globals .failed none := by
    have rest : isMoveState (p.car c).lockoutGone.record.state = false := by
      show isMoveState (p.car c).record.state = false; rw [hs]; rfl
    rw [Part.setState_own, own, stated_eq_moved rest none rfl
      (by intro e; exact absurd (e.trans hs) (by decide))]
    rfl
  rw [goes, touches.eq_modCar rfl rfl (f := fun b => b.lockoutGone.moved p.globals .failed none) moved]
  exact settleDemand_modCar (by unfold Part.stateOf; rw [hs]; rfl)

theorem lockoutGone_assessed (hs : (p.car c).record.state = .held) (hc : (p.car c).record.heldCause = some .lockout)
    (attempts : (p.car c).record.attempts ≠ 3) :
    let q := settleDemand p ((p.modCar c (·.lockoutGone)).lockoutOffEvent c)
    q.car c = (p.car c).lockoutGone.assessed p.globals ∧ CarEvent c ((p.car c).lockoutGone.assessedNotices c) p q ∧
      (p.car c).lockoutGone.AssessedPass p q := by
  have own : (p.modCar c (·.lockoutGone)).car c = (p.car c).lockoutGone := by rw [Part.modCar_car, if_pos rfl]
  have goes : (p.modCar c (·.lockoutGone)).lockoutOffEvent c = (p.modCar c (·.lockoutGone)).change c (·.toAssessing c) := by
    unfold Part.lockoutOffEvent
    dsimp only
    rw [own, if_pos ⟨hs, hc⟩]
    exact if_neg attempts
  rw [goes]
  obtain ⟨event, car, pass⟩ := carEvent_toAssessing (prelude_modCar (p := p) (c := c) (f := (·.lockoutGone)) rfl)
  rw [own] at event car pass
  exact ⟨car, event, pass⟩

theorem lockoutGone_stands (h : ¬((p.car c).record.state = .held ∧ (p.car c).record.heldCause = some .lockout)) :
    settleDemand p ((p.modCar c (·.lockoutGone)).lockoutOffEvent c) = p.modCar c (·.lockoutGone) := by
  have own : (p.modCar c (·.lockoutGone)).car c = (p.car c).lockoutGone := by rw [Part.modCar_car, if_pos rfl]
  have goes : (p.modCar c (·.lockoutGone)).lockoutOffEvent c = p.modCar c (·.lockoutGone) := by
    unfold Part.lockoutOffEvent
    dsimp only
    rw [own]
    exact if_neg h
  rw [goes]
  exact settleDemand_modCar rfl

/-- Settles O44: the three events, by the state of the car. -/
theorem chainAndLockout : Obligations.ChainAndLockout := by
  intro s c on b r opened locked unlocked heldBySafety heldByLock caused
  have lockIff : heldByLockout (s.stateOf c) = true ↔ heldByLock := heldByLockout_iff _
  refine ⟨fun read => ?_, fun read => ?_, fun read => ?_⟩
  · have run := execChainOpen_eq on read
    refine ⟨fun h => ?_, fun h => ?_, fun h k => ?_⟩
    · obtain ⟨own, event, pass⟩ := chainOpened_held (p := s.toPart) ((heldByChain_iff _).mpr h)
      exact ⟨_, run, own, event, pass⟩
    · obtain ⟨own, event, pass⟩ := chainOpened_rescued (p := s.toPart) h
      exact ⟨_, run, own, event, pass⟩
    · refine run.trans (congrArg (fun p => Host.Outcome.next (s.withPart p)) ?_)
      refine chainOpened_stands (Bool.eq_false_iff.mpr fun held => h ((heldByChain_iff _).mp held)) k
  · have run := execLockoutOn_eq on read
    refine ⟨fun h => ?_, fun h => ?_⟩
    · obtain ⟨own, event, pass⟩ := lockoutRead_held (p := s.toPart) (lockIff.mpr h)
      exact ⟨_, run, own, event, pass⟩
    · refine run.trans (congrArg (fun p => Host.Outcome.next (s.withPart p)) ?_)
      exact lockoutRead_stands (Bool.eq_false_iff.mpr fun held => h (lockIff.mp held))
  · have run := execLockoutOff_eq on read
    refine ⟨fun hs hc three => ?_, fun hs hc other => ?_, fun h => ?_⟩
    · exact run.trans (congrArg (fun p => Host.Outcome.next (s.withPart p)) (lockoutGone_failed hs hc three))
    · obtain ⟨own, event, pass⟩ := lockoutGone_assessed (p := s.toPart) hs hc other
      exact ⟨_, run, own, event, pass⟩
    · exact run.trans (congrArg (fun p => Host.Outcome.next (s.withPart p)) (lockoutGone_stands h))

end Sys2Proof.Machine
end

