-- ==== Sys2Proof/Proofs/Encoder.lean ====
section
/-!
PROOFS. The encoder (R39 to R42), and the motion events that a counted step causes (R47, R48, R63, R169).
-/

namespace Sys2Proof.Machine

variable {p q : Part} {c : Car} {s : State} {b : CarBlock} {g : Globals} {d : Dir} {old new : Bool × Bool}

/-! ## Steps -/

theorem stepKind_same (pair : Bool × Bool) : stepKind pair pair = .none := if_pos rfl

theorem stepKind_up : ∀ {old new : Bool × Bool}, new = (!old.2, old.1) → stepKind old new = .up := by decide

theorem stepKind_down : ∀ {old new : Bool × Bool}, old = (!new.2, new.1) → stepKind old new = .down := by decide

theorem stepKind_illegal : ∀ {old new : Bool × Bool}, old.1 ≠ new.1 → old.2 ≠ new.2 → stepKind old new = .illegal := by decide

/-- A counted step in a direction. -/
def stepOf (d : Dir) : StepKind := match d with
  | .up => .up
  | .down => .down

/-- The Conditioner of a car after a counted step (R39, R42). -/
def CarInputs.stepped (x : CarInputs) (new : Bool × Bool) (d : Dir) (moving : Bool) : CarInputs :=
  ({ x with encoder := some new } : CarInputs).count d moving

/-- The blocks of a car after a counted step, its Conditioner alone (R39, R42). -/
def CarBlock.stepped (b : CarBlock) (new : Bool × Bool) (d : Dir) : CarBlock :=
  { b with inputs := b.inputs.stepped new d (isMoveState b.record.state) }

/-- What follows a counted step: the dwell of a car in LEVELLING, the reversal check and the run limit (R47, R63, R169). -/
def Part.followStep (p : Part) (c : Car) (before : Int) : Part := ((p.motionCount c).checkReversal c).checkRunLimit c before

theorem sampleEncoder_step (h : (p.car c).inputs.encoder = some old)
    (k : stepKind old new = stepOf d) :
    p.sampleEncoder c new = (p.modCar c (·.stepped new d)).followStep c (p.moveDistance c) := by
  have own : (p.modInputs c fun x => { x with encoder := some new }).car c =
      { p.car c with inputs := { (p.car c).inputs with encoder := some new } } := (p.modCar_car c c _).trans (if_pos rfl)
  have counted : (p.modInputs c fun x => { x with encoder := some new }).countStep c d =
      (p.modCar c (·.stepped new d)).followStep c (p.moveDistance c) := by
    have steps : (p.modInputs c fun x => { x with encoder := some new }).modInputs c (·.count d
        (isMoveState ((p.modInputs c fun x => { x with encoder := some new }).stateOf c))) = p.modCar c (·.stepped new d) := by
      unfold Part.stateOf
      rw [own]
      exact (Part.modCar_modCar (f := fun b => { b with inputs := { b.inputs with encoder := some new } })
        (g := fun b => { b with inputs := b.inputs.count d (isMoveState (p.car c).record.state) })).trans (Part.modCar_congr rfl)
    unfold Part.countStep
    dsimp only
    rw [steps]
    unfold Part.moveDistance
    rw [own]
    rfl
  unfold Part.sampleEncoder
  dsimp only
  rw [h]
  dsimp only
  rw [k]
  cases d with
  | up => exact counted
  | down => exact counted

/-! ## What follows a step -/

theorem motionCount_levelling (h : p.stateOf c = .levelling) : p.motionCount c =
    p.modCar c fun b => { b with record := { b.record with dwellTimer := some p.globals.stopDwell, motionAge := some 0 } } :=
  if_pos h

theorem motionCount_other (h : p.stateOf c ≠ .levelling) : p.motionCount c = p := if_neg h

/-- A step whose back travel passes the reversal distance while the check is armed (R47). -/
def CarBlock.reverses (b : CarBlock) (e : CarEntry) (g : Globals) : Prop :=
  let m := b.inputs.move
  m.armed = true ∧ m.dir.isSome = true ∧ (g.reversal : Int) <
    countToMm e.ppm (m.peak - if m.dir = some .down then -m.travel else m.travel)

theorem checkReversal_iff : ((p.car c).inputs.move.armed = true ∧ (p.globals.reversal : Int) < p.backTravel c) ↔
    (p.car c).reverses (p.entry c) p.globals := by
  unfold CarBlock.reverses Part.backTravel
  dsimp only
  cases (p.car c).inputs.move.dir with
  | none => simp
  | some d => cases d <;> simp [forwardProgress]

theorem checkReversal_other (h : ¬(p.car c).reverses (p.entry c) p.globals) : p.checkReversal c = p :=
  if_neg fun k => h (checkReversal_iff.mp k)

/-- The blocks of a car that reverses as its failing finds them: the check disarmed, the brake closed, the move cancelled. -/
def CarBlock.reversed (b : CarBlock) : CarBlock :=
  ({ b with
    inputs := { b.inputs with move := { b.inputs.move with armed := false } }
    brake := b.brake.close } : CarBlock).cancelled

theorem checkReversal_reverses (h : (p.car c).reverses (p.entry c) p.globals)
    (k : p.stateOf c = .driving ∨ p.stateOf c = .lowering) :
    p.checkReversal c = (p.modCar c (·.reversed)).change c (·.toFailed c .reversal) := by
  have stopped : (p.modInputs c fun x => { x with move := { x.move with armed := false } }).closeBrake c =
      p.modCar c fun b => { b with
        inputs := { b.inputs with move := { b.inputs.move with armed := false } }
        brake := b.brake.close } :=
    Part.modCar_modCar (f := fun b => { b with inputs := { b.inputs with move := { b.inputs.move with armed := false } } })
      (g := fun b => { b with brake := b.brake.close })
  refine (if_pos (checkReversal_iff.mpr h)).trans ?_
  rw [stopped]
  unfold Part.reversalEvent
  rw [if_pos, cancelIfDriving_eq, Part.modCar_modCar]
  · rfl
  · unfold Part.stateOf; rw [Part.modCar_car, if_pos rfl]; exact k.symm

theorem reversed_failed (k : b.record.state = .driving ∨ b.record.state = .lowering) (g : Globals) :
    b.reversed.failed g .reversal = { b.cancelled.failed g .reversal with brake := b.brake.close } := by
  have brake : (b.reversed.failed g .reversal).brake = b.brake.close := by
    have shut : (b.reversed.failed g .reversal).brake =
      if isBrakeState b.record.state then b.brake.close.close else b.brake.close := rfl
    rw [shut, CarBrake.close_close, ite_self]
  rw [← brake]
  obtain ⟨line, inputs, record, tracker, planner, policy, slots, brakes, signals⟩ := b
  obtain ⟨state⟩ := record
  dsimp only at k
  rcases k with rfl | rfl
  · rfl
  · rfl

/-- A step that takes the move distance on past the run limit (R169). -/
def CarBlock.overruns (b : CarBlock) (e : CarEntry) (g : Globals) (before : Int) : Prop :=
  before < countToMm e.ppm b.inputs.move.peak ∧
    ((b.planner.plan.distance.getD 0 + g.runMargin : Nat) : Int) < countToMm e.ppm b.inputs.move.peak

theorem checkRunLimit_other {before : Int} (h : ¬(p.stateOf c = .lowering ∧ (p.car c).overruns (p.entry c) p.globals before)) :
    p.checkRunLimit c before = p := if_neg h

theorem checkRunLimit_overruns {before : Int} (h : p.stateOf c = .lowering)
    (k : (p.car c).overruns (p.entry c) p.globals before) : p.checkRunLimit c before =
      (p.modCar c fun b => { b with brake := b.brake.close }).change c (·.toFailed c .runLimit) := if_pos ⟨h, k⟩

theorem closed_failed (h : b.record.state = .lowering) (g : Globals) (cause : AbortCause) :
    ({ b with brake := b.brake.close } : CarBlock).failed g cause = b.failed g cause := by
  have brake : (b.failed g cause).brake = (({ b with brake := b.brake.close } : CarBlock).failed g cause).brake := by
    have open' : (b.failed g cause).brake = if isBrakeState b.record.state then b.brake.close else b.brake := rfl
    have shut : (({ b with brake := b.brake.close } : CarBlock).failed g cause).brake =
      if isBrakeState b.record.state then b.brake.close.close else b.brake.close := rfl
    rw [open', shut, CarBrake.close_close, h]; rfl
  show _ = { b.failed g cause with brake := (b.failed g cause).brake }
  rw [brake]
  rfl

/-! ## An encoder sample -/

theorem count_eq (m : MoveRecord) (d : Dir) (delta : Int) : m.count d delta =
    { m with
      travel := m.travel + delta
      lastStep := some d
      peak := if m.dir.isSome = true then
          max m.peak (if m.dir = some .down then -(m.travel + delta) else m.travel + delta)
        else m.peak } := by
  obtain ⟨dir, travel, peak, armed, lastStep⟩ := m
  unfold MoveRecord.count
  rcases dir with _ | _ | _
  · rfl
  · rfl
  · rfl

theorem stepped_move {delta : Int} (h : delta = match d with | .up => 1 | .down => -1) : (b.stepped new d).inputs.move =
    if isMoveState b.record.state then b.inputs.move.count d delta else b.inputs.move := by
  subst h; cases d <;> rfl

theorem stepped_own (p : Part) (c : Car) : (p.modCar c (·.stepped new d)).car c = (p.car c).stepped new d := by
  rw [Part.modCar_car, if_pos rfl]

theorem stepped_stateOf (p : Part) (c : Car) : (p.modCar c (·.stepped new d)).stateOf c = p.stateOf c := by
  unfold Part.stateOf; rw [stepped_own]; rfl

/-- A step that ends no move, and restarts no dwell, changes the Conditioner alone. -/
theorem followStep_other {before : Int} (level : p.stateOf c ≠ .levelling) (h : ¬(p.car c).reverses (p.entry c) p.globals)
    (k : ¬(p.stateOf c = .lowering ∧ (p.car c).overruns (p.entry c) p.globals before)) : p.followStep c before = p := by
  unfold Part.followStep
  rw [motionCount_other level, checkReversal_other h, checkRunLimit_other k]

/-- A step in LEVELLING restarts the dwell (R48, R63). -/
theorem followStep_levelling {before : Int} (level : p.stateOf c = .levelling) (h : (p.car c).inputs.move.armed = false) :
    p.followStep c before =
      p.modCar c fun b => { b with record := { b.record with dwellTimer := some p.globals.stopDwell, motionAge := some 0 } } := by
  have own : (p.motionCount c).car c =
      { p.car c with record := { (p.car c).record with dwellTimer := some p.globals.stopDwell, motionAge := some 0 } } := by
    rw [motionCount_levelling level, Part.modCar_car, if_pos rfl]
  have state : (p.motionCount c).stateOf c = .levelling := by unfold Part.stateOf; rw [own]; exact level
  unfold Part.followStep
  rw [checkReversal_other, checkRunLimit_other, motionCount_levelling level]
  · rw [state]; rintro ⟨e, -⟩; cases e
  · rw [own]; rintro ⟨armed, -⟩; exact absurd (h.symm.trans armed) (by decide)

/-- A step in LOWERING or DRIVING that reverses fails the car (R47, R78). -/
theorem followStep_reverses {before : Int} (k : p.stateOf c = .driving ∨ p.stateOf c = .lowering)
    (h : (p.car c).reverses (p.entry c) p.globals) :
    p.followStep c before = (p.modCar c (·.reversed)).change c (·.toFailed c .reversal) := by
  have level : p.stateOf c ≠ .levelling := by rcases k with e | e <;> rw [e] <;> decide
  have failed : ((p.modCar c (·.reversed)).change c (·.toFailed c .reversal)).stateOf c = .failed := by
    unfold Part.stateOf; rw [Part.change_toFailed_own]; rfl
  unfold Part.followStep
  rw [motionCount_other level, checkReversal_reverses h k, checkRunLimit_other]
  rw [failed]; rintro ⟨e, -⟩; cases e

theorem followStep_overruns {before : Int} (k : p.stateOf c = .lowering) (h : ¬(p.car c).reverses (p.entry c) p.globals)
    (o : (p.car c).overruns (p.entry c) p.globals before) : p.followStep c before =
      (p.modCar c fun b => { b with brake := b.brake.close }).change c (·.toFailed c .runLimit) := by
  unfold Part.followStep
  rw [motionCount_other (by rw [k]; decide), checkReversal_other h, checkRunLimit_overruns k o]

/-- Settles O45: no step, an illegal one, or a counted one, and what it causes by the state of the car. -/
theorem encoderCounts : Obligations.EncoderCounts := by
  intro s c old new d on b i step place forward moved counted ppm back reverses limit overruns sampled
  have stepEq : step = (match d with | .up => 1 | .down => -1) := by cases d <;> rfl
  refine ⟨fun first => ?_, fun held a b => ?_, fun same => ?_, fun held next => ?_⟩
  · refine runPart_modCar on ?_ rfl
    unfold Part.sampleEncoder; dsimp only; rw [show (s.car c).inputs.encoder = none from first]
    exact Part.modCar_congr rfl
  · refine runPart_modCar on ?_ rfl
    unfold Part.sampleEncoder; dsimp only; rw [show (s.car c).inputs.encoder = some old from held]
    dsimp only
    rw [stepKind_illegal a b]
    exact (Part.modCar_modCar (f := fun b => { b with inputs := { b.inputs with encoder := some (new.1, new.2) } })
      (g := fun b => { b with inputs := { b.inputs with encoderErrors := bump 255 b.inputs.encoderErrors } })).trans
      (Part.modCar_congr rfl)
  · refine runPart_idle on ?_
    unfold Part.sampleEncoder; dsimp only; rw [show (s.car c).inputs.encoder = some new from same]
    dsimp only
    rw [stepKind_same]
    refine Part.modCar_self ?_
    rw [← same]
  · have kind : stepKind old new = stepOf d := by
      cases d with
      | up => exact stepKind_up next
      | down => exact stepKind_down next
    have run : exec (.encoderStep c new.1 new.2) s = .next (s.withPart (settleDemand s.toPart
        ((s.modCar c (·.stepped new d)).followStep c (s.moveDistance c)))) := by
      show execEncoderStep c new.1 new.2 s = _
      unfold execEncoderStep
      rw [runPart_powered on, sampleEncoder_step (new := (new.1, new.2)) held kind]
      rfl
    have own : (s.toPart.modCar c (·.stepped new d)).car c = (s.car c).stepped new d := stepped_own _ _
    have state : (s.toPart.modCar c (·.stepped new d)).stateOf c = s.stateOf c := stepped_stateOf _ _
    have move : ((s.car c).stepped new d).inputs.move = if isMoveState (s.stateOf c) then moved else i.move := by
      rw [stepped_move stepEq, count_eq]; rfl
    have countedEq : (s.car c).stepped new d = counted := by
      have rest : (s.car c).stepped new d = { s.car c with inputs := { ((s.car c).stepped new d).inputs with
          move := ((s.car c).stepped new d).inputs.move } } := rfl
      rw [rest, move]
      cases d <;> rfl
    have unarmed (armed : i.move.armed = false) : ¬((s.car c).stepped new d).reverses (s.entry c) s.globals := by
      rintro ⟨k, -⟩
      rw [move] at k
      split at k
      · exact absurd (armed.symm.trans k) (by decide)
      · exact absurd (armed.symm.trans k) (by decide)
    have reversesIff (h : isMoveState (s.stateOf c) = true) :
        ((s.car c).stepped new d).reverses (s.entry c) s.globals ↔ reverses := by
      unfold CarBlock.reverses
      rw [move, if_pos h]
    have overrunsIff (h : isMoveState (s.stateOf c) = true) :
        ((s.car c).stepped new d).overruns (s.entry c) s.globals (s.moveDistance c) ↔ overruns := by
      unfold CarBlock.overruns
      rw [move, if_pos h]
      exact Iff.rfl
    have counts (q : s.toPart.modCar c (·.stepped new d) = (s.modCar c (·.stepped new d)).followStep c (s.moveDistance c)) :
        exec (.encoderStep c new.1 new.2) s = .next (s.withPart (s.modCar c fun _ => counted)) := by
      rw [run, ← q, settleDemand_modCar rfl]
      exact congrArg (fun p => Host.Outcome.next (s.withPart p)) (Part.modCar_congr countedEq)
    refine ⟨fun rest armed => ?_, fun level armed => ?_, fun moves straight within => ?_, fun moves back => ?_,
      fun lowers straight beyond => ?_⟩
    · refine counts (followStep_other ?_ ?_ ?_).symm
      · rw [state]; rcases rest with h | h
        · intro e; rw [e] at h; cases h
        · rw [h]; decide
      · rw [own]; exact unarmed armed
      · rw [state]; rintro ⟨e, -⟩; rw [e] at rest; rcases rest with h | h <;> cases h
    · rw [run, followStep_levelling (state.trans level), Part.modCar_modCar, settleDemand_modCar rfl]
      · exact congrArg (fun p => Host.Outcome.next (s.withPart p)) (Part.modCar_congr (by rw [countedEq]; rfl))
      · rw [own, move, level]; exact armed
    · have inMove : isMoveState (s.stateOf c) = true := by rcases moves with h | h <;> rw [h] <;> rfl
      refine counts (followStep_other ?_ ?_ ?_).symm
      · rw [state]; rcases moves with h | h <;> rw [h] <;> decide
      · rw [own]; exact fun r => straight ((reversesIff inMove).mp r)
      · rw [state, own]; exact fun k => within ⟨k.1, (overrunsIff inMove).mp k.2⟩
    · have inMove : isMoveState (s.stateOf c) = true := by rcases moves with h | h <;> rw [h] <;> rfl
      rw [followStep_reverses (by rw [state]; exact moves) (by rw [own]; exact (reversesIff inMove).mpr back),
        Part.modCar_modCar] at run
      obtain ⟨event, car, pass⟩ := carEvent_toFailed .reversal
        (prelude_modCar (p := s.toPart) (c := c) (f := fun b => (b.stepped new d).reversed) rfl)
      refine ⟨_, run, car.trans ?_, event, pass⟩
      rw [Part.modCar_car, if_pos rfl, reversed_failed (by exact moves), countedEq]
      rfl
    · have inMove : isMoveState (s.stateOf c) = true := by rw [lowers]; rfl
      rw [followStep_overruns (by rw [state]; exact lowers)
        (by rw [own]; exact fun r => straight ((reversesIff inMove).mp r))
        (by rw [own]; exact (overrunsIff inMove).mpr beyond), Part.modCar_modCar] at run
      obtain ⟨event, car, pass⟩ := carEvent_toFailed .runLimit
        (prelude_modCar (p := s.toPart) (c := c)
          (f := fun b => { b.stepped new d with brake := (b.stepped new d).brake.close }) rfl)
      refine ⟨_, run, car.trans ?_, event, pass⟩
      rw [Part.modCar_car, if_pos rfl, closed_failed (by exact lowers), countedEq]
      rfl

end Sys2Proof.Machine
end

