-- ==== Sys2Proof/Proofs/TrackerUpdates.lean ====
section
/-!
PROOFS. The update of the tracker (R84 to R92): the cost that an edge gives each zone, and what the least and the second-least
of the costs make of it.
-/

namespace Sys2Proof.Machine

variable {e : CarEntry} {g : Globals} {t : Tracker} {kind : EdgeKind} {d : Dir} {mm : Nat}

/-! ## The two least of a list -/

/-- One step of the search for the two least of a list. -/
def nextLeast (m : Nat × Nat) (c : Nat) : Nat × Nat := if c < m.1 then (c, m.1) else if c < m.2 then (m.1, c) else m

theorem twoLeast_eq (costs : List Nat) : twoLeast costs = costs.foldl nextLeast (4095, 4095) := rfl

/-- A pair in order is the two least of a list: the list is the pair and what is not below it. -/
def IsTwoLeast (m : Nat × Nat) (l : List Nat) : Prop :=
  m.1 ≤ m.2 ∧ ∃ rest, (m.1 :: m.2 :: rest).Perm l ∧ ∀ x ∈ rest, m.2 ≤ x

theorem isTwoLeast_next {m : Nat × Nat} {l : List Nat} (h : IsTwoLeast m l) (c : Nat) : IsTwoLeast (nextLeast m c) (c :: l) := by
  obtain ⟨order, rest, perm, above⟩ := h
  have more : (c :: m.1 :: m.2 :: rest).Perm (c :: l) := perm.cons c
  unfold nextLeast
  split
  · next h =>
    exact ⟨h.le, m.2 :: rest, more, fun x hx => by
      rcases List.mem_cons.mp hx with rfl | hx
      · exact order
      · exact order.trans (above x hx)⟩
  · split
    · next h k =>
      refine ⟨not_lt.mp h, m.2 :: rest, (List.Perm.swap _ _ _).trans more, fun x hx => ?_⟩
      rcases List.mem_cons.mp hx with rfl | hx
      · exact k.le
      · exact k.le.trans (above x hx)
    · next h k =>
      refine ⟨order, c :: rest, ?_, fun x hx => ?_⟩
      · exact (((List.Perm.swap _ _ _).cons _).trans (List.Perm.swap _ _ _)).trans more
      · rcases List.mem_cons.mp hx with rfl | hx
        · exact not_lt.mp k
        · exact above x hx

theorem isTwoLeast_foldl : ∀ (costs l : List Nat) (m : Nat × Nat), IsTwoLeast m l →
    ∃ l', l'.Perm (costs ++ l) ∧ IsTwoLeast (costs.foldl nextLeast m) l'
  | [], l, _, h => ⟨l, .refl l, h⟩
  | c :: costs, l, m, h => by
    obtain ⟨l', perm, least⟩ := isTwoLeast_foldl costs (c :: l) (nextLeast m c) (isTwoLeast_next h c)
    exact ⟨l', perm.trans List.perm_middle, least⟩

/-- The two least of a list, each 4095 where there is none (R92). -/
theorem twoLeast_spec (costs : List Nat) : IsTwoLeast (twoLeast costs) (costs ++ [4095, 4095]) := by
  obtain ⟨l, perm, order, rest, same, above⟩ := isTwoLeast_foldl costs [4095, 4095] (4095, 4095)
    ⟨le_rfl, [], .refl _, by simp⟩
  exact ⟨order, rest, same.trans perm, above⟩

theorem least_mem (costs : List Nat) : (twoLeast costs).1 = 4095 ∨ (twoLeast costs).1 ∈ costs := by
  obtain ⟨-, rest, perm, -⟩ := twoLeast_spec costs
  have := perm.subset (List.mem_cons_self)
  simpa [or_comm] using this

theorem least_le {costs : List Nat} {x : Nat} (h : x ∈ costs) : (twoLeast costs).1 ≤ x := by
  obtain ⟨order, rest, perm, above⟩ := twoLeast_spec costs
  have := perm.symm.subset (List.mem_append_left _ h)
  rcases List.mem_cons.mp this with rfl | this
  · exact le_rfl
  · rcases List.mem_cons.mp this with rfl | this
    · exact order
    · exact order.trans (above x this)

/-- Where the least is at place i, the second-least is the least of the other places. -/
theorem second_spec {costs : List Nat} {i : Nat} (h : costs[i]? = some (twoLeast costs).1) :
    ((twoLeast costs).2 = 4095 ∨ ∃ z, z ≠ i ∧ costs[z]? = some (twoLeast costs).2) ∧
      (twoLeast costs).2 ≤ 4095 ∧ ∀ z n, costs[z]? = some n → z ≠ i → (twoLeast costs).2 ≤ n := by
  obtain ⟨order, rest, perm, above⟩ := twoLeast_spec costs
  obtain ⟨lt, at'⟩ := List.getElem?_eq_some_iff.mp h
  have split' : ((twoLeast costs).1 :: costs.eraseIdx i).Perm costs := by
    rw [← at']; exact List.getElem_cons_eraseIdx_perm lt
  have others : ((twoLeast costs).2 :: rest).Perm (costs.eraseIdx i ++ [4095, 4095]) :=
    ((perm.trans (split'.symm.append_right _))).cons_inv
  have bound {x : Nat} (hx : x ∈ costs.eraseIdx i ++ [4095, 4095]) : (twoLeast costs).2 ≤ x := by
    rcases List.mem_cons.mp (others.symm.subset hx) with rfl | hx
    · exact le_rfl
    · exact above x hx
  refine ⟨?_, bound (by simp), fun z n hz hi => bound ?_⟩
  · have := others.subset List.mem_cons_self
    rcases List.mem_append.mp this with hx | hx
    · exact .inr (List.mem_eraseIdx_iff_getElem?.mp hx)
    · exact .inl (by simpa using hx)
  · exact List.mem_append_left _ (List.mem_eraseIdx_iff_getElem?.mpr ⟨z, hi, hz⟩)

/-! ## Costs that are normalised (R91, R92) -/

/-- A cost with the least taken from it, unless it is excluded. -/
def lessLeast (least c : Nat) : Nat := if c < 4095 then c - least else c

theorem normalise_eq (costs : List Nat) : normalise costs =
    if (twoLeast costs).1 < 4095 then some (costs.map (lessLeast (twoLeast costs).1)) else none := rfl

/-- The normalised costs have the least 0. -/
theorem least_normalised {costs : List Nat} (h : (twoLeast costs).1 < 4095) :
    (twoLeast (costs.map (lessLeast (twoLeast costs).1))).1 = 0 := by
  have present : (twoLeast costs).1 ∈ costs := (least_mem costs).resolve_left (by omega)
  have zero : 0 ∈ costs.map (lessLeast (twoLeast costs).1) :=
    List.mem_map.mpr ⟨_, present, by simp [lessLeast, h]⟩
  exact Nat.le_zero.mp (least_le zero)

theorem bestZone_spec {costs : List Nat} (h : 0 ∈ costs) (least : (twoLeast costs).1 = 0) :
    costs[bestZoneOf costs]? = some 0 ∧ ∀ z, z < bestZoneOf costs → costs[z]? ≠ some 0 := by
  unfold bestZoneOf
  rw [least]
  have lt : costs.findIdx (· == 0) < costs.length := List.findIdx_lt_length_of_exists ⟨0, h, rfl⟩
  refine ⟨?_, fun z hz => ?_⟩
  · rw [List.getElem?_eq_getElem lt]
    exact congrArg some (by simpa using List.findIdx_getElem (w := lt))
  · rw [List.getElem?_eq_getElem (hz.trans lt)]
    have := List.not_of_lt_findIdx hz
    simpa using this

/-! ## The cost of a zone (R85 to R89) -/

/-- The zone that lies a number of zones behind z in a direction (R83). -/
def zoneBackBy (n : Nat) (d : Dir) (z far : Nat) : Option Nat := match d with
  | .up => if far ≤ z then some (z - far) else none
  | .down => if z + far < n then some (z + far) else none

theorem zoneBehind_eq (n : Nat) (d : Dir) (z : Nat) : zoneBehind n d z = zoneBackBy n d z 1 := by
  cases d with
  | up =>
    show (if z = 0 then none else some (z - 1)) = if 1 ≤ z then some (z - 1) else none
    by_cases h : z = 0
    · rw [if_pos h, if_neg (by omega)]
    · rw [if_neg h, if_pos (by omega)]
  | down => rfl

theorem zoneBackBy_three (n : Nat) (d : Dir) (z : Nat) :
    ((zoneBackBy n d z 1).bind fun a => (zoneBackBy n d a 1).bind fun b => zoneBackBy n d b 1) = zoneBackBy n d z 3 := by
  cases d with
  | up =>
    match z with
    | 0 => rfl
    | 1 => rfl
    | 2 => rfl
    | z + 3 => simp [zoneBackBy]
  | down =>
    simp only [zoneBackBy]
    by_cases h : z + 3 < n
    · simp [h, show z + 1 < n by omega, show z + 1 + 1 < n by omega]
    · by_cases h1 : z + 1 < n
      · by_cases h2 : z + 1 + 1 < n
        · simp [h, h1, h2]
        · simp [h, h1, h2]
      · simp [h, h1]

theorem mismatch_eq (tolerance : Nat) (a : Anchor) (dist expected : Nat) : mismatch tolerance a dist expected =
    min 255 ((if a = .none then dist - expected else max dist expected - min dist expected) / tolerance) := by
  cases a with
  | none =>
    show (if dist ≤ expected then 0 else _) = _
    rw [if_pos rfl]
    split
    · next h => rw [Nat.sub_eq_zero_of_le h, Nat.zero_div]; rfl
    · rfl
  | edge x => rfl
  | seed s o => rfl

theorem missedCost_eq (z : Nat) : (missedCost e g t d mm z).getD excluded =
    match zoneBackBy (zoneCount e) d z 1, zoneBackBy (zoneCount e) d z 3 with
    | some between, some p => satCost (costAt t.costs p + g.missPenalty +
        mismatch g.tolerance t.anchor mm (remainder e t.anchor p d + 2 * e.halfWidth + zoneLength e between))
    | _, _ => excluded := by
  have three := zoneBackBy_three (zoneCount e) d z
  unfold missedCost
  simp only [zoneBehind_eq]
  cases h1 : zoneBackBy (zoneCount e) d z 1 with
  | none => rfl
  | some between =>
    rw [h1, Option.bind_some] at three
    cases h2 : zoneBackBy (zoneCount e) d between 1 with
    | none => rw [h2] at three; rw [← three]; simp only [Option.bind_some, h2] <;> rfl
    | some passed =>
      rw [h2, Option.bind_some] at three
      simp only [Option.bind_some, h2]
      rw [← three]
      cases zoneBackBy (zoneCount e) d passed 1 <;> rfl

theorem directCost_eq (z : Nat) : (directCost e g t d mm z).getD excluded =
    match zoneBackBy (zoneCount e) d z 1 with
    | some p => satCost (costAt t.costs p + mismatch g.tolerance t.anchor mm (remainder e t.anchor p d))
    | none => excluded := by
  unfold directCost
  rw [zoneBehind_eq]
  cases zoneBackBy (zoneCount e) d z 1 <;> rfl

/-! ## The update -/

/-- A tracker whose costs have been normalised (R91, R92). -/
theorem trackerUpdate_alive (h : (twoLeast (edgeCosts e g t kind d mm)).1 < 4095) : trackerUpdate e g t kind d mm =
    (let costs := (edgeCosts e g t kind d mm).map (lessLeast (twoLeast (edgeCosts e g t kind d mm)).1)
     (⟨costs, edgeAnchor kind d, confidenceOf costs, bestZoneOf costs, false⟩, false)) := by
  unfold trackerUpdate
  rw [normalise_eq, if_pos h]

theorem trackerUpdate_dead (h : ¬(twoLeast (edgeCosts e g t kind d mm)).1 < 4095) : trackerUpdate e g t kind d mm =
    (⟨List.replicate (zoneCount e) 0, .none, 0, 0, false⟩, true) := by
  unfold trackerUpdate
  rw [normalise_eq, if_neg h]
  rfl

/-- What an update makes of the costs that an edge gives, whatever they are, if none is above 4095 (R91, R92). -/
theorem trackerUpdate_spec {cost : Nat → Nat} (costs : edgeCosts e g t kind d mm = (List.range (zoneCount e)).map cost)
    (bound : ∀ z, cost z ≤ 4095) :
    let zones := zoneCount e
    let r := trackerUpdate e g t kind d mm
    r.1.costs.length = zones ∧ r.1.confirmed = false ∧
    (r.2 = true ↔ ∀ z, z < zones → cost z = 4095) ∧
    (r.2 = true → r.1 = ⟨List.replicate zones 0, .none, 0, 0, false⟩) ∧
    (r.2 = false →
      (∃ least, (∃ z, z < zones ∧ cost z = least) ∧ (∀ z, z < zones → least ≤ cost z) ∧
        ∀ z, z < zones → r.1.costs[z]? = some (if cost z = 4095 then 4095 else cost z - least)) ∧
      r.1.costs[r.1.bestZone]? = some 0 ∧ (∀ z, z < r.1.bestZone → r.1.costs[z]? ≠ some 0) ∧
      r.1.anchor = edgeAnchor kind d ∧
      r.1.confidence ≤ 255 ∧ (∀ z n : Nat, r.1.costs[z]? = some n → z ≠ r.1.bestZone → r.1.confidence ≤ n) ∧
      (r.1.confidence = 255 ∨ ∃ z, z ≠ r.1.bestZone ∧ r.1.costs[z]? = some r.1.confidence)) := by
  intro zones r
  have mem {x : Nat} : x ∈ edgeCosts e g t kind d mm ↔ ∃ z, z < zones ∧ cost z = x := by
    rw [costs]; simp [zones]
  by_cases alive : (twoLeast (edgeCosts e g t kind d mm)).1 < 4095
  · have present := (least_mem (edgeCosts e g t kind d mm)).resolve_left (by omega)
    have zero : 0 ∈ (edgeCosts e g t kind d mm).map (lessLeast (twoLeast (edgeCosts e g t kind d mm)).1) :=
      List.mem_map.mpr ⟨_, present, by simp [lessLeast, alive]⟩
    have none := least_normalised alive
    have update : r = _ := trackerUpdate_alive alive
    generalize hl : (twoLeast (edgeCosts e g t kind d mm)).1 = least at *
    generalize hn : (edgeCosts e g t kind d mm).map (lessLeast least) = normal at *
    obtain ⟨best, before⟩ := bestZone_spec zero none
    obtain ⟨second, small, others⟩ := second_spec (costs := normal) (by rw [none]; exact best)
    have confidence : confidenceOf normal = min 255 (twoLeast normal).2 := by unfold confidenceOf; rw [none, Nat.sub_zero]
    have place (z : Nat) (hz : z < zones) : normal[z]? = some (if cost z = 4095 then 4095 else cost z - least) := by
      have := bound z
      rw [← hn, costs, List.getElem?_map, List.getElem?_map, List.getElem?_range hz]
      simp only [Option.map_some, lessLeast]
      congr 1
      split <;> split <;> omega
    rw [update]
    obtain ⟨z, hz, hc⟩ := mem.mp present
    refine ⟨by rw [← hn, costs]; simp [zones], rfl, ⟨fun h => (by cases h), fun all => ?_⟩, fun h => (by cases h), fun _ =>
      ⟨⟨least, ⟨z, hz, hc⟩, fun z hz => ?_, place⟩, best, before, rfl, ?_, fun z n hz hi => ?_, ?_⟩⟩
    · have := all z hz; omega
    · rw [← hl]; exact least_le (mem.mpr ⟨z, hz, rfl⟩)
    · show confidenceOf normal ≤ 255; rw [confidence]; exact min_le_left _ _
    · show confidenceOf normal ≤ n; rw [confidence]; exact (min_le_right _ _).trans (others z n hz hi)
    · show confidenceOf normal = 255 ∨ ∃ z, z ≠ bestZoneOf normal ∧ normal[z]? = some (confidenceOf normal)
      rw [confidence]
      rcases le_total 255 (twoLeast normal).2 with h | h
      · exact .inl (min_eq_left h)
      · rw [min_eq_right h]
        exact .inr (second.resolve_left (by omega))
  · have update : r = _ := trackerUpdate_dead alive
    have all (z : Nat) (hz : z < zones) : cost z = 4095 := by
      have := least_le (mem.mpr ⟨z, hz, rfl⟩)
      have := bound z
      omega
    rw [update]
    exact ⟨by simp [zones], rfl, ⟨fun _ => all, fun _ => rfl⟩, fun _ => rfl, fun h => (by cases h)⟩

/-- Settles O43: the cost of each zone by the edge's paths, and what the least of them make of the tracker. -/
theorem trackerUpdated : Obligations.TrackerUpdated := by
  intro e g old kind d mm zones was behind left miss direct missed cost r
  have behindEq (z far : Nat) : zoneBackBy (zoneCount e) d z far = behind z far := by cases d <;> rfl
  have leftEq (z : Nat) : remainder e old.anchor z d = left z := by
    simp only [left]
    cases old.anchor with
    | none => rfl
    | seed zone offset => cases d <;> rfl
    | edge x => cases x <;> rfl
  have missEq (expected : Nat) : mismatch g.tolerance old.anchor mm expected = miss expected := mismatch_eq _ _ _ _
  have directEq (z : Nat) : (directCost e g old d mm z).getD excluded = direct z := by
    rw [directCost_eq]
    simp only [behindEq, leftEq, missEq, direct] <;> cases behind z 1 <;> rfl
  have missedEq (z : Nat) : (missedCost e g old d mm z).getD excluded = missed z := by
    rw [missedCost_eq]
    simp only [behindEq, leftEq, missEq, missed]
    cases behind z 1 with
    | none => rfl
    | some between => cases behind z 3 <;> rfl
  have costs : edgeCosts e g old kind d mm = (List.range (zoneCount e)).map cost := by
    refine List.map_congr_left fun z _ => ?_
    have landing : isLandingZone z = true ↔ z % 2 = 0 := by simp [isLandingZone]
    cases kind with
    | enter =>
      show enterCost e g old d mm z = if z % 2 = 0 then min (direct z) (missed z) else 4095
      unfold enterCost
      rw [directEq, missedEq]
      exact if_congr landing rfl rfl
    | leave =>
      show leaveCost e g old d mm z = if z % 2 = 0 then 4095 else direct z
      rw [← directEq, directCost_eq]
      unfold leaveCost
      rw [zoneBehind_eq]
      exact if_congr landing rfl rfl
  have bound (z : Nat) : cost z ≤ 4095 := by
    have directBound : direct z ≤ 4095 := by
      simp only [direct]; split
      · exact min_le_left _ _
      · exact le_rfl
    simp only [cost]
    cases kind with
    | enter => dsimp only; split
               · exact (min_le_left _ _).trans directBound
               · exact le_rfl
    | leave => dsimp only; split
               · exact le_rfl
               · exact directBound
  have spec := trackerUpdate_spec costs bound
  cases kind with
  | enter => exact spec
  | leave => exact spec

end Sys2Proof.Machine
end

