-- ==== Sys2Proof/Proofs/SignalTimers.lean ====
section
/-!
PROOFS. The timers of Car Signals, of the lamps' phase and of the brake shares: each command changes the signals or the
brake of its car alone, as the segments of the patterns (R181) and the output's share (R161) say.
-/

namespace Sys2Proof.Machine

variable {s : State} {c : Car}

/-! ## The segments of a pattern -/

/-- The number of a pattern's last segment. -/
def lastSegment : TonePattern → Nat
  | .moveStart => 2
  | .levelled => 0
  | .release => 4
  | .reassure => 0

theorem playingAt_start (t : TonePattern) (high low : Nat) :
    playingAt t 0 high low = some ⟨t, 0, if t = .levelled then 600 else 150, high, low, true⟩ := by cases t <;> rfl

theorem playingAt_next {t : TonePattern} {n : Nat} (h : n < lastSegment t) (high low : Nat) :
    playingAt t (n + 1) high low = some ⟨t, n + 1, 150, high, low, n % 2 == 1⟩ := by
  cases t with
  | moveStart => have : n < 2 := h; interval_cases n <;> rfl
  | release => have : n < 4 := h; interval_cases n <;> rfl
  | levelled => exact absurd h (Nat.not_lt_zero n)
  | reassure => exact absurd h (Nat.not_lt_zero n)

theorem length_patternSegments (t : TonePattern) : (patternSegments t).length = lastSegment t + 1 := by cases t <;> rfl

theorem playingAt_beyond {t : TonePattern} {n : Nat} (h : lastSegment t ≤ n) (high low : Nat) :
    playingAt t (n + 1) high low = none := by
  have := length_patternSegments t
  rw [playingAt, List.getElem?_eq_none (by omega)]
  rfl

theorem isBurst_eq {t : TonePattern} {n : Nat} (h : n ≤ lastSegment t) :
    ((patternSegments t)[n]?).any (·.1) = (n % 2 == 0) := by
  cases t with
  | moveStart => have : n ≤ 2 := h; interval_cases n <;> decide
  | release => have : n ≤ 4 := h; interval_cases n <;> decide
  | levelled => have : n = 0 := Nat.le_zero.mp h; subst this; decide
  | reassure => have : n = 0 := Nat.le_zero.mp h; subst this; decide

theorem inBurst_eq {q : Playing} (h : q.segment ≤ lastSegment q.pattern) : q.inBurst = (q.segment % 2 == 0) :=
  isBurst_eq h

theorem startPattern_eq (x : CarSignals) (g : Globals) (t : TonePattern) : x.startPattern g t =
    { x with playing := some ⟨t, 0, if t = .levelled then 600 else 150, g.toneHigh, g.toneLow, true⟩ } := by
  rw [CarSignals.startPattern, playingAt_start]

/-! ## The commands -/

theorem runPart_modSignals (on : s.powered = true) {f : Part → CarSignals → CarSignals} {y : CarSignals}
    (h : f s.toPart (s.car c).signals = y) :
    runPart s (fun p => p.modSignals c (f p)) = .next (s.withPart (s.modSignals c fun _ => y)) := by
  rw [runPart_same on _ (modCar_demand rfl)]
  exact congrArg (fun p => Host.Outcome.next (s.withPart p))
    (Part.modCar_congr (congrArg (fun x => { s.car c with signals := x }) h))

theorem runPart_modBrake (on : s.powered = true) {f : CarBrake → CarBrake} {y : CarBrake}
    (h : f (s.car c).brake = y) : runPart s (fun p => p.modBrake c f) = .next (s.withPart (s.modBrake c fun _ => y)) := by
  rw [runPart_same on _ (modCar_demand rfl)]
  exact congrArg (fun p => Host.Outcome.next (s.withPart p))
    (Part.modCar_congr (congrArg (fun x => { s.car c with brake := x }) h))

theorem execBrakeShareEnd_open (on : s.powered = true) {channel : Channel} {y : CarBrake}
    (h : (s.car c).brake.shareEnd channel = y) :
    execBrakeShareEnd c channel s = .next (s.withPart (s.modBrake c fun _ => y)) :=
  runPart_modBrake on h

theorem execUnlockTimerExpiry_running (on : s.powered = true) (running : (s.car c).signals.unlockTimer.isSome = true) :
    execUnlockTimerExpiry c s = .next (s.withPart (s.modSignals c fun _ => (s.car c).signals.endPulse)) :=
  runPart_modSignals on (f := fun _ x => if x.unlockTimer.isSome then x.endPulse else x) (if_pos running)

theorem execReassuranceTimerExpiry_running (on : s.powered = true) (running : (s.car c).signals.reassurance.isSome = true) :
    let again := { (s.car c).signals with reassurance := some (s.globals.reassurance * 1000) }
    execReassuranceTimerExpiry c s = .next (s.withPart (s.modSignals c fun _ =>
      if again.silenced then again else again.requestTone s.globals .reassure)) :=
  runPart_modSignals on (f := fun p x => x.reassure p.globals) (if_pos running)

theorem segmentEnd_next {x : CarSignals} {p next : Playing} (g : Globals) (playing : x.playing = some p)
    (h : playingAt p.pattern (p.segment + 1) p.high p.low = some next) :
    x.segmentEnd g = { x with playing := some next } := by
  simp only [CarSignals.segmentEnd, playing, h]

theorem segmentEnd_last {x : CarSignals} {p : Playing} (g : Globals) (playing : x.playing = some p)
    (h : lastSegment p.pattern ≤ p.segment) : x.segmentEnd g = x.endPattern g := by
  simp only [CarSignals.segmentEnd, playing, playingAt_beyond h]

theorem execToneSegmentEnd_of {y : CarSignals} (on : s.powered = true) (h : (s.car c).signals.segmentEnd s.globals = y) :
    execToneSegmentEnd c s = .next (s.withPart (s.modSignals c fun _ => y)) :=
  runPart_modSignals on (f := fun p x => x.segmentEnd p.globals) h

theorem execToneHighLowToggle_playing (on : s.powered = true) {p : Playing}
    (playing : (s.car c).signals.playing = some p) :
    execToneHighLowToggle c s = .next (s.withPart (s.modSignals c fun _ =>
      { (s.car c).signals with playing := some (if p.inBurst then { p with output := !p.output } else p) })) :=
  runPart_modSignals on (f := fun _ x => x.toggle) (by simp only [CarSignals.toggle, playing, Option.map_some])

/-- Settles O52, command by command; the tone segments turn on the last segment of the playing pattern. -/
theorem signalTimers : Obligations.SignalTimers := by
  unfold Obligations.SignalTimers
  intro s c on x k g signals start first
  have first_eq (t : TonePattern) : first t =
      ⟨t, 0, if t = .levelled then 600 else 150, g.toneHigh, g.toneLow, true⟩ := by cases t <;> rfl
  have started (y : CarSignals) (t : TonePattern) : y.startPattern g t = { y with playing := some (first t) } := by
    rw [startPattern_eq, first_eq]
  refine ⟨?unlock, ?reassurance, ?tone, ?lamp, ?a, ?b⟩
  case unlock => exact fun running => execUnlockTimerExpiry_running on running
  case reassurance =>
    intro running again
    have expired := execReassuranceTimerExpiry_running on running
    refine ⟨fun silent => ?silent, fun loud idle => ?start, fun loud busy => ?wait⟩
    case silent => exact expired.trans (congrArg (fun y => Host.Outcome.next (signals y)) (if_pos silent))
    case start =>
      have asked : again.requestTone g .reassure = { again with playing := some (first .reassure) } := by
        rw [CarSignals.requestTone, if_pos (Option.isNone_iff_eq_none.mpr idle), started]
      exact expired.trans (congrArg (fun y => Host.Outcome.next (signals y))
        ((if_neg (by rw [loud]; decide)).trans asked))
    case wait =>
      have asked : again.requestTone g .reassure = { again with waiting := some .reassure } := by
        rw [CarSignals.requestTone, if_neg (by rw [Option.isNone_iff_eq_none]; exact Option.isSome_iff_ne_none.mp busy)]
      exact expired.trans (congrArg (fun y => Host.Outcome.next (signals y))
        ((if_neg (by rw [loud]; decide)).trans asked))
  case tone =>
    intro p playing last next switched
    have last_eq : last = lastSegment p.pattern := rfl
    rw [last_eq]
    refine ⟨fun more => ?next, fun past quiet => ?silence, fun w past waits => ?waiting, fun within => ?toggle⟩
    case next => exact execToneSegmentEnd_of on (segmentEnd_next g playing (playingAt_next more _ _))
    case silence =>
      refine execToneSegmentEnd_of on ((segmentEnd_last g playing past).trans ?_)
      simp only [CarSignals.endPattern, quiet]
    case waiting =>
      refine execToneSegmentEnd_of on ((segmentEnd_last g playing past).trans ?_)
      simp only [CarSignals.endPattern, waits, started]
    case toggle =>
      have : (if p.inBurst then { p with output := !p.output } else p) = switched := by
        rw [inBurst_eq within]
        by_cases even : p.segment % 2 = 0 <;> simp [switched, even]
      exact (execToneHighLowToggle_playing on playing).trans
        (congrArg (fun y => Host.Outcome.next (signals { x with playing := some y })) this)
  case lamp => exact runPart_same on _ rfl
  case a =>
    intro isOpen part
    exact (execBrakeShareEnd_open on (channel := .a) (if_pos ⟨isOpen, part⟩)).trans
      (congrArg (fun p => Host.Outcome.next (s.withPart p)) (Part.modCar_congr rfl))
  case b =>
    intro isOpen part
    exact (execBrakeShareEnd_open on (channel := .b) (if_pos ⟨isOpen, part⟩)).trans
      (congrArg (fun p => Host.Outcome.next (s.withPart p)) (Part.modCar_congr rfl))

end Sys2Proof.Machine
end

