-- ==== Sys2Proof/Proofs/PayloadsRoundTrip.lean ====
section
/-!
PROOFS. The encodings of the configuration writes and of the notice pairs: a field written in the bytes of its range reads
back (R186), and so a row of fields does, field by field.
-/

namespace Sys2Proof.Machine

/-! ## Numbers in bytes -/

theorem getNat_cons (b : Byte) (l : List Byte) : getNat (b :: l) = b.toNat * 256 ^ l.length + getNat l := by
  have shift (l : List Byte) : ∀ n : Nat, l.foldl (fun n b => n * 256 + b.toNat) n = n * 256 ^ l.length + getNat l := by
    induction l with
    | nil => simp [getNat]
    | cons x l ih =>
      intro n
      simp only [getNat, List.foldl_cons, List.length_cons]
      rw [ih, ih (0 * 256 + x.toNat), pow_succ]
      ring
  simpa [getNat] using shift l (0 * 256 + b.toNat)

theorem length_putNat (w n : Nat) : (putNat w n).length = w := by
  induction w with
  | zero => rfl
  | succ w ih => simp [putNat, ih]

theorem getNat_putNat_mod (w n : Nat) : getNat (putNat w n) = n % 256 ^ w := by
  induction w with
  | zero => simp [putNat, getNat, Nat.mod_one]
  | succ w ih =>
    have split : n % 256 ^ (w + 1) = n % 256 ^ w + 256 ^ w * (n / 256 ^ w % 256) := by rw [pow_succ, Nat.mod_mul]
    rw [putNat, getNat_cons, ih, length_putNat, BitVec.toNat_ofNat, split, Nat.mul_comm, Nat.add_comm]

theorem lt_of_bytesFor {hi : Nat} (h : hi < 2 ^ 32) : hi < 256 ^ bytesFor hi := by
  unfold bytesFor
  split <;> [skip; (split <;> [skip; split])] <;> omega

theorem length_put (hi n : Nat) : (put hi n).length = bytesFor hi := length_putNat _ _

theorem getNat_put {hi n : Nat} (h : hi < 2 ^ 32) (le : n ≤ hi) : getNat (put hi n) = n := by
  rw [put, getNat_putNat_mod, Nat.mod_eq_of_lt (Nat.lt_of_le_of_lt le (lt_of_bytesFor h))]

theorem drop_put {hi w : Nat} (h : bytesFor hi = w) (n : Nat) (b : List Byte) : (put hi n ++ b).drop w = b :=
  List.drop_left' ((length_put _ _).trans h)

/-! ## Fields in a payload -/

theorem fieldAt_behind (a b : List Byte) (w : Nat) : fieldAt (a ++ b) a.length w = getNat (b.take w) := by
  simp [fieldAt]

theorem fieldAt_put (a b : List Byte) {hi n place : Nat} (at_ : a.length = place) (h : hi < 2 ^ 32) (le : n ≤ hi) :
    fieldAt (a ++ (put hi n ++ b)) place (bytesFor hi) = n := by
  rw [← at_, fieldAt_behind, ← length_put hi n, List.take_left', getNat_put h le]
  rfl

/-- A row of fields, each with the end of its range before its value. -/
def putFields (fields : List (Nat × Nat)) : List Byte := fields.flatMap fun f => put f.1 f.2

theorem length_putFields (fields : List (Nat × Nat)) :
    (putFields fields).length = (fields.map fun f => bytesFor f.1).sum := by
  simp [putFields, List.length_flatMap, length_put]

theorem fieldAt_putFields {fields : List (Nat × Nat)} {widths : List Nat}
    (row : (fields.map fun f => bytesFor f.1) = widths) {i hi n w place : Nat} (f : fields[i]? = some (hi, n))
    (at_ : (widths.take i).sum = place) (width : bytesFor hi = w) (h : hi < 2 ^ 32) (le : n ≤ hi) :
    fieldAt (putFields fields) place w = n := by
  obtain ⟨within, eq⟩ := List.getElem?_eq_some_iff.mp f
  have cut : fields = fields.take i ++ (hi, n) :: fields.drop (i + 1) := by
    rw [← eq, List.getElem_cons_drop, List.take_append_drop]
  have bytes : putFields fields = putFields (fields.take i) ++ (put hi n ++ putFields (fields.drop (i + 1))) := by
    conv_lhs => rw [cut]
    simp [putFields]
  rw [bytes, ← width]
  exact fieldAt_put _ _ (by rw [length_putFields, List.map_take, row, at_]) h le

theorem readNumbers_putFields : ∀ fields : List (Nat × Nat), (∀ f ∈ fields, f.1 < 2 ^ 32 ∧ f.2 ≤ f.1) →
    readNumbers (fields.map fun f => bytesFor f.1) (putFields fields) = fields.map (·.2)
  | [], _ => rfl
  | f :: fields, all => by
    obtain ⟨small, le⟩ := all f (by simp)
    have bytes : putFields (f :: fields) = put f.1 f.2 ++ putFields fields := by simp [putFields]
    rw [List.map_cons, bytes, readNumbers, List.take_left' (length_put _ _), List.drop_left' (length_put _ _),
      getNat_put small le, readNumbers_putFields fields fun g hg => all g (List.mem_cons_of_mem _ hg)]
    rfl

/-! ## The groups of a car entry -/

/-- The fields of WRITE_CAR_PARAMS with the ends of their ranges. -/
def paramFields (e : CarEntry) : List (Nat × Nat) :=
  [(1, if e.present then 1 else 0), (5000, e.ratedLoad), (55, e.balance), (15, e.margin), (600, e.coilPower),
   (8000, e.drivePower), (95, e.efficiency), (300, e.speed), (630, e.overspeed), (4000, e.ppm), (4095, e.baseWeight),
   (2, bModeCode e.bMode), (100, e.bShare), (1, polarityCode e.polarityA), (1, polarityCode e.polarityB)]

theorem putParams_eq (e : CarEntry) : putParams e = putFields (paramFields e) := by
  have first : putBool e.present = put 1 (if e.present then 1 else 0) := by cases e.present <;> rfl
  simp [putParams, putFields, paramFields, first]

theorem boolOf_code (b : Bool) : boolOf (if b then 1 else 0) = some b := by cases b <;> rfl

theorem bModeOf_code (m : ChannelBMode) : bModeOf (bModeCode m) = some m := by cases m <;> rfl

theorem polarityOf_code (x : Polarity) : polarityOf (polarityCode x) = some x := by cases x <;> rfl

theorem bModeCode_le (m : ChannelBMode) : bModeCode m ≤ 2 := by cases m <;> decide

theorem polarityCode_le (x : Polarity) : polarityCode x ≤ 1 := by cases x <;> decide

theorem readParams_putParams {e : CarEntry} (old : CarEntry) (valid : validParams e = true) :
    readParams old (putParams e) = some { e with
      landings := old.landings, heights := old.heights, halfWidth := old.halfWidth, ruleSet := old.ruleSet } := by
  obtain ⟨ratedLoad, balance, margin, coilPower, drivePower, efficiency, speed, overspeed, ppm, baseWeight, bShare⟩ :
      (300 ≤ e.ratedLoad ∧ e.ratedLoad ≤ 5000) ∧ (35 ≤ e.balance ∧ e.balance ≤ 55) ∧ (2 ≤ e.margin ∧ e.margin ≤ 15) ∧
      (20 ≤ e.coilPower ∧ e.coilPower ≤ 600) ∧ (100 ≤ e.drivePower ∧ e.drivePower ≤ 8000) ∧
      (50 ≤ e.efficiency ∧ e.efficiency ≤ 95) ∧ (50 ≤ e.speed ∧ e.speed ≤ 300) ∧
      (e.speed + 20 ≤ e.overspeed ∧ e.overspeed ≤ 630) ∧ (100 ≤ e.ppm ∧ e.ppm ≤ 4000) ∧ e.baseWeight ≤ 4095 ∧
      e.bShare ≤ 100 := by simpa [validParams, inRange_iff, inRange_zero_iff, and_assoc] using valid
  rw [putParams_eq]
  have row : (paramFields e).map (fun f => bytesFor f.1) = [1, 2, 1, 1, 2, 2, 1, 2, 2, 2, 2, 1, 1, 1, 1] := rfl
  have present_le : (if e.present then 1 else 0) ≤ 1 := by cases e.present <;> decide
  have present_read : fieldAt (putFields (paramFields e)) 0 1 = (if e.present then 1 else 0) :=
    fieldAt_putFields row (i := 0) rfl rfl rfl (by decide) present_le
  have load_read : fieldAt (putFields (paramFields e)) 1 2 = e.ratedLoad :=
    fieldAt_putFields row (i := 1) rfl rfl rfl (by decide) ratedLoad.2
  have balance_read : fieldAt (putFields (paramFields e)) 3 1 = e.balance :=
    fieldAt_putFields row (i := 2) rfl rfl rfl (by decide) balance.2
  have margin_read : fieldAt (putFields (paramFields e)) 4 1 = e.margin :=
    fieldAt_putFields row (i := 3) rfl rfl rfl (by decide) margin.2
  have coil_read : fieldAt (putFields (paramFields e)) 5 2 = e.coilPower :=
    fieldAt_putFields row (i := 4) rfl rfl rfl (by decide) coilPower.2
  have drive_read : fieldAt (putFields (paramFields e)) 7 2 = e.drivePower :=
    fieldAt_putFields row (i := 5) rfl rfl rfl (by decide) drivePower.2
  have efficiency_read : fieldAt (putFields (paramFields e)) 9 1 = e.efficiency :=
    fieldAt_putFields row (i := 6) rfl rfl rfl (by decide) efficiency.2
  have speed_read : fieldAt (putFields (paramFields e)) 10 2 = e.speed :=
    fieldAt_putFields row (i := 7) rfl rfl rfl (by decide) speed.2
  have overspeed_read : fieldAt (putFields (paramFields e)) 12 2 = e.overspeed :=
    fieldAt_putFields row (i := 8) rfl rfl rfl (by decide) overspeed.2
  have ppm_read : fieldAt (putFields (paramFields e)) 14 2 = e.ppm :=
    fieldAt_putFields row (i := 9) rfl rfl rfl (by decide) ppm.2
  have weight_read : fieldAt (putFields (paramFields e)) 16 2 = e.baseWeight :=
    fieldAt_putFields row (i := 10) rfl rfl rfl (by decide) baseWeight
  have mode_read : fieldAt (putFields (paramFields e)) 18 1 = bModeCode e.bMode :=
    fieldAt_putFields row (i := 11) rfl rfl rfl (by decide) (bModeCode_le _)
  have share_read : fieldAt (putFields (paramFields e)) 19 1 = e.bShare :=
    fieldAt_putFields row (i := 12) rfl rfl rfl (by decide) bShare
  have polarityA_read : fieldAt (putFields (paramFields e)) 20 1 = polarityCode e.polarityA :=
    fieldAt_putFields row (i := 13) rfl rfl rfl (by decide) (polarityCode_le _)
  have polarityB_read : fieldAt (putFields (paramFields e)) 21 1 = polarityCode e.polarityB :=
    fieldAt_putFields row (i := 14) rfl rfl rfl (by decide) (polarityCode_le _)
  simp only [readParams, present_read, load_read, balance_read, margin_read, coil_read, drive_read, efficiency_read, speed_read, overspeed_read, ppm_read, weight_read, mode_read, share_read, polarityA_read, polarityB_read, boolOf_code,
    bModeOf_code, polarityOf_code]

/-! ## The map -/

theorem length_heights (l : List Nat) : (l.flatMap (put 120000)).length = 3 * l.length := by
  induction l with
  | nil => rfl
  | cons h l ih =>
    rw [List.flatMap_cons, List.length_append, ih, length_put, List.length_cons]
    have : bytesFor 120000 = 3 := rfl
    omega

theorem readMap_putMap {e : CarEntry} (old : CarEntry) (valid : validMap e = true) :
    readMap old (putMap e) =
      { old with landings := e.landings, heights := e.heights, halfWidth := e.halfWidth } := by
  obtain ⟨⟨-, landings⟩, count, range, ⟨-, halfWidth⟩, -⟩ :
      (2 ≤ e.landings ∧ e.landings ≤ 8) ∧ e.heights.length = e.landings ∧ (∀ h ∈ e.heights, h ≤ 120000) ∧
      (30 ≤ e.halfWidth ∧ e.halfWidth ≤ 150) ∧ validGaps e.halfWidth e.heights = true := by
    simpa [validMap, inRange_iff, inRange_zero_iff, and_assoc] using valid
  have one : (put 8 e.landings).length = 1 := length_put _ _
  have length : (putMap e).length = 3 * e.heights.length + 2 := by
    simp only [putMap, List.length_append, length_heights, one, length_put]
    have : bytesFor 150 = 1 := rfl
    omega
  have landings_read : fieldAt (putMap e) 0 1 = e.landings := by
    rw [putMap, List.append_assoc]
    exact fieldAt_put [] _ rfl (by decide) landings
  have halfWidth_read : fieldAt (putMap e) ((putMap e).length - 1) 1 = e.halfWidth := by
    have := fieldAt_put (place := 3 * e.heights.length + 1) (put 8 e.landings ++ e.heights.flatMap (put 120000)) []
      (by rw [List.length_append, length_heights, one]; omega) (hi := 150) (by decide) halfWidth
    rw [length]
    rwa [List.append_nil] at this
  have height_read (i : Nat) (h : i < e.heights.length) : fieldAt (putMap e) (1 + 3 * i) 3 = e.heights[i] := by
    have cut : e.heights.flatMap (put 120000) = (e.heights.take i).flatMap (put 120000) ++
        (put 120000 e.heights[i] ++ (e.heights.drop (i + 1)).flatMap (put 120000)) := by
      conv_lhs => rw [← List.take_append_drop i e.heights, ← List.getElem_cons_drop h]
      rw [List.flatMap_append, List.flatMap_cons]
    have := fieldAt_put (place := 1 + 3 * i) (put 8 e.landings ++ (e.heights.take i).flatMap (put 120000))
      ((e.heights.drop (i + 1)).flatMap (put 120000) ++ put 150 e.halfWidth) (hi := 120000) (n := e.heights[i])
      (by rw [List.length_append, length_heights, one, List.length_take]; omega) (by decide)
      (range _ (List.getElem_mem h))
    rw [putMap, cut]
    simp only [List.append_assoc] at this ⊢
    exact this
  have heights_read : readHeights (putMap e) (((putMap e).length - 2) / 3) = e.heights := by
    have n : ((putMap e).length - 2) / 3 = e.heights.length := by omega
    rw [n]
    exact List.ext_getElem (by simp [readHeights]) fun i _ h => by simpa [readHeights] using height_read i h
  simp only [readMap, landings_read, halfWidth_read, heights_read]

/-! ## The global parameters -/

theorem lineRateOf_code (r : LineRate) : lineRateOf (lineRateCode r) = some r := by cases r <;> rfl

theorem lineRateCode_le (r : LineRate) : lineRateCode r ≤ 3 := by cases r <;> decide

theorem globalRanges_small (g : Globals) : ∀ r ∈ globalRanges g, r.2.2 < 2 ^ 32 := by simp [globalRanges]

theorem globalsFrom_globalRanges (g : Globals) : globalsFrom g.lineRate ((globalRanges g).map (·.1)) = g := rfl

theorem readGlobals_putGlobals {g : Globals} (valid : validGlobals g = true) : readGlobals (putGlobals g) = some g := by
  have bounded : ∀ r ∈ globalRanges g, r.1 ≤ r.2.2 := by
    have ranges := ((Bool.and_eq_true _ _).mp ((Bool.and_eq_true _ _).mp valid).1).1
    exact fun r hr => (inRange_iff.mp (List.all_eq_true.mp ranges r hr)).2
  have rate : fieldAt (putGlobals g) 0 1 = lineRateCode g.lineRate :=
    fieldAt_put [] _ rfl (by decide) (lineRateCode_le _)
  have rest : (putGlobals g).drop 1 = putFields ((globalRanges g).map fun r => (r.2.2, r.1)) := by
    rw [putGlobals, drop_put (w := 1) rfl, putFields, List.flatMap_map]
  have numbers : readNumbers globalWidths ((putGlobals g).drop 1) = (globalRanges g).map (·.1) := by
    have := readNumbers_putFields ((globalRanges g).map fun r => (r.2.2, r.1)) (by
      intro f hf
      obtain ⟨r, hr, rfl⟩ := List.mem_map.mp hf
      exact ⟨globalRanges_small g r hr, bounded r hr⟩)
    rw [List.map_map, List.map_map] at this
    rw [rest]
    exact this
  rw [readGlobals, rate, lineRateOf_code, numbers, Option.map_some, globalsFrom_globalRanges]

/-! ## The state-of-charge table -/

theorem readPoints_flatMap : ∀ t : List SocPoint, (∀ q ∈ t, q.voltage ≤ 65535 ∧ q.energy ≤ 65535) →
    readPoints (t.flatMap fun q => put 65535 q.voltage ++ put 65535 q.energy) = t
  | [], _ => rfl
  | q :: t, all => by
    obtain ⟨voltage, energy⟩ := all q (by simp)
    have v := getNat_put (hi := 65535) (by decide) voltage
    have e := getNat_put (hi := 65535) (by decide) energy
    have rest := readPoints_flatMap t fun r hr => all r (List.mem_cons_of_mem _ hr)
    have first : readPoints (put 65535 q.voltage ++ put 65535 q.energy ++ t.flatMap fun q =>
        put 65535 q.voltage ++ put 65535 q.energy) = ⟨getNat (put 65535 q.voltage), getNat (put 65535 q.energy)⟩ ::
          readPoints (t.flatMap fun q => put 65535 q.voltage ++ put 65535 q.energy) := rfl
    rw [List.flatMap_cons, first, v, e, rest]

theorem readSoc_putSoc {t : List SocPoint} (valid : validSoc t = true) : readSoc (putSoc t) = some t := by
  obtain ⟨⟨-, count⟩, range, -⟩ : (2 ≤ t.length ∧ t.length ≤ 8) ∧
      (∀ q ∈ t, q.voltage ≤ 65535 ∧ q.energy ≤ 65535) ∧ risingSoc t = true := by
    simpa [validSoc, inRange_iff, inRange_zero_iff, and_assoc] using valid
  have points : readPoints ((putSoc t).drop 1) = t := by
    rw [putSoc, drop_put (w := 1) rfl, readPoints_flatMap t range]
  have length : fieldAt (putSoc t) 0 1 = t.length := fieldAt_put [] _ rfl (by decide) count
  rw [readSoc, points, length]
  exact if_pos rfl

/-! ## Notice pairs -/

theorem putNotice_eq (n : Notice) : putNotice n =
    [noticeCode n.kind, noticeCarByte n.car].map (BitVec.ofNat 8) := by
  obtain ⟨kind, _ | c⟩ := n <;> simp [putNotice, putNat, noticeCarByte]

theorem carriesCar_iff (k : NoticeKind) : carriesCar k = true ↔ noticeCode k ≤ 11 := by cases k <;> decide

theorem readNotices_putNotice {l : List Notice} (carries : ∀ n ∈ l, n.car.isSome = carriesCar n.kind) :
    readNotices (l.flatMap putNotice) = some l := by
  have bytes : l.flatMap putNotice =
      l.flatMap fun n => [noticeCode n.kind, noticeCarByte n.car].map (BitVec.ofNat 8) :=
    congrArg l.flatMap (funext putNotice_eq)
  have even : (l.flatMap putNotice).length % 2 = 0 := by
    rw [bytes, List.length_flatMap]
    simp
  exact (readNotices_eq_some_iff even).mpr ⟨bytes, fun n hn => by rw [carries n hn, carriesCar_iff]⟩

/-- Settles O55, group by group: every field reads back from its place. -/
theorem payloadsRoundTrip : Obligations.PayloadsRoundTrip :=
  ⟨fun _ old valid => readParams_putParams old valid, fun _ old valid => readMap_putMap old valid,
    fun _ valid => readGlobals_putGlobals valid, fun _ valid => readSoc_putSoc valid,
    fun _ carries => readNotices_putNotice carries⟩

end Sys2Proof.Machine
end

