-- ==== Sys2Proof/Proofs/PanelCommands.lean ====
section
/-!
PROOFS. The commands on a car that its own blocks answer (R27, R71, R81, R182), RELEASE_HOLD and INHIBIT_CAR (R76, R79), and
CONFIRM_POSITION (R67, R96).
-/

namespace Sys2Proof.Machine

variable {s : State} {q : Port} {body rest : List Byte} {c : Car} {p : Part} {f : CarBlock → CarBlock} {code : Byte}

/-- An update of a car reads no response buffer. -/
theorem beginHandling_modCar : (p.beginHandling q code body).modCar c f = (p.modCar c f).beginHandling q code body :=
  modCar_modPort f

/-- A request that updates its car alone, and leaves demand. -/
theorem runCarRequest_of_modCar {h : Car → List Byte → Part → Answer} (g : s.givenCar q code body c rest)
    (e : h c rest (s.toPart.beginHandling q code body) = ((s.toPart.beginHandling q code body).modCar c f).accept)
    (d : isDemandState (f (s.car c)).record.state = isDemandState (s.stateOf c)) :
    runCarRequest s q code body h = .next (s.answered (s.modCar c f) q .ok []) :=
  runCarRequest_of_answer g (e.trans (congrArg Part.accept beginHandling_modCar)) (modCar_demand d)

/-! ## Line counts, override, tone, CLEAR_CAR -/

theorem execClearLineCounts_eq (g : s.givenCar q 21 body c rest) : execClearLineCounts q body s = .next (s.answered
    (s.modLine c fun l => { l with parityErrors := 0, framingErrors := 0, overruns := 0, badFrames := 0 }) q .ok []) :=
  runCarRequest_of_modCar g (f := fun b =>
    { b with line := { b.line with parityErrors := 0, framingErrors := 0, overruns := 0, badFrames := 0 } }) rfl rfl

theorem execClearFirst_eq (g : s.givenCar q 46 body c rest) : execClearFirst q body s =
    .next (s.answered (s.modRecord c fun r => { r with first := false }) q .ok []) :=
  runCarRequest_of_modCar g (f := fun b => { b with record := { b.record with first := false } }) rfl rfl

theorem execSilenceTone_eq (g : s.givenCar q 47 body c rest) : execSilenceTone q body s = .next (s.answered
    (s.modSignals c fun x => { x with
      playing := none, waiting := none, silenced := x.silenced || isTrapped (s.stateOf c) }) q .ok []) := by
  have silence (x : CarSignals) (t : Bool) : x.silence t =
      { x with playing := none, waiting := none, silenced := x.silenced || t } := by
    rw [CarSignals.silence, Bool.or_comm]
  refine runCarRequest_of_modCar g (f := fun b => { b with signals := { b.signals with
    playing := none, waiting := none, silenced := b.signals.silenced || isTrapped (s.stateOf c) } }) ?_ rfl
  simp only [Part.beginHandling_stateOf, silence]
  rfl

theorem execClearCar_rescued (g : s.givenCar q 13 body c rest) (rescued : s.stateOf c = .rescued) :
    ∃ t, execClearCar q body s = .next t ∧ t.car c = ((s.car c).returned s.globals).judged s.globals ∧
      OnlyCar c (s.responded q .ok []) t.toPart ∧ PassKept s.toPart t.toPart := by
  have own : ((s.toPart.beginHandling q 13 body).toNormal c).car c =
      ((s.car c).returned s.globals).judged s.globals := by
    rw [Part.toNormal_own (by rw [Part.beginHandling_stateOf, rescued]; rfl), Part.beginHandling_car,
      Part.beginHandling_globals]
  exact runCarRequest_onlyCar g (by simp [rescued]) (touchesOnly_toNormal _ c) (Part.toNormal_ports _ c) own
    (by rw [CarBlock.judged_isDemandState, rescued]; rfl)

theorem execClearCar_refused (g : s.givenCar q 13 body c rest) (other : s.stateOf c ≠ .rescued) :
    execClearCar q body s = .next (s.answered s.toPart q .notAllowed []) :=
  runCarRequest_of_refused g (by simp [other])

/-- Settles O23, command by command. -/
theorem carCommands : Obligations.CarCommands := by
  refine fun s q body c rest => ⟨fun g => execClearLineCounts_eq g, fun g => execClearFirst_eq g,
    fun g => execSilenceTone_eq g, fun g => ⟨fun rescued => ?_, fun other => execClearCar_refused g other⟩⟩
  obtain ⟨t, run, own, only, pass⟩ := execClearCar_rescued g rescued
  exact ⟨t, run, only, pass, own⟩

/-! ## RELEASE_HOLD and INHIBIT_CAR -/

/-- The blocks of a car that INHIBIT_CAR aborts, before it leaves its state (R79). -/
def CarBlock.abortedForInhibit (b : CarBlock) : CarBlock :=
  if isMoveState b.record.state then
    { b.cancelled with brake := b.brake.close, record := { b.record with lastAbort := some .inhibit } }
  else b

theorem abortForInhibit_eq (p : Part) (c : Car) : p.abortForInhibit c = p.modCar c (·.abortedForInhibit) := by
  unfold Part.abortForInhibit
  split
  · next moves =>
    rw [cancelIfDriving_eq, Part.closeBrake, Part.modBrake, Part.modCar_modCar, Part.setAbort, Part.modRecord,
      Part.modCar_modCar]
    exact Part.modCar_congr (by simp only [CarBlock.abortedForInhibit]; exact (if_pos moves).symm)
  · next rests => exact (Part.modCar_self (if_neg rests)).symm

theorem abortedForInhibit_state (b : CarBlock) : b.abortedForInhibit.record.state = b.record.state := by
  unfold CarBlock.abortedForInhibit; split <;> rfl

/-- The blocks of a car that INHIBIT_CAR has taken to INHIBITED, as the abort and the change of state leave them. -/
theorem inhibited_eq (b : CarBlock) (g : Globals) :
    (let m := b.abortedForInhibit.moved g .inhibited none
     ({ m with record := { m.record with attempts := 0 } } : CarBlock)) =
    (let m := b.cancelled.moved g .inhibited none
     { m with
       record := { m.record with
         attempts := 0, lastAbort := if isMoveState b.record.state then some .inhibit else b.record.lastAbort }
       brake := if isMoveState b.record.state then b.brake.close else b.brake }) := by
  unfold CarBlock.abortedForInhibit
  split
  · simp only [CarBlock.moved, CarBrake.close_close, ite_self]
    rfl
  · next rests =>
    have brake : isBrakeState b.record.state = false := by
      cases h : b.record.state <;> simp [h, isMoveState] at rests <;> rfl
    have quiet : b.cancelled = b := by
      have : b.record.state ≠ .driving := fun e => rests (by rw [e]; rfl)
      unfold CarBlock.cancelled
      cases h : b.record.moveId <;> simp only [if_neg this]
    rw [quiet]
    simp only [CarBlock.moved, brake]
    rfl

theorem inhibitCar_handled (other : s.stateOf c ≠ .inhibited) :
    ∃ h, execInhibitCar q body s = runCarRequest s q 40 body h ∧ h c rest (s.toPart.beginHandling q 40 body) =
      (((s.toPart.beginHandling q 40 body).abortForInhibit c).change c (·.toInhibited c)).accept :=
  ⟨_, rfl, if_neg (by rw [Part.beginHandling_stateOf]; exact other)⟩

theorem execInhibitCar_inhibits (g : s.givenCar q 40 body c rest) (other : s.stateOf c ≠ .inhibited) :
    let m := (s.car c).abortedForInhibit.moved s.globals .inhibited none
    ∃ t, execInhibitCar q body s = .next t ∧ t.car c = { m with record := { m.record with attempts := 0 } } ∧
      CarEvent c [] (s.responded q .ok []) t.toPart ∧ PassKept s.toPart t.toPart := by
  intro m
  have state (x : Part) : (x.toInhibited c).stateOf c = .inhibited := by
    unfold Part.stateOf; rw [Part.toInhibited_own]; rfl
  have pre : Prelude c [] (s.toPart.beginHandling q 40 body) ((s.toPart.beginHandling q 40 body).abortForInhibit c) := by
    rw [abortForInhibit_eq]; exact prelude_modCar (abortedForInhibit_state _)
  obtain ⟨turn, pass⟩ := carTurn_change (go := (·.toInhibited c)) (fun x => touchesOnly_toInhibited x c)
    (.of_eq rfl rfl) (by rw [state]; decide) (by rw [state]; intro h e; rw [← e] at h; exact absurd h (by decide)) pre
  rw [if_neg (by rw [state]; decide)] at pass
  have own := Part.change_toInhibited_own ((s.toPart.beginHandling q 40 body).abortForInhibit c) c
  have globals : ((s.toPart.beginHandling q 40 body).abortForInhibit c).globals = s.globals := by
    rw [abortForInhibit_eq]; exact Part.beginHandling_globals _ _ _ _
  have blocks : ((s.toPart.beginHandling q 40 body).abortForInhibit c).car c = (s.car c).abortedForInhibit := by
    rw [abortForInhibit_eq, Part.modCar_car, if_pos rfl, Part.beginHandling_car]
  rw [globals, blocks] at own
  obtain ⟨h, ran, handled⟩ := inhibitCar_handled (q := q) (body := body) (rest := rest) other
  obtain ⟨t, run, car, event, kept, -⟩ := runCarRequest_event g handled turn (by unfold Part.stateOf; rw [own]; rfl)
  exact ⟨t, ran.trans run, car.trans own, event, kept pass⟩

theorem execInhibitCar_refused (g : s.givenCar q 40 body c rest) (inhibited : s.stateOf c = .inhibited) :
    execInhibitCar q body s = .next (s.answered s.toPart q .notAllowed []) :=
  runCarRequest_of_refused g (by simp [inhibited])

theorem execReleaseHold_releases (g : s.givenCar q 43 body c rest) (held : (s.car c).record.state = .held)
    (safety : (s.car c).record.heldCause = some .safety) (closed : (s.car c).inputs.chain.accepted = some true) :
    ∃ t, execReleaseHold q body s = .next t ∧ t.car c = (s.car c).assessed s.globals ∧
      CarEvent c ((s.car c).assessedNotices c) (s.responded q .ok []) t.toPart ∧
      (s.car c).AssessedPass s.toPart t.toPart :=
  runCarRequest_toAssessing g (a := s.toPart.beginHandling q 43 body)
    (by simp [held, safety, closed, Part.chainClosed, LevelFilter.isOn]) (.refl c _) (Part.beginHandling_car _ _ _ _ _)

theorem execReleaseHold_refused (g : s.givenCar q 43 body c rest) (other : ¬((s.car c).record.state = .held ∧
    (s.car c).record.heldCause = some .safety ∧ (s.car c).inputs.chain.accepted = some true)) :
    execReleaseHold q body s = .next (s.answered s.toPart q .notAllowed []) :=
  runCarRequest_of_refused g (if_neg fun h => other (by simpa [Part.chainClosed, LevelFilter.isOn] using h))

/-- Settles O26: RELEASE_HOLD by the cause that holds the car and its chain, INHIBIT_CAR by the car's state. -/
theorem holdAndInhibit : Obligations.HoldAndInhibit := by
  refine ⟨fun s q body c rest g => ⟨fun held safety closed => execReleaseHold_releases g held safety closed,
      fun other => execReleaseHold_refused g other⟩,
    fun s q body c rest g => ⟨fun other => ?_, fun inhibited => execInhibitCar_refused g inhibited⟩⟩
  obtain ⟨t, run, own, event, pass⟩ := execInhibitCar_inhibits g other
  exact ⟨t, run, own.trans (inhibited_eq _ _), event, pass⟩

/-! ## CONFIRM_POSITION -/

theorem seedTracker_eq (p : Part) (c : Car) (zone : Nat) (a : Anchor) (confirmed : Bool) :
    p.seedTracker c zone a confirmed = p.modCar c (·.seeded (p.entry c) zone a confirmed) := rfl

theorem confirmAnchor_eq (zone : Nat) (offset : Option Nat) : confirmAnchor zone offset =
    (match offset with
     | some o => .seed zone o
     | none => if zone % 2 = 0 then .edge .level else .none) := by
  cases offset with
  | some o => rfl
  | none => simp [confirmAnchor, isLandingZone]

theorem takesConfirmation_iff (r : CarRecord) : takesConfirmation r = true ↔
    r.heldCause = some .position ∧ r.state = .held ∨ r.state = .levelling ∨ r.state = .assessing ∨ r.state = .ready := by
  simp only [takesConfirmation, Bool.or_eq_true, Bool.and_eq_true, beq_iff_eq, or_assoc, and_comm]

theorem validPosition_iff (e : CarEntry) (zone : Nat) (offset : Option Nat) : validPosition e zone offset = true ↔
    zone < 2 * e.landings - 1 ∧ ∀ o, offset = some o → o ≤ zoneLength e zone := by
  rw [validPosition, Bool.and_eq_true, decide_eq_true_eq]
  exact and_congr Iff.rfl (by cases offset <;> simp)

theorem fieldAt_head (b : Byte) (l : List Byte) : fieldAt (b :: l) 0 1 = b.toNat := by simp [fieldAt, getNat]

/-- The blocks of a car whose landing reached becomes that of a zone (R67). -/
def CarBlock.landedAt (b : CarBlock) (zone : Nat) : CarBlock :=
  { b with record := { b.record with summary := { b.record.summary with landing := some (zone / 2) } } }

section
variable {z : Byte} {offset : Option Nat}

/-- The part on which the car record acts, once the tracker is forced. -/
def Part.forced (p : Part) (c : Car) (zone : Nat) (offset : Option Nat) : Part :=
  p.modCar c (·.seeded (p.entry c) zone (confirmAnchor zone offset) true)

theorem confirmPosition_handled (taken : takesConfirmation (s.car c).record = true) (read : readOffset rest = some offset)
    (valid : validPosition (s.entry c) z.toNat offset = true) :
    ∃ h, execConfirmPosition q body s = runCarRequest s q 42 body h ∧
      h c (z :: rest) (s.toPart.beginHandling q 42 body) =
        (((s.toPart.beginHandling q 42 body).forced c z.toNat offset).confirmed c z.toNat).accept := by
  refine ⟨_, rfl, ?_⟩
  simp only [Part.beginHandling_car, Part.beginHandling_entry, taken, fieldAt_head, List.drop_succ_cons, List.drop_zero,
    read, Option.filter_some, valid, Bool.not_true, Bool.false_eq_true, if_false, if_true, Part.forced,
    seedTracker_eq]

theorem forced_beginHandling (zone : Nat) : (p.beginHandling q code body).forced c zone offset =
    (p.beginHandling q code body).modCar c (·.seeded (p.entry c) zone (confirmAnchor zone offset) true) := by
  rw [Part.forced, Part.beginHandling_entry]

theorem confirmed_rests {zone : Nat} (h : p.stateOf c = .assessing ∨ p.stateOf c = .held ∧ zone % 2 = 1) :
    p.confirmed c zone = p := by
  unfold Part.confirmed
  rcases h with h | ⟨h, odd⟩
  · rw [h]
  · rw [h]
    exact if_neg (by simp [isLandingZone, odd])

theorem confirmed_lands {zone : Nat} (h : p.stateOf c = .levelling) : p.confirmed c zone = p.modCar c (·.landedAt zone) := by
  unfold Part.confirmed
  rw [h]
  rfl

theorem confirmed_assesses {zone : Nat} (h : p.stateOf c = .ready) :
    p.confirmed c zone = p.change c (·.toAssessing c) := by
  unfold Part.confirmed
  rw [h]

theorem confirmed_releases {zone : Nat} (h : p.stateOf c = .held) (even : zone % 2 = 0) :
    p.confirmed c zone = (p.modCar c (·.landedAt zone)).change c (·.toReleasing c) := by
  unfold Part.confirmed
  rw [h]
  exact if_pos (by simp [isLandingZone, even])

theorem CarBlock.releasing_quiet (b : CarBlock) (g : Globals) : isDemandState (b.releasing g).record.state = false := by
  unfold CarBlock.releasing
  split
  · rfl
  · split <;> rfl

theorem execConfirmPosition_refused (g : s.givenCar q 42 body c (z :: rest))
    (other : takesConfirmation (s.car c).record = false) :
    execConfirmPosition q body s = .next (s.answered s.toPart q .notAllowed []) :=
  runCarRequest_of_refused g (by simp [other])

theorem execConfirmPosition_badValue (g : s.givenCar q 42 body c (z :: rest))
    (taken : takesConfirmation (s.car c).record = true)
    (bad : (readOffset rest).filter (validPosition (s.entry c) z.toNat) = none) :
    execConfirmPosition q body s = .next (s.answered s.toPart q .badValue []) :=
  runCarRequest_of_refused g (by simp [taken, fieldAt_head, bad])

/-- Settles O27: the tests of the command, and then the car record by its state. -/
theorem positionConfirmed : Obligations.PositionConfirmed := by
  unfold Obligations.PositionConfirmed
  intro s q body c z rest g zone r taken
  have takes : takesConfirmation (s.car c).record = true ↔ taken := takesConfirmation_iff _
  refine ⟨fun other => execConfirmPosition_refused g (Bool.not_eq_true _ ▸ mt takes.mp other),
    fun on unread => execConfirmPosition_badValue g (takes.mpr on) (by rw [unread]; rfl), fun offset read on => ?_⟩
  intro valid anchor forced landed before
  have right : validPosition (s.entry c) zone offset = true ↔ valid := validPosition_iff _ _ _
  refine ⟨fun bad => execConfirmPosition_badValue g (takes.mpr on) ?_, fun good => ?_⟩
  · rw [read, Option.filter_some, if_neg (mt right.mp bad)]
  obtain ⟨h, run, handled⟩ := confirmPosition_handled (q := q) (body := body) (takes.mpr on) read (right.mpr good)
  change execConfirmPosition q body s = runCarRequest s q 42 body h at run
  simp only [show exec (.confirmPosition q body) s = execConfirmPosition q body s from rfl, run]
  rw [forced_beginHandling, confirmAnchor_eq] at handled
  change h c (z :: rest) (s.toPart.beginHandling q 42 body) = (((s.toPart.beginHandling q 42 body).modCar c
    (·.seeded (s.entry c) zone anchor true)).confirmed c zone).accept at handled
  have state : ((s.toPart.beginHandling q 42 body).modCar c (·.seeded (s.entry c) zone anchor true)).stateOf c =
      r.state := by unfold Part.stateOf; rw [Part.modCar_car, if_pos rfl, Part.beginHandling_car]; rfl
  refine ⟨fun held even => ?releases, fun rests => ?rests, fun levels => ?lands, fun ready => ?assesses⟩
  case rests =>
    rw [confirmed_rests (by rw [state]; exact rests)] at handled
    exact (runCarRequest_of_modCar g handled rfl).trans
      (congrArg (fun x => Host.Outcome.next (s.answered x q .ok [])) (Part.modCar_congr rfl))
  case lands =>
    rw [confirmed_lands (state.trans levels), Part.modCar_modCar] at handled
    exact (runCarRequest_of_modCar g handled rfl).trans
      (congrArg (fun x => Host.Outcome.next (s.answered x q .ok [])) (Part.modCar_congr rfl))
  case assesses =>
    rw [confirmed_assesses (state.trans ready)] at handled
    exact runCarRequest_toAssessing g handled (prelude_modCar rfl)
      (by rw [Part.modCar_car, if_pos rfl, Part.beginHandling_car])
  case releases =>
    rw [confirmed_releases (state.trans held) even, Part.modCar_modCar] at handled
    obtain ⟨turn, own, pass⟩ := carTurn_toReleasing (c := c)
      (p := (s.toPart.beginHandling q 42 body).modCar c fun b => (b.seeded (s.entry c) zone anchor true).landedAt zone)
      (by unfold Part.stateOf; rw [Part.modCar_car, if_pos rfl, Part.beginHandling_car]
          show r.state ≠ _; rw [held]; decide)
      (prelude_modCar rfl)
    have blocks : ((s.toPart.beginHandling q 42 body).modCar c fun b =>
        (b.seeded (s.entry c) zone anchor true).landedAt zone).car c = landed := by
      rw [Part.modCar_car, if_pos rfl, Part.beginHandling_car]; rfl
    have globals : ((s.toPart.beginHandling q 42 body).modCar c fun b =>
        (b.seeded (s.entry c) zone anchor true).landedAt zone).globals = s.globals :=
      Part.beginHandling_globals _ _ _ _
    rw [blocks, globals] at own turn
    obtain ⟨t, ran, car, event, kept, -⟩ := runCarRequest_event g handled turn
      (by unfold Part.stateOf; rw [own]; exact CarBlock.releasing_quiet _ _)
    exact ⟨t, ran, car.trans own, event, kept pass⟩

end

end Sys2Proof.Machine
end

