-- ==== Sys2Proof/Proofs/SupplyFault.lean ====
section
/-!
PROOFS. The entries of the converter to STANDBY, WAKING and ON (R147, R148), and CLEAR_SUPPLY_FAULT (R150).
-/

namespace Sys2Proof.Machine

variable {p : Part} {s : State} {q : Port} {body payload : List Byte} {c : Car}

/-! ## The entry to STANDBY -/

/-- The supply as the converter enters STANDBY (R147). -/
def Supply.standby (x : Supply) : Supply :=
  { x with converter := .standby, enable := false, wakeTimer := none, standbyTimer := none }

/-- The supply as the converter enters WAKING (R148). -/
def Supply.waking (x : Supply) (g : Globals) : Supply :=
  { x with converter := .waking, enable := true, wakeTimer := some g.wakeLimit, standbyTimer := none }

/-- The supply as a converter that demand wakes enters ON (R148). -/
def Supply.wokenOn (x : Supply) : Supply :=
  { x with converter := .on, enable := true, wakeTimer := none, standbyTimer := none, wakeFailures := 0 }

theorem converterWake_waits (h : p.converterInput.accepted ≠ some true) :
    p.converterWake = p.modSupply (·.waking p.globals) :=
  if_neg (by simpa [LevelFilter.isOn] using h)

theorem converterWake_ready (h : p.converterInput.accepted = some true) (d : p.demand = true) :
    p.converterWake = (p.modSupply (·.wokenOn)).select := by
  have waking : (p.modSupply (·.waking p.globals)).converterOn = (p.modSupply (·.wokenOn)).select := by
    unfold Part.converterOn
    rw [Part.modSupply_demand, d]
    rfl
  exact (if_pos (by simp [LevelFilter.isOn, h])).trans waking

theorem converterStandby_idle (d : p.demand = false) : p.converterStandby = p.modSupply (·.standby) :=
  if_neg (by rw [Part.modSupply_demand, d]; decide)

theorem converterStandby_wakes (d : p.demand = true) : p.converterStandby = (p.modSupply (·.standby)).converterWake :=
  if_pos d

theorem converterStandby_waits (d : p.demand = true) (h : p.converterInput.accepted ≠ some true) :
    p.converterStandby = p.modSupply (·.waking p.globals) := by
  rw [converterStandby_wakes d, converterWake_waits (p := p.modSupply (·.standby)) h]
  rfl

theorem converterStandby_ready (d : p.demand = true) (h : p.converterInput.accepted = some true) :
    p.converterStandby = (p.modSupply (·.wokenOn)).select := by
  rw [converterStandby_wakes d, converterWake_ready (p := p.modSupply (·.standby)) h d]
  rfl

/-- The entry to STANDBY is what R147 and R148 make of it, by the demand that stands. -/
theorem converterStandby_eq (p : Part) : p.converterStandby = p.standbyEntered := by
  have judged : p.standbyEntered = (p.modSupply (·.standby)).demandJudged false := rfl
  have settled : ∀ has, (p.modSupply (·.standby)).demand = has → (p.modSupply (·.standby)).supplyJudged false has =
      if has = true then (if p.converterInput.accepted = some true then p.supply.wokenOn else p.supply.waking p.globals)
      else p.supply.standby := by
    intro has _
    cases has <;> rfl
  have supply := settled _ rfl
  rw [Part.modSupply_demand] at supply
  rw [judged, Part.demandJudged, Part.modSupply_demand, supply]
  cases d : p.demand with
  | false => rw [converterStandby_idle d]; rfl
  | true =>
    by_cases h : p.converterInput.accepted = some true
    · rw [converterStandby_ready d h, if_pos rfl, if_pos h]
      exact (if_pos ⟨by show ConverterState.standby ≠ _; decide, rfl⟩).symm
    · rw [converterStandby_waits d h, if_pos rfl, if_neg h]
      exact (if_neg fun k => absurd k.2 (by show ConverterState.waking ≠ _; decide)).symm

/-! ## CLEAR_SUPPLY_FAULT -/

theorem modSupply_beginHandling (p : Part) (q : Port) (code : Byte) (body : List Byte) (f : Supply → Supply) :
    (p.beginHandling q code body).modSupply f = (p.modSupply f).beginHandling q code body := by cases q <;> rfl

theorem beginHandling_demand (p : Part) (q : Port) (code : Byte) (body : List Byte) :
    (p.beginHandling q code body).demand = p.demand := modPort_demand p q _

theorem converterStandby_beginHandling (p : Part) (q : Port) (code : Byte) (body : List Byte) :
    (p.beginHandling q code body).converterStandby = p.converterStandby.beginHandling q code body := by
  have ready : (p.beginHandling q code body).converterInput = p.converterInput := by cases q <;> rfl
  cases d : p.demand with
  | false =>
    rw [converterStandby_idle d, converterStandby_idle ((beginHandling_demand _ _ _ _).trans d), modSupply_beginHandling]
  | true =>
    have d' := (beginHandling_demand p q code body).trans d
    by_cases h : p.converterInput.accepted = some true
    · rw [converterStandby_ready d h, converterStandby_ready d' (by rw [ready, h]), modSupply_beginHandling,
        select_beginHandling]
    · rw [converterStandby_waits d h, converterStandby_waits d' (by rw [ready]; exact h), modSupply_beginHandling,
        Part.beginHandling_globals]

theorem converterStandby_demand (p : Part) : p.converterStandby.demand = p.demand := by
  cases d : p.demand with
  | false => rw [converterStandby_idle d, Part.modSupply_demand, d]
  | true => rw [converterStandby_wakes d, Part.converterWake_demand, Part.modSupply_demand, d]

/-- The part once CLEAR_SUPPLY_FAULT has forgotten the failures (R150). -/
def Part.faultForgotten (p : Part) : Part := p.modSupply fun x => { x with wakeFailures := 0 }

theorem execClearSupplyFault_refused (g : s.given q 14 body payload) (h : s.supply.converter ≠ .fault) :
    execClearSupplyFault q body s = .next (s.answered s.toPart q .notAllowed []) :=
  runRequest_of_refused g (if_neg (by rw [Part.beginHandling_supply]; exact h))

theorem execClearSupplyFault_cleared (g : s.given q 14 body payload) (h : s.supply.converter = .fault) :
    execClearSupplyFault q body s = .next (s.answered s.toPart.faultForgotten.converterStandby q .ok []) := by
  refine runRequest_of_answer g ((if_pos (by rw [Part.beginHandling_supply]; exact h)).trans ?_)
    ((converterStandby_demand _).trans (Part.modSupply_demand _ _))
  rw [modSupply_beginHandling, converterStandby_beginHandling]
  rfl

/-- Settles O30: the entry to STANDBY by demand and by the ready level. -/
theorem supplyFaultCleared : Obligations.SupplyFaultCleared := by
  intro s q body payload g before
  have cleared := execClearSupplyFault_cleared g
  refine ⟨fun other => execClearSupplyFault_refused g other, fun fault idle => ?_, fun fault demand waits => ?_,
    fun fault demand ready => ?_⟩
  · have run := cleared fault
    rw [converterStandby_idle (p := s.toPart.faultForgotten) idle] at run
    exact run
  · have run := cleared fault
    rw [converterStandby_waits (p := s.toPart.faultForgotten) demand waits] at run
    exact run
  · intro woken
    have run := cleared fault
    rw [converterStandby_ready (p := s.toPart.faultForgotten) demand ready] at run
    have same : (s.toPart.faultForgotten.modSupply (·.wokenOn)).select.responded q .ok [] = woken.select := by
      rw [← select_responded]
      refine congrArg Part.select ?_
      cases q <;> rfl
    have keeps : KeepsRest before woken := keepsRest_modSupply before fun _ => woken.supply
    refine ⟨_, run.trans (congrArg (fun x => Host.Outcome.next (s.withPart x)) same), rfl,
      keeps.trans (keepsRest_select _), ?_, (keepsPlans_select woken).supply, fun c rests => ?_⟩
    · exact (passKept_responded q .ok []).trans
        ⟨(keepsPlans_select woken).pass, (keepsPlans_select woken).requestPending⟩
    · have car : woken.car c = s.car c := Part.modPort_car _ _ _ _
      exact (Part.select_car woken c (by unfold Part.stateOf; rw [car]; exact rests)).trans car

end Sys2Proof.Machine
end

