-- ==== Sys2Proof/Proofs/SelectionGrants.lean ====
section
/-!
PROOFS. A selection (R156): the order in which it takes the READY cars, what it does with each, and what a grant makes of the
car and of the account of slots and energy.
-/

namespace Sys2Proof.Machine

variable {p q r : Part} {c d : Car} {m : PlanMethod} {st : RescueState} {b : CarBlock} {g : Globals}

/-! ## The order -/

/-- Car c goes before car d in a selection (R156). -/
def Part.Before (p : Part) (c d : Car) : Prop :=
  ((p.car c).record.first = true ∧ (p.car d).record.first = false) ∨
  ((p.car c).record.first = (p.car d).record.first ∧
    ((p.car d).planner.urgency < (p.car c).planner.urgency ∨
      ((p.car d).planner.urgency = (p.car c).planner.urgency ∧ c < d)))

theorem ordersBefore_iff (p : Part) (c d : Car) : p.ordersBefore c d = true ↔ p.Before c d := by
  unfold Part.ordersBefore Part.Before
  dsimp only
  generalize (p.car c).record.first = x, (p.car d).record.first = y, (p.car c).planner.urgency = m,
    (p.car d).planner.urgency = n
  by_cases flags : x = y
  · subst flags
    by_cases same : m = n
    · subst same; simp
    · cases x <;> simp [same, Ne.symm same]
  · cases x <;> cases y <;> simp at flags ⊢

theorem before_trans {e : Car} (h : p.Before c d) (k : p.Before d e) : p.Before c e := by
  unfold Part.Before at *
  rcases h with ⟨hc, hd⟩ | ⟨same, h⟩ <;> rcases k with ⟨kd, ke⟩ | ⟨same', k⟩
  · exact absurd (hd.symm.trans kd) (by decide)
  · exact .inl ⟨hc, same'.symm.trans hd⟩
  · exact .inl ⟨same.trans kd, ke⟩
  · refine .inr ⟨same.trans same', ?_⟩
    rcases h with h | ⟨h, lt⟩ <;> rcases k with k | ⟨k, lt'⟩
    · exact .inl (k.trans h)
    · exact .inl (k ▸ h)
    · exact .inl (h ▸ k)
    · exact .inr ⟨k.trans h, lt.trans lt'⟩

theorem before_of_not (h : ¬p.Before c d) (k : c ≠ d) : p.Before d c := by
  unfold Part.Before at *
  by_cases same : (p.car c).record.first = (p.car d).record.first
  · refine .inr ⟨same.symm, ?_⟩
    rcases lt_trichotomy (p.car c).planner.urgency (p.car d).planner.urgency with lt | eq | gt
    · exact .inl lt
    · exact .inr ⟨eq, (lt_or_gt_of_ne k).resolve_left fun lt => h (.inr ⟨same, .inr ⟨eq.symm, lt⟩⟩)⟩
    · exact (h (.inr ⟨same, .inl gt⟩)).elim
  · cases hc : (p.car c).record.first with
    | false => exact .inl ⟨by rw [hc] at same; simpa using same, rfl⟩
    | true => exact (h (.inl ⟨hc, by rw [hc] at same; simpa using same⟩)).elim

theorem pairwise_insertCar : ∀ {l : List Car}, l.Pairwise p.Before → c ∉ l → (p.insertCar c l).Pairwise p.Before
  | [], _, _ => List.pairwise_singleton _ _
  | d :: l, sorted, fresh => by
    obtain ⟨first, rest⟩ := List.pairwise_cons.mp sorted
    unfold Part.insertCar
    split
    · next before =>
      have before := (ordersBefore_iff p c d).mp before
      refine List.pairwise_cons.mpr ⟨fun e he => ?_, sorted⟩
      rcases List.mem_cons.mp he with rfl | later
      · exact before
      · exact before_trans before (first e later)
    · next after =>
      have after := before_of_not (mt (ordersBefore_iff p c d).mpr after) fun e => fresh (by simp [e])
      refine List.pairwise_cons.mpr ⟨fun e he => ?_, pairwise_insertCar rest fun h => fresh (by simp [h])⟩
      rcases p.mem_insertCar c e l he with rfl | later
      · exact after
      · exact first e later

theorem pairwise_foldl_insertCar : ∀ (l acc : List Car), acc.Pairwise p.Before → (l ++ acc).Nodup →
    (l.foldl (fun l c => p.insertCar c l) acc).Pairwise p.Before
  | [], _, sorted, _ => sorted
  | c :: l, acc, sorted, once => by
    obtain ⟨fresh, rest⟩ := List.nodup_cons.mp once
    refine pairwise_foldl_insertCar l _ (pairwise_insertCar sorted fun h => fresh (by simp [h])) ?_
    have : (l ++ p.insertCar c acc).Perm (c :: (l ++ acc)) :=
      ((p.perm_insertCar c acc).append_left l).trans List.perm_middle
    exact this.nodup_iff.mpr once

theorem pairwise_readyOrder (p : Part) : p.readyOrder.Pairwise p.Before :=
  pairwise_foldl_insertCar _ [] .nil (by simpa using (by decide : allCars.Nodup).filter _)

/-! ## A car in its turn -/

theorem slotFree_iff (p : Part) (m : PlanMethod) : p.slotFree m = true ↔
    ((m = .probe ∨ m = .gravityDown ∨ m = .gravityUp) ∧ p.brakeHeld < p.globals.brakeSlots) ∨
    ((m = .poweredUp ∨ m = .poweredDown) ∧ p.driveHeld < p.globals.driveSlots) := by
  cases m <;> simp [Part.slotFree, needsBrakeSlot, needsDriveSlot]

theorem affords_iff (p : Part) (n : Nat) : p.affords n = true ↔
    p.supply.belief = .present ∨ n ≤ p.supply.usable.getD 0 - p.reserved := by simp [Part.affords]

theorem consider_passed (h : ∀ m, (r.car c).planner.plan.method = some m → r.slotFree m = false) : r.consider c = r := by
  cases planned : (r.car c).planner.plan.method with
  | none => simp only [Part.consider, planned]
  | some m => simp only [Part.consider, planned, h m planned, Bool.false_eq_true, if_false]

theorem consider_granted (planned : (r.car c).planner.plan.method = some m) (free : r.slotFree m = true)
    (affords : r.affords ((r.car c).planner.plan.estimate.getD 0) = true) : r.consider c = r.grant c m := by
  simp [Part.consider, planned, free, affords]

theorem consider_short (planned : (r.car c).planner.plan.method = some m) (free : r.slotFree m = true)
    (short : r.affords ((r.car c).planner.plan.estimate.getD 0) = false) : r.consider c = r.flagShort c := by
  simp [Part.consider, planned, free, short]

/-! ## The blocks of a granted car -/

theorem CarBlock.eq_of_blocks {x y : CarBlock} (line : x.line = y.line) (inputs : x.inputs = y.inputs)
    (record : x.record = y.record) (tracker : x.tracker = y.tracker) (planner : x.planner = y.planner)
    (policy : x.policy = y.policy) (slots : x.slots = y.slots) (brake : x.brake = y.brake)
    (signals : x.signals = y.signals) : x = y := by
  cases x; cases y; simp_all only

theorem requestTone_playing (x : CarSignals) (g : Globals) (t : TonePattern) : (x.requestTone g t).playing =
    some (x.playing.getD ⟨t, 0, if t = .levelled then 600 else 150, g.toneHigh, g.toneLow, true⟩) := by
  cases h : x.playing <;> simp [CarSignals.requestTone, h, startPattern_eq]

theorem requestTone_waiting (x : CarSignals) (g : Globals) (t : TonePattern) : (x.requestTone g t).waiting =
    if x.playing.isSome = true then some t else x.waiting := by
  cases h : x.playing <;> simp [CarSignals.requestTone, h, startPattern_eq]

theorem stated_playing (b : CarBlock) (g : Globals) (new : RescueState) (held : Option HeldCause) :
    (b.stated g new held).signals.playing = b.signals.playing ∧
    (b.stated g new held).signals.waiting = b.signals.waiting := by
  simp only [CarBlock.stated]
  split <;> exact ⟨rfl, rfl⟩

theorem granted_signals (e : CarEntry) (h : moveStateOf m = some st) :
    (b.granted e g m st).signals.playing = (if m = .probe then b.signals.playing
      else some (b.signals.playing.getD ⟨.moveStart, 0, 150, g.toneHigh, g.toneLow, true⟩)) ∧
    (b.granted e g m st).signals.waiting =
      (if m ≠ .probe ∧ b.signals.playing.isSome = true then some .moveStart else b.signals.waiting) := by
  obtain ⟨playing, waiting⟩ := stated_playing b g st none
  have tone : (b.granted e g m st).signals = if m = .probe then (b.stated g st none).signals
      else (b.stated g st none).signals.requestTone g .moveStart := by
    cases m <;> first | rfl | cases h
  rw [tone]
  by_cases probe : m = .probe
  · simp [probe, playing, waiting]
  · simp [probe, requestTone_playing, requestTone_waiting, playing, waiting]

/-- The direction of a granted move that is not a probe's (R42). -/
def grantDir (m : PlanMethod) : Dir := if m = .gravityUp ∨ m = .poweredUp then .up else .down

theorem moveDirOf_eq (h : moveStateOf m = some st) : moveDirOf m = if m = .probe then none else some (grantDir m) := by
  cases m <;> first | rfl | cases h

theorem needsBrakeSlot_iff (m : PlanMethod) : needsBrakeSlot m = true ↔ m = .probe ∨ m = .gravityDown ∨ m = .gravityUp := by
  cases m <;> decide

theorem needsDriveSlot_eq (h : moveStateOf m = some st) : needsDriveSlot m = !needsBrakeSlot m := by
  cases m <;> first | rfl | cases h

theorem granted_brake (e : CarEntry) (h : moveStateOf m = some st) : (b.granted e g m st).brake =
    if m = .probe then b.brake.openFor e .probe g.probeShare
    else if needsBrakeSlot m then b.brake.openFor e .lowering g.startShare else b.brake := by
  cases m <;> simp only [moveStateOf, Option.some.injEq, reduceCtorEq] at h <;> subst h <;> rfl

section
variable (e : CarEntry) (ready : b.record.state = .ready) (h : moveStateOf m = some st)
include ready

/-! A READY car leaves no state that has timers of its own (R59, R180, R182). -/

theorem granted_record_of_ready : (b.granted e g m st).record =
    ({ b.record with state := st, heldCause := none } : CarRecord).granted g m b.planner.plan b.line.nextMoveId := by
  have : (b.stated g st none).record = { b.record with state := st, heldCause := none } := by
    simp [CarBlock.stated, CarRecord.moveTo, ready, leaves, stopIf]
  exact congrArg (fun r : CarRecord => r.granted g m b.planner.plan b.line.nextMoveId) this

theorem granted_inputs_of_ready : (b.granted e g m st).inputs =
    { b.inputs with move := (b.granted e g m st).inputs.move } := by
  have : (b.stated g st none).inputs = b.inputs := by simp [CarBlock.stated, ready, leaves]
  exact congrArg (fun x : CarInputs => { x with move := (b.granted e g m st).inputs.move }) this

include h in
theorem granted_signals_of_ready : (b.granted e g m st).signals = { b.signals with
    lamp := .flash, reassurance := none
    playing := (b.granted e g m st).signals.playing, waiting := (b.granted e g m st).signals.waiting } := by
  obtain ⟨-, -, -, lamp, -⟩ := moveStateOf_cases h
  have still : isReassured st = false := by cases m <;> cases h <;> rfl
  have follow : (b.stated g st none).signals = { b.signals with lamp := .flash, reassurance := none } := by
    simp [CarBlock.stated, ready, leaves, CarSignals.follow, lamp, still]
  have tone (x : CarSignals) : x.requestTone g .moveStart = { x with
      playing := (x.requestTone g .moveStart).playing, waiting := (x.requestTone g .moveStart).waiting } := by
    cases k : x.playing <;> simp [CarSignals.requestTone, k, startPattern_eq]
  have signals : (b.granted e g m st).signals = if (methodUsedOf m).isSome = true then
      (b.stated g st none).signals.requestTone g .moveStart else (b.stated g st none).signals := rfl
  rw [signals, follow]
  split
  · exact tone _
  · rfl

end

/-! ## The ports of a grant -/

theorem announceMove_ports (p : Part) (c : Car) (m : PlanMethod) :
    (p.announceMove c m).station =
      (if (methodUsedOf m).isSome = true then p.station.offer ⟨.rescueStarted, some c⟩ else p.station) ∧
    (p.announceMove c m).panel =
      (if (methodUsedOf m).isSome = true then p.panel.offer ⟨.rescueStarted, some c⟩ else p.panel) := by
  unfold Part.announceMove
  cases methodUsedOf m <;> exact ⟨rfl, rfl⟩

theorem grant_ports (h : moveStateOf m = some st) :
    (r.grant c m).station = (if m = .probe then r.station else r.station.offer ⟨.rescueStarted, some c⟩) ∧
    (r.grant c m).panel = (if m = .probe then r.panel else r.panel.offer ⟨.rescueStarted, some c⟩) := by
  have announces (x : PortState) : (if (methodUsedOf m).isSome = true then x.offer ⟨.rescueStarted, some c⟩ else x) =
      if m = .probe then x else x.offer ⟨.rescueStarted, some c⟩ := by
    cases m <;> first | rfl | cases h
  unfold Part.grant
  rw [h]
  dsimp only
  rw [(announceMove_ports _ c m).1, (announceMove_ports _ c m).2, announces, announces, (Part.beginMove_ports _ c m).1,
    (Part.beginMove_ports _ c m).2]
  exact ⟨rfl, rfl⟩

/-! ## The account -/

theorem sum_map_update {f g : Car → Nat} (off : ∀ d, d ≠ c → g d = f d) : ∀ {l : List Car}, l.Nodup → c ∈ l →
    (l.map g).sum + f c = (l.map f).sum + g c
  | d :: l, once, mem => by
    obtain ⟨fresh, rest⟩ := List.nodup_cons.mp once
    simp only [List.map_cons, List.sum_cons]
    by_cases e : d = c
    · subst e
      have : l.map g = l.map f := List.map_congr_left fun x hx => off x fun k => fresh (k ▸ hx)
      rw [this]; omega
    · have := sum_map_update off rest ((List.mem_cons.mp mem).resolve_left (Ne.symm e))
      rw [off d e]; omega

theorem length_filter_eq_sum (f : Car → Bool) (l : List Car) :
    (l.filter f).length = (l.map fun d => (f d).toNat).sum := by
  induction l with
  | nil => rfl
  | cons d l ih => cases h : f d <;> simp [h, ih, Nat.add_comm]

theorem account_update (off : ∀ d, d ≠ c → q.car d = p.car d) :
    q.reserved + (p.car c).slots.reservation.getD 0 = p.reserved + (q.car c).slots.reservation.getD 0 ∧
    q.brakeHeld + (p.car c).slots.brake.toNat = p.brakeHeld + (q.car c).slots.brake.toNat ∧
    q.driveHeld + (p.car c).slots.drive.toNat = p.driveHeld + (q.car c).slots.drive.toNat := by
  have once : allCars.Nodup := by decide
  unfold Part.reserved Part.brakeHeld Part.driveHeld
  simp only [length_filter_eq_sum]
  have update (f : CarSlots → Nat) : (allCars.map fun d => f (q.car d).slots).sum + f (p.car c).slots =
      (allCars.map fun d => f (p.car d).slots).sum + f (q.car c).slots :=
    sum_map_update (f := fun d => f (p.car d).slots) (g := fun d => f (q.car d).slots) (fun d hd => by rw [off d hd])
      once (mem_allCars c)
  exact ⟨update fun x => x.reservation.getD 0, update fun x => x.brake.toNat, update fun x => x.drive.toNat⟩

/-! ## The statement -/

theorem methodUsedOf_or (m : PlanMethod) (x : Option MethodUsed) : (methodUsedOf m).or x =
    (match m with
     | .gravityDown => some .gravityDown
     | .gravityUp => some .gravityUp
     | .poweredUp => some .poweredUp
     | .poweredDown => some .poweredDown
     | _ => x) := by cases m <;> rfl

/-- Settles O29: the Arbiter's order is an insertion sort, each turn is `Part.consider`, and a grant is `CarBlock.granted`. -/
theorem selectionGrants : Obligations.SelectionGrants := by
  refine ⟨fun p => by simp [Part.supplyReady], fun p => p.select_of_not_ready, ?order, fun r c m some' empty => ?grant⟩
  case order =>
    intro p ready before free affords
    refine ⟨p.readyOrder, fun r c => r.consider c, p.mem_readyOrder_iff, pairwise_readyOrder p, if_pos ready, fun r c =>
      ⟨fun none => consider_passed fun m hm => ?_, fun m planned hfree => ⟨fun can => ?_, fun short => ?_⟩⟩⟩
    · rw [← Bool.not_eq_true, slotFree_iff]; exact none m hm
    · exact consider_granted planned ((slotFree_iff r m).mpr hfree) ((affords_iff r _).mpr can)
    · have : r.affords ((r.car c).planner.plan.estimate.getD 0) = false := by
        rw [← Bool.not_eq_true, affords_iff]; exact short
      exact consider_short planned ((slotFree_iff r m).mpr hfree) this
  intro brake q b plan started dir
  obtain ⟨st, h⟩ : ∃ st, moveStateOf m = some st := by cases m <;> first | exact ⟨_, rfl⟩ | exact absurd rfl some'
  have own : q.car c = b.granted (r.entry c) r.globals m st := Part.grant_own h
  have others : ∀ d, d ≠ c → q.car d = r.car d := (touchesOnly_grant r c m).cars
  have brakes : needsBrakeSlot m = true ↔ brake := needsBrakeSlot_iff m
  have drives : needsDriveSlot m = !needsBrakeSlot m := needsDriveSlot_eq h
  have state : q.stateOf c = st := by unfold Part.stateOf; rw [own]; rfl
  obtain ⟨playing, waiting⟩ := granted_signals (b := b) (g := r.globals) (r.entry c) h
  obtain ⟨station, panel⟩ := grant_ports (r := r) (c := c) h
  obtain ⟨energy, brakeCount, driveCount⟩ := account_update others
  rw [empty, own] at energy brakeCount driveCount
  have slots : (b.granted (r.entry c) r.globals m st).slots =
      ⟨needsBrakeSlot m, needsDriveSlot m, some (plan.estimate.getD 0)⟩ := by
    simp only [CarBlock.granted, show b.slots = _ from empty, Bool.false_or]; rfl
  rw [slots] at energy brakeCount driveCount
  refine ⟨station, panel, ?move, ?brake, fun on => ?braked, fun off => ?driven, ?playing, ?waiting, ?state, fun ready => ?all,
    ?energy, fun on => ?brakeCount, fun off => ?driveCount, ?first, ?flag, others, (touchesOnly_grant r c m).rest,
    (touchesOnly_grant r c m).plans.pass, (touchesOnly_grant r c m).plans.supply⟩
  case move =>
    rw [own]
    show (⟨moveDirOf m, 0, 0, (moveDirOf m).isSome, none⟩ : MoveRecord) = _
    rw [moveDirOf_eq h]
    split <;> rfl
  case brake =>
    rw [own, granted_brake _ h]
    simp only [brakes, b]
  case braked =>
    have : needsDriveSlot m = false := by rw [drives, brakes.mpr on]; rfl
    rw [own]
    simp only [CarBlock.granted, CarRecord.granted, this]
    exact ⟨rfl, rfl⟩
  case driven =>
    have no : needsBrakeSlot m = false := by rw [← Bool.not_eq_true]; exact mt brakes.mp off
    have yes : needsDriveSlot m = true := by rw [drives, no]; rfl
    have way : (moveDirOf m).getD .up = dir := by
      rw [moveDirOf_eq h, if_neg fun e => off (.inl e)]; rfl
    rw [own]
    simp only [CarBlock.granted, CarRecord.granted, yes, way, if_true]
    exact ⟨rfl, trivial, trivial, rfl⟩
  case playing => rw [own, playing]
  case waiting => rw [own, waiting]
  case state => rw [state, h]
  case all =>
    rw [own, state]
    refine CarBlock.eq_of_blocks rfl ?_ ?_ rfl rfl rfl ?_ rfl ?_
    · exact granted_inputs_of_ready (r.entry c) ready
    · refine (granted_record_of_ready (r.entry c) ready).trans ?_
      by_cases on : brake
      · have no : needsDriveSlot m = false := by rw [drives, brakes.mpr on]; rfl
        simp only [CarBlock.granted, CarRecord.granted, methodUsedOf_or, no, if_pos on] <;> rfl
      · have yes : needsDriveSlot m = true := by rw [drives, (Bool.not_eq_true _).mp (mt brakes.mp on)]; rfl
        simp only [CarBlock.granted, CarRecord.granted, methodUsedOf_or, yes, if_neg on, if_true] <;> rfl
    · rw [slots, drives]
      by_cases on : brake
      · rw [brakes.mpr on, decide_eq_true on, decide_eq_false (not_not.mpr on)]; rfl
      · rw [(Bool.not_eq_true _).mp (mt brakes.mp on), decide_eq_false on, decide_eq_true on]; rfl
    · exact granted_signals_of_ready (r.entry c) ready h
  case energy => simpa using energy
  case brakeCount =>
    rw [drives, brakes.mpr on] at driveCount
    rw [brakes.mpr on] at brakeCount
    exact ⟨by simpa using brakeCount, by simpa using driveCount⟩
  case driveCount =>
    have no : needsBrakeSlot m = false := by rw [← Bool.not_eq_true]; exact mt brakes.mp off
    rw [drives, no] at driveCount
    rw [no] at brakeCount
    exact ⟨by simpa using brakeCount, by simpa using driveCount⟩
  case first => rw [own]; rfl
  case flag => rw [own]; rfl

end Sys2Proof.Machine
end

