-- ==== Sys2Proof/Proofs/FirstIsGranted.lean ====
section
/-!
PROOFS. SET_FIRST (R81): the car that holds the override comes first in the selection, so it has its turn on the part as the
override's move leaves it, and the turns after it leave it.
-/

namespace Sys2Proof.Machine

variable {p q : Part} {c d : Car} {m : PlanMethod} {st : RescueState} {s : State} {port : Port} {body rest : List Byte}

/-! ## What the turns of a selection leave -/

/-- From p to q no pending pair has gone. -/
def NoticesGrow (p q : Part) : Prop := ∀ port n, n ∈ (p.port port).notices → n ∈ (q.port port).notices

theorem Offers.grow {l : List Notice} (h : Offers l p q) : NoticesGrow p q := fun port n k => (h port n).mpr (.inl k)

theorem noticesGrow_consider (p : Part) (c : Car) : NoticesGrow p (p.consider c) := by
  rcases p.consider_cases c with h | h | ⟨m, st, -, -, h⟩ <;> rw [h]
  · exact fun _ _ k => k
  · exact Offers.grow (l := [⟨.energyShort, some c⟩]) ((offers_raise _ _).of_ports rfl rfl rfl rfl)
  · exact (offers_grant p c m).grow

theorem noticesGrow_foldl (l : List Car) (p : Part) : NoticesGrow p (l.foldl (fun p c => p.consider c) p) :=
  foldl_keeps (R := NoticesGrow) (fun _ _ _ k => k) (fun h k port n w => k port n (h port n w)) _
    noticesGrow_consider l p

/-- A turn sets no override (R156). -/
theorem consider_first (h : (p.car d).record.first = false) : ((p.consider c).car d).record.first = false := by
  by_cases hd : d = c
  · subst hd
    rcases p.consider_cases d with k | k | ⟨m, st, hst, -, k⟩ <;> rw [k]
    · exact h
    · simpa using h
    · rw [Part.grant_own hst]; rfl
  · rw [(touchesOnly_consider p c).cars d hd, h]

theorem select_first (h : (p.car d).record.first = false) : (p.select.car d).record.first = false := by
  unfold Part.select
  split
  · exact foldl_keeps (R := fun p q => (p.car d).record.first = false → (q.car d).record.first = false) (fun _ k => k)
      (fun h k w => k (h w)) _ (fun _ _ => consider_first) _ p h
  · exact h

/-! ## The car that is first -/

/-- The FIRST override moves to car c (R81). -/
def Part.firstMoved (p : Part) (c : Car) : Part :=
  { p with cars := Vector.ofFn fun d : Car =>
    { p.car d with record := { (p.car d).record with first := decide (d = c) } } }

@[simp] theorem Part.firstMoved_car (p : Part) (c d : Car) : (p.firstMoved c).car d =
    { p.car d with record := { (p.car d).record with first := decide (d = c) } } := by
  simp [Part.firstMoved, Part.car]

theorem putFirst_eq (p : Part) (c : Car) : p.putFirst c = p.firstMoved c := by
  have cars : (p.putFirst c).cars = (p.firstMoved c).cars := Part.cars_ext fun d => by
    rw [Part.firstMoved_car, Part.putFirst, Part.modRecord]
    by_cases hd : d = c
    · subst hd; simp
    · simp [hd]
  exact congrArg (fun v => ({ p with cars := v } : Part)) cars

theorem firstMoved_stateOf (p : Part) (c d : Car) : (p.firstMoved c).stateOf d = p.stateOf d := by
  unfold Part.stateOf; rw [Part.firstMoved_car]

theorem firstMoved_slotFree (p : Part) (c : Car) (m : PlanMethod) : (p.firstMoved c).slotFree m = p.slotFree m := by
  unfold Part.slotFree Part.brakeHeld Part.driveHeld
  simp only [Part.firstMoved_car]
  rfl

theorem firstMoved_affords (p : Part) (c : Car) (n : Nat) : (p.firstMoved c).affords n = p.affords n := by
  unfold Part.affords Part.reserved
  simp only [Part.firstMoved_car]
  rfl

theorem firstMoved_demand (p : Part) (c : Car) : (p.firstMoved c).demand = p.demand :=
  demand_congr fun d => by rw [firstMoved_stateOf]

/-- The READY car with the override is the first of the Arbiter's order (R156). -/
theorem readyOrder_firstMoved (ready : p.stateOf c = .ready) :
    ∃ l, (p.firstMoved c).readyOrder = c :: l ∧ c ∉ l := by
  have mem : c ∈ (p.firstMoved c).readyOrder := (Part.mem_readyOrder_iff _ c).mpr (by rw [firstMoved_stateOf, ready])
  have once := Part.nodup_readyOrder (p.firstMoved c)
  have sorted := pairwise_readyOrder (p.firstMoved c)
  generalize (p.firstMoved c).readyOrder = order at mem once sorted
  cases order with
  | nil => cases mem
  | cons e l =>
    rcases List.mem_cons.mp mem with rfl | later
    · exact ⟨l, rfl, (List.nodup_cons.mp once).1⟩
    · have other : e ≠ c := fun k => (List.nodup_cons.mp once).1 (k ▸ later)
      have before := (List.pairwise_cons.mp sorted).1 c later
      simp [Part.Before, other] at before

/-- The car with the override has its turn first, and the turns after it leave it. -/
theorem select_firstMoved (ready : p.stateOf c = .ready) (supply : p.supplyReady = true) :
    (p.firstMoved c).select.car c = ((p.firstMoved c).consider c).car c ∧
    NoticesGrow ((p.firstMoved c).consider c) (p.firstMoved c).select := by
  obtain ⟨l, order, fresh⟩ := readyOrder_firstMoved ready
  have turns : (p.firstMoved c).select = l.foldl (fun p c => p.consider c) ((p.firstMoved c).consider c) := by
    unfold Part.select
    rw [order]
    exact if_pos supply
  rw [turns]
  exact ⟨foldl_car_of_not_mem _ (fun p c d hd => (touchesOnly_consider p c).cars d hd) c l _ fresh, noticesGrow_foldl l _⟩

/-- Where the car with the override is READY still, its override stands. -/
theorem firstMoved_select_first (ready : p.stateOf c = .ready) (still : (p.firstMoved c).select.stateOf c = .ready) :
    ((p.firstMoved c).select.car c).record.first = true := by
  cases supply : p.supplyReady with
  | false => rw [Part.select_of_not_ready (p.firstMoved c) supply, Part.firstMoved_car]; simp
  | true =>
    obtain ⟨own, -⟩ := select_firstMoved ready supply
    unfold Part.stateOf at still
    rw [own] at still ⊢
    rcases (p.firstMoved c).consider_cases c with k | k | ⟨m, st, hst, -, k⟩
    · rw [k]; simp
    · rw [k]; simp
    · obtain ⟨-, -, moves, -, -⟩ := moveStateOf_cases hst
      rw [k, Part.grant_own hst] at still
      rw [show st = .ready from still] at moves
      exact absurd moves (by decide)

/-! ## The command -/

theorem execSetFirst_refused (g : s.givenCar port 45 body c rest) (h : s.stateOf c ≠ .ready) (k : s.stateOf c ≠ .assessing) :
    execSetFirst port body s = .next (s.answered s.toPart port .notAllowed []) :=
  runCarRequest_of_refused g (by simp [h, k])

theorem putFirst_beginHandling (p : Part) (port : Port) (code : Byte) (body : List Byte) (c : Car) :
    (p.beginHandling port code body).putFirst c = (p.putFirst c).beginHandling port code body := by cases port <;> rfl

theorem execSetFirst_taken (g : s.givenCar port 45 body c rest) (h : s.stateOf c = .ready ∨ s.stateOf c = .assessing) :
    execSetFirst port body s = .next (s.answered (s.firstMoved c).select port .ok []) := by
  refine runCarRequest_of_answer g ((if_pos (by simpa using h)).trans ?_)
    ((Part.select_demand _).trans (firstMoved_demand _ _))
  rw [putFirst_beginHandling, putFirst_eq, select_beginHandling]
  rfl

theorem answered_car (s : State) (p : Part) (port : Port) (r : ResultCode) (l : List Byte) (c : Car) :
    (s.answered p port r l).car c = p.car c := p.modPort_car c port _

theorem answered_stateOf (s : State) (p : Part) (port : Port) (r : ResultCode) (l : List Byte) (c : Car) :
    (s.answered p port r l).stateOf c = p.stateOf c := by unfold Part.stateOf; rw [answered_car]

theorem answered_notices (s : State) (p : Part) (q : Port) (r : ResultCode) (l : List Byte) (port : Port) :
    ((s.answered p q r l).port port).notices = (p.port port).notices := by cases q <;> cases port <;> rfl

/-- What SET_FIRST leaves of the rest of the part. -/
theorem firstMoved_answered (s : State) (c : Car) (port : Port) :
    let t := s.answered (s.firstMoved c).select port .ok []
    KeepsRest (s.responded port .ok []) t.toPart ∧ PassKept s.toPart t.toPart ∧ t.supply = s.supply := by
  intro t
  have moved : KeepsRest (s.responded port .ok []) ((s.firstMoved c).responded port .ok []) := by
    cases port <;> constructor <;> rfl
  have plans := keepsPlans_select (s.firstMoved c)
  have same : t.toPart = ((s.firstMoved c).responded port .ok []).select := (select_responded _ _ _ _).symm
  refine ⟨same ▸ moved.trans (keepsRest_select _), ⟨?_, ?_⟩, ?_⟩
  · exact (Part.modPort_pass _ port _).trans plans.pass
  · exact (Part.modPort_requestPending _ port _).trans plans.requestPending
  · exact (Part.modPort_supply _ port _).trans plans.supply

/-- What SET_FIRST leaves of the other cars. -/
theorem firstMoved_others (s : State) (c : Car) (port : Port) :
    let t := s.answered (s.firstMoved c).select port .ok []
    (∀ d, d ≠ c → (t.car d).record.first = false ∧ t.car d = (s.firstMoved c).select.car d) ∧
    ∀ d, d ≠ c → s.stateOf d ≠ .ready →
      t.car d = { s.car d with record := { (s.car d).record with first := false } } := by
  intro t
  have first (d : Car) (hd : d ≠ c) : ((s.firstMoved c).car d).record.first = false := by simp [hd]
  refine ⟨fun d hd => ?_, fun d hd rests => ?_⟩
  · rw [show t.car d = _ from answered_car _ _ _ _ _ _]
    exact ⟨select_first (first d hd), rfl⟩
  · rw [show t.car d = _ from answered_car _ _ _ _ _ _,
      Part.select_car _ _ (by rw [firstMoved_stateOf]; exact rests), Part.firstMoved_car, decide_eq_false hd]

/-! ## The car's own turn -/

theorem firstMoved_unready (supply : p.supplyReady = false) : (p.firstMoved c).select = p.firstMoved c :=
  Part.select_of_not_ready _ supply

theorem firstMoved_passed (ready : p.stateOf c = .ready) (planned : (p.car c).planner.plan.method = some m)
    (full : p.slotFree m = false) : (p.firstMoved c).select.car c = (p.firstMoved c).car c := by
  cases supply : p.supplyReady with
  | false => rw [firstMoved_unready supply]
  | true =>
    rw [(select_firstMoved ready supply).1, consider_passed]
    intro n hn
    rw [Part.firstMoved_car] at hn
    cases planned.symm.trans hn
    rw [firstMoved_slotFree, full]

theorem firstMoved_short (ready : p.stateOf c = .ready) (supply : p.supplyReady = true)
    (planned : (p.car c).planner.plan.method = some m) (free : p.slotFree m = true)
    (short : p.affords ((p.car c).planner.plan.estimate.getD 0) = false) :
    (p.firstMoved c).select.car c = { p.car c with record :=
      { (p.car c).record with first := true, energyShort := true } } ∧
    ((p.car c).record.energyShort = false → ∀ port, maskHolds (p.port port).mask .energyShort = true →
      ⟨.energyShort, some c⟩ ∈ ((p.firstMoved c).select.port port).notices) := by
  obtain ⟨own, grow⟩ := select_firstMoved ready supply
  have turn : (p.firstMoved c).consider c = (p.firstMoved c).flagShort c :=
    consider_short (by rw [Part.firstMoved_car]; exact planned) (by rw [firstMoved_slotFree]; exact free)
      (by rw [firstMoved_affords, Part.firstMoved_car]; exact short)
  rw [turn] at own grow
  cases flagged : (p.car c).record.energyShort with
  | true =>
    have : (p.firstMoved c).flagShort c = p.firstMoved c := if_pos (by rw [Part.firstMoved_car]; exact flagged)
    rw [own, this, Part.firstMoved_car, decide_eq_true rfl]
    refine ⟨?_, fun k => absurd k (by decide)⟩
    rw [← flagged]
  | false =>
    have : (p.firstMoved c).flagShort c =
        ((p.firstMoved c).modRecord c fun r => { r with energyShort := true }).raiseCar .energyShort c :=
      if_neg (by rw [Part.firstMoved_car]; exact fun k => Bool.noConfusion (flagged.symm.trans k))
    rw [this] at own grow
    refine ⟨by rw [own]; simp, fun _ port mask => grow port _ ?_⟩
    have offers : Offers [⟨.energyShort, some c⟩] (p.firstMoved c)
        (((p.firstMoved c).modRecord c fun r => { r with energyShort := true }).raiseCar .energyShort c) :=
      (offers_raise _ _).of_ports rfl rfl rfl rfl
    exact (offers port _).mpr (.inr ⟨by simp, by cases port <;> exact mask⟩)

theorem firstMoved_granted (ready : p.stateOf c = .ready) (supply : p.supplyReady = true)
    (planned : (p.car c).planner.plan.method = some m) (free : p.slotFree m = true)
    (affords : p.affords ((p.car c).planner.plan.estimate.getD 0) = true) (h : moveStateOf m = some st) :
    (p.firstMoved c).select.car c = ({ p.car c with record := { (p.car c).record with first := true } } : CarBlock).granted
      (p.entry c) p.globals m st ∧
    ((methodUsedOf m).isSome = true → ∀ port, maskHolds (p.port port).mask .rescueStarted = true →
      ⟨.rescueStarted, some c⟩ ∈ ((p.firstMoved c).select.port port).notices) := by
  obtain ⟨own, grow⟩ := select_firstMoved ready supply
  have turn : (p.firstMoved c).consider c = (p.firstMoved c).grant c m :=
    consider_granted (by rw [Part.firstMoved_car]; exact planned) (by rw [firstMoved_slotFree]; exact free)
      (by rw [firstMoved_affords, Part.firstMoved_car]; exact affords)
  rw [turn] at own grow
  refine ⟨own.trans ?_, fun used port mask => grow port _ ?_⟩
  · rw [Part.grant_own h, Part.firstMoved_car, decide_eq_true rfl]
    rfl
  · exact (offers_grant _ c m port _).mpr (.inr ⟨by rw [if_pos used]; simp, by cases port <;> exact mask⟩)

/-! ## The statement -/

theorem slotFree_eq_iff (p : Part) (m : PlanMethod) : p.slotFree m = true ↔
    if m = .probe ∨ m = .gravityDown ∨ m = .gravityUp then p.brakeHeld < p.globals.brakeSlots
    else (m = .poweredUp ∨ m = .poweredDown) ∧ p.driveHeld < p.globals.driveSlots := by
  cases m <;> simp [Part.slotFree, needsBrakeSlot, needsDriveSlot]

theorem openFor_eq (x : CarBrake) (e : CarEntry) (kind : OpeningKind) (share : Nat) : x.openFor e kind share = { x with
    channelA := if x.channelA = .locked then .locked else .open
    channelB := if e.bMode = .closed then x.channelB else if x.channelB = .locked then .locked else .open
    opening := some kind, started := false, shadowA := share, activeA := 0, activeB := 0, insideA := false
    insideB := false, framesOpen := 0, lastSpeed := none, shadowB := shareB e share } := by
  have channel (y : ChannelState) : openChannel y = if y = .locked then .locked else .open := by cases y <;> rfl
  simp only [CarBrake.openFor, CarBrake.setShadow, channel]

section
variable {b : CarBlock} {e : CarEntry} {g : Globals} {energy : Nat}

theorem granted_slots (h : moveStateOf m = some st) (estimate : b.planner.plan.estimate.getD 0 = energy) :
    (b.granted e g m st).slots =
      if needsBrakeSlot m then { b.slots with brake := true, reservation := some energy }
      else { b.slots with drive := true, reservation := some energy } := by
  have drives := needsDriveSlot_eq h
  subst estimate
  cases brake : needsBrakeSlot m <;> simp [CarBlock.granted, drives, brake]

theorem methodUsedOf_isSome (h : moveStateOf m = some st) (k : m ≠ .probe) : (methodUsedOf m).isSome = true := by
  cases m with
  | probe => exact absurd rfl k
  | none => cases h
  | gravityDown | gravityUp | poweredUp | poweredDown => rfl

/-- What a grant announces of a move that is not a probe (R59, R181). -/
theorem granted_announced (h : moveStateOf m = some st) (k : m ≠ .probe) :
    (b.granted e g m st).signals.playing =
      some (b.signals.playing.getD ⟨.moveStart, 0, 150, g.toneHigh, g.toneLow, true⟩) ∧
    (b.granted e g m st).signals.waiting = if b.signals.playing.isSome then some .moveStart else b.signals.waiting := by
  obtain ⟨playing, waiting⟩ := granted_signals (b := b) (g := g) e h
  rw [if_neg k] at playing
  simp only [k, ne_eq, not_false_eq_true, true_and] at waiting
  exact ⟨playing, waiting⟩

end

/-- Settles O28: SET_FIRST is the override's move and the selection; the car's own turn comes first. -/
theorem firstIsGranted : Obligations.FirstIsGranted := by
  intro s q body c rest g b before moved
  obtain ⟨keeps, pass, supplies⟩ := firstMoved_answered s c q
  obtain ⟨others, resting⟩ := firstMoved_others s c q
  refine ⟨fun h k => execSetFirst_refused g h k, fun h => execSetFirst_taken g h, fun assessing => ?assessing,
    fun ready => ?ready, fun ready supply m energy planned estimate affords => ?granted⟩
  case assessing =>
    refine ⟨_, execSetFirst_taken g (.inr assessing), ?_, keeps, pass, supplies, others, resting⟩
    rw [answered_car, Part.select_car _ _ (by rw [firstMoved_stateOf, assessing]; decide), Part.firstMoved_car,
      decide_eq_true rfl]
  case ready =>
    intro put
    refine ⟨_, execSetFirst_taken g (.inl ready), keeps, pass, supplies, others, resting, fun still => ?_, fun unready => ?_,
      fun m planned => ?_⟩
    · rw [answered_car]
      exact firstMoved_select_first ready (by rwa [answered_stateOf] at still)
    · refine ⟨?_, fun d hd => ?_⟩
      · rw [answered_car, firstMoved_unready unready, Part.firstMoved_car, decide_eq_true rfl]
      · rw [answered_car, firstMoved_unready unready, Part.firstMoved_car, decide_eq_false hd]
    · intro free affords
      have isFree : s.slotFree m = true ↔ free := slotFree_eq_iff _ _
      have canAfford : s.affords (b.planner.plan.estimate.getD 0) = true ↔ affords := affords_iff _ _
      refine ⟨fun full => ?_, fun supply isfree short => ?_⟩
      · rw [answered_car, firstMoved_passed ready planned ((Bool.not_eq_true _).mp (mt isFree.mp full)),
          Part.firstMoved_car, decide_eq_true rfl]
      · obtain ⟨blocks, notices⟩ := firstMoved_short ready supply planned (isFree.mpr isfree)
          ((Bool.not_eq_true _).mp (mt canAfford.mp short))
        refine ⟨(answered_car _ _ _ _ _ _).trans blocks, fun clear port mask => ?_⟩
        rw [answered_notices]
        exact notices clear port mask
  case granted =>
    intro opened start announced granted
    let put : CarBlock := { b with record := { b.record with first := true } }
    have spent : b.planner.plan.estimate.getD 0 = energy := by rw [estimate]; rfl
    have can : s.affords (b.planner.plan.estimate.getD 0) = true := by rw [affords_iff, spent]; exact affords
    have opens (kind : OpeningKind) (share : Nat) : b.brake.openFor (s.entry c) kind share = opened kind share := by
      rw [openFor_eq]; rfl
    let t := s.answered (s.firstMoved c).select q .ok []
    have turn {st : RescueState} (h : moveStateOf m = some st) (free : s.slotFree m = true) :
        t.car c = put.granted (s.entry c) s.globals m st ∧ ((methodUsedOf m).isSome = true → ∀ port,
          maskHolds (s.port port).mask .rescueStarted = true → ⟨.rescueStarted, some c⟩ ∈ (t.port port).notices) := by
      obtain ⟨blocks, notices⟩ := firstMoved_granted ready supply planned free can h
      refine ⟨(answered_car _ _ _ _ _ _).trans blocks, fun used port mask => ?_⟩
      rw [answered_notices]
      exact notices used port mask
    have announces {st : RescueState} (h : moveStateOf m = some st) (free : s.slotFree m = true) (k : m ≠ .probe) :
        announced t := by
      obtain ⟨blocks, notices⟩ := turn h free
      obtain ⟨playing, waiting⟩ := granted_announced (b := put) (e := s.entry c) (g := s.globals) h k
      rw [← blocks] at playing waiting
      exact ⟨notices (methodUsedOf_isSome h k), playing, waiting⟩
    refine ⟨t, execSetFirst_taken g (.inl ready), keeps, pass, supplies, resting, fun probe room => ?probed,
      fun gravity room => ?gravity, fun powered room => ?powered, fun left => ?left⟩
    case probed =>
      have h : moveStateOf m = some .probing := by rw [probe]; rfl
      obtain ⟨blocks, -⟩ := turn h ((slotFree_iff s.toPart m).mpr (.inl ⟨.inl probe, room⟩))
      obtain ⟨playing, waiting⟩ := granted_signals (b := put) (g := s.globals) (s.entry c) h
      have slots := granted_slots (b := put) (e := s.entry c) (g := s.globals) h spent
      subst probe
      refine ⟨congrArg (fun x : CarBlock => x.record.state) blocks, ?_⟩
      rw [blocks]
      exact ⟨slots, rfl, opens _ _, rfl, rfl, playing, waiting⟩
    case gravity =>
      have h : moveStateOf m = some .lowering := by rcases gravity with rfl | rfl <;> rfl
      have other : m ≠ .probe := by rcases gravity with rfl | rfl <;> decide
      have free := (slotFree_iff s.toPart m).mpr (.inl ⟨.inr gravity, room⟩)
      obtain ⟨blocks, -⟩ := turn h free
      have slots := granted_slots (b := put) (e := s.entry c) (g := s.globals) h spent
      have tells := announces h free other
      refine ⟨congrArg (fun x : CarBlock => x.record.state) blocks, ?_⟩
      rw [blocks]
      rcases gravity with rfl | rfl
      · exact ⟨slots, rfl, opens _ _, rfl, tells, rfl⟩
      · exact ⟨slots, rfl, opens _ _, rfl, tells, rfl⟩
    case powered =>
      have h : moveStateOf m = some .driving := by rcases powered with rfl | rfl <;> rfl
      have other : m ≠ .probe := by rcases powered with rfl | rfl <;> decide
      have free := (slotFree_iff s.toPart m).mpr (.inr ⟨powered, room⟩)
      obtain ⟨blocks, -⟩ := turn h free
      have slots := granted_slots (b := put) (e := s.entry c) (g := s.globals) h spent
      have tells := announces h free other
      refine ⟨congrArg (fun x : CarBlock => x.record.state) blocks, ?_⟩
      rw [blocks]
      have frame (d : Dir) : granted d = .grant b.line.nextMoveId d (b.planner.plan.target.getD 0)
          (b.planner.plan.estimate.getD 0) (s.entry c).speed := by rw [spent]
      rcases powered with rfl | rfl
      · exact ⟨slots, rfl, rfl, rfl, tells, by rw [frame]; rfl, rfl, rfl, rfl⟩
      · exact ⟨slots, rfl, rfl, rfl, tells, by rw [frame]; rfl, rfl, rfl, rfl⟩
    case left =>
      cases free : s.slotFree m with
      | false =>
        have blocks : t.car c = _ := (answered_car _ _ _ _ _ _).trans (firstMoved_passed ready planned free)
        refine absurd ?_ left
        unfold Part.stateOf
        rw [blocks, Part.firstMoved_car]
        exact ready
      | true =>
        obtain ⟨st, h⟩ : ∃ st, moveStateOf m = some st := by
          cases m <;> first | exact ⟨_, rfl⟩ | exact absurd free Bool.false_ne_true
        obtain ⟨blocks, -⟩ := turn h free
        rw [blocks]
        exact ⟨rfl, rfl⟩

end Sys2Proof.Machine
end

