-- ==== Sys2Proof/Proofs/RecordTimers.lean ====
section
/-!
PROOFS. The timers of a car record (R54 to R56, R63 to R66, R68, R69, R73, R171): each expiry, while its timer runs in its
state, is an event of its car; with no running timer it does nothing (log 1).
-/

namespace Sys2Proof.Machine

variable {s : State} {c : Car} {p : Part} {go : Part → Part}

/-- A command on a part with power, with demand judged at its end. -/
theorem runPart_settled (on : s.powered = true) {q : Part} (h : go s.toPart = q) :
    runPart s go = .next (s.withPart (settleDemand s.toPart q)) := by
  rw [runPart_powered on, h]
  rfl

/-! ## Trapping -/

/-- The blocks of a car that is trapped (R55, R106, R123). -/
def CarBlock.trapped (b : CarBlock) (e : CarEntry) : CarBlock :=
  { b with
    record := { b.record with
      trappedTime := 0, attempts := 0, retryTimer := none, probeResult := none, lastAbort := none
      driveFailReason := none, lastEscalation := none, summary := ⟨none, none, none⟩
      stallCause := some (match b.line.lastStatus with
        | some x => if x.mode = .stalled then x.cause else .unknown
        | none => .unknown) }
    planner := ⟨0, e.baseWeight, allMethods, b.line.lastStatus.map (·.alarmCount), .empty⟩
    policy := { b.policy with alarmTally := 0, alarmReference := b.line.lastStatus.map (·.alarmCount) } }

theorem trap_eq (p : Part) (c : Car) : p.trap c = (p.modCar c (·.trapped (p.entry c))).raiseCar .carStalled c := rfl

theorem prelude_trap (p : Part) (c : Car) : Prelude c [⟨.carStalled, some c⟩] p (p.trap c) :=
  ⟨touchesOnly_trap p c, by simp [trap_eq, Part.stateOf, CarBlock.trapped], (offers_raise _ _).of_ports rfl rfl rfl rfl⟩

theorem execConfirmTimerExpiry_traps (on : s.powered = true) (h : s.stateOf c = .confirming)
    (runs : (s.car c).record.confirmTimer.isSome = true) :
    ∃ t, execConfirmTimerExpiry c s = .next t ∧ t.car c = ((s.car c).trapped (s.entry c)).assessed s.globals ∧
      CarEvent c (⟨.carStalled, some c⟩ :: (s.car c).assessedNotices c) s.toPart t.toPart ∧
      (s.car c).AssessedPass s.toPart t.toPart := by
  obtain ⟨event, own, pass⟩ := carEvent_toAssessing (prelude_trap s.toPart c)
  have blocks : (s.toPart.trap c).car c = (s.car c).trapped (s.entry c) := by simp [trap_eq]
  rw [blocks] at event own pass
  exact ⟨_, runPart_settled on (if_pos ⟨h, runs⟩), own, event, pass⟩

/-! ## The other timers -/

theorem execRetryTimerExpiry_retries (on : s.powered = true) (h : s.stateOf c = .failed)
    (runs : (s.car c).record.retryTimer.isSome = true) :
    ∃ t, execRetryTimerExpiry c s = .next t ∧ t.car c = (s.car c).assessed s.globals ∧
      CarEvent c ((s.car c).assessedNotices c) s.toPart t.toPart ∧ (s.car c).AssessedPass s.toPart t.toPart := by
  obtain ⟨event, own, pass⟩ := carEvent_toAssessing (.refl c s.toPart)
  exact ⟨_, runPart_settled on (if_pos ⟨h, runs⟩), own, event, pass⟩

/-- A move in DRIVING is cancelled and fails (R68, R69). -/
theorem cancelled_fails (p : Part) (c : Car) (cause : AbortCause) :
    let q := settleDemand p ((p.cancelIfDriving c).change c (·.toFailed c cause))
    q.car c = (p.car c).cancelled.failed p.globals cause ∧ CarEvent c [⟨.carFailed, some c⟩] p q ∧ PassKept p q := by
  rw [cancelIfDriving_eq]
  obtain ⟨event, own, pass⟩ := carEvent_toFailed cause (prelude_modCar (p := p) (c := c) (f := (·.cancelled)) rfl)
  refine ⟨own.trans ?_, event, pass⟩
  rw [Part.modCar_car, if_pos rfl]
  rfl

theorem execAckTimerExpiry_fails (on : s.powered = true) (h : s.stateOf c = .driving)
    (runs : (s.car c).record.ackTimer.isSome = true) :
    ∃ t, execAckTimerExpiry c s = .next t ∧ t.car c = (s.car c).cancelled.failed s.globals .noAck ∧
      CarEvent c [⟨.carFailed, some c⟩] s.toPart t.toPart ∧ PassKept s.toPart t.toPart :=
  ⟨_, runPart_settled on (if_pos ⟨h, runs⟩), cancelled_fails s.toPart c .noAck⟩

theorem execMoveTimerExpiry_fails (on : s.powered = true) (h : s.stateOf c = .driving)
    (runs : (s.car c).record.moveTimer.isSome = true) :
    ∃ t, execMoveTimerExpiry c s = .next t ∧ t.car c = (s.car c).cancelled.failed s.globals .driveTimeout ∧
      CarEvent c [⟨.carFailed, some c⟩] s.toPart t.toPart ∧ PassKept s.toPart t.toPart :=
  ⟨_, runPart_settled on (if_pos ⟨h, runs⟩), cancelled_fails s.toPart c .driveTimeout⟩

/-- A car at rest that fails without more (R66). -/
theorem atRest_fails (cause : AbortCause) (rest : isMoveState (p.stateOf c) = false) (k : p.stateOf c ≠ .failed) :
    let q := settleDemand p (p.toFailed c cause)
    q.car c = (p.car c).failed p.globals cause ∧ CarEvent c [⟨.carFailed, some c⟩] p q ∧ PassKept p q := by
  obtain ⟨event, own, pass⟩ := carEvent_atRest (touchesOnly_toFailed p c cause) (offers_toFailed p c cause) rest
    (by unfold Part.stateOf; rw [Part.toFailed_own]; rfl)
  refine ⟨own.trans ?_, event, pass⟩
  rw [Part.toFailed_own, failedFrom_eq rest k]

theorem cancelled_of_other {b : CarBlock} (h : b.record.state ≠ .driving) : b.cancelled = b := by
  unfold CarBlock.cancelled
  cases id : b.record.moveId <;> simp only [if_neg h]

theorem execGateTimerExpiry_fails (on : s.powered = true) (h : s.stateOf c = .releasing)
    (runs : (s.car c).record.gateTimer.isSome = true) :
    ∃ t, execGateTimerExpiry c s = .next t ∧ t.car c = (s.car c).cancelled.failed s.globals .gateTimeout ∧
      CarEvent c [⟨.carFailed, some c⟩] s.toPart t.toPart ∧ PassKept s.toPart t.toPart := by
  rw [cancelled_of_other (b := s.car c) (by rw [show (s.car c).record.state = _ from h]; decide)]
  exact ⟨_, runPart_settled on (if_pos ⟨h, runs⟩),
    atRest_fails (p := s.toPart) .gateTimeout (by rw [h]; rfl) (by rw [h]; decide)⟩

theorem execDwellTimerExpiry_releases (on : s.powered = true) (h : s.stateOf c = .levelling)
    (runs : (s.car c).record.dwellTimer.isSome = true) :
    ∃ t, execDwellTimerExpiry c s = .next t ∧ t.car c = (s.car c).releasing s.globals ∧
      CarEvent c ((s.car c).releasingNotices s.globals c) s.toPart t.toPart ∧ PassKept s.toPart t.toPart := by
  obtain ⟨event, own, pass⟩ := carEvent_toReleasing (p := s.toPart) (by rw [h]; decide) (.refl c s.toPart)
  exact ⟨_, runPart_settled on (if_pos ⟨h, runs⟩), own, event, pass⟩

/-! ## The slip timer -/

theorem stillMoving_iff (r : CarRecord) (dwell : Nat) :
    stillMoving r dwell = true ↔ ∃ age, r.motionAge = some age ∧ age < dwell := by
  simp [stillMoving, Option.any_eq_true]

theorem execSlipTimerExpiry_slips (on : s.powered = true) (h : s.stateOf c = .levelling)
    (runs : (s.car c).record.slipTimer.isSome = true)
    (moves : stillMoving (s.car c).record s.globals.stopDwell = true) :
    ∃ t, execSlipTimerExpiry c s = .next t ∧
      t.car c = ({ s.car c with brake := (s.car c).brake.lock } : CarBlock).failed s.globals .brakeSlip ∧
      CarEvent c [⟨.carFailed, some c⟩] s.toPart t.toPart ∧ PassKept s.toPart t.toPart := by
  obtain ⟨event, own, pass⟩ := carEvent_toFailed .brakeSlip
    (prelude_modCar (p := s.toPart) (c := c) (f := fun b => { b with brake := b.brake.lock }) rfl)
  refine ⟨_, runPart_settled on ((if_pos ⟨h, runs⟩).trans (if_pos moves)), own.trans ?_, event, pass⟩
  rw [Part.modCar_car, if_pos rfl]
  rfl

theorem execSlipTimerExpiry_again (on : s.powered = true) (h : s.stateOf c = .levelling)
    (runs : (s.car c).record.slipTimer.isSome = true)
    (still : stillMoving (s.car c).record s.globals.stopDwell = false) : execSlipTimerExpiry c s =
      .next (s.withPart (s.modRecord c fun r => { r with slipTimer := some (s.globals.slipLimit * 1000) })) :=
  runPart_modCar on (f := fun b => { b with record := { b.record with slipTimer := some (s.globals.slipLimit * 1000) } })
    ((if_pos ⟨h, runs⟩).trans (if_neg (by rw [still]; decide))) rfl

/-! ## No running timer -/

theorem runPart_of_not {x : RescueState} {timer : Option Nat} {q : Part} (on : s.powered = true)
    (stopped : timer = none) (e : go s.toPart = if s.stateOf c = x ∧ timer.isSome = true then q else s.toPart) :
    runPart s go = .next s :=
  runPart_idle on (e.trans (if_neg fun h => by rw [stopped] at h; exact absurd h.2 (by decide)))

theorem timers_stopped (s : State) (c : Car) (on : s.powered = true) :
    let r := (s.car c).record
    (r.confirmTimer = none → execConfirmTimerExpiry c s = .next s) ∧
    (r.retryTimer = none → execRetryTimerExpiry c s = .next s) ∧
    (r.ackTimer = none → execAckTimerExpiry c s = .next s) ∧
    (r.moveTimer = none → execMoveTimerExpiry c s = .next s) ∧
    (r.dwellTimer = none → execDwellTimerExpiry c s = .next s) ∧
    (r.slipTimer = none → execSlipTimerExpiry c s = .next s) ∧
    (r.gateTimer = none → execGateTimerExpiry c s = .next s) :=
  ⟨fun h => runPart_of_not on h rfl, fun h => runPart_of_not on h rfl, fun h => runPart_of_not on h rfl,
    fun h => runPart_of_not on h rfl, fun h => runPart_of_not on h rfl, fun h => runPart_of_not on h rfl,
    fun h => runPart_of_not on h rfl⟩

/-- Settles O51, timer by timer. -/
theorem recordTimers : Obligations.RecordTimers := by
  intro s c on b r g alarm cause trapped failing
  obtain ⟨confirm, retry, ack, move, dwell, slip, gate⟩ := timers_stopped s c on
  refine ⟨fun h k => execConfirmTimerExpiry_traps on h k, fun h k => execRetryTimerExpiry_retries on h k,
    fun h k => execAckTimerExpiry_fails on h k, fun h k => execMoveTimerExpiry_fails on h k,
    fun h k => execGateTimerExpiry_fails on h k, fun h k => execDwellTimerExpiry_releases on h k, fun h k =>
      ⟨fun moves => execSlipTimerExpiry_slips on h k ((stillMoving_iff _ _).mpr moves),
        fun rests => execSlipTimerExpiry_again on h k ((Bool.not_eq_true _).mp (mt (stillMoving_iff _ _).mp rests))⟩,
    fun h => confirm h, fun h => retry h, fun h => ack h, fun h => move h, fun h => dwell h, fun h => slip h,
    fun h => gate h⟩

end Sys2Proof.Machine
end

