-- ==== Sys2Proof/Proofs/LineEvents.lean ====
section
/-!
PROOFS. The events of the car lines: the loss of a line (R24), the controller's reports (R25, R26, R68, R69, R95, R178) and a
valid STATUS (R23). A hand-over ends with an update of the line alone, which no event of the car reads.
-/

namespace Sys2Proof.Machine

variable {s : State} {c : Car} {p q : Part} {b : CarBlock} {go effect : Part → Part} {l : List Notice} {f : CarBlock → CarBlock}

/-! ## The loss of a line -/

/-- The blocks of a car whose line has gone LOST (R24). -/
def CarBlock.lineLost (b : CarBlock) : CarBlock := { b with line := { b.line with state := .lost } }

theorem isLosing_iff (x : CarLine) : x.isLosing = true ↔ x.state ≠ .lost ∧ x.lostLimit ≤ x.lostTimer := by
  simp [CarLine.isLosing]

theorem execLostTimeout_rests (on : s.powered = true) (h : (s.car c).line.state = .lost ∨
    (s.car c).line.lostTimer < (s.car c).line.lostLimit) : execLostTimeout c s = .next s := by
  refine runPart_idle on (if_neg ?_)
  rw [isLosing_iff]
  rintro ⟨other, run⟩
  exact h.elim other fun lt => absurd lt (Nat.not_lt.mpr run)

theorem loseLine_unconfigured (h : p.stateOf c = .unconfigured) : p.loseLine c = p.modCar c (·.lineLost) := by
  have state : (p.modCar c (·.lineLost)).stateOf c = .unconfigured := by
    unfold Part.stateOf; rw [Part.modCar_car, if_pos rfl]; exact h
  have goes : p.loseLine c = (p.modCar c (·.lineLost)).judgeStall c := by
    unfold Part.loseLine
    simp only [show (p.modLine c fun l => { l with state := .lost }) = p.modCar c (·.lineLost) from rfl, state, if_true,
      reduceCtorEq, if_false]
  rw [goes, judgeStall_eq]
  refine Part.modCar_self (CarBlock.judged_state_ne _ _ ?_ ?_)
  · show (p.modCar c (·.lineLost)).stateOf c ≠ _; rw [state]; decide
  · show (p.modCar c (·.lineLost)).stateOf c ≠ _; rw [state]; decide

/-- The part whose line has gone LOST, with the notice. -/
def Part.lineLost (p : Part) (c : Car) : Part := (p.modCar c (·.lineLost)).raiseCar .lineLost c

theorem lineLost_car (p : Part) (c : Car) : (p.lineLost c).car c = (p.car c).lineLost := by simp [Part.lineLost]

theorem prelude_lineLost (p : Part) (c : Car) : Prelude c [⟨.lineLost, some c⟩] p (p.lineLost c) :=
  ⟨(touchesOnly_modCar p c _).trans (touchesOnly_raiseCar _ c _ c), by
    unfold Part.stateOf; rw [lineLost_car]; rfl, (offers_raise _ _).of_ports rfl rfl rfl rfl⟩

theorem loseLine_eq (h : p.stateOf c ≠ .unconfigured) : p.loseLine c =
    if p.stateOf c = .releasing then (p.lineLost c).lostWhileReleasing c (p.car c).line.state
    else (p.lineLost c).judgeStall c := by
  have state : (p.modCar c (·.lineLost)).stateOf c = p.stateOf c := by
    unfold Part.stateOf; rw [Part.modCar_car, if_pos rfl]; rfl
  have state' : (p.lineLost c).stateOf c = p.stateOf c := (prelude_lineLost p c).state
  unfold Part.loseLine
  simp only [show (p.modLine c fun l => { l with state := .lost }) = p.modCar c (·.lineLost) from rfl, state, if_neg h]
  rw [show (p.modCar c (·.lineLost)).raiseCar .lineLost c = p.lineLost c from rfl, state']

/-- An event of car c that changes its state without the Arbiter: `p` is the part once its line has gone LOST. -/
theorem lineLost_event (touches : TouchesOnly c (p.lineLost c) q) (offers : Offers l (p.lineLost c) q)
    (moves : isMoveState (p.stateOf c) = true → q.stateOf c = p.stateOf c)
    (quiet : isDemandState (q.stateOf c) = true → isDemandState (p.stateOf c) = true) :
    CarEvent c (⟨.lineLost, some c⟩ :: l) p (settleDemand p q) ∧ (settleDemand p q).car c = q.car c ∧
      PassKept p (settleDemand p q) := by
  have pre := prelude_lineLost p c
  obtain ⟨event, own, kept, -⟩ := ((pre.touches.trans touches).turn (pre.offers.trans offers pre.touches.rest) moves).event quiet
  exact ⟨event, own, kept (pre.touches.trans touches).passKept⟩

theorem loseLine_judged (h : p.stateOf c ≠ .unconfigured) (k : p.stateOf c ≠ .releasing) :
    let q := settleDemand p (p.loseLine c)
    q.car c = (p.car c).lineLost.judged p.globals ∧ CarEvent c [⟨.lineLost, some c⟩] p q ∧ PassKept p q := by
  have own : ((p.lineLost c).judgeStall c).car c = (p.car c).lineLost.judged p.globals := by
    rw [Part.judgeStall_own, lineLost_car]; rfl
  have state : ((p.lineLost c).judgeStall c).stateOf c = ((p.car c).lineLost.judged p.globals).record.state := by
    unfold Part.stateOf; rw [own]
  rw [loseLine_eq h, if_neg k]
  obtain ⟨event, car, pass⟩ := lineLost_event (touchesOnly_judgeStall (p.lineLost c) c)
    (.of_eq (congrArg (·.notices) (Part.judgeStall_ports _ c).1) (congrArg (·.notices) (Part.judgeStall_ports _ c).2))
    (fun moves => by
      rw [state, CarBlock.judged_state_ne]
      · rfl
      · intro e; rw [show p.stateOf c = .normal from e] at moves; exact absurd moves (by decide)
      · intro e; rw [show p.stateOf c = .confirming from e] at moves; exact absurd moves (by decide))
    (fun quiet => by rw [state, CarBlock.judged_isDemandState] at quiet; exact quiet)
  exact ⟨car.trans own, event, pass⟩

theorem loseLine_held (h : p.stateOf c = .releasing) (k : (p.car c).isPlaced p.globals = false) :
    let q := settleDemand p (p.loseLine c)
    q.car c = (p.car c).lineLost.moved p.globals .held (some .position) ∧
      CarEvent c [⟨.lineLost, some c⟩, ⟨.carHeld, some c⟩] p q ∧ PassKept p q := by
  have unplaced : (p.lineLost c).resolvedOrConfirmed c = false := by
    rw [Part.resolvedOrConfirmed_eq, lineLost_car]; exact k
  have goes : p.loseLine c = (p.lineLost c).toHeld c .position := by
    rw [loseLine_eq (by rw [h]; decide), if_pos h]
    exact if_pos (by rw [unplaced]; rfl)
  have own : ((p.lineLost c).toHeld c .position).car c = (p.car c).lineLost.moved p.globals .held (some .position) := by
    have rest : isMoveState (p.car c).lineLost.record.state = false := by
      show isMoveState (p.stateOf c) = false; rw [h]; rfl
    rw [Part.toHeld_own, lineLost_car, ← stated_eq_moved rest (some .position) rfl (by simp)]
    rfl
  rw [goes]
  obtain ⟨event, car, pass⟩ := lineLost_event (touchesOnly_toHeld (p.lineLost c) c .position)
    (offers_toHeld (p.lineLost c) c .position) (by rw [h]; intro e; cases e)
    (by unfold Part.stateOf; rw [own]; intro e; cases e)
  exact ⟨car.trans own, event, pass⟩

/-- The blocks of a car in RELEASING whose line goes LOST: a release by frame goes on by pulse (R177). -/
def CarBlock.pulsed (b : CarBlock) (g : Globals) : CarBlock :=
  if b.line.state = .alive then
    { b.lineLost with signals := { b.signals with
        releaseMethod := some .pulse, unlockTimer := some g.unlockPulse, unlockOutput := true } }
  else b.lineLost

theorem loseLine_pulsed (h : p.stateOf c = .releasing) (k : (p.car c).isPlaced p.globals = true) :
    let q := settleDemand p (p.loseLine c)
    q.car c = (p.car c).pulsed p.globals ∧ CarEvent c [⟨.lineLost, some c⟩] p q ∧ PassKept p q := by
  have placed : (p.lineLost c).resolvedOrConfirmed c = true := by
    rw [Part.resolvedOrConfirmed_eq, lineLost_car]; exact k
  have goes : p.loseLine c = if (p.car c).line.state = .alive then (p.lineLost c).releaseByPulse c else p.lineLost c := by
    rw [loseLine_eq (by rw [h]; decide), if_pos h]
    exact if_neg (by rw [placed]; decide)
  have own : (p.loseLine c).car c = (p.car c).pulsed p.globals := by
    rw [goes]
    unfold CarBlock.pulsed
    split
    · simp only [Part.releaseByPulse, Part.modSignals, Part.modCar_car, if_true, lineLost_car]; rfl
    · exact lineLost_car p c
  have state : (p.loseLine c).stateOf c = .releasing := by
    have : ((p.car c).pulsed p.globals).record.state = p.stateOf c := by unfold CarBlock.pulsed; split <;> rfl
    unfold Part.stateOf; rw [own, this, h]
  have touches : TouchesOnly c (p.lineLost c) (p.loseLine c) ∧ Offers [] (p.lineLost c) (p.loseLine c) := by
    rw [goes]
    split
    · exact ⟨touchesOnly_releaseByPulse _ c, .of_eq rfl rfl⟩
    · exact ⟨.refl c _, .refl _⟩
  obtain ⟨event, car, pass⟩ := lineLost_event touches.1 touches.2 (by rw [h]; intro e; cases e)
    (by rw [state]; intro e; cases e)
  exact ⟨car.trans own, event, pass⟩

theorem execLostTimeout_loses (on : s.powered = true) (h : (s.car c).line.state ≠ .lost)
    (k : (s.car c).line.lostLimit ≤ (s.car c).line.lostTimer) :
    execLostTimeout c s = .next (s.withPart (settleDemand s.toPart (s.toPart.loseLine c))) :=
  runPart_settled on (if_pos ((isLosing_iff _).mpr ⟨h, k⟩))

/-- Settles O36: the loss by the state of the car. -/
theorem lineLost : Obligations.LineLost := by
  refine fun s c on => ⟨fun h => execLostTimeout_rests on h, fun h k => ⟨_, execLostTimeout_loses on h k, ?_⟩⟩
  have unconfigured (u : s.stateOf c = .unconfigured) :
      settleDemand s.toPart (s.toPart.loseLine c) = s.modCar c (·.lineLost) := by
    rw [loseLine_unconfigured u]; exact settleDemand_modCar rfl
  refine ⟨?_, fun u => ?_, fun u w => ?_, fun w placed => ?_, fun w placed => ?_⟩
  · by_cases u : s.stateOf c = .unconfigured
    · show PassKept s.toPart (settleDemand s.toPart (s.toPart.loseLine c))
      rw [unconfigured u]; exact ⟨rfl, rfl⟩
    · by_cases w : s.stateOf c = .releasing
      · cases placed : (s.car c).isPlaced s.globals with
        | false => exact (loseLine_held w placed).2.2
        | true => exact (loseLine_pulsed w placed).2.2
      · exact (loseLine_judged u w).2.2
  · rw [unconfigured u]
    exact congrArg s.withPart (Part.modCar_congr rfl)
  · obtain ⟨own, event, -⟩ := loseLine_judged u w
    exact ⟨own, event⟩
  · obtain ⟨own, event, -⟩ := loseLine_held w placed
    exact ⟨own, event⟩
  · obtain ⟨own, event, -⟩ := loseLine_pulsed w placed
    exact ⟨event, own⟩

/-! ## A hand-over -/

/-- The blocks of a car at the end of a hand-over (R20). -/
def CarBlock.handedOver (b : CarBlock) (e : CarEntry) (f : ControllerFrame) : CarBlock :=
  { b with line := b.line.endHandover e f }

theorem handOver_valid {fr : ControllerFrame} (valid : frameValid (p.entry c) fr = true) (h : effect p = q)
    (entry : q.entry c = p.entry c) : p.handOver c fr effect = q.modCar c (·.handedOver (p.entry c) fr) := by
  unfold Part.handOver
  rw [if_pos valid, h]
  dsimp only
  rw [entry]
  rfl

/-- A hand-over whose frame updates its car alone, and leaves demand. -/
theorem handOver_modCar {fr : ControllerFrame} (on : s.powered = true) (valid : frameValid (s.entry c) fr = true)
    (h : effect s.toPart = s.modCar c f)
    (demand : isDemandState (f (s.car c)).record.state = isDemandState (s.stateOf c)) :
    runPart s (fun p => p.handOver c fr effect) =
      .next (s.withPart (s.modCar c fun b => (f b).handedOver (s.entry c) fr)) :=
  runPart_modCar on ((handOver_valid valid h rfl).trans Part.modCar_modCar) demand

theorem handOver_idle {fr : ControllerFrame} (on : s.powered = true) (valid : frameValid (s.entry c) fr = true)
    (h : effect s.toPart = s.toPart) : runPart s (fun p => p.handOver c fr effect) =
      .next (s.withPart (s.modCar c (·.handedOver (s.entry c) fr))) :=
  handOver_modCar (f := id) on valid (h.trans (Part.modCar_self rfl).symm) rfl

theorem handOver_bad {fr : ControllerFrame} (on : s.powered = true) (bad : frameValid (s.entry c) fr = false) :
    runPart s (fun p => p.handOver c fr effect) = .next (s.withPart (s.modCar c fun b =>
      { b with line := b.line.countBad.endHandover (s.entry c) fr })) := by
  refine runPart_modCar on (f := fun b => { b with line := b.line.countBad.endHandover (s.entry c) fr }) ?_ rfl
  unfold Part.handOver
  rw [if_neg (by rw [bad]; decide)]
  exact Part.modCar_modCar

/-- A hand-over whose frame is an event of its car. -/
theorem handOver_event {fr : ControllerFrame} (on : s.powered = true) (valid : frameValid (s.entry c) fr = true)
    (h : effect s.toPart = q) (turn : CarTurn c l s.toPart q) (pass : PassKept s.toPart q)
    (quiet : isDemandState (q.stateOf c) = false) :
    ∃ t, runPart s (fun p => p.handOver c fr effect) = .next t ∧ t.car c = (q.car c).handedOver (s.entry c) fr ∧
      CarEvent c l s.toPart t.toPart ∧ PassKept s.toPart t.toPart := by
  have entry : q.entry c = s.entry c := by unfold Part.entry; rw [turn.rest.config]
  have ready : q.stateOf c ≠ .ready := by intro e; rw [e] at quiet; exact absurd quiet (by decide)
  have ended := turn.modCar (f := (·.handedOver (s.entry c) fr)) rfl rfl ready
  obtain ⟨event, own, kept, -⟩ := ended.event fun e => by
    have state : (q.modCar c (·.handedOver (s.entry c) fr)).stateOf c = q.stateOf c := by
      unfold Part.stateOf; rw [Part.modCar_car, if_pos rfl]; rfl
    rw [state, quiet] at e; cases e
  exact ⟨_, runPart_settled on (handOver_valid valid h entry), own.trans (by rw [Part.modCar_car, if_pos rfl]), event,
    kept (pass.modCar c _)⟩

/-! ## The reports -/

section
variable {x y : Byte}

theorem reportTaken_iff : s.reportTaken c x = true ↔
    (s.car c).record.moveId = some x.toNat ∧ (s.car c).record.state = .driving := by
  simp [Part.reportTaken, Part.stateOf]

theorem execDriveAck_eq (on : s.powered = true) : execDriveAck c x s = .next (s.withPart (s.modCar c fun b =>
    (if s.reportTaken c x then { b with record := { b.record with ackTimer := none } } else b : CarBlock).handedOver
      (s.entry c) (.driveAck x))) := by
  cases taken : s.reportTaken c x with
  | true =>
    exact handOver_modCar (f := fun b => { b with record := { b.record with ackTimer := none } }) on rfl (if_pos taken) rfl
  | false => exact handOver_idle on rfl (if_neg (by rw [taken]; decide))

theorem execMoveDone_bad (on : s.powered = true) (unknown : ¬y.toNat < (s.entry c).landings) :
    execMoveDone c x y s = .next (s.withPart (s.modCar c fun b =>
      { b with line := b.line.countBad.endHandover (s.entry c) (.moveDone x y) })) :=
  handOver_bad on (decide_eq_false unknown)

theorem execMoveDone_other (on : s.powered = true) (known : y.toNat < (s.entry c).landings)
    (other : s.reportTaken c x = false) :
    execMoveDone c x y s = .next (s.withPart (s.modCar c (·.handedOver (s.entry c) (.moveDone x y)))) :=
  handOver_idle on (decide_eq_true known) (if_neg (by rw [other]; decide))

/-- The blocks of a car that a MOVE_DONE has landed (R69, R95). -/
def CarBlock.doneAt (b : CarBlock) (e : CarEntry) (landing : Nat) : CarBlock :=
  { b.seeded e (2 * landing) (.edge .level) false with
    record := { b.record with summary := { b.record.summary with landing := some landing } } }

theorem moveDone_eq (p : Part) (c : Car) (n : Nat) :
    p.moveDone c n = (p.modCar c (·.doneAt (p.entry c) n)).change c (·.toReleasing c) := by
  have : (p.seedTracker c (2 * n) (.edge .level) false).setLanding c n = p.modCar c (·.doneAt (p.entry c) n) := by
    rw [seedTracker_eq, Part.setLanding, Part.modRecord, Part.modCar_modCar]
    rfl
  unfold Part.moveDone
  rw [this]

theorem execMoveDone_lands (on : s.powered = true) (known : y.toNat < (s.entry c).landings)
    (taken : s.reportTaken c x = true) :
    ∃ t, execMoveDone c x y s = .next t ∧
      t.car c = (((s.car c).doneAt (s.entry c) y.toNat).releasing s.globals).handedOver (s.entry c) (.moveDone x y) ∧
      CarEvent c (((s.car c).doneAt (s.entry c) y.toNat).releasingNotices s.globals c) s.toPart t.toPart ∧
      PassKept s.toPart t.toPart := by
  have driving : s.stateOf c = .driving := (reportTaken_iff.mp taken).2
  have state : (s.modCar c (·.doneAt (s.entry c) y.toNat)).stateOf c = .driving := by
    unfold Part.stateOf; rw [Part.modCar_car, if_pos rfl]; exact driving
  obtain ⟨turn, own, pass⟩ := carTurn_toReleasing (by rw [state]; decide)
    (prelude_modCar (p := s.toPart) (c := c) (f := (·.doneAt (s.entry c) y.toNat)) rfl)
  have blocks : (s.modCar c (·.doneAt (s.entry c) y.toNat)).car c = (s.car c).doneAt (s.entry c) y.toNat := by
    rw [Part.modCar_car, if_pos rfl]
  rw [blocks] at turn own
  obtain ⟨t, run, car, event, kept⟩ := handOver_event (effect := fun p =>
      if p.reportTaken c x then p.moveDone c y.toNat else p) (fr := .moveDone x y) on (decide_eq_true known)
    ((if_pos taken).trans (moveDone_eq _ _ _)) turn pass
    (by unfold Part.stateOf; rw [own]; exact CarBlock.releasing_quiet _ _)
  exact ⟨t, run, by rw [car, own]; rfl, event, kept⟩

theorem execMoveFail_other (on : s.powered = true) (other : s.reportTaken c x = false) :
    execMoveFail c x y s = .next (s.withPart (s.modCar c (·.handedOver (s.entry c) (.moveFail x y)))) :=
  handOver_idle on rfl (if_neg (by rw [other]; decide))

/-- The blocks of a car whose MOVE_FAIL has given its reason (R69). -/
def CarBlock.reasoned (b : CarBlock) (reason : Nat) : CarBlock :=
  { b with record := { b.record with driveFailReason := some reason } }

theorem execMoveFail_fails (on : s.powered = true) (taken : s.reportTaken c x = true) :
    ∃ t, execMoveFail c x y s = .next t ∧
      t.car c = (((s.car c).reasoned y.toNat).failed s.globals .driveFail).handedOver (s.entry c) (.moveFail x y) ∧
      CarEvent c [⟨.carFailed, some c⟩] s.toPart t.toPart ∧ PassKept s.toPart t.toPart := by
  obtain ⟨turn, own, pass⟩ := carTurn_toFailed .driveFail
    (prelude_modCar (p := s.toPart) (c := c) (f := (·.reasoned y.toNat)) rfl)
  rw [show (s.modCar c (·.reasoned y.toNat)).car c = (s.car c).reasoned y.toNat by
    rw [Part.modCar_car, if_pos rfl]] at own
  obtain ⟨t, run, car, event, kept⟩ := handOver_event (effect := fun p => if p.reportTaken c x then
      (p.modRecord c fun r => { r with driveFailReason := some y.toNat }).change c (·.toFailed c .driveFail) else p)
    (q := (s.modCar c (·.reasoned y.toNat)).change c (·.toFailed c .driveFail)) (fr := .moveFail x y) on rfl
    (if_pos taken) turn pass (by unfold Part.stateOf; rw [own]; rfl)
  exact ⟨t, run, by rw [car, own]; rfl, event, kept⟩

theorem execGateReport_bad (on : s.powered = true) (unknown : ¬x.toNat < (s.entry c).landings) :
    execGateReport c x y s = .next (s.withPart (s.modCar c fun b =>
      { b with line := b.line.countBad.endHandover (s.entry c) (.gateReport x y) })) :=
  handOver_bad on (decide_eq_false unknown)

theorem opensGate_iff : s.opensGate c x y = true ↔ (s.car c).record.state = .releasing ∧
    (s.car c).record.summary.landing = some x.toNat ∧ gateOf y = .open := by
  simp [Part.opensGate, Part.stateOf, and_assoc]

theorem execGateReport_other (on : s.powered = true) (known : x.toNat < (s.entry c).landings)
    (other : s.opensGate c x y = false) :
    execGateReport c x y s = .next (s.withPart (s.modCar c (·.handedOver (s.entry c) (.gateReport x y)))) :=
  handOver_idle on (decide_eq_true known) (if_neg (by rw [other]; decide))

/-- The blocks of a car at rest that is RESCUED (R66). -/
def CarBlock.rescued (b : CarBlock) (g : Globals) : CarBlock :=
  let m := b.moved g .rescued none
  { m with record := { m.record with summary := { b.record.summary with releaseTime := some b.record.trappedTime } } }

theorem toRescued_rescued (rest : isMoveState (p.stateOf c) = false) :
    (p.toRescued c).car c = (p.car c).rescued p.globals := by
  rw [Part.toRescued_own, CarBlock.rescued, ← stated_eq_moved rest none rfl (by simp)]

theorem execGateReport_opens (on : s.powered = true) (known : x.toNat < (s.entry c).landings)
    (opens : s.opensGate c x y = true) :
    ∃ t, execGateReport c x y s = .next t ∧
      t.car c = ((s.car c).rescued s.globals).handedOver (s.entry c) (.gateReport x y) ∧
      CarEvent c [⟨.carRescued, some c⟩] s.toPart t.toPart ∧ PassKept s.toPart t.toPart := by
  have releasing : s.stateOf c = .releasing := (opensGate_iff.mp opens).1
  have rest : isMoveState (s.stateOf c) = false := by rw [releasing]; rfl
  have own := toRescued_rescued rest
  have touches := touchesOnly_toRescued s.toPart c
  have turn : CarTurn c [⟨.carRescued, some c⟩] s.toPart (s.toPart.toRescued c) :=
    touches.turn ((offers_raise _ _).of_ports rfl rfl rfl rfl) fun e => absurd (rest.symm.trans e) (by decide)
  obtain ⟨t, run, car, event, kept⟩ := handOver_event (effect := fun p => if p.opensGate c x y then p.toRescued c else p)
    (fr := .gateReport x y) on (decide_eq_true known) (if_pos opens) turn touches.passKept
    (by unfold Part.stateOf; rw [own]; rfl)
  exact ⟨t, run, by rw [car, own], event, kept⟩

/-- Settles O35, report by report. -/
theorem controllerReports : Obligations.ControllerReports := by
  intro s c x y on b known landing matched ended bad summary
  have taken : s.reportTaken c x = true ↔ matched := reportTaken_iff
  have missed (h : ¬matched) : s.reportTaken c x = false := (Bool.not_eq_true _).mp (mt taken.mp h)
  have same {p : Part} {q : Part} (h : p = q) : Host.Outcome.next (s.withPart p) = (.next (s.withPart q) :
      Host.Outcome State Fault Refusal) := congrArg (fun p => Host.Outcome.next (s.withPart p)) h
  refine ⟨?ack, fun unknown => ?_, fun yes other => ?_, fun yes hit => ?_, fun other => ?_, fun hit => ?_,
    fun unknown => ?_, fun yes => ⟨fun other => ?_, fun opens => ?_⟩⟩
  case ack =>
    refine (execDriveAck_eq on).trans (same (Part.modCar_congr ?_))
    simp only [taken]
    rfl
  · exact (execMoveDone_bad on unknown).trans (same (Part.modCar_congr rfl))
  · exact (execMoveDone_other on yes (missed other)).trans (same (Part.modCar_congr rfl))
  · exact execMoveDone_lands on yes (taken.mpr hit)
  · exact (execMoveFail_other on (missed other)).trans (same (Part.modCar_congr rfl))
  · exact execMoveFail_fails on (taken.mpr hit)
  · exact (execGateReport_bad on unknown).trans (same (Part.modCar_congr rfl))
  · exact (execGateReport_other on yes ((Bool.not_eq_true _).mp (mt opensGate_iff.mp other))).trans
      (same (Part.modCar_congr rfl))
  · exact execGateReport_opens on yes (opensGate_iff.mpr opens)

end

end Sys2Proof.Machine
end

