-- ==== Sys2Proof/Proofs/StatusSeen.lean ====
section
/-!
PROOFS. A valid STATUS (R23): its record, the alarm tally (R106), what it does to the car record by the car's state (R53, R67,
R70, R71, R177), and the seed of its position (R94).
-/

namespace Sys2Proof.Machine

variable {s : State} {c : Car} {p q : Part} {b : CarBlock} {record : StatusRecord} {fr : StatusFrame}

theorem modCar_stateOf (p : Part) (c : Car) (f : CarBlock → CarBlock) :
    (p.modCar c f).stateOf c = (f (p.car c)).record.state := by simp [Part.stateOf]

theorem onlyCar_modCar (p : Part) (c : Car) (f : CarBlock → CarBlock) : OnlyCar c p (p.modCar c f) :=
  ⟨keepsRest_modCar p c f, fun d hd => by simp [hd], rfl, rfl, rfl⟩

/-! ## The blocks of the car -/

/-- The blocks of a car whose line has taken a STATUS (R23). -/
def CarBlock.seen (b : CarBlock) (record : StatusRecord) (timeout : Nat) : CarBlock :=
  { b with line := b.line.takeStatus record timeout }

/-- The blocks of a car whose alarm tally has taken a STATUS (R106). -/
def CarBlock.tallied (b : CarBlock) (record : StatusRecord) : CarBlock :=
  { b with policy := b.policy.tallyAlarm record.alarmCount }

/-- The blocks of a car that the position of a STATUS has seeded (R94). -/
def CarBlock.statusSeeded (b : CarBlock) (e : CarEntry) (record : StatusRecord) : CarBlock :=
  match record.zone with
  | some z => b.seeded e z (statusAnchor z record.offset) false
  | none => b

theorem tallyAlarm_eq (x : CarPolicy) (n : Nat) : x.tallyAlarm n =
    (match x.alarmReference with
     | some a => { x with alarmTally := min 65535 (x.alarmTally + (n + 256 - a) % 256), alarmReference := some n }
     | none => { x with alarmReference := some n }) := by
  cases h : x.alarmReference <;> simp only [CarPolicy.tallyAlarm, h] <;> rfl

theorem statusSeeded_record (b : CarBlock) (e : CarEntry) (record : StatusRecord) :
    (b.statusSeeded e record).record = b.record ∧ (b.statusSeeded e record).slots = b.slots := by
  unfold CarBlock.statusSeeded; split <;> exact ⟨rfl, rfl⟩

theorem statusSeed_taken (h : p.stateOf c = .normal ∨ p.stateOf c = .confirming) :
    p.statusSeed c record = p.modCar c (·.statusSeeded (p.entry c) record) := by
  unfold Part.statusSeed CarBlock.statusSeeded
  cases record.zone with
  | none => exact (Part.modCar_self rfl).symm
  | some z => exact if_pos h

theorem statusSeed_left (h : p.stateOf c ≠ .normal) (k : p.stateOf c ≠ .confirming) : p.statusSeed c record = p := by
  unfold Part.statusSeed
  cases record.zone with
  | none => rfl
  | some z => exact if_neg (not_or.mpr ⟨h, k⟩)

theorem judged_state (b : CarBlock) (g : Globals) (h : b.record.state = .normal ∨ b.record.state = .confirming) :
    (b.judged g).record.state = .normal ∨ (b.judged g).record.state = .confirming := by
  unfold CarBlock.judged
  split
  · exact .inr rfl
  · split
    · exact .inl rfl
    · exact h

/-! ## The effect by the state of the car -/

/-- The part once the line has taken the STATUS. -/
def Part.statusTaken (p : Part) (c : Car) (record : StatusRecord) : Part :=
  p.modCar c (·.seen record p.globals.lostTimeout)

theorem takeStatus_eq (p : Part) (c : Car) (record : StatusRecord) : p.takeStatus c record =
    (((p.statusTaken c record).tallyStatus c record).statusEvent c record (p.car c).line.state).statusSeed c record := rfl

theorem statusTaken_stateOf (p : Part) (c : Car) (record : StatusRecord) :
    (p.statusTaken c record).stateOf c = p.stateOf c := modCar_stateOf _ _ _

theorem tallyStatus_waiting (h : isWaitingRescue (p.stateOf c) = true) : (p.statusTaken c record).tallyStatus c record =
    p.modCar c fun b => (b.seen record p.globals.lostTimeout).tallied record := by
  unfold Part.tallyStatus
  rw [statusTaken_stateOf, if_pos h]
  exact Part.modCar_modCar

theorem tallyStatus_other (h : isWaitingRescue (p.stateOf c) = false) :
    (p.statusTaken c record).tallyStatus c record = p.statusTaken c record := by
  unfold Part.tallyStatus
  rw [statusTaken_stateOf, if_neg (by rw [h]; decide)]

theorem takeStatus_judged (h : p.stateOf c = .normal ∨ p.stateOf c = .confirming) : p.takeStatus c record =
    p.modCar c fun b => ((b.seen record p.globals.lostTimeout).judged p.globals).statusSeeded (p.entry c) record := by
  have state := statusTaken_stateOf p c record
  have event : (p.statusTaken c record).statusEvent c record (p.car c).line.state =
      (p.statusTaken c record).modCar c (·.judged p.globals) := by
    unfold Part.statusEvent
    rw [state]
    rcases h with h | h <;> rw [h] <;> exact judgeStall_eq _ _
  rw [takeStatus_eq, tallyStatus_other (by rcases h with h | h <;> rw [h] <;> rfl), event,
    statusSeed_taken (by
      rw [modCar_stateOf]
      exact judged_state _ _ (by rcases h with h | h
                                 · exact .inl (state.trans h)
                                 · exact .inr (state.trans h))),
    Part.statusTaken, Part.modCar_modCar, Part.modCar_modCar]
  rfl

/-- A STATUS that only counts: the car record stands (R71, R106). -/
theorem takeStatus_tallied (waits : isWaitingRescue (p.stateOf c) = true)
    (h : ∀ q : Part, q.stateOf c = p.stateOf c → (q.car c).record = (p.car c).record →
      q.statusEvent c record (p.car c).line.state = q) :
    p.takeStatus c record = p.modCar c fun b => (b.seen record p.globals.lostTimeout).tallied record := by
  have state : (p.modCar c fun b => (b.seen record p.globals.lostTimeout).tallied record).stateOf c = p.stateOf c :=
    modCar_stateOf _ _ _
  rw [takeStatus_eq, tallyStatus_waiting waits, h _ state (by rw [Part.modCar_car, if_pos rfl]; rfl),
    statusSeed_left]
  · intro e; rw [← state, e] at waits; exact absurd waits (by decide)
  · intro e; rw [← state, e] at waits; exact absurd waits (by decide)

theorem takeStatus_seen (h : p.stateOf c = .unconfigured ∨ (p.stateOf c = .rescued ∧ record.mode ≠ .inService)) :
    p.takeStatus c record = p.modCar c (·.seen record p.globals.lostTimeout) := by
  have state := statusTaken_stateOf p c record
  have event : (p.statusTaken c record).statusEvent c record (p.car c).line.state = p.statusTaken c record := by
    unfold Part.statusEvent
    rw [state]
    rcases h with h | ⟨h, other⟩
    · rw [h]
    · rw [h]; exact if_neg other
  rw [takeStatus_eq, tallyStatus_other (by rcases h with h | ⟨h, -⟩ <;> rw [h] <;> rfl), event, statusSeed_left]
  · rfl
  · rw [state]; rcases h with h | ⟨h, -⟩ <;> rw [h] <;> decide
  · rw [state]; rcases h with h | ⟨h, -⟩ <;> rw [h] <;> decide

/-! ## A car that returns to service -/

/-- A car whose last mode is IN_SERVICE meets no stall condition on an ALIVE line (R53). -/
theorem returned_judged (inService : record.mode = .inService) (timeout : Nat) (g : Globals) :
    ((b.seen record timeout).returned g).judged g = (b.seen record timeout).returned g := by
  refine CarBlock.judged_of_normal g rfl ?_
  rw [CarBlock.returned_stalled]
  simp [CarBlock.stalled, CarBlock.seen, CarLine.takeStatus, inService]

theorem returned_tallied (b : CarBlock) (record : StatusRecord) (g : Globals) :
    (b.tallied record).returned g = b.returned g := rfl

theorem tallied_toNormal (rest : isMoveState (p.stateOf c) = false) (inService : record.mode = .inService) :
    (p.modCar c fun b => (b.seen record p.globals.lostTimeout).tallied record).toNormal c =
      p.modCar c fun b => (b.seen record p.globals.lostTimeout).returned p.globals := by
  rw [toNormal_eq (by rw [modCar_stateOf]; exact rest), Part.modCar_modCar]
  refine Part.modCar_congr ?_
  show (((p.car c).seen record p.globals.lostTimeout).tallied record |>.returned p.globals).judged p.globals = _
  rw [returned_tallied, returned_judged inService]

theorem takeStatus_rescued (h : p.stateOf c = .rescued) (inService : record.mode = .inService) :
    p.takeStatus c record = p.modCar c fun b =>
      ((b.seen record p.globals.lostTimeout).returned p.globals).statusSeeded (p.entry c) record := by
  have state := statusTaken_stateOf p c record
  have event : (p.statusTaken c record).statusEvent c record (p.car c).line.state =
      p.modCar c fun b => (b.seen record p.globals.lostTimeout).returned p.globals := by
    unfold Part.statusEvent
    rw [state, h]
    refine (if_pos inService).trans ?_
    rw [toNormal_eq (by rw [state, h]; rfl), Part.statusTaken, Part.modCar_modCar]
    exact Part.modCar_congr (returned_judged inService _ _)
  rw [takeStatus_eq, tallyStatus_other (by rw [h]; rfl), event, statusSeed_taken (by rw [modCar_stateOf]; exact .inl rfl),
    Part.modCar_modCar]
  rfl

/-- A waiting car that is in service again returns to NORMAL with CAR_RETURNED (R70). -/
theorem takeStatus_returned (h : p.stateOf c = .assessing ∨ p.stateOf c = .ready ∨ p.stateOf c = .held ∨
    p.stateOf c = .failed) (inService : record.mode = .inService) : p.takeStatus c record =
      ((p.modCar c fun b => (b.seen record p.globals.lostTimeout).returned p.globals).raiseCar .carReturned c).modCar c
        (·.statusSeeded (p.entry c) record) := by
  have rest : isMoveState (p.stateOf c) = false := by rcases h with h | h | h | h <;> rw [h] <;> rfl
  have state : (p.modCar c fun b => (b.seen record p.globals.lostTimeout).tallied record).stateOf c = p.stateOf c :=
    modCar_stateOf _ _ _
  have event : (p.modCar c fun b => (b.seen record p.globals.lostTimeout).tallied record).statusEvent c record
      (p.car c).line.state =
      (p.modCar c fun b => (b.seen record p.globals.lostTimeout).returned p.globals).raiseCar .carReturned c := by
    rw [← tallied_toNormal rest inService]
    unfold Part.statusEvent
    rw [state]
    rcases h with h | h | h | h <;> rw [h] <;> exact if_pos inService
  rw [takeStatus_eq, tallyStatus_waiting (by rcases h with h | h | h | h <;> rw [h] <;> rfl), event, statusSeed_taken]
  · rfl
  · refine .inl ?_
    unfold Part.stateOf
    rw [Part.raiseCar_car, Part.modCar_car, if_pos rfl]
    rfl

/-! ## The other effects -/

theorem takeStatus_byFrame (h : p.stateOf c = .releasing) (other : (p.car c).line.state ≠ .alive) :
    p.takeStatus c record = p.modCar c fun b => { (b.seen record p.globals.lostTimeout).tallied record with
      signals := { b.signals with releaseMethod := some .frame }
      line := (b.line.takeStatus record p.globals.lostTimeout).offerCommand
        (.gateRelease (b.record.summary.landing.getD 0)) } := by
  have state : (p.modCar c fun b => (b.seen record p.globals.lostTimeout).tallied record).stateOf c = .releasing :=
    (modCar_stateOf _ _ _).trans h
  have event : (p.modCar c fun b => (b.seen record p.globals.lostTimeout).tallied record).statusEvent c record
      (p.car c).line.state = p.modCar c fun b => { (b.seen record p.globals.lostTimeout).tallied record with
        signals := { b.signals with releaseMethod := some .frame }
        line := (b.line.takeStatus record p.globals.lostTimeout).offerCommand
          (.gateRelease (b.record.summary.landing.getD 0)) } := by
    unfold Part.statusEvent
    rw [state]
    refine (if_neg other).trans ?_
    unfold Part.releaseByFrame Part.sendGateRelease Part.modSignals Part.modLine
    simp only [Part.modCar_modCar]
    refine Part.modCar_congr ?_
    simp only [Part.modCar_car, if_true]
    rfl
  rw [takeStatus_eq, tallyStatus_waiting (by rw [h]; rfl), event, statusSeed_left]
  · rw [modCar_stateOf]; show p.stateOf c ≠ _; rw [h]; decide
  · rw [modCar_stateOf]; show p.stateOf c ≠ _; rw [h]; decide

theorem releasing_state (b : CarBlock) (g : Globals) :
    (b.releasing g).record.state ≠ .normal ∧ (b.releasing g).record.state ≠ .confirming := by
  unfold CarBlock.releasing
  split
  · exact ⟨RescueState.noConfusion, RescueState.noConfusion⟩
  · split <;> exact ⟨RescueState.noConfusion, RescueState.noConfusion⟩

theorem takeStatus_positioned (h : p.stateOf c = .held) (position : (p.car c).record.heldCause = some .position)
    (other : record.mode ≠ .inService) : p.takeStatus c record =
      (p.modCar c fun b => (b.seen record p.globals.lostTimeout).tallied record).change c (·.toReleasing c) := by
  have state : (p.modCar c fun b => (b.seen record p.globals.lostTimeout).tallied record).stateOf c = .held :=
    (modCar_stateOf _ _ _).trans h
  have event : (p.modCar c fun b => (b.seen record p.globals.lostTimeout).tallied record).statusEvent c record
      (p.car c).line.state =
      (p.modCar c fun b => (b.seen record p.globals.lostTimeout).tallied record).change c (·.toReleasing c) := by
    unfold Part.statusEvent
    rw [state]
    exact (if_neg other).trans (if_pos (by rw [Part.modCar_car, if_pos rfl]; exact position))
  have own := Part.change_toReleasing_own (p.modCar c fun b => (b.seen record p.globals.lostTimeout).tallied record) c
    (by rw [state]; decide)
  rw [takeStatus_eq, tallyStatus_waiting (by rw [h]; rfl), event, statusSeed_left]
  · unfold Part.stateOf; rw [own]; exact (releasing_state _ _).1
  · unfold Part.stateOf; rw [own]; exact (releasing_state _ _).2

/-! ## The command -/

theorem frameValid_of_record (h : statusRecord (s.entry c) fr = some record)
    (k : fr.driveAvailable = 0 ∨ fr.driveAvailable = 1) : frameValid (s.entry c) (.status fr) = true := by
  rw [frameValid_status_iff, ← modeOf_isSome_iff]
  refine ⟨?_, k⟩
  unfold statusRecord at h
  cases mode : modeOf fr.mode with
  | none => rw [mode] at h; cases h
  | some m => rfl

theorem statusEffect (h : statusRecord (s.entry c) fr = some record) :
    (match statusRecord (s.toPart.entry c) fr with
      | some record => s.toPart.takeStatus c record
      | none => s.toPart) = s.toPart.takeStatus c record := by rw [h]

/-- A STATUS that updates its car alone. -/
theorem execStatus_only {f : CarBlock → CarBlock} (on : s.powered = true)
    (h : statusRecord (s.entry c) fr = some record) (k : fr.driveAvailable = 0 ∨ fr.driveAvailable = 1)
    (e : s.toPart.takeStatus c record = s.modCar c f)
    (demand : isDemandState (f (s.car c)).record.state = isDemandState (s.stateOf c)) :
    ∃ t, execStatus c fr s = .next t ∧ t.car c = (f (s.car c)).handedOver (s.entry c) (.status fr) ∧
      OnlyCar c s.toPart t.toPart ∧ PassKept s.toPart t.toPart :=
  ⟨_, handOver_modCar on (frameValid_of_record h k) ((statusEffect h).trans e) demand, by
    show (Part.modCar _ _ _).car c = _; rw [Part.modCar_car, if_pos rfl], onlyCar_modCar s.toPart c fun b => (f b).handedOver (s.entry c) (.status fr), rfl, rfl⟩

/-- A STATUS that is an event of its car. -/
theorem execStatus_event {l : List Notice} (on : s.powered = true)
    (h : statusRecord (s.entry c) fr = some record) (k : fr.driveAvailable = 0 ∨ fr.driveAvailable = 1)
    (turn : CarTurn c l s.toPart (s.toPart.takeStatus c record)) (pass : PassKept s.toPart (s.toPart.takeStatus c record))
    (own : (s.toPart.takeStatus c record).car c = b) (quiet : isDemandState b.record.state = false) :
    ∃ t, execStatus c fr s = .next t ∧ t.car c = b.handedOver (s.entry c) (.status fr) ∧
      CarEvent c l s.toPart t.toPart ∧ PassKept s.toPart t.toPart := by
  subst own
  exact handOver_event on (frameValid_of_record h k) (statusEffect h) turn pass quiet

theorem execStatus_positioned (on : s.powered = true) (h : statusRecord (s.entry c) fr = some record)
    (k : fr.driveAvailable = 0 ∨ fr.driveAvailable = 1) (held : s.stateOf c = .held)
    (position : (s.car c).record.heldCause = some .position) (other : record.mode ≠ .inService) :
    let b := ((s.car c).seen record s.globals.lostTimeout).tallied record
    ∃ t, execStatus c fr s = .next t ∧ t.car c = (b.releasing s.globals).handedOver (s.entry c) (.status fr) ∧
      CarEvent c (b.releasingNotices s.globals c) s.toPart t.toPart ∧ PassKept s.toPart t.toPart := by
  intro b
  have effect := takeStatus_positioned held position other
  obtain ⟨turn, own, pass⟩ := carTurn_toReleasing (c := c)
    (p := s.modCar c fun b => (b.seen record s.globals.lostTimeout).tallied record)
    (by rw [modCar_stateOf]; show s.stateOf c ≠ _; rw [held]; decide)
    (prelude_modCar (f := fun b => (b.seen record s.globals.lostTimeout).tallied record) rfl)
  rw [Part.modCar_car, if_pos rfl] at turn own
  rw [← effect] at turn own pass
  exact execStatus_event on h k turn pass own (CarBlock.releasing_quiet _ _)

theorem execStatus_returned (on : s.powered = true) (h : statusRecord (s.entry c) fr = some record)
    (k : fr.driveAvailable = 0 ∨ fr.driveAvailable = 1) (waits : s.stateOf c = .assessing ∨ s.stateOf c = .ready ∨
      s.stateOf c = .held ∨ s.stateOf c = .failed) (inService : record.mode = .inService) :
    ∃ t, execStatus c fr s = .next t ∧ t.car c =
        ((((s.car c).seen record s.globals.lostTimeout).returned s.globals).statusSeeded (s.entry c) record).handedOver
          (s.entry c) (.status fr) ∧
      CarEvent c [⟨.carReturned, some c⟩] s.toPart t.toPart ∧ PassKept s.toPart t.toPart := by
  have effect := takeStatus_returned waits inService
  have rest : isMoveState (s.stateOf c) = false := by rcases waits with w | w | w | w <;> rw [w] <;> rfl
  have touches : TouchesOnly c s.toPart (s.toPart.takeStatus c record) := by
    rw [effect]
    exact ((touchesOnly_modCar _ c _).trans (touchesOnly_raiseCar _ c _ c)).trans (touchesOnly_modCar _ c _)
  have offers : Offers [⟨.carReturned, some c⟩] s.toPart (s.toPart.takeStatus c record) := by
    rw [effect]
    exact (offers_raise _ _).of_ports rfl rfl rfl rfl
  refine execStatus_event on h k (touches.turn offers fun e => absurd (rest.symm.trans e) (by decide)) touches.passKept ?_ ?_
  · rw [effect, Part.modCar_car, if_pos rfl, Part.raiseCar_car, Part.modCar_car, if_pos rfl]
  · rw [(statusSeeded_record _ _ _).1]; rfl

/-- Settles O34: the effect by the state of the car. -/
theorem statusSeen : Obligations.StatusSeen := by
  intro s c fr record on h k b seen tallied ended seed
  have seededEq (x : CarBlock) : seed x = x.statusSeeded (s.entry c) record := rfl
  have talliedEq : tallied = seen.tallied record := by
    exact (congrArg (fun y => ({ seen with policy := y } : CarBlock)) (tallyAlarm_eq _ _)).symm
  obtain ⟨t, run⟩ : ∃ t, execStatus c fr s = .next t := ⟨_, rfl⟩
  have found {P : State → Prop} (e : ∃ u, execStatus c fr s = .next u ∧ P u) : P t := by
    obtain ⟨u, run', holds⟩ := e
    cases run.symm.trans run'
    exact holds
  refine ⟨t, run, fun normal => ?_, fun moves => ?_, fun unconfigured => ?_, fun rescued => ?_, fun releasing => ?_,
    fun held position other => ?_, fun waits other => ?_, fun waits inService => ?_⟩
  · have quiet := judged_state seen s.globals normal
    exact found (execStatus_only on h k (takeStatus_judged normal) (by
      rw [(statusSeeded_record _ _ _).1]
      exact CarBlock.judged_isDemandState _ _))
  · rw [talliedEq]
    refine found (execStatus_only on h k (takeStatus_tallied ?_ fun q state _ => ?_) rfl)
    · rcases moves with moves | moves
      · revert moves; cases s.stateOf c <;> decide
      · rw [moves]; rfl
    · unfold Part.statusEvent
      rw [state]
      rcases moves with moves | moves
      · revert moves; cases s.stateOf c <;> intro moves <;> first | rfl | cases moves
      · rw [moves]
  · exact found (execStatus_only on h k (takeStatus_seen (.inl unconfigured)) rfl)
  · by_cases inService : record.mode = .inService
    · rw [if_pos inService]
      exact found (execStatus_only on h k (takeStatus_rescued rescued inService) (by
        rw [(statusSeeded_record _ _ _).1, rescued]; rfl))
    · rw [if_neg inService]
      exact found (execStatus_only on h k (takeStatus_seen (.inr ⟨rescued, inService⟩)) rfl)
  · rw [talliedEq]
    by_cases alive : b.line.state = .alive
    · obtain ⟨own, only, pass⟩ := found (execStatus_only on h k (takeStatus_tallied (by rw [releasing]; rfl)
        fun q state _ => by
          unfold Part.statusEvent
          rw [state, releasing]
          exact if_pos alive) rfl)
      exact ⟨only, pass, fun _ => own, fun other => absurd alive other⟩
    · obtain ⟨own, only, pass⟩ := found (execStatus_only on h k (takeStatus_byFrame releasing alive) rfl)
      exact ⟨only, pass, fun yes => absurd yes alive, fun _ => own⟩
  · rw [talliedEq]
    exact found (execStatus_positioned on h k held position other)
  · rw [talliedEq]
    refine found (execStatus_only on h k (takeStatus_tallied ?_ fun q state kept => ?_) rfl)
    · rcases waits with w | w | w | ⟨w, -⟩ <;> rw [w] <;> rfl
    · unfold Part.statusEvent
      rw [state]
      rcases waits with w | w | w | ⟨w, cause⟩ <;> rw [w]
      · exact if_neg other
      · exact if_neg other
      · exact if_neg other
      · exact (if_neg other).trans (if_neg (by rw [kept]; exact cause))
  · exact found (execStatus_returned on h k waits inService)

end Sys2Proof.Machine
end

