-- ==== Sys2Proof/Proofs/Ticks.lean ====
section
/-!
PROOFS. The 1 s tick (R30, R52, R125, R180), the urgency step of a timed pass (R129 to R131), and the planning view that a
pass takes (R98, R99).
-/

namespace Sys2Proof.Machine

variable {s : State} {p q : Part} {b : CarBlock} {g : Globals} {c : Car}

/-! ## The urgency step -/

theorem mapCars_mapCars (p : Part) (f g : CarBlock → CarBlock) : (p.mapCars f).mapCars g = p.mapCars fun b => g (f b) := by
  have cars : ((p.mapCars f).mapCars g).cars = (p.mapCars fun b => g (f b)).cars :=
    Part.cars_ext fun c => by simp only [Part.mapCars_car]
  exact congrArg (fun x => ({ p with cars := x } : Part)) cars

/-- An urgency step and halving touch the urgency and the alarm mark of a car alone (R129 to R131). -/
def UrgencyMoved (b b' : CarBlock) : Prop :=
  b' = { b with planner := { b.planner with urgency := b'.planner.urgency, alarmMark := b'.planner.alarmMark } }

theorem urgencyMoved_stepUrgency (b : CarBlock) (g : Globals) : UrgencyMoved b (b.stepUrgency g) := by
  unfold UrgencyMoved CarBlock.stepUrgency; split <;> rfl

theorem UrgencyMoved.halve {b' : CarBlock} (h : UrgencyMoved b b') : UrgencyMoved b b'.halveUrgency := by
  unfold UrgencyMoved CarBlock.halveUrgency at *
  split
  · rw [h]
  · exact h

/-- Some urgency reaches 61440 in the step (R131). -/
def Part.Rebases (p : Part) : Prop := ∃ c, 61440 ≤ ((p.car c).stepUrgency p.globals).planner.urgency

theorem stepUrgency_below (h : ¬p.Rebases) : p.stepUrgency = p.mapCars (·.stepUrgency p.globals) := by
  unfold Part.stepUrgency
  refine if_neg fun any => h ?_
  obtain ⟨c, -, reached⟩ := List.any_eq_true.mp any
  exact ⟨c, by simpa using reached⟩

theorem stepUrgency_rebased (h : p.Rebases) : p.stepUrgency =
    ((p.mapCars (·.stepUrgency p.globals)).mapCars (·.halveUrgency)).raise ⟨.urgencyRebased, none⟩ := by
  unfold Part.stepUrgency
  obtain ⟨c, reached⟩ := h
  exact if_pos (List.any_eq_true.mpr ⟨c, List.mem_finRange c, by simpa using reached⟩)

theorem urgencyMoved_part (p : Part) (c : Car) : UrgencyMoved (p.car c) (p.stepUrgency.car c) := by
  by_cases h : p.Rebases
  · rw [stepUrgency_rebased h, Part.raise_car, Part.mapCars_car, Part.mapCars_car]
    exact (urgencyMoved_stepUrgency _ _).halve
  · rw [stepUrgency_below h, Part.mapCars_car]
    exact urgencyMoved_stepUrgency _ _

theorem stepUrgency_rest (p : Part) : KeepsRest p p.stepUrgency ∧ KeepsPlans p p.stepUrgency := by
  by_cases h : p.Rebases
  · rw [stepUrgency_rebased h, mapCars_mapCars]
    exact ⟨(keepsRest_mapCars p _).trans (keepsRest_raise _ _), rfl, rfl, rfl⟩
  · rw [stepUrgency_below h]; exact ⟨keepsRest_mapCars p _, rfl, rfl, rfl⟩

theorem stepUrgency_stateOf (p : Part) (c : Car) : p.stepUrgency.stateOf c = p.stateOf c :=
  congrArg (·.record.state) (urgencyMoved_part p c)

/-- A timed pass starts with the urgency step and a snapshot (R126). -/
theorem startPass_timed (p : Part) : p.startPass .timed = { p.stepUrgency with pass := some (p.stepUrgency.passOf .timed) } := rfl

theorem startPass_timed_pass (p : Part) : (p.startPass .timed).pass = some ((p.startPass .timed).passOf .timed) := rfl

/-! ## The tick -/

theorem isWaitingRescue_iff (x : RescueState) : isWaitingRescue x = true ↔ isTrapped x = true ∧ x ≠ .rescued := by
  cases x <;> decide

/-- The blocks of a car after the tick, but for the urgency step (R30, R52). -/
def CarBlock.ticked (b : CarBlock) : CarBlock := ({ b with record := b.record.tick } : CarBlock).sendRescueState

/-- The part that the tick asks a timed pass of. -/
def Part.ticked (p : Part) : Part :=
  { p.mapCars (·.ticked) with time := { p.time with sinceTick := 0, flashLit := true } }

theorem CarRecord.tick_eq (r : CarRecord) : r.tick = { r with
  trappedTime :=
    if isTrapped r.state = true ∧ r.state ≠ .rescued then min 65535 (r.trappedTime + 1) else r.trappedTime } := by
  unfold CarRecord.tick
  by_cases h : isWaitingRescue r.state = true
  · rw [if_pos h, if_pos ((isWaitingRescue_iff _).mp h)]
  · rw [if_neg h, if_neg (mt (isWaitingRescue_iff _).mpr h)]

theorem CarBlock.ticked_eq (b : CarBlock) : b.ticked = { b with
    record := { b.record with
      trappedTime :=
        if isTrapped b.record.state = true ∧ b.record.state ≠ .rescued then min 65535 (b.record.trappedTime + 1)
        else b.record.trappedTime }
    line := if b.record.state = .unconfigured then b.line
      else b.line.offerRescueState (.rescueState b.record.state b.record.heldCause) } := by
  have tick := b.record.tick_eq
  unfold CarBlock.ticked CarBlock.sendRescueState
  rw [tick]
  dsimp only
  split <;> rfl

theorem askPass_timed_free (h : p.pass = none) : p.askPass .timed = p.startPass .timed := by
  unfold Part.askPass; rw [h]

theorem askPass_timed_waits (h : p.pass.isSome = true) : p.askPass .timed = { p with timedPending := true } := by
  obtain ⟨a, h⟩ := Option.isSome_iff_exists.mp h
  unfold Part.askPass; rw [h]

theorem askPass_timed_moved (p : Part) (c : Car) : UrgencyMoved (p.car c) ((p.askPass .timed).car c) := by
  unfold Part.askPass; split
  · exact urgencyMoved_part p c
  · rfl

theorem askPass_timed_keeps (p : Part) : (p.askPass .timed).time = p.time ∧ (p.askPass .timed).supply = p.supply ∧
    (p.askPass .timed).config = p.config ∧ (p.askPass .timed).store = p.store ∧ (p.askPass .timed).commits = p.commits := by
  obtain ⟨rest, plans⟩ := stepUrgency_rest p
  unfold Part.askPass; split
  · exact ⟨rest.time, plans.supply, rest.config, rest.store, rest.commits⟩
  · exact ⟨rfl, rfl, rfl, rfl, rfl⟩

theorem askPass_timed_demand (p : Part) : (p.askPass .timed).demand = p.demand :=
  demand_congr fun c => by
    unfold Part.stateOf
    rw [askPass_timed_moved p c]

theorem ticked_car (p : Part) (c : Car) : p.ticked.car c = (p.car c).ticked := Part.mapCars_car _ _ _

theorem ticked_demand (p : Part) : p.ticked.demand = p.demand :=
  demand_congr fun c => by
    unfold Part.stateOf
    rw [ticked_car, CarBlock.ticked_eq]

theorem execOneSecondTick_eq (on : s.powered = true) :
    execOneSecondTick s = .next (s.withPart (s.toPart.ticked.askPass .timed)) := by
  have effect : (fun p : Part =>
      let p := p.mapCars fun b => { b with record := b.record.tick }
      let p := p.mapCars (·.sendRescueState)
      { p with time := { p.time with sinceTick := 0, flashLit := true } }.askPass .timed) s.toPart =
      s.toPart.ticked.askPass .timed := by
    dsimp only
    rw [mapCars_mapCars]
    rfl
  refine (runPart_settled on effect).trans ?_
  rw [settleDemand_same ((askPass_timed_demand _).trans (ticked_demand _))]

/-- A car after the tick (R30, R52), up to the urgency step. -/
theorem askPass_ticked_car (p : Part) (c : Car) :
    (p.ticked.askPass .timed).car c = { p.car c with
      record := { (p.car c).record with
        trappedTime :=
          if isTrapped (p.stateOf c) = true ∧ p.stateOf c ≠ .rescued then min 65535 ((p.car c).record.trappedTime + 1)
          else (p.car c).record.trappedTime }
      line := if p.stateOf c = .unconfigured then (p.car c).line
        else (p.car c).line.offerRescueState (.rescueState (p.stateOf c) (p.car c).record.heldCause)
      planner := { (p.car c).planner with
        urgency := ((p.ticked.askPass .timed).car c).planner.urgency
        alarmMark := ((p.ticked.askPass .timed).car c).planner.alarmMark } } := by
  have moved := askPass_timed_moved p.ticked c
  rw [ticked_car, CarBlock.ticked_eq] at moved
  exact moved

/-- Settles O46: the tick is an update of every car and the start, or the flag, of a timed pass. -/
theorem secondTick : Obligations.SecondTick := by
  intro s on seconds
  have cars := askPass_ticked_car s.toPart
  obtain ⟨time, supply, config, store, commits⟩ := askPass_timed_keeps s.toPart.ticked
  refine ⟨_, execOneSecondTick_eq on, time, supply, config, store, commits, fun c => ?_, fun c => ?_, fun free => ?_,
    fun flight => ?_⟩
  · have h := cars c
    exact CarBlock.eq_of_blocks (congrArg (·.line) h) (congrArg (·.inputs) h) (congrArg (·.record) h)
      (congrArg (·.tracker) h) rfl (congrArg (·.policy) h) (congrArg (·.slots) h) (congrArg (·.brake) h)
      (congrArg (·.signals) h)
  · have h := congrArg (·.planner) (cars c)
    exact ⟨congrArg (·.plan) h, congrArg (·.weight) h, congrArg (·.mask) h⟩
  · have start : s.toPart.ticked.askPass .timed = s.toPart.ticked.startPass .timed := askPass_timed_free free
    obtain ⟨rest, plans⟩ := stepUrgency_rest s.toPart.ticked
    rw [start]
    exact ⟨rfl, rest.timedPending, plans.requestPending⟩
  · have waits : s.toPart.ticked.askPass .timed = { s.toPart.ticked with timedPending := true } := askPass_timed_waits flight
    rw [waits]
    refine ⟨rfl, rfl, rfl, rfl, rfl, fun c => ?_⟩
    show (s.toPart.ticked.car c).planner = _
    rw [ticked_car, CarBlock.ticked_eq]

/-! ## The planning view (R98, R99) -/

/-- Where the least cost of a view's zones is, and what the second-least is. -/
theorem least_place {zones : List Nat} {cost : Nat → Nat} (sorted : zones.Pairwise (· < ·))
    (h : (twoLeast (zones.map cost)).1 < 4095) :
    ∃ best, zones[(zones.map cost).findIdx fun c => c == (twoLeast (zones.map cost)).1]? = some best ∧ best ∈ zones ∧
      (twoLeast (zones.map cost)).1 = cost best ∧ (∀ z ∈ zones, z < best → cost best < cost z) ∧
      (twoLeast (zones.map cost)).2 ≤ 4095 ∧ (∀ z ∈ zones, z ≠ best → (twoLeast (zones.map cost)).2 ≤ cost z) ∧
      ((twoLeast (zones.map cost)).2 = 4095 ∨ ∃ z ∈ zones, z ≠ best ∧ cost z = (twoLeast (zones.map cost)).2) := by
  have present := (least_mem (zones.map cost)).resolve_left (by omega)
  set least := (twoLeast (zones.map cost)).1 with least_def
  set i := (zones.map cost).findIdx fun c => c == least with i_def
  have lt : i < (zones.map cost).length := List.findIdx_lt_length_of_exists ⟨least, present, by simp⟩
  have lt' : i < zones.length := by simpa using lt
  have at_i : cost zones[i] = least := by
    have found := List.findIdx_getElem (w := lt)
    rw [List.getElem_map] at found
    exact beq_iff_eq.mp found
  have place : (zones.map cost)[i]? = some least := by
    rw [List.getElem?_eq_getElem lt, List.getElem_map, at_i]
  obtain ⟨second, bound, others⟩ := second_spec (least_def ▸ place)
  have different {j : Nat} (hj : j < zones.length) : zones[j] ≠ zones[i] ↔ j ≠ i :=
    (List.Nodup.getElem_inj_iff (sorted.imp ne_of_lt)).not
  refine ⟨zones[i], List.getElem?_eq_getElem lt', List.getElem_mem lt', at_i.symm, fun z hz below => ?_, bound,
    fun z hz ne => ?_, second.imp_right fun ⟨j, ne, found⟩ => ?_⟩
  · obtain ⟨j, hj, rfl⟩ := List.getElem_of_mem hz
    have before : j < i := by
      by_contra after
      rcases (not_lt.mp after).lt_or_eq with h | h
      · exact absurd (List.pairwise_iff_getElem.mp sorted i j lt' hj h) (by omega)
      · subst h; omega
    have other : cost zones[j] ≠ least := by simpa using List.not_of_lt_findIdx before
    have le : least ≤ cost zones[j] := least_le (List.mem_map_of_mem hz)
    omega
  · obtain ⟨j, hj, rfl⟩ := List.getElem_of_mem hz
    exact others j _ (by simp [hj]) ((different hj).mp ne)
  · rw [List.getElem?_map, Option.map_eq_some_iff] at found
    obtain ⟨z, at_j, is⟩ := found
    obtain ⟨hj, rfl⟩ := List.getElem?_eq_some_iff.mp at_j
    exact ⟨_, List.getElem_mem hj, (different hj).mpr ne, is⟩

theorem mem_consideredZones (e : CarEntry) (level : Option Bool) (z : Nat) :
    z ∈ consideredZones e level ↔ z < 2 * e.landings - 1 ∧ (z % 2 = 0 ↔ level = some true) := by
  unfold consideredZones
  rw [List.mem_filter, List.mem_range]
  refine and_congr Iff.rfl ?_
  rw [beq_iff_eq, Bool.eq_iff_iff]
  unfold isLandingZone
  rw [beq_iff_eq, beq_iff_eq]

theorem sorted_consideredZones (e : CarEntry) (level : Option Bool) : (consideredZones e level).Pairwise (· < ·) :=
  List.pairwise_lt_range.filter _

theorem planningView_empty {e : CarEntry} {t : Tracker} {level : Option Bool} {dist : Int}
    (h : ¬(twoLeast ((consideredZones e level).map (costAt t.costs))).1 < 4095) :
    planningView e g t level dist = ⟨4095, none, 0, false, none⟩ := if_neg h

theorem planningView_eq {e : CarEntry} {t : Tracker} {level : Option Bool} {dist : Int} {best : Nat}
    (h : (twoLeast ((consideredZones e level).map (costAt t.costs))).1 < 4095)
    (place : (consideredZones e level)[((consideredZones e level).map (costAt t.costs)).findIdx fun c =>
      c == (twoLeast ((consideredZones e level).map (costAt t.costs))).1]? = some best) :
    let two := twoLeast ((consideredZones e level).map (costAt t.costs))
    planningView e g t level dist = ⟨two.1, some best, min 255 (two.2 - two.1),
      decide (g.threshold ≤ min 255 (two.2 - two.1)),
      if level == some true then none
      else (rawSpanOffset e t.anchor best dist).map fun o => min (zoneLength e best) o.toNat⟩ := by
  intro two
  refine (if_pos h).trans ?_
  rw [place]
  rfl

theorem clamp_toNat (n : Nat) (o : Int) : min n o.toNat = (min (n : Int) (max 0 o)).toNat := by omega

/-- Settles O48. -/
theorem planningViews : Obligations.PlanningViews := by
  refine ⟨fun e g t level dist => ?_, fun s on free => ?_⟩
  · intro v considered cost
    have zones (z : Nat) : z ∈ consideredZones e level ↔ considered z := mem_consideredZones e level z
    refine ⟨fun none => planningView_empty fun below => ?_, fun ⟨z, hz, below⟩ => ?_⟩
    · rcases least_mem ((consideredZones e level).map (costAt t.costs)) with h | h
      · omega
      · obtain ⟨z, hz, is⟩ := List.mem_map.mp h
        have : 4095 ≤ costAt t.costs z := none z ((zones z).mp hz)
        omega
    · have least : (twoLeast ((consideredZones e level).map (costAt t.costs))).1 < 4095 :=
        (least_le (List.mem_map_of_mem ((zones z).mpr hz))).trans_lt below
      obtain ⟨best, place, mem, is, first, bound, others, second⟩ :=
        least_place (sorted_consideredZones e level) least
      have view : v = _ := planningView_eq least place
      have cost_best : cost best = (twoLeast ((consideredZones e level).map (costAt t.costs))).1 := is.symm
      refine ⟨best, _, ?_, (zones best).mp mem, ?_, ?_, fun z hz => ?_, fun z hz => first z ((zones z).mpr hz), bound,
        fun z hz => others z ((zones z).mpr hz), second.imp_right fun ⟨z, hz, rest⟩ => ⟨z, (zones z).mp hz, rest⟩,
        ?_, ?_, ?_⟩
      · rw [view]
      · rw [view, cost_best]
      · rw [cost_best]; exact least
      · rw [cost_best]; exact least_le (List.mem_map_of_mem ((zones z).mpr hz))
      · rw [view, cost_best]
      · rw [view]; exact decide_eq_true_iff
      · intro clamp
        rw [view]
        by_cases landing : level = some true
        · rw [if_pos landing]; exact if_pos (by simp [landing])
        · rw [if_neg landing]
          refine (if_neg (by simpa using landing)).trans ?_
          have inSpan (x : Option Int) : (x.map fun o => min (zoneLength e best) o.toNat) = x.map clamp :=
            congrArg (fun f => x.map f) (funext fun o => clamp_toNat _ o)
          rw [inSpan]
          generalize t.anchor = anchor
          match anchor with
          | .none | .edge (.enter _) | .edge .level | .edge (.leave .up) | .edge (.leave .down) => rfl
          | .seed zone offset =>
            exact apply_ite (Option.map clamp) (zone = best) (some ((offset : Int) + dist)) none
  · obtain ⟨t, run, -, -, config, -, -, cars, -, start, -⟩ := secondTick s on
    refine ⟨t, _, run, (start free).1, fun x hx => ?_⟩
    obtain ⟨c, -, rfl⟩ := List.mem_map.mp hx
    have same : (t.car c).tracker = (s.car c).tracker ∧ (t.car c).inputs = (s.car c).inputs := by
      rw [cars c]; exact ⟨rfl, rfl⟩
    obtain ⟨tracker, inputs⟩ := same
    show planningView t.config.cars[c] t.config.globals (t.car c).tracker (t.car c).inputs.zone.accepted
      (countToMm t.config.cars[c].ppm (t.car c).inputs.odometry) = _
    rw [config, tracker, inputs]
    rfl

end Sys2Proof.Machine
end

