-- ==== Sys2Proof/Proofs/PassResultsWritten.lean ====
section
/-!
PROOFS. The results of a pass (R57, R128): what writing them makes of each car, what a selection leaves of a car, and what
notices the stages of a pass end raise.
-/

namespace Sys2Proof.Machine

variable {p q r : Part} {b b' : CarBlock} {g : Globals} {c : Car} {m : PlanMethod}

/-! ## The notices of a stage -/

/-- From p to q no pending pair has gone, and the new ones are of the kinds of K. -/
structure Raises (K : NoticeKind → Prop) (p q : Part) : Prop where
  mask : ∀ port, (q.port port).mask = (p.port port).mask
  grow : NoticesGrow p q
  only : ∀ port n, n ∈ (q.port port).notices → n ∈ (p.port port).notices ∨ K n.kind

theorem Raises.refl (K : NoticeKind → Prop) (p : Part) : Raises K p p := ⟨fun _ => rfl, fun _ _ h => h, fun _ _ h => .inl h⟩

theorem Raises.trans {K : NoticeKind → Prop} (h : Raises K p q) (k : Raises K q r) : Raises K p r :=
  ⟨fun port => (k.mask port).trans (h.mask port), fun port n w => k.grow port n (h.grow port n w),
    fun port n w => (k.only port n w).elim (h.only port n) .inr⟩

theorem Raises.mono {K L : NoticeKind → Prop} (h : Raises K p q) (sub : ∀ k, K k → L k) : Raises L p q :=
  ⟨h.mask, h.grow, fun port n w => (h.only port n w).imp_right (sub _)⟩

theorem Offers.raises {K : NoticeKind → Prop} {l : List Notice} (h : Offers l p q) (rest : KeepsRest p q)
    (kinds : ∀ n ∈ l, K n.kind) : Raises K p q :=
  ⟨rest.mask, h.grow, fun port n w => ((h port n).mp w).imp_right fun k => kinds n k.1⟩

theorem raises_of_ports {K : NoticeKind → Prop} (station : q.station = p.station) (panel : q.panel = p.panel) :
    Raises K p q := by
  have ports (port : Port) : q.port port = p.port port := by cases port <;> assumption
  exact ⟨fun port => by rw [ports], fun port n w => by rwa [ports], fun port n w => .inl (by rwa [← ports])⟩

/-! ## Turns of different cars -/

section Turns

variable {α : Type} {key : α → Car} {f : Part → α → Part} {G : Settings → α → CarBlock → CarBlock}
  {N : Settings → α → CarBlock → List Notice}

/-- A car that no turn is of stands. -/
theorem foldl_stands (touches : ∀ p a, TouchesOnly (key a) p (f p a)) :
    ∀ (l : List α) (p : Part), c ∉ l.map key → (l.foldl f p).car c = p.car c
  | [], _, _ => rfl
  | a :: l, p, h => by
    rw [List.map_cons, List.mem_cons, not_or] at h
    exact (foldl_stands touches l (f p a) h.2).trans ((touches p a).cars c h.1)

theorem foldl_rest (touches : ∀ p a, TouchesOnly (key a) p (f p a)) (l : List α) (p : Part) :
    KeepsRest p (l.foldl f p) ∧ KeepsPlans p (l.foldl f p) :=
  foldl_keeps (R := fun p q => KeepsRest p q ∧ KeepsPlans p q) (fun p => ⟨.refl p, .refl p⟩)
    (fun h k => ⟨h.1.trans k.1, h.2.trans k.2⟩) f (fun p a => ⟨(touches p a).rest, (touches p a).plans⟩) l p

/-- Turns of different cars each do what they do first of all. -/
theorem foldl_own (touches : ∀ p a, TouchesOnly (key a) p (f p a))
    (own : ∀ p a, (f p a).car (key a) = G p.config a (p.car (key a))) :
    ∀ (l : List α) (p : Part), (l.map key).Nodup → ∀ a ∈ l, (l.foldl f p).car (key a) = G p.config a (p.car (key a)) := by
  intro l
  induction l with
  | nil => exact fun p _ a ha => absurd ha List.not_mem_nil
  | cons x l ih =>
    intro p nodup a ha
    rw [List.map_cons, List.nodup_cons] at nodup
    rcases List.mem_cons.mp ha with rfl | ha
    · exact (foldl_stands touches l (f p a) nodup.1).trans (own p a)
    · have ne : key a ≠ key x := fun e => nodup.1 (e ▸ List.mem_map_of_mem ha)
      rw [List.foldl_cons, ih (f p x) nodup.2 a ha, (touches p x).rest.config, (touches p x).cars _ ne]

/-- The notices of turns of different cars. -/
theorem foldl_offers (touches : ∀ p a, TouchesOnly (key a) p (f p a))
    (offers : ∀ p a, Offers (N p.config a (p.car (key a))) p (f p a)) :
    ∀ (l : List α) (p : Part), (l.map key).Nodup → Offers (l.flatMap fun a => N p.config a (p.car (key a))) p (l.foldl f p)
  | [], p, _ => .refl p
  | x :: l, p, nodup => by
    rw [List.map_cons, List.nodup_cons] at nodup
    have rest := foldl_offers touches offers l (f p x) nodup.2
    have same : (l.flatMap fun a => N (f p x).config a ((f p x).car (key a))) = l.flatMap fun a => N p.config a (p.car (key a)) := by
      refine List.flatMap_congr fun a ha => ?_
      have ne : key a ≠ key x := fun e => nodup.1 (e ▸ List.mem_map_of_mem ha)
      rw [(touches p x).rest.config, (touches p x).cars _ ne]
    rw [same] at rest
    exact (offers p x).trans rest (touches p x).rest

end Turns

/-! ## The results -/

theorem admitOverflow_state (l : CarLine) : l.admitOverflow.state = l.state ∧ l.admitOverflow.lastStatus = l.lastStatus := by
  unfold CarLine.admitOverflow
  split
  · split <;> exact ⟨rfl, rfl⟩
  · exact ⟨rfl, rfl⟩

theorem startNext_state (l : CarLine) : l.startNext.state = l.state ∧ l.startNext.lastStatus = l.lastStatus := by
  unfold CarLine.startNext; split
  · exact admitOverflow_state _
  · exact ⟨rfl, rfl⟩

theorem offerCommand_state (l : CarLine) (x : PartFrame) :
    (l.offerCommand x).state = l.state ∧ (l.offerCommand x).lastStatus = l.lastStatus := by
  unfold CarLine.offerCommand; split
  · exact startNext_state _
  · split
    · exact ⟨rfl, rfl⟩
    · split <;> exact ⟨rfl, rfl⟩

/-- The blocks of a car whose plan, weight and mask a pass has written (R57). -/
def CarBlock.planWritten (b : CarBlock) (r : CarPlan) : CarBlock :=
  { b with planner := { b.planner with plan := r.plan, weight := r.weight, mask := r.mask } }

/-- The blocks of a car whose summary has taken NONE and its landing (R57). -/
def CarBlock.landingTaken (b : CarBlock) (r : CarPlan) : CarBlock :=
  { b with record := { b.record with
      summary := { b.record.summary with methodUsed := some .none, landing := r.plan.target } } }

/-- The blocks of a car that has taken the result of a pass (R57). -/
def CarBlock.resultTaken (b : CarBlock) (g : Globals) (r : CarPlan) : CarBlock :=
  match r.plan.method with
  | some .none => ((b.planWritten r).landingTaken r).releasingFrom g
  | some _ => (b.planWritten r).stated g .ready none
  | none => if b.record.state = .held then b.planWritten r else (b.planWritten r).stated g .held (some .noMethod)

/-- The notices that the result raises (R65, R72). -/
def CarBlock.resultNotices (b : CarBlock) (g : Globals) (r : CarPlan) (c : Car) : List Notice :=
  match r.plan.method with
  | some .none => ((b.planWritten r).landingTaken r).releasingNotices g c
  | some _ => []
  | none => if b.record.state = .held then [] else [⟨.carHeld, some c⟩]

section Equations

variable {plan : PlanRecord} {x : CarPlan}

theorem takeResult_landing (h : plan.method = some .none) : p.takeResult c plan =
    (p.modRecord c fun y =>
      { y with summary := { y.summary with methodUsed := some .none, landing := plan.target } }).toReleasing c := by
  unfold Part.takeResult; simp only [h]

theorem takeResult_move (h : plan.method = some m) (k : m ≠ .none) : p.takeResult c plan = p.setState c .ready none := by
  unfold Part.takeResult; cases m <;> first | exact absurd rfl k | simp only [h]

theorem takeResult_none (h : plan.method = none) :
    p.takeResult c plan = if p.stateOf c = .held then p else p.toHeld c .noMethod := by
  unfold Part.takeResult; simp only [h]

theorem resultTaken_landing (h : x.plan.method = some .none) :
    b.resultTaken g x = ((b.planWritten x).landingTaken x).releasingFrom g := by
  unfold CarBlock.resultTaken; simp only [h]

theorem resultTaken_move (h : x.plan.method = some m) (k : m ≠ .none) :
    b.resultTaken g x = (b.planWritten x).stated g .ready none := by
  unfold CarBlock.resultTaken; cases m <;> first | exact absurd rfl k | simp only [h]

theorem resultTaken_none (h : x.plan.method = none) : b.resultTaken g x =
    if b.record.state = .held then b.planWritten x else (b.planWritten x).stated g .held (some .noMethod) := by
  unfold CarBlock.resultTaken; simp only [h]

theorem resultNotices_landing (h : x.plan.method = some .none) :
    b.resultNotices g x c = ((b.planWritten x).landingTaken x).releasingNotices g c := by
  unfold CarBlock.resultNotices; simp only [h]

theorem resultNotices_move (h : x.plan.method = some m) (k : m ≠ .none) : b.resultNotices g x c = [] := by
  unfold CarBlock.resultNotices; cases m <;> first | exact absurd rfl k | simp only [h]

theorem resultNotices_none (h : x.plan.method = none) :
    b.resultNotices g x c = if b.record.state = .held then [] else [⟨.carHeld, some c⟩] := by
  unfold CarBlock.resultNotices; simp only [h]

end Equations

/-- A result by its plan's method: no method, NONE, or a move. -/
theorem plan_cases (plan : PlanRecord) :
    plan.method = none ∨ plan.method = some .none ∨ ∃ m, plan.method = some m ∧ m ≠ .none := by
  cases h : plan.method with
  | none => exact .inl rfl
  | some m => exact .inr ((em (m = .none)).imp (fun e => by rw [e]) fun k => ⟨m, rfl, k⟩)

theorem writeResult_spec (p : Part) (pass : Pass) (x : CarSnapshot) :
    TouchesOnly x.car p (p.writeResult pass x) ∧
    (p.writeResult pass x).car x.car = (p.car x.car).resultTaken p.globals (planCar p.config.rules pass x) ∧
    Offers ((p.car x.car).resultNotices p.globals (planCar p.config.rules pass x) x.car) p (p.writeResult pass x) := by
  unfold Part.writeResult
  generalize planCar p.config.rules pass x = r
  generalize x.car = c
  let w := p.modPlanner c fun x => { x with plan := r.plan, weight := r.weight, mask := r.mask }
  have touches : TouchesOnly c p w := touchesOnly_modPlanner p c _
  have own : w.car c = (p.car c).planWritten r := by simp [w, CarBlock.planWritten]
  have state : w.stateOf c = (p.car c).record.state := by unfold Part.stateOf; rw [own]; rfl
  show TouchesOnly c p (w.takeResult c r.plan) ∧ (w.takeResult c r.plan).car c = _ ∧ Offers _ p (w.takeResult c r.plan)
  rcases plan_cases r.plan with h | h | ⟨m, h, k⟩
  · rw [takeResult_none h, resultTaken_none h, resultNotices_none h, state]
    by_cases held : (p.car c).record.state = .held
    · rw [if_pos held, if_pos held, if_pos held]
      exact ⟨touches, own, .of_eq rfl rfl⟩
    · rw [if_neg held, if_neg held, if_neg held]
      exact ⟨touches.trans (touchesOnly_toHeld w c _), (w.toHeld_own c _).trans (by rw [own]; rfl),
        (offers_toHeld w c .noMethod).of_ports rfl rfl rfl rfl⟩
  · rw [takeResult_landing h, resultTaken_landing h, resultNotices_landing h]
    let v := w.modRecord c fun y =>
      { y with summary := { y.summary with methodUsed := some .none, landing := r.plan.target } }
    have own' : v.car c = ((p.car c).planWritten r).landingTaken r := by simp [v, own, CarBlock.landingTaken]
    have offers := offers_toReleasing v c
    rw [own'] at offers
    exact ⟨(touches.trans (touchesOnly_modRecord w c _)).trans (touchesOnly_toReleasing v c),
      (v.toReleasing_own c).trans (by rw [own']; rfl), offers.of_ports rfl rfl rfl rfl⟩
  · rw [takeResult_move h k, resultTaken_move h k, resultNotices_move h k]
    exact ⟨touches.trans (touchesOnly_setState w c _ _), (w.setState_own c _ _).trans (by rw [own]; rfl), .of_eq rfl rfl⟩

/-- What the result of a pass leaves of its car, whatever its state. -/
structure ResultLeaves (b b' : CarBlock) : Prop where
  urgency : b'.planner.urgency = b.planner.urgency
  alarmMark : b'.planner.alarmMark = b.planner.alarmMark
  policy : b'.policy = b.policy
  lineState : b'.line.state = b.line.state
  lastStatus : b'.line.lastStatus = b.line.lastStatus
  lastEscalation : b'.record.lastEscalation = b.record.lastEscalation

theorem ResultLeaves.refl (b : CarBlock) : ResultLeaves b b := ⟨rfl, rfl, rfl, rfl, rfl, rfl⟩

theorem ResultLeaves.trans {b'' : CarBlock} (h : ResultLeaves b b') (k : ResultLeaves b' b'') : ResultLeaves b b'' :=
  ⟨k.urgency.trans h.urgency, k.alarmMark.trans h.alarmMark, k.policy.trans h.policy, k.lineState.trans h.lineState,
    k.lastStatus.trans h.lastStatus, k.lastEscalation.trans h.lastEscalation⟩

theorem releasingFrom_leaves (b : CarBlock) (g : Globals) : ResultLeaves b (b.releasingFrom g) := by
  unfold CarBlock.releasingFrom
  split
  · exact ⟨rfl, rfl, rfl, rfl, rfl, rfl⟩
  · split
    · exact ⟨rfl, rfl, rfl, rfl, rfl, rfl⟩
    · refine ⟨rfl, rfl, rfl, ?_, ?_, rfl⟩
      · show CarLine.state (if _ then _ else _) = _
        split
        · exact (offerCommand_state _ _).1
        · rfl
      · show CarLine.lastStatus (if _ then _ else _) = _
        split
        · exact (offerCommand_state _ _).2
        · rfl

theorem releasingFrom_waiting (b : CarBlock) (g : Globals) : isWaitingRescue (b.releasingFrom g).record.state = true := by
  unfold CarBlock.releasingFrom
  split
  · rfl
  · split <;> rfl

theorem resultTaken_leaves (b : CarBlock) (g : Globals) (r : CarPlan) : ResultLeaves b (b.resultTaken g r) := by
  unfold CarBlock.resultTaken
  split
  · exact (⟨rfl, rfl, rfl, rfl, rfl, rfl⟩ : ResultLeaves b ((b.planWritten r).landingTaken r)).trans (releasingFrom_leaves _ _)
  · exact ⟨rfl, rfl, rfl, rfl, rfl, rfl⟩
  · split <;> exact ⟨rfl, rfl, rfl, rfl, rfl, rfl⟩

/-- A car that waits for its rescue waits on when it takes a result. -/
theorem resultTaken_waiting (g : Globals) (r : CarPlan) (h : isWaitingRescue b.record.state = true) :
    isWaitingRescue (b.resultTaken g r).record.state = true := by
  unfold CarBlock.resultTaken
  split
  · exact releasingFrom_waiting _ _
  · rfl
  · split
    · exact h
    · rfl

/-- The kinds that a result raises (R72). -/
def isResultKind (k : NoticeKind) : Prop := k = .carHeld ∨ k = .carFailed

theorem resultNotices_kind (b : CarBlock) (g : Globals) (r : CarPlan) (c : Car) :
    ∀ n ∈ b.resultNotices g r c, isResultKind n.kind := by
  have one {k : NoticeKind} (h : isResultKind k) : ∀ n ∈ [(⟨k, some c⟩ : Notice)], isResultKind n.kind := fun n hn => by
    rw [List.mem_singleton.mp hn]; exact h
  have empty : ∀ n ∈ ([] : List Notice), isResultKind n.kind := fun _ hn => absurd hn List.not_mem_nil
  unfold CarBlock.resultNotices CarBlock.releasingNotices
  split
  · split
    · exact one (.inr rfl)
    · split
      · exact one (.inl rfl)
      · exact empty
  · exact empty
  · split
    · exact empty
    · exact one (.inl rfl)

/-- The part once the results of a pass are written (R128 step 1). -/
def Part.written (p : Part) (pass : Pass) : Part := (p.takers pass).foldl (fun p s => p.writeResult pass s) p

theorem writeResult_leaves (p : Part) (pass : Pass) (x : CarSnapshot) (c : Car) :
    ResultLeaves (p.car c) ((p.writeResult pass x).car c) ∧ Raises isResultKind p (p.writeResult pass x) ∧
    (isWaitingRescue (p.stateOf c) = true → isWaitingRescue ((p.writeResult pass x).stateOf c) = true) := by
  obtain ⟨touches, own, offers⟩ := writeResult_spec p pass x
  refine ⟨?_, offers.raises touches.rest (resultNotices_kind _ _ _ _), fun waits => ?_⟩
  · by_cases hc : c = x.car
    · subst hc; rw [own]; exact resultTaken_leaves _ _ _
    · rw [touches.cars c hc]; exact .refl _
  · by_cases hc : c = x.car
    · subst hc; unfold Part.stateOf; rw [own]; exact resultTaken_waiting _ _ waits
    · unfold Part.stateOf; rw [touches.cars c hc]; exact waits

/-- What the writing of the results leaves of every car (R57). -/
theorem written_leaves (p : Part) (pass : Pass) (c : Car) :
    ResultLeaves (p.car c) ((p.written pass).car c) ∧ Raises isResultKind p (p.written pass) ∧
    (isWaitingRescue (p.stateOf c) = true → isWaitingRescue ((p.written pass).stateOf c) = true) :=
  foldl_keeps (R := fun p q => ResultLeaves (p.car c) (q.car c) ∧ Raises isResultKind p q ∧
      (isWaitingRescue (p.stateOf c) = true → isWaitingRescue (q.stateOf c) = true))
    (fun p => ⟨.refl _, .refl _ p, id⟩)
    (fun h k => ⟨h.1.trans k.1, h.2.1.trans k.2.1, fun w => k.2.2 (h.2.2 w)⟩) _
    (fun p x => writeResult_leaves p pass x c) _ p

theorem mem_takers {pass : Pass} {x : CarSnapshot} :
    x ∈ p.takers pass ↔ x ∈ pass.cars ∧ isPlanned (p.car x.car).record = true := List.mem_filter

theorem written_rest (p : Part) (pass : Pass) : KeepsRest p (p.written pass) ∧ KeepsPlans p (p.written pass) :=
  foldl_rest (key := (·.car)) (fun p x => (writeResult_spec p pass x).1) _ p

/-- A car that takes no result stands. -/
theorem written_stands {pass : Pass} (h : ¬∃ x ∈ p.takers pass, x.car = c) : (p.written pass).car c = p.car c :=
  foldl_stands (key := (·.car)) (fun p x => (writeResult_spec p pass x).1) _ p fun mem => h (by
    obtain ⟨x, hx, is⟩ := List.mem_map.mp mem
    exact ⟨x, hx, is⟩)

theorem isPlanned_iff (r : CarRecord) : isPlanned r = true ↔ r.state = .assessing ∨ r.state = .ready ∨
    (r.state = .held ∧ r.heldCause = some .noMethod) := by
  simp [isPlanned, or_assoc]

theorem isWaitingRescue_of_planned {r : CarRecord} (h : isPlanned r = true) : isWaitingRescue r.state = true := by
  rcases (isPlanned_iff r).mp h with h | h | ⟨h, -⟩ <;> rw [h] <;> rfl

/-- Whether a car waits for its rescue is not changed by the results (R57). -/
theorem written_waiting (p : Part) (pass : Pass) (c : Car) :
    isWaitingRescue ((p.written pass).stateOf c) = isWaitingRescue (p.stateOf c) := by
  by_cases h : ∃ x ∈ p.takers pass, x.car = c
  · obtain ⟨x, hx, rfl⟩ := h
    have waits := isWaitingRescue_of_planned (mem_takers.mp hx).2
    exact ((written_leaves p pass x.car).2.2 waits).trans waits.symm
  · unfold Part.stateOf; rw [written_stands h]

/-! ## A selection -/

/-- What a selection leaves of the blocks of a car: a car changes its state by a grant of its plan's method alone (R156). -/
structure SelectionLeaves (b b' : CarBlock) : Prop where
  planner : b'.planner = b.planner
  policy : b'.policy = b.policy
  lineState : b'.line.state = b.line.state
  lastStatus : b'.line.lastStatus = b.line.lastStatus
  lastEscalation : b'.record.lastEscalation = b.record.lastEscalation
  state : b'.record.state = b.record.state ∨
    ∃ m, b.planner.plan.method = some m ∧ moveStateOf m = some b'.record.state

theorem SelectionLeaves.refl (b : CarBlock) : SelectionLeaves b b := ⟨rfl, rfl, rfl, rfl, rfl, .inl rfl⟩

theorem SelectionLeaves.trans {b'' : CarBlock} (h : SelectionLeaves b b') (k : SelectionLeaves b' b'') :
    SelectionLeaves b b'' := by
  refine ⟨k.planner.trans h.planner, k.policy.trans h.policy, k.lineState.trans h.lineState,
    k.lastStatus.trans h.lastStatus, k.lastEscalation.trans h.lastEscalation, ?_⟩
  rcases k.state with same | granted
  · rw [same]; exact h.state
  · rw [h.planner] at granted; exact .inr granted

theorem granted_leaves {st : RescueState} (e : CarEntry) (planned : b.planner.plan.method = some m)
    (h : moveStateOf m = some st) : SelectionLeaves b (b.granted e g m st) := by
  refine ⟨rfl, rfl, ?_, ?_, rfl, .inr ⟨m, planned, h⟩⟩
  · show CarLine.state (if needsDriveSlot m then _ else _) = _
    split
    · exact (offerCommand_state _ _).1
    · rfl
  · show CarLine.lastStatus (if needsDriveSlot m then _ else _) = _
    split
    · exact (offerCommand_state _ _).2
    · rfl

/-- A considered car is left, flagged, or granted its plan's method (R156, R157). -/
theorem consider_planned (p : Part) (c : Car) :
    p.consider c = p ∨
    p.consider c = (p.modRecord c fun r => { r with energyShort := true }).raiseCar .energyShort c ∨
    ∃ m st, (p.car c).planner.plan.method = some m ∧ moveStateOf m = some st ∧ p.consider c = p.grant c m := by
  cases planned : (p.car c).planner.plan.method with
  | none => exact .inl (consider_passed fun m h => by rw [planned] at h; cases h)
  | some m =>
    cases free : p.slotFree m with
    | false => exact .inl (consider_passed fun m' h => by rw [planned] at h; cases h; exact free)
    | true =>
      cases affords : p.affords ((p.car c).planner.plan.estimate.getD 0) with
      | true =>
        rw [consider_granted planned free affords]
        cases h : moveStateOf m with
        | none => left; simp [Part.grant, h]
        | some st => exact .inr (.inr ⟨m, st, rfl, h, rfl⟩)
      | false =>
        rw [consider_short planned free affords]
        unfold Part.flagShort
        split
        · exact .inl rfl
        · exact .inr (.inl rfl)

theorem consider_leaves (p : Part) (c d : Car) : SelectionLeaves (p.car d) ((p.consider c).car d) := by
  by_cases hd : d = c
  · subst hd
    rcases consider_planned p d with h | h | ⟨m, st, planned, hst, h⟩ <;> rw [h]
    · exact .refl _
    · rw [Part.raiseCar_car, Part.modRecord_car, if_pos rfl]
      exact ⟨rfl, rfl, rfl, rfl, rfl, .inl rfl⟩
    · rw [Part.grant_own hst]
      exact granted_leaves _ planned hst
  · rw [(touchesOnly_consider p c).cars d hd]; exact .refl _

/-- The kinds that a selection raises (R59, R157). -/
def isSelectionKind (k : NoticeKind) : Prop := k = .rescueStarted ∨ k = .energyShort

theorem consider_raises (p : Part) (c : Car) : Raises isSelectionKind p (p.consider c) := by
  have rest := (touchesOnly_consider p c).rest
  rcases p.consider_cases c with h | h | ⟨m, st, -, -, h⟩
  · rw [h]; exact .refl _ _
  · have offers : Offers [⟨.energyShort, some c⟩] p (p.consider c) := by
      rw [h]; exact (offers_raise _ _).of_ports rfl rfl rfl rfl
    exact offers.raises rest fun n hn => .inr (by rw [List.mem_singleton.mp hn])
  · rw [h] at rest ⊢
    exact (offers_grant p c m).raises rest fun n hn => .inl (by revert hn; split <;> simp +contextual)

theorem select_leaves (p : Part) (c : Car) : SelectionLeaves (p.car c) (p.select.car c) ∧ Raises isSelectionKind p p.select := by
  unfold Part.select
  split
  · exact foldl_keeps (R := fun p q => SelectionLeaves (p.car c) (q.car c) ∧ Raises isSelectionKind p q)
      (fun p => ⟨.refl _, .refl _ p⟩) (fun h k => ⟨h.1.trans k.1, h.2.trans k.2⟩) _
      (fun p d => ⟨consider_leaves p d c, consider_raises p d⟩) _ p
  · exact ⟨.refl _, .refl _ p⟩

theorem demandJudged_leaves (p : Part) (had : Bool) (c : Car) :
    SelectionLeaves (p.car c) ((p.demandJudged had).car c) ∧ Raises isSelectionKind p (p.demandJudged had) := by
  have judged : Raises isSelectionKind p { p with supply := p.supplyJudged had p.demand } := raises_of_ports rfl rfl
  unfold Part.demandJudged
  dsimp only
  split
  · obtain ⟨own, raised⟩ := select_leaves { p with supply := p.supplyJudged had p.demand } c
    exact ⟨own, judged.trans raised⟩
  · exact ⟨.refl _, judged⟩

end Sys2Proof.Machine
end

