-- ==== Sys2Proof/Proofs/PassEnds.lean ====
section
/-!
PROOFS. The end of a pass (R110 to R114, R120, R128): the counters of the rules, the pending commits, and the stages together.
-/

namespace Sys2Proof.Machine

variable {s : State} {p q : Part} {b : CarBlock} {c : Car} {pass : Pass} {takers : List Car}

/-! ## The counters of one car (R110 to R113) -/

/-- What a rule's counter of car c becomes at the end of a pass (R111, R112). -/
def Pass.counterStep (pass : Pass) (takers : List Car) (x : Settings) (c : Car) (waiting : Bool) (i : Fin 16)
    (k : RuleCounter) : RuleCounter :=
  stepCounter x.rules[i] k (pass.kind == .timed) (takers.contains c)
    ((pass.snapshotOf c).any fun y => ruleMatches x.rules i y pass.usable) waiting

/-- One counter of a car takes its step (R110, R113). -/
def CarBlock.countRule (F : Fin 16 → RuleCounter → RuleCounter) (b : CarBlock) (i : Fin 16) : CarBlock :=
  let before := b.policy.counters[i]
  { b with
    policy := { b.policy with counters := b.policy.counters.set i (F i before) }
    record := { b.record with
      lastEscalation := if reachesEnd before (F i before) then some i.val else b.record.lastEscalation } }

/-- The counters of a car take their steps, in the order of the rules (R110). -/
def CarBlock.countRules (F : Fin 16 → RuleCounter → RuleCounter) (b : CarBlock) : CarBlock :=
  allRules.foldl (CarBlock.countRule F) b

theorem countRule_state (F : Fin 16 → RuleCounter → RuleCounter) (b : CarBlock) (i : Fin 16) :
    (b.countRule F i).record.state = b.record.state := rfl

/-- The step of a counter updates the car's policy and its last escalation rule alone. -/
def CountsOnly (b b' : CarBlock) : Prop :=
  b' = { b with policy := b'.policy, record := { b.record with lastEscalation := b'.record.lastEscalation } }

theorem CountsOnly.trans {b' b'' : CarBlock} (h : CountsOnly b b') (k : CountsOnly b' b'') : CountsOnly b b'' := by
  unfold CountsOnly at *; rw [k, h]

theorem countsOnly_foldl (F : Fin 16 → RuleCounter → RuleCounter) :
    ∀ (l : List (Fin 16)) (b : CarBlock), CountsOnly b (l.foldl (CarBlock.countRule F) b)
  | [], _ => rfl
  | i :: l, b => CountsOnly.trans (b' := b.countRule F i) rfl (countsOnly_foldl F l _)

theorem countRule_counter (F : Fin 16 → RuleCounter → RuleCounter) (b : CarBlock) (i j : Fin 16) :
    (b.countRule F i).policy.counters[j] = if j = i then F i b.policy.counters[i] else b.policy.counters[j] := by
  show (b.policy.counters.set i (F i b.policy.counters[i]))[j] = _
  by_cases h : j = i
  · subst h; simp
  · rw [if_neg h]
    simpa using Vector.getElem_set_ne i.isLt j.isLt fun e => h (Fin.ext e.symm)

/-- Each counter takes its own step, once (R110). -/
theorem foldl_countRule_counter (F : Fin 16 → RuleCounter → RuleCounter) (j : Fin 16) :
    ∀ (l : List (Fin 16)) (b : CarBlock), l.Nodup → (l.foldl (CarBlock.countRule F) b).policy.counters[j] =
      if j ∈ l then F j b.policy.counters[j] else b.policy.counters[j]
  | [], _, _ => by simp
  | i :: l, b, nodup => by
    rw [List.nodup_cons] at nodup
    rw [List.foldl_cons, foldl_countRule_counter F j l _ nodup.2, countRule_counter]
    by_cases h : j = i
    · subst h; simp [nodup.1]
    · simp [h]

theorem countRules_counter (F : Fin 16 → RuleCounter → RuleCounter) (b : CarBlock) (j : Fin 16) :
    (b.countRules F).policy.counters[j] = F j b.policy.counters[j] :=
  (foldl_countRule_counter F j _ b (List.nodup_finRange 16)).trans (if_pos (List.mem_finRange j))

/-- The rule ends for the car in this pass (R113). -/
def CarBlock.Ends (b : CarBlock) (F : Fin 16 → RuleCounter → RuleCounter) (i : Fin 16) : Prop :=
  reachesEnd b.policy.counters[i] (F i b.policy.counters[i]) = true

/-- The last rule of a list that ends is the last escalation rule (R113). -/
theorem foldl_countRule_escalation (F : Fin 16 → RuleCounter → RuleCounter) :
    ∀ (l : List (Fin 16)) (b : CarBlock), l.Pairwise (· < ·) →
      (∀ i ∈ l, b.Ends F i → (∀ j ∈ l, i < j → ¬b.Ends F j) →
        (l.foldl (CarBlock.countRule F) b).record.lastEscalation = some i.val) ∧
      ((∀ i ∈ l, ¬b.Ends F i) → (l.foldl (CarBlock.countRule F) b).record.lastEscalation = b.record.lastEscalation)
  | [], _, _ => ⟨fun i h => absurd h List.not_mem_nil, fun _ => rfl⟩
  | x :: l, b, sorted => by
    rw [List.pairwise_cons] at sorted
    obtain ⟨last, stands⟩ := foldl_countRule_escalation F l (b.countRule F x) sorted.2
    have ends {i : Fin 16} (hi : i ∈ l) : (b.countRule F x).Ends F i ↔ b.Ends F i := by
      unfold CarBlock.Ends
      rw [countRule_counter, if_neg (ne_of_gt (sorted.1 i hi))]
    have own : (b.countRule F x).record.lastEscalation =
        if reachesEnd b.policy.counters[x] (F x b.policy.counters[x]) then some x.val else b.record.lastEscalation := rfl
    rw [List.foldl_cons]
    refine ⟨fun i hi ending highest => ?_, fun none => ?_⟩
    · rcases List.mem_cons.mp hi with rfl | hi
      · rw [stands fun j hj => mt (ends hj).mp (highest j (List.mem_cons_of_mem _ hj) (sorted.1 j hj)), own]
        exact if_pos ending
      · exact last i hi ((ends hi).mpr ending) fun j hj lt => mt (ends hj).mp (highest j (List.mem_cons_of_mem _ hj) lt)
    · rw [stands fun j hj => mt (ends hj).mp (none j (List.mem_cons_of_mem _ hj)), own]
      exact if_neg (none x List.mem_cons_self)

/-! ## The counters of the part (R110, R120 step 1) -/

theorem stepRuleCounter_spec (p : Part) (pass : Pass) (takers : List Car) (c : Car) (i : Fin 16) :
    let F := pass.counterStep takers p.config c (isWaitingRescue (p.stateOf c))
    TouchesOnly c p (p.stepRuleCounter pass takers c i) ∧
    (p.stepRuleCounter pass takers c i).car c = (p.car c).countRule F i ∧
    Offers (if reachesEnd (p.car c).policy.counters[i] (F i (p.car c).policy.counters[i]) then [⟨.escalation, some c⟩] else [])
      p (p.stepRuleCounter pass takers c i) := by
  intro F
  have touches := touchesOnly_modPolicy p c fun x => { x with counters := x.counters.set i (F i (p.car c).policy.counters[i]) }
  have own : ((p.modPolicy c fun x => { x with counters := x.counters.set i (F i (p.car c).policy.counters[i]) }).car c) =
      { p.car c with policy := { (p.car c).policy with
        counters := (p.car c).policy.counters.set i (F i (p.car c).policy.counters[i]) } } := by simp
  unfold CarBlock.countRule
  by_cases h : reachesEnd (p.car c).policy.counters[i] (F i (p.car c).policy.counters[i]) = true
  · have step : p.stepRuleCounter pass takers c i =
        ((p.modPolicy c fun x => { x with counters := x.counters.set i (F i (p.car c).policy.counters[i]) }).modRecord c
          fun r => { r with lastEscalation := some i.val }).raiseCar .escalation c := if_pos h
    rw [step]
    simp only [h, if_true]
    refine ⟨(touches.trans (touchesOnly_modRecord _ c _)).trans (touchesOnly_raiseCar _ c _ c), ?_,
      (offers_raise _ _).of_ports rfl rfl rfl rfl⟩
    rw [Part.raiseCar_car, Part.modRecord_car, if_pos rfl, own]
  · have step : p.stepRuleCounter pass takers c i =
        p.modPolicy c fun x => { x with counters := x.counters.set i (F i (p.car c).policy.counters[i]) } := if_neg h
    rw [step]
    simp only [h, if_false, Bool.false_eq_true]
    exact ⟨touches, own, .of_eq rfl rfl⟩

/-- The kinds that the counters raise (R113). -/
def isCounterKind (k : NoticeKind) : Prop := k = .escalation

/-- What the counter steps of one car make of the part. -/
theorem foldl_stepRuleCounter (F : Fin 16 → RuleCounter → RuleCounter) (pass : Pass) (takers : List Car) (c : Car) :
    ∀ (l : List (Fin 16)) (p : Part), F = pass.counterStep takers p.config c (isWaitingRescue (p.stateOf c)) → l.Nodup →
      let q := l.foldl (fun p i => p.stepRuleCounter pass takers c i) p
      TouchesOnly c p q ∧ q.car c = l.foldl (CarBlock.countRule F) (p.car c) ∧ Raises isCounterKind p q ∧
      ∀ i ∈ l, (p.car c).Ends F i → ∀ port, maskHolds (p.port port).mask .escalation = true →
        (⟨.escalation, some c⟩ : Notice) ∈ (q.port port).notices
  | [], p, _, _ => ⟨.refl c p, rfl, .refl _ p, fun i hi => absurd hi List.not_mem_nil⟩
  | x :: l, p, hF, nodup => by
    rw [List.nodup_cons] at nodup
    obtain ⟨touches, own, offers⟩ := stepRuleCounter_spec p pass takers c x
    rw [← hF] at own offers
    have raises : Raises isCounterKind p (p.stepRuleCounter pass takers c x) :=
      offers.raises touches.rest fun n hn => by
        revert hn; split <;> simp +contextual [isCounterKind]
    have same : F = pass.counterStep takers (p.stepRuleCounter pass takers c x).config c
        (isWaitingRescue ((p.stepRuleCounter pass takers c x).stateOf c)) := by
      rw [hF, touches.rest.config]
      unfold Part.stateOf
      rw [own, countRule_state]
    obtain ⟨touches', own', raises', escalates⟩ := foldl_stepRuleCounter F pass takers c l _ same nodup.2
    refine ⟨touches.trans touches', own'.trans (by rw [own]; rfl), raises.trans raises', fun i hi ends port mask => ?_⟩
    rcases List.mem_cons.mp hi with rfl | hi
    · refine raises'.grow port _ ((offers port _).mpr (.inr ⟨?_, mask⟩))
      have : reachesEnd (p.car c).policy.counters[i] (F i (p.car c).policy.counters[i]) = true := ends
      rw [if_pos this]
      exact List.mem_singleton.mpr rfl
    · refine escalates i hi ?_ port (by rwa [touches.rest.mask])
      unfold CarBlock.Ends
      rw [own, countRule_counter, if_neg fun e : i = x => nodup.1 (e ▸ hi)]
      exact ends

/-- The counter steps of the cars (R110 to R113). -/
theorem stepCounters_spec (p : Part) (pass : Pass) (takers : List Car) :
    let q := p.stepCounters pass takers
    KeepsRest p q ∧ KeepsPlans p q ∧ Raises isCounterKind p q ∧ ∀ c,
      let F := pass.counterStep takers p.config c (isWaitingRescue (p.stateOf c))
      q.car c = (p.car c).countRules F ∧
      ∀ i, (p.car c).Ends F i → ∀ port, maskHolds (p.port port).mask .escalation = true →
        (⟨.escalation, some c⟩ : Notice) ∈ (q.port port).notices := by
  have turn (p : Part) (c : Car) := foldl_stepRuleCounter _ pass takers c allRules p rfl (List.nodup_finRange 16)
  have touches (p : Part) (c : Car) := (turn p c).1
  obtain ⟨rest, plans⟩ := foldl_rest (key := id) touches allCars p
  have raises (l : List Car) (p : Part) : Raises isCounterKind p
      (l.foldl (fun p c => allRules.foldl (fun p i => p.stepRuleCounter pass takers c i) p) p) :=
    foldl_keeps (R := Raises isCounterKind) (.refl _) .trans _ (fun p c => (turn p c).2.2.1) l p
  refine ⟨rest, plans, raises _ p, fun c => ⟨?_, fun i ends port mask => ?_⟩⟩
  · exact foldl_own (key := id)
      (G := fun x c b => b.countRules (pass.counterStep takers x c (isWaitingRescue b.record.state))) touches
      (fun p c => (turn p c).2.1) allCars p (by rw [List.map_id]; exact List.nodup_finRange 8) c (List.mem_finRange c)
  · obtain ⟨l, m, split⟩ := List.append_of_mem (List.mem_finRange c)
    have nodup := List.nodup_finRange 8
    unfold Part.stepCounters
    rw [show allCars = l ++ c :: m from split, List.foldl_append, List.foldl_cons]
    rw [split] at nodup
    have fresh : c ∉ l := fun h => (List.disjoint_of_nodup_append nodup) h List.mem_cons_self
    obtain ⟨rest', -⟩ := foldl_rest (key := id) touches l p
    have stands : (l.foldl (fun p c => allRules.foldl (fun p i => p.stepRuleCounter pass takers c i) p) p).car c = p.car c :=
      foldl_stands (key := id) touches l p (by rwa [List.map_id])
    refine (raises m _).grow port _ ((turn _ c).2.2.2 i (List.mem_finRange i) ?_ port (by rwa [rest'.mask]))
    unfold Part.stateOf
    rw [stands, rest'.config]
    exact ends

/-! ## The pending commits (R114, R120 step 2) -/

/-- One pending commit is applied (R120). -/
def Part.commitTaken (p : Part) (e : PendingCommit) : Part :=
  (p.applyCommit e.rule e.selected e.image).raiseTo e.port ⟨.commitDone, none⟩

theorem applyCommits_eq (p : Part) : p.applyCommits = { p.commits.foldl Part.commitTaken p with commits := [] } := rfl

/-- The kinds that the commits raise (R120). -/
def isCommitKind (k : NoticeKind) : Prop := k = .commitDone

/-- What the applying of commits leaves. -/
structure CommitsLeave (p q : Part) : Prop where
  rest : KeepsRest { p with config := { p.config with rules := q.config.rules }, store := q.store, commits := q.commits } q
  plans : KeepsPlans p q
  cars : ∀ c, q.car c = { p.car c with policy := (q.car c).policy }
  raises : Raises isCommitKind p q

theorem CommitsLeave.refl (p : Part) : CommitsLeave p p := ⟨.refl p, .refl p, fun _ => rfl, .refl _ p⟩

theorem CommitsLeave.trans {r : Part} (h : CommitsLeave p q) (k : CommitsLeave q r) : CommitsLeave p r := by
  refine ⟨?_, h.plans.trans k.plans, fun c => ?_, h.raises.trans k.raises⟩
  · obtain ⟨h1, h2, -, h4, h5, h6, -, h8, h9, h10, h11, h12, h13⟩ := h.rest
    obtain ⟨k1, k2, -, k4, k5, k6, -, k8, k9, k10, k11, k12, k13⟩ := k.rest
    dsimp only at h1 h2 h4 h5 h6 h8 h9 h10 h11 h12 h13 k1 k2 k4 k5 k6 k8 k9 k10 k11 k12 k13
    refine ⟨k1.trans h1, k2.trans ?_, rfl, k4.trans h4, k5.trans h5, k6.trans h6, rfl, k8.trans h8, k9.trans h9,
      k10.trans h10, k11.trans h11, ?_, ?_⟩
    · dsimp only; rw [h2]
    · dsimp only; rw [k12, h12]
    · dsimp only; rw [k13, h13]
  · rw [k.cars c, h.cars c]

theorem PortState.offer_rest (x : PortState) (n : Notice) : x.offer n = { x with notices := (x.offer n).notices } := by
  unfold PortState.offer; split <;> rfl

theorem applyCommit_car (p : Part) (k : Fin 16) (sel : FieldSet) (image : Rule) (c : Car) :
    (p.applyCommit k sel image).car c =
      { p.car c with policy := { (p.car c).policy with counters := (p.car c).policy.counters.set k .idle } } :=
  Part.mapCars_car _ _ _

theorem commitTaken_port (p : Part) (e : PendingCommit) (port : Port) : (p.commitTaken e).port port =
    if port = e.port then (p.port port).offer ⟨.commitDone, none⟩ else p.port port := by
  unfold Part.commitTaken Part.raiseTo
  cases port <;> cases h : e.port <;> rfl

theorem commitTaken_leaves (p : Part) (e : PendingCommit) : CommitsLeave p (p.commitTaken e) := by
  have ports := commitTaken_port p e
  refine ⟨?_, ?_, fun c => ?_, ⟨fun port => ?_, fun port n h => ?_, fun port n h => ?_⟩⟩
  · unfold Part.commitTaken Part.raiseTo
    have offered := PortState.offer_rest
    cases e.port with
    | station => exact ⟨rfl, rfl, rfl, rfl, rfl, rfl, rfl, rfl, rfl, rfl, rfl, offered _ _, rfl⟩
    | panel => exact ⟨rfl, rfl, rfl, rfl, rfl, rfl, rfl, rfl, rfl, rfl, rfl, rfl, offered _ _⟩
  · unfold Part.commitTaken Part.raiseTo; cases e.port <;> exact ⟨rfl, rfl, rfl⟩
  · have own : (p.commitTaken e).car c = (p.applyCommit e.rule e.selected e.image).car c := Part.modPort_car _ _ _ _
    rw [own, applyCommit_car]
  · rw [ports]; split
    · rw [PortState.offer_rest]
    · rfl
  · rw [ports]; split
    · exact (PortState.mem_offer _ _ _).mpr (.inl h)
    · exact h
  · rw [ports] at h; split at h
    · exact ((PortState.mem_offer _ _ _).mp h).imp_right fun k => by rw [k.1]; rfl
    · exact .inl h

theorem commitTaken_own (p : Part) (e : PendingCommit) :
    (p.commitTaken e).config.rules = p.config.rules.set e.rule (mergeRule e.selected e.image p.config.rules[e.rule]) ∧
    (p.commitTaken e).store = { p.store with unsaved := true } ∧
    (p.commitTaken e).commits = p.commits ∧
    ∀ c, ((p.commitTaken e).car c).policy.counters = (p.car c).policy.counters.set e.rule .idle := by
  refine ⟨?_, ?_, ?_, fun c => ?_⟩
  · unfold Part.commitTaken Part.raiseTo; cases e.port <;> rfl
  · unfold Part.commitTaken Part.raiseTo; cases e.port <;> rfl
  · unfold Part.commitTaken Part.raiseTo; cases e.port <;> rfl
  · have own : (p.commitTaken e).car c = (p.applyCommit e.rule e.selected e.image).car c := Part.modPort_car _ _ _ _
    rw [own, applyCommit_car]

/-- A place of a vector of 16 after one is set. -/
theorem getElem_set_fin {α : Type} (v : Vector α 16) (i j : Fin 16) (x : α) :
    (v.set i x)[j] = if i = j then x else v[j] := by
  by_cases h : i = j
  · subst h; simp
  · rw [if_neg h]
    simpa using Vector.getElem_set_ne i.isLt j.isLt fun e => h (Fin.ext e)

theorem foldl_commits : ∀ (l : List PendingCommit) (p : Part),
    let q := l.foldl Part.commitTaken p
    CommitsLeave p q ∧ q.commits = p.commits ∧ q.store = { p.store with unsaved := p.store.unsaved || !l.isEmpty } ∧
    (∀ k : Fin 16, q.config.rules[k] =
      l.foldl (fun r e => if e.rule = k then mergeRule e.selected e.image r else r) p.config.rules[k]) ∧
    (∀ c (i : Fin 16), ((∃ e ∈ l, e.rule = i) → (q.car c).policy.counters[i] = .idle) ∧
      ((∀ e ∈ l, e.rule ≠ i) → (q.car c).policy.counters[i] = (p.car c).policy.counters[i])) ∧
    (∀ e ∈ l, maskHolds (p.port e.port).mask .commitDone = true →
      (⟨.commitDone, none⟩ : Notice) ∈ (q.port e.port).notices) ∧
    ∀ port, (∀ e ∈ l, e.port ≠ port) → q.port port = p.port port
  | [], p => ⟨.refl p, rfl, by simp, fun _ => rfl, fun _ _ => ⟨by simp, fun _ => rfl⟩, by simp, fun _ _ => rfl⟩
  | x :: l, p => by
    obtain ⟨leaves, commits, store, rules, counters, done, others⟩ := foldl_commits l (p.commitTaken x)
    obtain ⟨ownRules, ownStore, ownCommits, ownCounters⟩ := commitTaken_own p x
    have first := commitTaken_leaves p x
    refine ⟨first.trans leaves, commits.trans ownCommits, ?_, fun k => ?_, fun c i => ⟨fun ⟨e, he, is⟩ => ?_, fun free => ?_⟩,
      fun e he mask => ?_, fun port free => ?_⟩
    · exact store.trans (by rw [ownStore]; simp)
    · refine (rules k).trans ?_
      rw [ownRules, getElem_set_fin, List.foldl_cons]
      by_cases h : x.rule = k
      · subst h; rw [if_pos rfl]
      · rw [if_neg h, if_neg h]
    · by_cases later : ∃ e ∈ l, e.rule = i
      · exact (counters c i).1 later
      · have here : x.rule = i := by
          rcases List.mem_cons.mp he with rfl | he
          · exact is
          · exact absurd ⟨e, he, is⟩ later
        refine ((counters c i).2 fun e he is => later ⟨e, he, is⟩).trans ?_
        rw [ownCounters, getElem_set_fin, if_pos here]
    · refine ((counters c i).2 fun e he => free e (List.mem_cons_of_mem _ he)).trans ?_
      rw [ownCounters, getElem_set_fin, if_neg (free x List.mem_cons_self)]
    · rcases List.mem_cons.mp he with rfl | he
      · refine leaves.raises.grow e.port _ ?_
        rw [commitTaken_port, if_pos rfl]
        exact (PortState.mem_offer _ _ _).mpr (.inr ⟨rfl, mask⟩)
      · exact done e he (by rwa [first.raises.mask])
    · refine (others port fun e he => free e (List.mem_cons_of_mem _ he)).trans ?_
      rw [commitTaken_port, if_neg fun is => free x List.mem_cons_self is.symm]

/-! ## The stages together (R128) -/

theorem isPlanned_rest {r : CarRecord} (h : isPlanned r = true) : isMoveState r.state = false := by
  rcases (isPlanned_iff r).mp h with h | h | ⟨h, -⟩ <;> rw [h] <;> rfl

/-- The part once demand is judged with the results (R146, log 22). -/
@[irreducible] def Part.resultsJudged (p : Part) (pass : Pass) : Part := (p.written pass).demandJudged p.demand

/-- The part once the counters have taken their steps (R110). -/
@[irreducible] def Part.counted (p : Part) (pass : Pass) : Part :=
  (p.resultsJudged pass).stepCounters pass ((p.takers pass).map (·.car))

/-- The part once the pending commits are applied (R120). -/
@[irreducible] def Part.committed (p : Part) (pass : Pass) : Part := (p.counted pass).applyCommits

theorem endPass_eq (p : Part) (pass : Pass) : p.endPass pass = (p.committed pass).select.nextPass := by
  unfold Part.endPass Part.committed Part.counted Part.resultsJudged Part.written
  dsimp only
  rw [settleDemand_eq]

/-- What the counters leave, and what they make of each car (R110 to R113). -/
theorem counted_spec (p : Part) (pass : Pass) :
    KeepsRest (p.resultsJudged pass) (p.counted pass) ∧ KeepsPlans (p.resultsJudged pass) (p.counted pass) ∧
    Raises isCounterKind (p.resultsJudged pass) (p.counted pass) ∧ ∀ c,
      let F := pass.counterStep ((p.takers pass).map (·.car)) (p.resultsJudged pass).config c
        (isWaitingRescue ((p.resultsJudged pass).stateOf c))
      (p.counted pass).car c = ((p.resultsJudged pass).car c).countRules F ∧
      ∀ i, ((p.resultsJudged pass).car c).Ends F i →
        ∀ port, maskHolds ((p.resultsJudged pass).port port).mask .escalation = true →
          (⟨.escalation, some c⟩ : Notice) ∈ ((p.counted pass).port port).notices := by
  unfold Part.counted
  exact stepCounters_spec _ _ _

theorem resultsJudged_rest (p : Part) (pass : Pass) : KeepsRest p (p.resultsJudged pass) ∧
    (p.resultsJudged pass).pass = p.pass ∧ (p.resultsJudged pass).requestPending = p.requestPending := by
  obtain ⟨rest, plans⟩ := written_rest p pass
  obtain ⟨rest', pass', request, -⟩ := settleDemand_keeps p (p.written pass)
  rw [settleDemand_eq] at rest' pass' request
  unfold Part.resultsJudged
  exact ⟨rest.trans rest', pass'.trans plans.pass, request.trans plans.requestPending⟩

theorem committed_leaves (p : Part) (pass : Pass) : CommitsLeave (p.counted pass) (p.committed pass) ∧
    (p.committed pass).commits = [] := by
  obtain ⟨leaves, commits, -⟩ := foldl_commits (p.counted pass).commits (p.counted pass)
  unfold Part.committed
  rw [applyCommits_eq]
  generalize p.counted pass = q at leaves
  refine ⟨⟨?_, ⟨leaves.plans.pass, leaves.plans.requestPending, leaves.plans.supply⟩, leaves.cars,
    ⟨leaves.raises.mask, leaves.raises.grow, leaves.raises.only⟩⟩, rfl⟩
  obtain ⟨h1, h2, h3, h4, h5, h6, -, h8, h9, h10, h11, h12, h13⟩ := leaves.rest
  exact ⟨h1, h2, h3, h4, h5, h6, rfl, h8, h9, h10, h11, h12, h13⟩

theorem counted_commits (p : Part) (pass : Pass) : (p.counted pass).commits = p.commits :=
  (counted_spec p pass).1.commits.trans (resultsJudged_rest p pass).1.commits

/-! ## The waiting pass (R128 step 4) -/

theorem nextPass_timed (h : p.timedPending = true) : p.nextPass =
    ({ p with pass := none, timedPending := false, requestPending := false } : Part).startPass .timed := if_pos h

theorem nextPass_requested (h : p.timedPending = false) (k : p.requestPending = true) :
    p.nextPass = { p with pass := some (p.passOf .requested), requestPending := false } :=
  (if_neg (by rw [h]; decide)).trans (if_pos k)

theorem nextPass_none (h : p.timedPending = false) (k : p.requestPending = false) : p.nextPass = { p with pass := none } :=
  (if_neg (by rw [h]; decide)).trans (if_neg (by rw [k]; decide))

/-- The kinds that the start of a pass raises (R131). -/
def isStartKind (k : NoticeKind) : Prop := k = .urgencyRebased

theorem stepUrgency_raises (p : Part) : Raises isStartKind p p.stepUrgency := by
  by_cases h : p.Rebases
  · rw [stepUrgency_rebased h, mapCars_mapCars]
    have offers : Offers [⟨.urgencyRebased, none⟩] p
        ((p.mapCars fun b => (b.stepUrgency p.globals).halveUrgency).raise ⟨.urgencyRebased, none⟩) :=
      (offers_raise _ _).of_ports rfl rfl rfl rfl
    exact offers.raises ((keepsRest_mapCars p _).trans (keepsRest_raise _ _)) fun n hn => by
      rw [List.mem_singleton.mp hn]; rfl
  · rw [stepUrgency_below h]; exact raises_of_ports rfl rfl

/-- What the start of the waiting pass leaves, whichever it is. -/
structure StartLeaves (p q : Part) : Prop where
  config : q.config = p.config
  store : q.store = p.store
  commits : q.commits = p.commits
  supply : q.supply = p.supply
  converterInput : q.converterInput = p.converterInput
  raises : Raises isStartKind p q
  cars : ∀ c, UrgencyMoved (p.car c) (q.car c)

theorem nextPass_leaves (p : Part) : StartLeaves p p.nextPass := by
  unfold Part.nextPass
  dsimp only
  split
  · let q : Part := { p with pass := none, timedPending := false, requestPending := false }
    obtain ⟨rest, plans⟩ := stepUrgency_rest q
    have start : Raises isStartKind q.stepUrgency (q.startPass .timed) := raises_of_ports rfl rfl
    exact ⟨rest.config, rest.store, rest.commits, plans.supply, rest.converterInput,
      (raises_of_ports (p := p) (q := q) rfl rfl).trans ((stepUrgency_raises q).trans start), urgencyMoved_part q⟩
  · split <;> exact ⟨rfl, rfl, rfl, rfl, rfl, raises_of_ports rfl rfl, fun _ => rfl⟩

/-! ## The command (R128) -/

/-- Demand that has been judged is left by its judging. -/
theorem supplyJudged_again {had has : Bool} (config : q.config = p.config ∨ q.globals = p.globals)
    (supply : q.supply = p.supplyJudged had has) : q.supplyJudged had has = q.supply := by
  have globals : q.globals = p.globals := config.elim (fun h => by unfold Part.globals; rw [h]) id
  unfold Part.supplyJudged at *
  rw [globals]
  cases had <;> cases has <;> cases h : p.supply.converter <;> simp only [h] at supply <;> try split at supply
  all_goals simp [supply, h]

theorem demandJudged_again {had : Bool} (globals : q.globals = p.globals) (supply : q.supply = p.supplyJudged had q.demand) :
    q.demandJudged had = q := by
  have same := supplyJudged_again (.inr globals) supply
  unfold Part.demandJudged
  rw [same]
  exact if_neg fun h => h.1 h.2

theorem counted_state (p : Part) (pass : Pass) (c : Car) : (p.counted pass).stateOf c = (p.resultsJudged pass).stateOf c := by
  have own := ((counted_spec p pass).2.2.2 c).1
  unfold Part.stateOf
  rw [own]
  exact congrArg (·.record.state) (countsOnly_foldl _ _ _)

theorem committed_state (p : Part) (pass : Pass) (c : Car) : (p.committed pass).stateOf c = (p.counted pass).stateOf c := by
  unfold Part.stateOf; rw [(committed_leaves p pass).1.cars c]

theorem resultsJudged_demand (p : Part) (pass : Pass) : (p.resultsJudged pass).demand = (p.written pass).demand := by
  unfold Part.resultsJudged Part.demandJudged
  dsimp only
  split
  · exact Part.select_demand _
  · rfl

theorem endPass_demand (p : Part) (pass : Pass) : (p.endPass pass).demand = (p.written pass).demand := by
  have start : (p.endPass pass).demand = (p.committed pass).select.demand := demand_congr fun c => by
    unfold Part.stateOf
    rw [endPass_eq, (nextPass_leaves _).cars c]
  rw [start, Part.select_demand, ← resultsJudged_demand]
  exact demand_congr fun c => by rw [committed_state, counted_state]

theorem committed_supply (p : Part) (pass : Pass) :
    (p.committed pass).supply = p.supplyJudged p.demand (p.written pass).demand := by
  obtain ⟨rest, plans⟩ := written_rest p pass
  rw [(committed_leaves p pass).1.plans.supply]
  refine (counted_spec p pass).2.1.supply.trans ?_
  unfold Part.resultsJudged
  rw [Part.demandJudged_supply, supplyJudged_congr rest plans.supply]

theorem committed_globals (p : Part) (pass : Pass) : (p.committed pass).globals = p.globals := by
  have committed := congrArg (·.globals) (committed_leaves p pass).1.rest.config
  dsimp only at committed
  rw [(counted_spec p pass).1.config, (resultsJudged_rest p pass).1.config] at committed
  exact committed

theorem endPass_supply (p : Part) (pass : Pass) :
    (p.endPass pass).supply = p.supplyJudged p.demand (p.written pass).demand := by
  rw [endPass_eq, (nextPass_leaves _).supply, (keepsPlans_select _).supply, committed_supply]

theorem endPass_globals (p : Part) (pass : Pass) : (p.endPass pass).globals = p.globals := by
  have : (p.endPass pass).config = (p.committed pass).config := by
    rw [endPass_eq, (nextPass_leaves _).config, (keepsRest_select _).config]
  unfold Part.globals at *
  rw [this]
  exact committed_globals p pass

theorem execPassEnd_eq (on : s.powered = true) (flight : s.pass = some pass) :
    execPassEnd s = .next (s.withPart (s.toPart.endPass pass)) := by
  unfold execPassEnd
  rw [runPart_settled (q := s.toPart.endPass pass) on (by rw [flight])]
  rw [settleDemand_eq, demandJudged_again (endPass_globals s.toPart pass)
    ((endPass_supply s.toPart pass).trans (by rw [endPass_demand]))]

theorem passEnd_found (on : s.powered = true) (flight : s.pass = some pass) :
    ∃ q, q = s.toPart.endPass pass ∧ execPassEnd s = .next (s.withPart q) := ⟨_, rfl, execPassEnd_eq on flight⟩

end Sys2Proof.Machine
end

