-- ==== Sys2Proof/Proofs/CountersCommits.lean ====
section
/-!
PROOFS. The rule counters (R110 to R113) and the pending commits (R114, R120) across the end of a pass.
-/

namespace Sys2Proof.Machine

variable {s : State} {p q : Part} {b : CarBlock} {c : Car} {pass : Pass}

/-! ## One counter -/

/-- The step of a counter by its action and its state (R110 to R112). -/
theorem stepCounter_counts (r : Rule) (k : RuleCounter) {timed taken matched waiting : Bool} {T K M W : Prop}
    (hT : timed = true ↔ T) (hK : taken = true ↔ K) (hM : matched = true ↔ M) (hW : waiting = true ↔ W) :
    let after := stepCounter r k timed taken matched waiting
    let minute := if k.state = .idle then 1 else k.minutes + 1
    let unit := r.countUnit = .seconds ∨ 60 ≤ minute
    let minutes :=
      if r.countUnit = .seconds then (if k.state = .idle then 0 else k.minutes) else if 60 ≤ minute then 0 else minute
    let value := if k.state = .idle then 0 else k.value
    let raised := if unit then value + 1 else value
    let lowered := if unit then value - 1 else value
    (r.countAction = .none ∨ k.state = .reached → after = k) ∧
    (r.countAction = .countUp → k.state ≠ .reached →
      (T ∧ K ∧ M →
        after = if r.countLimit ≤ raised then ⟨.reached, r.countLimit, minutes⟩ else ⟨.counting, raised, minutes⟩) ∧
      (¬(T ∧ K ∧ M) → after = k)) ∧
    (r.countAction = .countDown → k.state = .idle →
      (K ∧ M → after = ⟨.counting, r.countLimit, 0⟩) ∧ (¬(K ∧ M) → after = k)) ∧
    (r.countAction = .countDown → k.state = .counting →
      (T ∧ W → after = if lowered = 0 then ⟨.reached, 0, minutes⟩ else ⟨.counting, lowered, minutes⟩) ∧
      (¬(T ∧ W) → after = k)) := by
  obtain rfl := propext hT
  obtain rfl := propext hK
  obtain rfl := propext hM
  obtain rfl := propext hW
  intro after minute unit minutes value raised lowered
  have pass (n : Nat) (h : n + 1 = minute) (e : n = if k.state = .idle then 0 else k.minutes) :
      countPass r.countUnit n = (decide unit, minutes) := by
    have unitIs : r.countUnit = .seconds ∨ r.countUnit = .minutes := by cases r.countUnit <;> simp
    rcases unitIs with hu | hu
    · simp [countPass, unit, minutes, hu, e]
    · by_cases full : 60 ≤ minute <;> simp [countPass, unit, minutes, hu, h, full]
  refine ⟨fun h => ?_, fun up live => ⟨fun ⟨t, k', m⟩ => ?_, fun not => ?_⟩, fun down idle => ⟨fun ⟨k', m⟩ => ?_, fun not => ?_⟩,
    fun down counting => ⟨fun ⟨t, w⟩ => ?_, fun not => ?_⟩⟩
  · show stepCounter _ _ _ _ _ _ = _
    unfold stepCounter
    rcases h with h | h
    · rw [h]
    · rw [h]; cases r.countAction <;> simp
  · show stepCounter _ _ _ _ _ _ = _
    unfold stepCounter
    rw [up]
    cases hs : k.state with
    | idle =>
      have counted := pass 0 (by simp [minute, hs]) (by simp [hs])
      simp [t, k', m, countUpPass, counted, raised, value, hs]
    | counting =>
      have counted := pass k.minutes (by simp [minute, hs]) (by simp [hs])
      simp [t, k', m, countUpPass, counted, raised, value, hs]
    | reached => exact absurd hs live
  · show stepCounter _ _ _ _ _ _ = _
    unfold stepCounter
    rw [up]
    exact if_neg (by simpa [Bool.and_eq_true, and_assoc] using not)
  · show stepCounter _ _ _ _ _ _ = _
    unfold stepCounter
    rw [down, idle]
    exact if_pos (by simp [k', m])
  · show stepCounter _ _ _ _ _ _ = _
    unfold stepCounter
    rw [down, idle]
    exact if_neg (by simpa [Bool.and_eq_true] using not)
  · show stepCounter _ _ _ _ _ _ = _
    unfold stepCounter
    rw [down, counting]
    have counted := pass k.minutes (by simp [minute, counting]) (by simp [counting])
    simp [t, w, countDownPass, counted, lowered, value, counting]
  · show stepCounter _ _ _ _ _ _ = _
    unfold stepCounter
    rw [down, counting]
    exact if_neg (by simpa [Bool.and_eq_true] using not)

/-! ## Up to the counters -/

theorem moveStateOf_waiting {m : PlanMethod} {st : RescueState} (h : moveStateOf m = some st) : isWaitingRescue st = true := by
  cases m <;> simp only [moveStateOf, Option.some.injEq, reduceCtorEq] at h <;> subst h <;> rfl

theorem demandJudged_car (had : Bool) (h : p.stateOf c ≠ .ready) : (p.demandJudged had).car c = p.car c := by
  unfold Part.demandJudged
  dsimp only
  split
  · exact Part.select_car (d := c) _ h
  · rfl

/-- The judging of demand, with its selection, moves READY cars to the states of their grants alone. -/
theorem demandJudged_waiting (p : Part) (had : Bool) (c : Car) :
    isWaitingRescue ((p.demandJudged had).stateOf c) = isWaitingRescue (p.stateOf c) := by
  rcases (demandJudged_leaves p had c).1.state with same | ⟨m, -, granted⟩
  · exact congrArg isWaitingRescue same
  · by_cases ready : p.stateOf c = .ready
    · rw [ready]; exact moveStateOf_waiting granted
    · unfold Part.stateOf; rw [demandJudged_car had ready]

/-- What the stages up to the counters leave of a car: its policy is stepped, its last escalation rule may change. -/
structure CountedLeaves (p : Part) (pass : Pass) (c : Car) : Prop where
  policy : ((p.resultsJudged pass).car c).policy = (p.car c).policy
  lastEscalation : ((p.resultsJudged pass).car c).record.lastEscalation = (p.car c).record.lastEscalation
  waiting : isWaitingRescue ((p.resultsJudged pass).stateOf c) = isWaitingRescue (p.stateOf c)
  urgency : ((p.resultsJudged pass).car c).planner.urgency = (p.car c).planner.urgency
  alarmMark : ((p.resultsJudged pass).car c).planner.alarmMark = (p.car c).planner.alarmMark
  lineState : ((p.resultsJudged pass).car c).line.state = (p.car c).line.state
  lastStatus : ((p.resultsJudged pass).car c).line.lastStatus = (p.car c).line.lastStatus

theorem countedLeaves (p : Part) (pass : Pass) (c : Car) : CountedLeaves p pass c := by
  obtain ⟨result, -, -⟩ := written_leaves p pass c
  obtain ⟨judged, -⟩ := demandJudged_leaves (p.written pass) p.demand c
  have waiting := demandJudged_waiting (p.written pass) p.demand c
  rw [show (p.written pass).demandJudged p.demand = p.resultsJudged pass by unfold Part.resultsJudged; rfl] at judged waiting
  exact ⟨judged.policy.trans result.policy, judged.lastEscalation.trans result.lastEscalation,
    waiting.trans (written_waiting p pass c),
    (congrArg (·.urgency) judged.planner).trans result.urgency,
    (congrArg (·.alarmMark) judged.planner).trans result.alarmMark,
    judged.lineState.trans result.lineState, judged.lastStatus.trans result.lastStatus⟩

/-- The kinds that a pass end raises before its commits. -/
def isEarlyKind (k : NoticeKind) : Prop := isResultKind k ∨ isSelectionKind k ∨ isCounterKind k

theorem resultsJudged_raises (p : Part) (pass : Pass) : Raises isEarlyKind p (p.resultsJudged pass) := by
  unfold Part.resultsJudged
  exact ((written_leaves p pass 0).2.1.mono fun _ h => .inl h).trans
    ((demandJudged_leaves (p.written pass) p.demand 0).2.mono fun _ h => .inr (.inl h))

theorem counted_raises (p : Part) (pass : Pass) : Raises isEarlyKind p (p.counted pass) :=
  (resultsJudged_raises p pass).trans ((counted_spec p pass).2.2.1.mono fun _ h => .inr (.inr h))

/-- What follows the commits leaves the policy and the last escalation rule of every car, and raises no pair of theirs. -/
theorem endPass_leaves (p : Part) (pass : Pass) (c : Car) :
    ((p.endPass pass).car c).policy = ((p.committed pass).car c).policy ∧
    ((p.endPass pass).car c).record.lastEscalation = ((p.committed pass).car c).record.lastEscalation ∧
    Raises (fun k => isSelectionKind k ∨ isStartKind k) (p.committed pass) (p.endPass pass) := by
  obtain ⟨selected, raises⟩ := select_leaves (p.committed pass) c
  have start := nextPass_leaves (p.committed pass).select
  have moved := start.cars c
  rw [endPass_eq]
  exact ⟨(congrArg (·.policy) moved).trans selected.policy,
    (congrArg (·.record.lastEscalation) moved).trans selected.lastEscalation,
    (raises.mono fun _ h => .inl h).trans (start.raises.mono fun _ h => .inr h)⟩

/-! ## The commits (R114, R120) -/

/-- The commits of a pass end, seen from the part before it. -/
theorem committed_own (p : Part) (pass : Pass) :
    let q := p.committed pass
    q.store = { p.store with unsaved := p.store.unsaved || !p.commits.isEmpty } ∧
    (∀ k : Fin 16, q.config.rules[k] =
      p.commits.foldl (fun r e => if e.rule = k then mergeRule e.selected e.image r else r) p.config.rules[k]) ∧
    (∀ c (i : Fin 16), ((∃ e ∈ p.commits, e.rule = i) → (q.car c).policy.counters[i] = .idle) ∧
      ((∀ e ∈ p.commits, e.rule ≠ i) → (q.car c).policy.counters[i] = ((p.counted pass).car c).policy.counters[i])) ∧
    (∀ e ∈ p.commits, maskHolds (p.port e.port).mask .commitDone = true →
      (⟨.commitDone, none⟩ : Notice) ∈ (q.port e.port).notices) ∧
    ∀ port, (∀ e ∈ p.commits, e.port ≠ port) → q.port port = (p.counted pass).port port := by
  have found := foldl_commits (p.counted pass).commits (p.counted pass)
  have listed := counted_commits p pass
  have rest : KeepsRest p (p.counted pass) := (resultsJudged_rest p pass).1.trans (counted_spec p pass).1
  unfold Part.committed
  rw [applyCommits_eq]
  rw [listed] at found ⊢
  obtain ⟨-, -, store, rules, counters, done, others⟩ := found
  refine ⟨?_, fun k => ?_, counters, fun e he mask => ?_, others⟩
  · exact store.trans (by rw [rest.store])
  · refine (rules k).trans ?_
    rw [rest.config]
  · exact done e he (by rwa [(counted_raises p pass).mask])

/-- What follows the commits leaves the list, the rules and the store. -/
theorem endPass_stored (p : Part) (pass : Pass) : (p.endPass pass).commits = [] ∧
    (p.endPass pass).config = (p.committed pass).config ∧ (p.endPass pass).store = (p.committed pass).store := by
  have start := nextPass_leaves (p.committed pass).select
  have selected := keepsRest_select (p.committed pass)
  rw [endPass_eq]
  exact ⟨start.commits.trans (selected.commits.trans (committed_leaves p pass).2), start.config.trans selected.config,
    start.store.trans selected.store⟩

/-- Settles O22. -/
theorem commitsApplied : Obligations.CommitsApplied := by
  intro s pass on flight done
  obtain ⟨store, rules, counters, raised, others⟩ := committed_own s.toPart pass
  obtain ⟨emptied, sameConfig, sameStore⟩ := endPass_stored s.toPart pass
  have leaves := endPass_leaves s.toPart pass
  obtain ⟨t, is, run⟩ := passEnd_found on flight
  rw [← is] at emptied sameConfig sameStore leaves
  refine ⟨_, run, emptied, fun k => ?_, fun e he c => ?_, fun e he mask => ?_, fun q free h => ?_, sameStore.trans store⟩
  · show t.config.rules[k] = _
    rw [sameConfig]
    exact rules k
  · show (t.car c).policy.counters[e.rule] = _
    rw [(leaves c).1]
    exact (counters c e.rule).1 ⟨e, he, rfl⟩
  · exact (leaves 0).2.2.grow e.port _ (raised e he mask)
  · rcases (leaves 0).2.2.only q _ h with h | h | h
    · rw [others q free] at h
      rcases (counted_raises s.toPart pass).only q _ h with h | h | h | h
      · exact h
      · rcases h with h | h <;> cases h
      · rcases h with h | h <;> cases h
      · cases h
    · rcases h with h | h <;> cases h
    · cases h

/-! ## The counters (R110 to R113) -/

theorem contains_takers (p : Part) (pass : Pass) (c : Car) : ((p.takers pass).map (·.car)).contains c = true ↔
    (∃ x ∈ pass.cars, x.car = c) ∧ (p.stateOf c = .assessing ∨ p.stateOf c = .ready ∨
      (p.stateOf c = .held ∧ (p.car c).record.heldCause = some .noMethod)) := by
  rw [List.contains_iff_mem, List.mem_map]
  constructor
  · rintro ⟨x, hx, rfl⟩
    obtain ⟨mem, planned⟩ := mem_takers.mp hx
    exact ⟨⟨x, mem, rfl⟩, (isPlanned_iff _).mp planned⟩
  · rintro ⟨⟨x, mem, rfl⟩, planned⟩
    exact ⟨x, mem_takers.mpr ⟨mem, (isPlanned_iff _).mpr planned⟩, rfl⟩

theorem reachesEnd_iff (k k' : RuleCounter) : reachesEnd k k' = true ↔ k.state ≠ .reached ∧ k'.state = .reached := by
  simp [reachesEnd]

/-- Settles O21: each counter without a commit takes its own step, with the figures of the part before the pass end. -/
theorem countersStepped : Obligations.CountersStepped := by
  intro s pass on flight timed waits takes matched
  obtain ⟨rest, -, -, counted⟩ := counted_spec s.toPart pass
  have judged := resultsJudged_rest s.toPart pass
  have ended := endPass_leaves s.toPart pass
  obtain ⟨t, is, run⟩ := passEnd_found on flight
  rw [← is] at ended
  refine ⟨_, run, fun c => ?_⟩
  have leaves := countedLeaves s.toPart pass c
  obtain ⟨policy, escalation, raises⟩ := ended c
  obtain ⟨-, -, counters, -⟩ := committed_own s.toPart pass
  obtain ⟨own, escalates⟩ := counted c
  set F := pass.counterStep ((s.toPart.takers pass).map (·.car)) (s.toPart.resultsJudged pass).config c
    (isWaitingRescue ((s.toPart.resultsJudged pass).stateOf c)) with F_def
  have step (i : Fin 16) (free : ∀ e ∈ s.commits, e.rule ≠ i) :
      (t.car c).policy.counters[i] = F i (s.car c).policy.counters[i] := by
    rw [policy]
    refine ((counters c i).2 free).trans ?_
    rw [own, countRules_counter, leaves.policy]
  have ending (i : Fin 16) (free : ∀ e ∈ s.commits, e.rule ≠ i) :
      ((s.toPart.resultsJudged pass).car c).Ends F i ↔ (s.car c).policy.counters[i].state ≠ .reached ∧
        (t.car c).policy.counters[i].state = .reached := by
    rw [step i free, ← reachesEnd_iff]
    unfold CarBlock.Ends
    rw [leaves.policy]
  have last : (t.car c).record.lastEscalation =
      (((s.toPart.resultsJudged pass).car c).countRules F).record.lastEscalation := by
    rw [escalation, (committed_leaves s.toPart pass).1.cars c]
    exact congrArg (·.record.lastEscalation) own
  obtain ⟨highest, stands⟩ := foldl_countRule_escalation F allRules ((s.toPart.resultsJudged pass).car c)
    (List.pairwise_lt_finRange 16)
  have noCommit (empty : s.commits = []) (i : Fin 16) : ∀ e ∈ s.commits, e.rule ≠ i := by
    rw [empty]; exact fun e he => absurd he List.not_mem_nil
  intro ends
  refine ⟨fun i free => ?_, fun empty none => ?_⟩
  · intro r k after minute unit minutes value raised lowered
    have after_eq : after = F i k := step i free
    have config : (s.toPart.resultsJudged pass).config = s.config := judged.1.config
    obtain ⟨still, up, arm, down⟩ := stepCounter_counts r k (timed := pass.kind == .timed)
      (taken := ((s.toPart.takers pass).map (·.car)).contains c)
      (matched := (pass.snapshotOf c).any fun y => ruleMatches s.config.rules i y pass.usable)
      (waiting := isWaitingRescue (s.stateOf c)) (T := timed) (K := takes c) (M := matched c i) (W := waits c)
      beq_iff_eq (contains_takers s.toPart pass c)
      (by rw [Option.any_eq_true]; rfl) (isWaitingRescue_iff _)
    have after_is : after = stepCounter r k (pass.kind == .timed) (((s.toPart.takers pass).map (·.car)).contains c)
        ((pass.snapshotOf c).any fun y => ruleMatches s.config.rules i y pass.usable) (isWaitingRescue (s.stateOf c)) := by
      rw [after_eq, F_def]
      unfold Pass.counterStep
      rw [config, leaves.waiting]
    rw [← after_is] at still up arm down
    refine ⟨still, up, arm, down, fun empty ended top => ?_, fun ended q mask => ?_⟩
    · refine last.trans (highest i (List.mem_finRange i) ((ending i free).mpr ended) fun j _ lt h => top j lt ?_)
      exact (ending j (noCommit empty j)).mp h
    · refine raises.grow q _ ?_
      refine (committed_leaves s.toPart pass).1.raises.grow q _ ?_
      exact escalates i ((ending i free).mpr ended) q (by rwa [(resultsJudged_raises s.toPart pass).mask])
  · refine last.trans ((stands fun i _ h => none i ((ending i (noCommit empty i)).mp h)).trans ?_)
    exact leaves.lastEscalation

end Sys2Proof.Machine
end

