-- ==== Sys2Proof/Proofs/TimedPasses.lean ====
section
/-!
PROOFS. The start of a timed pass (R125, R126, R128 to R131): the urgency step of every car, the step alarm marks, the
rebasing, and the snapshot that is taken after them.
-/

namespace Sys2Proof.Machine

variable {s : State} {p u : Part} {b : CarBlock} {g : Globals} {c : Car} {pass : Pass}

/-! ## One car -/

/-- The occupancy of a car (R129). -/
def peopleOf (x : Option StatusRecord) (occ : Nat) : Nat := match x.bind fun y => y.load with
  | some load => min 20 ((load + 74) / 75)
  | none => occ

/-- The new alarm count of a car (R130). -/
def alarmsOf (l : LineState) (x : Option StatusRecord) (mark : Option Nat) : Nat := match l, x, mark with
  | .alive, some y, some mark => (y.alarmCount + 256 - mark) % 256
  | _, _, _ => 0

/-- The urgency of a car after its step (R129). -/
def CarBlock.urgencyStepped (b : CarBlock) (g : Globals) : Nat :=
  if isTrapped b.record.state = true ∧ b.record.state ≠ .rescued then
    b.planner.urgency + min 4095 (b.planner.weight + peopleOf b.line.lastStatus g.defaultOcc * g.kOcc +
      alarmsOf b.line.state b.line.lastStatus b.planner.alarmMark * g.kAlarm)
  else b.planner.urgency

theorem occupancy_eq (g : Globals) (x : Option StatusRecord) : occupancy g x = peopleOf x g.defaultOcc := by
  unfold occupancy peopleOf ceilDiv
  cases x.bind fun y => y.load <;> rfl

theorem alarmStep_eq (l : LineState) (mark : Option Nat) (x : Option StatusRecord) :
    (alarmStep l mark x).1 = alarmsOf l x mark := by
  cases l <;> cases x <;> cases mark <;> rfl

theorem stepUrgency_urgency (b : CarBlock) (g : Globals) : (b.stepUrgency g).planner.urgency = b.urgencyStepped g := by
  unfold CarBlock.stepUrgency CarBlock.urgencyStepped
  rw [← occupancy_eq, ← alarmStep_eq]
  by_cases h : isWaitingRescue b.record.state = true
  · rw [if_pos h, if_pos ((isWaitingRescue_iff _).mp h)]
  · rw [if_neg h, if_neg (mt (isWaitingRescue_iff _).mpr h)]

theorem stepUrgency_alarmMark (b : CarBlock) (g : Globals) : (b.stepUrgency g).planner.alarmMark =
    match b.line.state, b.line.lastStatus with
    | .alive, some x => if isTrapped b.record.state = true ∧ b.record.state ≠ .rescued then some x.alarmCount
        else b.planner.alarmMark
    | _, _ => b.planner.alarmMark := by
  unfold CarBlock.stepUrgency
  by_cases h : isWaitingRescue b.record.state = true
  · rw [if_pos h]
    simp only [if_pos ((isWaitingRescue_iff _).mp h)]
    cases b.line.state <;> cases b.line.lastStatus <;> rfl
  · rw [if_neg h]
    simp only [if_neg (mt (isWaitingRescue_iff _).mpr h)]
    cases b.line.state <;> cases b.line.lastStatus <;> rfl

theorem stepUrgency_state (b : CarBlock) (g : Globals) : (b.stepUrgency g).record.state = b.record.state :=
  congrArg (·.record.state) (urgencyMoved_stepUrgency b g)

theorem halveUrgency_urgency (b : CarBlock) : b.halveUrgency.planner.urgency =
    if isTrapped b.record.state = true ∧ b.record.state ≠ .rescued then b.planner.urgency / 2 else b.planner.urgency := by
  unfold CarBlock.halveUrgency
  by_cases h : isWaitingRescue b.record.state = true
  · rw [if_pos h, if_pos ((isWaitingRescue_iff _).mp h)]
  · rw [if_neg h, if_neg (mt (isWaitingRescue_iff _).mpr h)]

theorem halveUrgency_alarmMark (b : CarBlock) : b.halveUrgency.planner.alarmMark = b.planner.alarmMark := by
  unfold CarBlock.halveUrgency; split <;> rfl

/-! ## The part -/

theorem rebases_iff (p : Part) : p.Rebases ↔ ∃ c, 61440 ≤ (p.car c).urgencyStepped p.globals := by
  unfold Part.Rebases; simp only [stepUrgency_urgency]

theorem startPass_below (h : ¬u.Rebases) (c : Car) :
    ((u.startPass .timed).car c).planner.urgency = (u.car c).urgencyStepped u.globals ∧
    (u.startPass .timed).station = u.station ∧ (u.startPass .timed).panel = u.panel := by
  rw [startPass_timed, stepUrgency_below h, ← stepUrgency_urgency]
  exact ⟨congrArg (·.planner.urgency) (Part.mapCars_car u c _), rfl, rfl⟩

theorem startPass_rebased (h : u.Rebases) (c : Car) :
    ((u.startPass .timed).car c).planner.urgency =
      (if isTrapped (u.stateOf c) = true ∧ u.stateOf c ≠ .rescued then (u.car c).urgencyStepped u.globals / 2
        else (u.car c).planner.urgency) ∧
    (u.startPass .timed).station = u.station.offer ⟨.urgencyRebased, none⟩ ∧
    (u.startPass .timed).panel = u.panel.offer ⟨.urgencyRebased, none⟩ := by
  rw [startPass_timed, stepUrgency_rebased h]
  refine ⟨?_, rfl, rfl⟩
  show ((((u.mapCars _).mapCars _).car c).planner.urgency) = _
  rw [Part.mapCars_car, Part.mapCars_car, halveUrgency_urgency, stepUrgency_state, stepUrgency_urgency]
  unfold Part.stateOf CarBlock.urgencyStepped
  by_cases w : isTrapped (u.car c).record.state = true ∧ (u.car c).record.state ≠ .rescued
  · simp only [if_pos w]
  · simp only [if_neg w]

theorem startPass_alarmMark (u : Part) (c : Car) :
    ((u.startPass .timed).car c).planner.alarmMark = ((u.car c).stepUrgency u.globals).planner.alarmMark := by
  by_cases h : u.Rebases
  · rw [startPass_timed, stepUrgency_rebased h]
    show ((((u.mapCars _).mapCars _).car c).planner.alarmMark) = _
    rw [Part.mapCars_car, Part.mapCars_car, halveUrgency_alarmMark]
  · rw [startPass_timed, stepUrgency_below h]
    exact congrArg (·.planner.alarmMark) (Part.mapCars_car u c _)

theorem startPass_moved (u : Part) (c : Car) : UrgencyMoved (u.car c) ((u.startPass .timed).car c) := urgencyMoved_part u c

/-! ## Before the start -/

/-- The part that a timed pass starts on has the lines, urgencies and alarm marks of the part before the command (R129). -/
structure StartsFrom (s u : Part) : Prop where
  globals : u.globals = s.globals
  urgency : ∀ c, (u.car c).planner.urgency = (s.car c).planner.urgency
  alarmMark : ∀ c, (u.car c).planner.alarmMark = (s.car c).planner.alarmMark
  lineState : ∀ c, (u.car c).line.state = (s.car c).line.state
  lastStatus : ∀ c, (u.car c).line.lastStatus = (s.car c).line.lastStatus
  raises : ∀ port n, n.kind = .urgencyRebased → n ∈ (u.port port).notices → n ∈ (s.port port).notices
  mask : ∀ port, (u.port port).mask = (s.port port).mask

theorem offerRescueState_state (l : CarLine) (x : PartFrame) :
    (l.offerRescueState x).state = l.state ∧ (l.offerRescueState x).lastStatus = l.lastStatus := by
  unfold CarLine.offerRescueState; split
  · exact ⟨rfl, rfl⟩
  · exact startNext_state _

theorem startsFrom_ticked (p : Part) : StartsFrom p p.ticked := by
  have line (c : Car) : (p.ticked.car c).line.state = (p.car c).line.state ∧
      (p.ticked.car c).line.lastStatus = (p.car c).line.lastStatus := by
    rw [ticked_car, CarBlock.ticked_eq]
    dsimp only
    split
    · exact ⟨rfl, rfl⟩
    · exact offerRescueState_state _ _
  have planner (c : Car) : (p.ticked.car c).planner = (p.car c).planner := by rw [ticked_car, CarBlock.ticked_eq]
  exact ⟨rfl, fun c => congrArg (·.urgency) (planner c), fun c => congrArg (·.alarmMark) (planner c), fun c => (line c).1,
    fun c => (line c).2, fun port _ _ h => by cases port <;> exact h, fun port => by cases port <;> rfl⟩

/-- What is not the pass leaves the start as it is. -/
theorem StartsFrom.congr {v : Part} (h : StartsFrom p u) (config : v.config = u.config) (cars : v.cars = u.cars)
    (station : v.station = u.station) (panel : v.panel = u.panel) : StartsFrom p v := by
  have car (c : Car) : v.car c = u.car c := by unfold Part.car; rw [cars]
  have ports (port : Port) : v.port port = u.port port := by cases port <;> assumption
  refine ⟨?_, fun c => ?_, fun c => ?_, fun c => ?_, fun c => ?_, fun port n k m => ?_, fun port => ?_⟩
  · have := h.globals; unfold Part.globals at *; rw [config, this]
  · rw [car]; exact h.urgency c
  · rw [car]; exact h.alarmMark c
  · rw [car]; exact h.lineState c
  · rw [car]; exact h.lastStatus c
  · rw [ports] at m; exact h.raises port n k m
  · rw [ports]; exact h.mask port

theorem countsOnly_counted (p : Part) (pass : Pass) (c : Car) :
    CountsOnly ((p.resultsJudged pass).car c) ((p.counted pass).car c) := by
  rw [((counted_spec p pass).2.2.2 c).1]
  exact countsOnly_foldl _ _ _

/-- The commits and the counters leave all but the policy of a car and its last escalation rule. -/
theorem countsOnly_committed (p : Part) (pass : Pass) (c : Car) :
    CountsOnly ((p.resultsJudged pass).car c) ((p.committed pass).car c) := by
  have counted := countsOnly_counted p pass c
  have committed := (committed_leaves p pass).1.cars c
  generalize (p.committed pass).car c = b at *
  exact counted.trans (by unfold CountsOnly; rw [committed])

theorem startsFrom_committed (p : Part) (pass : Pass) : StartsFrom p (p.committed pass).select := by
  have selected (c : Car) := (select_leaves (p.committed pass) c).1
  have raises := (select_leaves (p.committed pass) 0).2
  have counts := countsOnly_committed p pass
  have leaves := countedLeaves p pass
  have planner (c : Car) : ((p.committed pass).select.car c).planner = ((p.resultsJudged pass).car c).planner :=
    (selected c).planner.trans (congrArg (·.planner) (counts c))
  have line (c : Car) : ((p.committed pass).car c).line = ((p.resultsJudged pass).car c).line :=
    congrArg (·.line) (counts c)
  refine ⟨?_, fun c => ?_, fun c => ?_, fun c => ?_, fun c => ?_, fun port n k m => ?_, fun port => ?_⟩
  · have config := (keepsRest_select (p.committed pass)).config
    have globals := committed_globals p pass
    unfold Part.globals at *
    rw [config, globals]
  · rw [planner]; exact (leaves c).urgency
  · rw [planner]; exact (leaves c).alarmMark
  · rw [(selected c).lineState, line]; exact (leaves c).lineState
  · rw [(selected c).lastStatus, line]; exact (leaves c).lastStatus
  · rcases raises.only port n m with m | h
    · rcases (committed_leaves p pass).1.raises.only port n m with m | h
      · rcases (counted_raises p pass).only port n m with m | h | h | h
        · exact m
        · rcases h with h | h <;> rw [k] at h <;> cases h
        · rcases h with h | h <;> rw [k] at h <;> cases h
        · unfold isCounterKind at h; rw [k] at h; cases h
      · unfold isCommitKind at h; rw [k] at h; cases h
    · rcases h with h | h <;> rw [k] at h <;> cases h
  · rw [raises.mask, (committed_leaves p pass).1.raises.mask, (counted_raises p pass).mask]

/-- Both commands that start a timed pass end with its start. -/
theorem timedStart (on : s.powered = true) (i : Instr)
    (h : (i = .oneSecondTick ∧ s.pass = none) ∨ (i = .passEnd ∧ s.pass.isSome = true ∧ s.timedPending = true)) :
    ∃ u : Part, exec i s = .next (s.withPart (u.startPass .timed)) ∧ StartsFrom s.toPart u ∧
      (i = .oneSecondTick → u.station = s.station ∧ u.panel = s.panel ∧
        ∀ c, u.stateOf c = s.stateOf c ∧ (u.car c).planner.weight = (s.car c).planner.weight) := by
  rcases h with ⟨rfl, free⟩ | ⟨rfl, flight, waits⟩
  · have run := execOneSecondTick_eq on
    rw [askPass_timed_free (p := s.toPart.ticked) free] at run
    refine ⟨_, run, startsFrom_ticked s.toPart, fun _ => ⟨rfl, rfl, fun c => ?_⟩⟩
    unfold Part.stateOf
    rw [ticked_car, CarBlock.ticked_eq]
    exact ⟨rfl, rfl⟩
  · obtain ⟨pass, flight⟩ := Option.isSome_iff_exists.mp flight
    have run := execPassEnd_eq on flight
    have pending : (s.toPart.committed pass).select.timedPending = true := by
      rw [(keepsRest_select _).timedPending, (committed_leaves s.toPart pass).1.rest.timedPending]
      exact (counted_spec s.toPart pass).1.timedPending.trans
        ((resultsJudged_rest s.toPart pass).1.timedPending.trans waits)
    rw [endPass_eq, nextPass_timed pending] at run
    exact ⟨_, run, (startsFrom_committed s.toPart pass).congr rfl rfl rfl rfl, fun e => by cases e⟩

/-- Settles O47. -/
theorem urgencyStepped : Obligations.UrgencyStepped := by
  intro s i on h
  obtain ⟨u, run, from', tick⟩ := timedStart on i h
  have moved := startPass_moved u
  have marks := startPass_alarmMark u
  have below (k : ¬u.Rebases) := startPass_below k
  have above (k : u.Rebases) := startPass_rebased k
  have start : (u.startPass .timed).pass = some ((u.startPass .timed).passOf .timed) := startPass_timed_pass u
  generalize u.startPass .timed = t at *
  have state (c : Car) : t.stateOf c = u.stateOf c := congrArg (·.record.state) (moved c)
  have weight (c : Car) : (t.car c).planner.weight = (u.car c).planner.weight := congrArg (·.planner.weight) (moved c)
  refine ⟨_, run, start, ?_⟩
  intro waiting people alarms stepped rebased
  have stepped_eq (c : Car) : (u.car c).urgencyStepped u.globals = stepped c := by
    show _ = if isTrapped (t.stateOf c) = true ∧ t.stateOf c ≠ RescueState.rescued then (s.car c).planner.urgency +
        min 4095 ((t.car c).planner.weight + peopleOf (s.car c).line.lastStatus s.globals.defaultOcc * s.globals.kOcc +
          alarmsOf (s.car c).line.state (s.car c).line.lastStatus (s.car c).planner.alarmMark * s.globals.kAlarm)
      else (s.car c).planner.urgency
    rw [state, weight]
    unfold CarBlock.urgencyStepped
    rw [from'.globals, from'.urgency, from'.alarmMark, from'.lineState, from'.lastStatus]
    rfl
  have reaches : u.Rebases ↔ ∃ c, 61440 ≤ stepped c := by
    rw [rebases_iff]; simp only [stepped_eq]
  refine ⟨fun e c => ?_, ?_, fun a ha x hx => ?_, fun c => ?_, fun all => ?_, fun some' => ?_⟩
  · exact ⟨(state c).trans ((tick e).2.2 c).1, (weight c).trans ((tick e).2.2 c).2⟩
  · show t.pass.map _ = _
    rw [start]
    show some (((allCars.filter _).map t.figures).map (·.car)) = _
    rw [List.map_map]
    exact congrArg some (List.map_id _)
  · obtain rfl : t.passOf .timed = a := Option.some.inj (start.symm.trans ha)
    obtain ⟨c, -, rfl⟩ := List.mem_map.mp hx
    rfl
  · refine (marks c).trans ((stepUrgency_alarmMark _ _).trans ?_)
    rw [from'.lineState, from'.lastStatus, from'.alarmMark]
    show _ = match (s.car c).line.state, (s.car c).line.lastStatus with
      | .alive, some x => if isTrapped (t.stateOf c) = true ∧ t.stateOf c ≠ RescueState.rescued then some x.alarmCount
          else (s.car c).planner.alarmMark
      | _, _ => (s.car c).planner.alarmMark
    rw [state]
    rfl
  · have not : ¬u.Rebases := fun k => by
      obtain ⟨c, k⟩ := reaches.mp k
      exact absurd (all c) (by omega)
    have ports (port : Port) : t.port port = u.port port := by
      cases port
      · exact (below not 0).2.1
      · exact (below not 0).2.2
    refine ⟨fun c => (below not c).1.trans (stepped_eq c), fun port m => ?_, fun e => ?_⟩
    · have m : rebased ∈ (t.port port).notices := m
      rw [ports] at m
      exact from'.raises port rebased rfl m
    · exact ⟨(below not 0).2.1.trans (tick e).1, (below not 0).2.2.trans (tick e).2.1⟩
  · have k := reaches.mpr some'
    have ports (port : Port) : t.port port = (u.port port).offer rebased := by
      cases port
      · exact (above k 0).2.1
      · exact (above k 0).2.2
    refine ⟨fun c w => ?_, fun c w => ?_, fun port mask => ?_, fun e => ?_⟩
    · have w : isTrapped (t.stateOf c) = true ∧ t.stateOf c ≠ RescueState.rescued := w
      rw [state] at w
      refine (above k c).1.trans ?_
      rw [if_pos w, stepped_eq]
    · have w : ¬(isTrapped (t.stateOf c) = true ∧ t.stateOf c ≠ RescueState.rescued) := w
      rw [state] at w
      refine (above k c).1.trans ?_
      rw [if_neg w]
      exact from'.urgency c
    · show rebased ∈ (t.port port).notices
      rw [ports]
      exact (PortState.mem_offer _ _ _).mpr (.inr ⟨rfl, by rwa [from'.mask]⟩)
    · refine ⟨(above k 0).2.1.trans ?_, (above k 0).2.2.trans ?_⟩
      · rw [(tick e).1]
      · rw [(tick e).2.1]

end Sys2Proof.Machine
end

