-- ==== Sys2Proof/Proofs/PassResults.lean ====
section
/-!
PROOFS. The end of a pass as a whole (R57, R72, R128): the results of the cars, and how each car ends.
-/

namespace Sys2Proof.Machine

variable {s : State} {p q : Part} {b b' : CarBlock} {g : Globals} {c : Car} {pass : Pass} {r : CarPlan}

/-! ## A car that takes its result -/

/-- The blocks of a car in which a pass has written its result, its state not yet moved (R57). -/
def CarBlock.resultWritten (b : CarBlock) (r : CarPlan) : CarBlock :=
  { b with
    planner := { b.planner with plan := r.plan, weight := r.weight, mask := r.mask }
    record := if r.plan.method = some .none then
        { b.record with summary := { b.record.summary with methodUsed := some .none, landing := r.plan.target } }
      else b.record }

/-- The blocks of a car that has taken its result, in the words of the rules (R57, R65, R72). -/
def CarBlock.resultAfter (b : CarBlock) (g : Globals) (r : CarPlan) : CarBlock := match r.plan.method with
  | none => if b.record.state = .held then b.resultWritten r else (b.resultWritten r).moved g .held (some .noMethod)
  | some .none => (b.resultWritten r).releasing g
  | some _ => (b.resultWritten r).moved g .ready none

theorem resultWritten_landing (h : r.plan.method = some .none) : b.resultWritten r = (b.planWritten r).landingTaken r := by
  unfold CarBlock.resultWritten; rw [if_pos h]; rfl

theorem resultWritten_plan (h : r.plan.method ≠ some .none) : b.resultWritten r = b.planWritten r := by
  unfold CarBlock.resultWritten; rw [if_neg h]; rfl

/-- At rest an entry to RELEASING gives nothing back (R60, R65). -/
theorem releasingFrom_atRest (h : isMoveState b.record.state = false) (k : b.record.state ≠ .releasing)
    (f : b.record.state ≠ .failed) : b.releasingFrom g = b.releasing g := by
  unfold CarBlock.releasingFrom CarBlock.releasing CarBlock.released CarBlock.releasedFrom
  rw [failedFrom_eq h f,
    stated_eq_moved (new := .held) h (some .position) rfl fun _ => ⟨RescueState.noConfusion, RescueState.noConfusion, RescueState.noConfusion⟩,
    stated_eq_moved (new := .releasing) h none rfl fun e => absurd e.symm k]

theorem planned_states (h : isPlanned b.record = true) : isMoveState b.record.state = false ∧
    b.record.state ≠ .releasing ∧ b.record.state ≠ .failed := by
  rcases (isPlanned_iff _).mp h with h | h | ⟨h, -⟩ <;> rw [h] <;> decide

theorem resultTaken_planned (h : isPlanned b.record = true) (g : Globals) (r : CarPlan) :
    b.resultTaken g r = b.resultAfter g r := by
  obtain ⟨rest, releasing, failed⟩ := planned_states h
  unfold CarBlock.resultTaken CarBlock.resultAfter
  cases method : r.plan.method with
  | none =>
    rw [resultWritten_plan (by rw [method]; exact fun h => by cases h)]
    exact congrArg (fun x => if b.record.state = .held then b.planWritten r else x)
      (stated_eq_moved (b := b.planWritten r) rest (some .noMethod) rfl
        fun _ => ⟨RescueState.noConfusion, RescueState.noConfusion, RescueState.noConfusion⟩)
  | some m =>
    by_cases none' : m = .none
    · subst none'
      rw [resultWritten_landing method]
      exact releasingFrom_atRest (b := (b.planWritten r).landingTaken r) rest releasing failed
    · have moved := stated_eq_moved (g := g) (b := b.planWritten r) (new := .ready) rest none rfl
        fun _ => ⟨RescueState.noConfusion, RescueState.noConfusion, RescueState.noConfusion⟩
      rw [resultWritten_plan (by rw [method]; simpa using none')]
      cases m <;> first | exact absurd rfl none' | exact moved

theorem releasingFrom_planner (b : CarBlock) (g : Globals) : (b.releasingFrom g).planner = b.planner := by
  unfold CarBlock.releasingFrom
  split
  · rfl
  · split <;> rfl

theorem resultTaken_planner (b : CarBlock) (g : Globals) (r : CarPlan) :
    (b.resultTaken g r).planner = (b.planWritten r).planner := by
  unfold CarBlock.resultTaken
  split
  · exact releasingFrom_planner _ _
  · rfl
  · split <;> rfl

theorem resultAfter_planner (h : isPlanned b.record = true) (g : Globals) (r : CarPlan) :
    (b.resultAfter g r).planner = (b.planWritten r).planner := by
  rw [← resultTaken_planned h, resultTaken_planner]

/-- The notices of a car that takes its result, in the words of the rules (R65, R72). -/
def CarBlock.resultRaised (b : CarBlock) (g : Globals) (r : CarPlan) (c : Car) : List Notice := match r.plan.method with
  | none => if b.record.state = .held then [] else [⟨.carHeld, some c⟩]
  | some .none => (b.resultWritten r).releasingNotices g c
  | some _ => []

theorem resultNotices_eq (b : CarBlock) (g : Globals) (r : CarPlan) (c : Car) :
    b.resultNotices g r c = b.resultRaised g r c := by
  rcases plan_cases r.plan with h | h | ⟨m, h, k⟩
  · rw [resultNotices_none h]; unfold CarBlock.resultRaised; simp only [h]
  · rw [resultNotices_landing h, ← resultWritten_landing h]; unfold CarBlock.resultRaised; simp only [h]
  · rw [resultNotices_move h k]
    unfold CarBlock.resultRaised
    cases m <;> first | exact absurd rfl k | simp only [h]

/-- The results of a pass whose snapshot lists no car twice. -/
theorem written_own (nodup : (pass.cars.map (·.car)).Nodup) {x : CarSnapshot} (h : x ∈ p.takers pass) :
    (p.written pass).car x.car = (p.car x.car).resultAfter p.globals (planCar p.config.rules pass x) := by
  have sub : ((p.takers pass).map (·.car)).Nodup := nodup.sublist ((List.filter_sublist).map _)
  rw [← resultTaken_planned (mem_takers.mp h).2]
  exact foldl_own (key := (·.car)) (G := fun y x b => b.resultTaken y.globals (planCar y.rules pass x))
    (fun p x => (writeResult_spec p pass x).1) (fun p x => (writeResult_spec p pass x).2.1) _ p sub x h

/-- The notices of a snapshot's car, from the settings and its blocks. -/
def Pass.notices (pass : Pass) (y : Settings) (x : CarSnapshot) (b : CarBlock) : List Notice :=
  b.resultNotices y.globals (planCar y.rules pass x) x.car

theorem writeResult_offers (p : Part) (pass : Pass) (x : CarSnapshot) :
    Offers (pass.notices p.config x (p.car x.car)) p (p.writeResult pass x) := by
  obtain ⟨-, -, offers⟩ := writeResult_spec p pass x
  exact offers

theorem written_offers (p : Part) (nodup : (pass.cars.map (·.car)).Nodup) :
    Offers ((p.takers pass).flatMap fun x => pass.notices p.config x (p.car x.car)) p (p.written pass) := by
  unfold Part.written
  exact foldl_offers (key := (·.car)) (fun p x => (writeResult_spec p pass x).1) (fun p x => writeResult_offers p pass x) _ p
    (nodup.sublist ((List.filter_sublist).map _))

/-! ## How a car ends -/

/-- Two blocks agree up to the policy, the last escalation rule, the urgency and the alarm mark. -/
def AlikeUpTo (b now : CarBlock) : Prop := now = { b with
  policy := now.policy
  record := { b.record with lastEscalation := now.record.lastEscalation }
  planner := { b.planner with urgency := now.planner.urgency, alarmMark := now.planner.alarmMark } }

theorem AlikeUpTo.of_counts {b'' : CarBlock} (h : CountsOnly b b') (k : UrgencyMoved b' b'') : AlikeUpTo b b'' := by
  unfold CountsOnly UrgencyMoved AlikeUpTo at *
  rw [k, h]

/-- A car that the results leave outside READY ends so, up to its policy and a timed pass's step. -/
theorem endPass_quiet (p : Part) (pass : Pass) (h : (p.written pass).stateOf c ≠ .ready) :
    AlikeUpTo ((p.written pass).car c) ((p.endPass pass).car c) := by
  have counts := countsOnly_committed p pass c
  have judged : (p.resultsJudged pass).car c = (p.written pass).car c := by
    unfold Part.resultsJudged; exact demandJudged_car _ h
  rw [judged] at counts
  have stands : (p.committed pass).select.car c = (p.committed pass).car c :=
    Part.select_car (d := c) _ fun e => h ((congrArg (·.record.state) counts).symm.trans e)
  have moved := (nextPass_leaves (p.committed pass).select).cars c
  rw [stands] at moved
  rw [endPass_eq]
  exact .of_counts counts moved

/-- The planner of a car ends as the results leave it, and a READY car waits on or is granted (R156). -/
theorem endPass_ready (p : Part) (pass : Pass) (c : Car) :
    let before := (p.written pass).car c
    let after := (p.endPass pass).car c
    after.planner.plan = before.planner.plan ∧ after.planner.weight = before.planner.weight ∧
    after.planner.mask = before.planner.mask ∧
    (before.record.state = .ready → after.record.state = .ready ∨
      ∃ m, before.planner.plan.method = some m ∧ moveStateOf m = some after.record.state) := by
  intro before after
  have counts := countsOnly_committed p pass c
  have judged : SelectionLeaves before ((p.resultsJudged pass).car c) := by
    unfold Part.resultsJudged; exact (demandJudged_leaves _ _ c).1
  have selected := (select_leaves (p.committed pass) c).1
  have moved := (nextPass_leaves (p.committed pass).select).cars c
  rw [← endPass_eq] at moved
  change UrgencyMoved _ after at moved
  clear_value before after
  have planner : ((p.committed pass).select.car c).planner = before.planner :=
    selected.planner.trans ((congrArg (·.planner) counts).trans judged.planner)
  have state : after.record.state = ((p.committed pass).select.car c).record.state := congrArg (·.record.state) moved
  have sameState : ((p.committed pass).car c).record.state = ((p.resultsJudged pass).car c).record.state :=
    congrArg (·.record.state) counts
  have samePlanner : ((p.committed pass).car c).planner = before.planner := (congrArg (·.planner) counts).trans judged.planner
  refine ⟨?_, ?_, ?_, fun ready => ?_⟩
  · exact (congrArg (·.planner.plan) moved).trans (congrArg (·.plan) planner)
  · exact (congrArg (·.planner.weight) moved).trans (congrArg (·.weight) planner)
  · exact (congrArg (·.planner.mask) moved).trans (congrArg (·.mask) planner)
  · rw [state]
    rcases selected.state with same | granted
    · rw [same, sameState]
      exact judged.state.imp_left fun e => e.trans ready
    · rw [samePlanner] at granted
      exact .inr granted

/-! ## What stands beside the cars -/

theorem committed_rest (p : Part) (pass : Pass) :
    KeepsRest { p.resultsJudged pass with
      config := { p.config with rules := (p.committed pass).config.rules }, store := (p.committed pass).store, commits := [] }
      (p.committed pass) ∧ KeepsPlans (p.resultsJudged pass) (p.committed pass) := by
  obtain ⟨leaves, emptied⟩ := committed_leaves p pass
  obtain ⟨counted, plans, -⟩ := counted_spec p pass
  have config : (p.counted pass).config = p.config := counted.config.trans (resultsJudged_rest p pass).1.config
  refine ⟨?_, plans.trans leaves.plans⟩
  have rest := leaves.rest
  rw [config, emptied] at rest
  generalize p.resultsJudged pass = judged at counted
  generalize p.committed pass = done at rest
  obtain ⟨h1, h2, h3, h4, h5, h6, h7, h8, h9, h10, h11, h12, h13⟩ := counted
  obtain ⟨k1, k2, k3, k4, k5, k6, k7, k8, k9, k10, k11, k12, k13⟩ := rest
  dsimp only at h1 h2 h4 h5 h6 h8 h9 h10 h11 h12 h13 k1 k2 k4 k5 k6 k7 k8 k9 k10 k11 k12 k13
  refine ⟨k1.trans h1, k2, rfl, k4.trans h4, k5.trans h5, k6.trans h6, k7, k8.trans h8, k9.trans h9,
    k10.trans h10, k11.trans h11, ?_, ?_⟩
  · dsimp only; rw [k12, h12]
  · dsimp only; rw [k13, h13]

/-- The pending flags stand up to the start of the waiting pass (R128). -/
theorem select_pending (p : Part) (pass : Pass) : (p.committed pass).select.timedPending = p.timedPending ∧
    (p.committed pass).select.requestPending = p.requestPending := by
  obtain ⟨rest, plans⟩ := committed_rest p pass
  obtain ⟨judged, -, request⟩ := resultsJudged_rest p pass
  exact ⟨(keepsRest_select _).timedPending.trans (rest.timedPending.trans judged.timedPending),
    (keepsPlans_select _).requestPending.trans (plans.requestPending.trans request)⟩

/-- The waiting pass, a timed one before a requested one (R128 step 4). -/
theorem nextPass_pass (p : Part) : p.nextPass.pass = (if p.timedPending then some (p.nextPass.passOf .timed)
      else if p.requestPending then some (p.nextPass.passOf .requested) else none) ∧
    p.nextPass.timedPending = false ∧ p.nextPass.requestPending = false ∧
    (p.timedPending = false →
      p.nextPass = { p with pass := p.nextPass.pass, timedPending := false, requestPending := false }) := by
  cases timed : p.timedPending with
  | true =>
    obtain ⟨rest, plans⟩ := stepUrgency_rest ({ p with pass := none, timedPending := false, requestPending := false } : Part)
    rw [nextPass_timed timed]
    exact ⟨rfl, rest.timedPending, plans.requestPending, fun h => by cases h⟩
  | false =>
    cases requested : p.requestPending with
    | true =>
      rw [nextPass_requested timed requested]
      obtain ⟨⟩ := p
      cases timed; cases requested
      exact ⟨rfl, rfl, rfl, fun _ => rfl⟩
    | false =>
      rw [nextPass_none timed requested]
      obtain ⟨⟩ := p
      cases timed; cases requested
      exact ⟨rfl, rfl, rfl, fun _ => rfl⟩

/-- Settles O49, stage by stage. -/
theorem passResults : Obligations.PassResults := by
  intro s pass on flight nodup planned result taken after raised alike
  let p := s.toPart
  have takes (x : CarSnapshot) : x ∈ p.takers pass ↔ x ∈ pass.cars ∧ planned x.car :=
    mem_takers.trans (and_congr Iff.rfl (isPlanned_iff _))
  have own (x : CarSnapshot) (hx : x ∈ pass.cars) (h : planned x.car) : (p.written pass).car x.car = after x :=
    written_own nodup ((takes x).mpr ⟨hx, h⟩)
  have noTaker {c : Car} (h : ¬(planned c ∧ ∃ x ∈ pass.cars, x.car = c)) : ¬∃ x ∈ p.takers pass, x.car = c := by
    rintro ⟨x, hx, rfl⟩
    obtain ⟨mem, is⟩ := (takes x).mp hx
    exact h ⟨is, x, mem, rfl⟩
  obtain ⟨rest, plans⟩ := written_rest p pass
  obtain ⟨committedRest, committedPlans⟩ := committed_rest p pass
  obtain ⟨emptied, sameConfig, sameStore⟩ := endPass_stored p pass
  obtain ⟨timedPending, requestPending⟩ := select_pending p pass
  obtain ⟨nextIs, noTimed, noRequest, onlyPass⟩ := nextPass_pass (p.committed pass).select
  have supply := endPass_supply p pass
  have demand := endPass_demand p pass
  have quiet (c : Car) := endPass_quiet (c := c) p pass
  have ready (c : Car) := endPass_ready p pass c
  have rules := (committed_own p pass).2.1
  have ended := endPass_eq p pass
  have run := execPassEnd_eq on flight
  rw [timedPending, requestPending] at nextIs
  rw [timedPending] at onlyPass
  rw [← ended] at nextIs noTimed noRequest onlyPass
  rw [← sameConfig, ← sameStore] at committedRest
  change execPassEnd s = .next (s.withPart (p.endPass pass)) at run
  generalize p.endPass pass = t at *
  refine ⟨s.withPart t, p.written pass, p.resultsJudged pass, p.committed pass, run, rest, plans, own,
    fun c h => written_stands (noTaker h), fun port n => ?_, by unfold Part.resultsJudged; rfl, committedRest, committedPlans,
    fun c => countsOnly_committed p pass c, by rw [ended], ?_, emptied, fun k => ?_, nextIs, fun h => ?_, noTimed, noRequest,
    fun x hx h => ⟨fun other => ?_, fun is => ?_⟩, fun c h => ?_⟩
  · refine (written_offers p nodup port n).trans (or_congr Iff.rfl ?_)
    rw [List.mem_flatMap]
    have notices (x : CarSnapshot) : pass.notices p.config x (p.car x.car) = raised x := resultNotices_eq _ _ _ _
    constructor
    · rintro ⟨⟨x, hx, is⟩, mask⟩
      obtain ⟨mem, h⟩ := (takes x).mp hx
      exact ⟨x, mem, h, notices x ▸ is, mask⟩
    · rintro ⟨x, mem, h, is, mask⟩
      exact ⟨⟨x, (takes x).mpr ⟨mem, h⟩, (notices x).symm ▸ is⟩, mask⟩
  · show t.supply = _
    rw [supply, ← demand]
    rfl
  · show t.config.rules[k] = _
    rw [sameConfig]
    exact rules k
  · exact congrArg s.withPart (onlyPass h)
  · have ends := quiet x.car fun e => other ((congrArg (·.record.state) (own x hx h)).symm.trans e)
    rw [own x hx h] at ends
    exact ends
  · obtain ⟨plan, weight, mask, state⟩ := ready x.car
    have planner : (after x).planner = ((s.car x.car).planWritten (result x)).planner :=
      resultAfter_planner ((isPlanned_iff _).mpr h) s.globals (result x)
    rw [own x hx h] at plan weight mask state
    rw [planner] at plan weight mask state
    exact ⟨plan, weight, mask, state is⟩
  · obtain ⟨plan, weight, mask, -⟩ := ready c
    have stands := written_stands (noTaker h)
    have ends := quiet c
    unfold Part.stateOf at ends
    rw [stands] at plan weight mask ends
    exact ⟨plan, weight, mask, ends⟩

end Sys2Proof.Machine
end

