-- ==== Sys2Proof/Proofs/SupplyLosses.lean ====
section
/-!
PROOFS. Turns of the cars, one after the other: a car that is not READY is as its own turn leaves it. The loss of the supply
(R77, R151), which gives each car in flight its turn.
-/

namespace Sys2Proof.Machine

variable {p q r : Part} {c d : Car} {l : List Notice} {f : Part → Car → Part}

/-! ## Turns one after the other -/

theorem inTurn_foldl {turn : Car → Part → Part → Prop} (h : ∀ p c, turn c p (f p c)) :
    ∀ (cars : List Car) (p : Part), InTurn turn cars p (cars.foldl f p)
  | [], _ => rfl
  | c :: rest, p => ⟨f p c, h p c, inTurn_foldl h rest (f p c)⟩

section Turns

variable (stands : ∀ p c d, d ≠ c → p.stateOf d ≠ .ready → (f p c).car d = p.car d)
include stands

/-- A car that is not READY stands through the turns of the others. -/
theorem foldl_other : ∀ (cars : List Car) (p : Part), d ∉ cars → p.stateOf d ≠ .ready → (cars.foldl f p).car d = p.car d
  | [], _, _, _ => rfl
  | c :: rest, p, fresh, ready => by
    rw [List.mem_cons, not_or] at fresh
    have first := stands p c d fresh.1 ready
    exact (foldl_other rest (f p c) fresh.2 (by unfold Part.stateOf; rw [first]; exact ready)).trans first

/-- A car that is not READY is as its own turn leaves it (R155). -/
theorem foldl_turn (leaves : ∀ p, p.stateOf c ≠ .ready → (f p c).stateOf c ≠ .ready) :
    ∀ (cars : List Car) (p : Part), cars.Nodup → c ∈ cars → p.stateOf c ≠ .ready →
      ∃ before, before.car c = p.car c ∧ (cars.foldl f p).car c = (f before c).car c ∧
        ∃ early : List Car, before = early.foldl f p ∧ c ∉ early
  | [], _, _, mem, _ => absurd mem List.not_mem_nil
  | d :: rest, p, nodup, mem, ready => by
    rw [List.nodup_cons] at nodup
    by_cases hd : c = d
    · subst hd
      exact ⟨p, rfl, foldl_other stands rest (f p c) nodup.1 (leaves p ready), [], rfl, List.not_mem_nil⟩
    · have first := stands p d c hd ready
      obtain ⟨before, same, own, early, is, fresh⟩ := foldl_turn leaves rest (f p d) nodup.2
        ((List.mem_cons.mp mem).resolve_left hd) (by unfold Part.stateOf; rw [first]; exact ready)
      refine ⟨before, same.trans first, own, d :: early, is, ?_⟩
      rw [List.mem_cons, not_or]
      exact ⟨hd, fresh⟩

end Turns

/-! ## The notices of a turn -/

theorem noticesGrow_select (p : Part) : NoticesGrow p p.select := by
  unfold Part.select; split
  · exact noticesGrow_foldl _ p
  · exact fun _ _ h => h

theorem noticesGrow_handedOn (p : Part) (c : Car) (b : CarBlock) : NoticesGrow p (p.handedOn c b) := by
  have same : NoticesGrow p (p.modCar c fun _ => b) := fun port n h => by cases port <;> exact h
  unfold Part.handedOn
  dsimp only
  split
  · exact fun port n h => noticesGrow_select _ port n (same port n h)
  · exact same

theorem CarTurn.grow (t : CarTurn c l p q) : NoticesGrow p q :=
  fun port n h => (t.notices port n).mpr (.inl (noticesGrow_handedOn _ _ _ port n h))

/-! ## The loss of the supply at one car -/

/-- The blocks of a car whose move is cancelled for the loss of the supply (R77). -/
def CarBlock.supplyCut (b : CarBlock) : CarBlock :=
  { b.cancelled with record := { b.cancelled.record with lastAbort := some .supplyLost } }

theorem change_setAbort (p : Part) (c : Car) (cause : AbortCause) :
    (p.change c fun p => (p.setAbort c cause).toAssessing c) = (p.setAbort c cause).change c (·.toAssessing c) := by
  have state : (p.setAbort c cause).stateOf c = p.stateOf c := by simp [Part.setAbort, Part.stateOf]
  have leaving : (p.setAbort c cause).leaving c = (p.leaving c).setAbort c cause := by
    unfold Part.leaving
    rw [state]
    unfold Part.setAbort Part.closeBrake Part.modRecord Part.modBrake
    split
    · rw [Part.modCar_modCar, Part.modCar_modCar]
    · rfl
  rw [Part.change_eq, Part.change_eq, state, leaving]

theorem loseSupply_eq (p : Part) (c : Car) : p.loseSupply c = (p.modCar c (·.supplyCut)).change c (·.toAssessing c) := by
  have cut : (p.modCar c (·.cancelled)).setAbort c .supplyLost = p.modCar c (·.supplyCut) := by
    unfold Part.setAbort Part.modRecord
    rw [Part.modCar_modCar]
    rfl
  unfold Part.loseSupply
  rw [cancelIfDriving_eq, change_setAbort, cut]

theorem supplyCut_assessed (b : CarBlock) : b.supplyCut.assessedState = b.assessedState := rfl

theorem loseSupply_turn (p : Part) (c : Car) : SupplyLostBy c p (p.loseSupply c) := by
  rw [loseSupply_eq]
  obtain ⟨turn, own, pass⟩ := carTurn_toAssessing (p := p.modCar c (·.supplyCut))
    (prelude_modCar (p := p) (c := c) (f := (·.supplyCut)) rfl)
  rw [Part.modCar_car, if_pos rfl] at turn own pass
  exact ⟨own, turn, pass⟩

theorem loseSupply_stands (p : Part) (c d : Car) (hd : d ≠ c) (ready : p.stateOf d ≠ .ready) :
    (p.loseSupply c).car d = p.car d := (loseSupply_turn p c).2.1.cars.stands hd ready

theorem assessed_state (b : CarBlock) (g : Globals) : (b.assessed g).record.state = b.assessedState.1 := rfl

theorem loseSupply_state (p : Part) (c : Car) : (p.loseSupply c).stateOf c ≠ .ready := by
  unfold Part.stateOf
  rw [(loseSupply_turn p c).1, assessed_state]
  exact (CarBlock.assessedState_rest _).2.1

/-! ## The loss of the supply at the cars in flight -/

theorem inFlight_eq (p : Part) : p.inFlight = p.flying := rfl

theorem mem_flying {p : Part} {c : Car} (h : c ∈ p.flying) : p.stateOf c ≠ .ready := by
  intro ready
  have := (List.mem_filter.mp h).2
  rw [ready] at this
  exact absurd this (by decide)

theorem nodup_flying (p : Part) : p.flying.Nodup := (List.nodup_finRange 8).filter _

/-- What the loss of the supply leaves, whatever cars it reaches. -/
theorem supplyLost_keeps (p : Part) (cars : List Car) :
    KeepsRest p (p.supplyLost cars) ∧ (p.supplyLost cars).supply = p.supply ∧ NoticesGrow p (p.supplyLost cars) :=
  foldl_keeps (R := fun p q => KeepsRest p q ∧ q.supply = p.supply ∧ NoticesGrow p q)
    (fun p => ⟨.refl p, rfl, fun _ _ h => h⟩)
    (fun h k => ⟨h.1.trans k.1, k.2.1.trans h.2.1, fun port n w => k.2.2 port n (h.2.2 port n w)⟩) _
    (fun p c => ⟨(loseSupply_turn p c).2.1.rest, (loseSupply_turn p c).2.1.supply, (loseSupply_turn p c).2.1.grow⟩) cars p

/-- A pass has been asked for, whenever its snapshot was taken. -/
def PassRequested (p q : Part) : Prop :=
  if p.pass.isSome then q.pass = p.pass ∧ q.requestPending = true else (q.pass.map (·.kind)) = some .requested

theorem PassAsked.requested (h : PassAsked p q) : PassRequested p q := by
  unfold PassAsked at h
  unfold PassRequested
  split
  · next some' => rwa [if_pos some'] at h
  · next none' => rw [if_neg none'] at h; rw [h.1]; rfl

theorem PassRequested.of_kept (h : PassKept p q) (k : PassRequested q r) : PassRequested p r := by
  unfold PassRequested at *
  rw [h.1] at k
  exact k

theorem PassRequested.kept (h : PassRequested p q) (k : PassKept q r) : PassRequested p r := by
  unfold PassRequested at *
  rw [k.1, k.2]
  exact h

theorem PassRequested.again (h : PassRequested p q) (k : PassRequested q r) : PassRequested p r := by
  unfold PassRequested at *
  split
  · next some' =>
    rw [if_pos some'] at h
    rw [h.1, if_pos some'] at k
    exact k
  · next none' =>
    rw [if_neg none'] at h
    have flight : q.pass.isSome = true := by
      cases e : q.pass with
      | none => rw [e] at h; cases h
      | some _ => rfl
    rw [if_pos flight] at k
    rw [k.1]
    exact h

theorem supplyLost_pass : ∀ (cars : List Car) (p : Part), cars.Nodup → (∀ c ∈ cars, p.stateOf c ≠ .ready) →
    ((∀ c ∈ cars, (p.car c).assessedState.1 = .held) → PassKept p (p.supplyLost cars)) ∧
    ((∃ c ∈ cars, (p.car c).assessedState.1 ≠ .held) → PassRequested p (p.supplyLost cars))
  | [], p, _, _ => ⟨fun _ => ⟨rfl, rfl⟩, fun ⟨c, hc, _⟩ => absurd hc List.not_mem_nil⟩
  | x :: rest, p, nodup, ready => by
    rw [List.nodup_cons] at nodup
    have same (c : Car) (hc : c ∈ rest) : (p.loseSupply x).car c = p.car c :=
      loseSupply_stands p x c (fun e => nodup.1 (e ▸ hc)) (ready c (List.mem_cons_of_mem _ hc))
    obtain ⟨kept, asked⟩ := supplyLost_pass rest (p.loseSupply x) nodup.2 fun c hc => by
      unfold Part.stateOf; rw [same c hc]; exact ready c (List.mem_cons_of_mem _ hc)
    have pass := (loseSupply_turn p x).2.2
    change (if (p.car x).assessedState.1 = .held then PassKept p (p.loseSupply x) else PassAsked p (p.loseSupply x)) at pass
    show ((∀ c ∈ x :: rest, _) → PassKept p ((p.loseSupply x).supplyLost rest)) ∧
      ((∃ c ∈ x :: rest, _) → PassRequested p ((p.loseSupply x).supplyLost rest))
    refine ⟨fun held => ?_, fun ⟨c, hc, free⟩ => ?_⟩
    · rw [if_pos (held x List.mem_cons_self)] at pass
      have others := kept fun c hc => by rw [same c hc]; exact held c (List.mem_cons_of_mem _ hc)
      exact ⟨others.1.trans pass.1, others.2.trans pass.2⟩
    · by_cases first : (p.car x).assessedState.1 = .held
      · rw [if_pos first] at pass
        have hc : c ∈ rest := (List.mem_cons.mp hc).resolve_left fun e => free (e ▸ first)
        exact .of_kept pass (asked ⟨c, hc, by rw [same c hc]; exact free⟩)
      · rw [if_neg first] at pass
        by_cases all : ∀ c ∈ rest, ((p.loseSupply x).car c).assessedState.1 = .held
        · exact pass.requested.kept (kept all)
        · simp only [not_forall] at all
          obtain ⟨d, hd, free⟩ := all
          exact pass.requested.again (asked ⟨d, hd, free⟩)

/-- The loss of the supply, from a part that has the cars, the pass and the masks of p (R151). -/
theorem supplyTaken {m t : Part} (cars : ∀ c, p.stateOf c ≠ .ready → m.car c = p.car c) (globals : m.globals = p.globals)
    (pass : PassKept p m) (mask : ∀ port, (m.port port).mask = (p.port port).mask)
    (after : ∀ c, (m.supplyLost p.flying).stateOf c ≠ .ready → t.car c = (m.supplyLost p.flying).car c)
    (kept : PassKept (m.supplyLost p.flying) t) (grow : NoticesGrow (m.supplyLost p.flying) t) :
    SupplyTakenFrom p.flying p t := by
  have flying (c : Car) (hc : c ∈ p.flying) : m.car c = p.car c := cars c (mem_flying hc)
  have ready (c : Car) (hc : c ∈ p.flying) : m.stateOf c ≠ .ready := by
    unfold Part.stateOf; rw [flying c hc]; exact mem_flying hc
  have own (c : Car) (hc : c ∈ p.flying) := foldl_turn (f := Part.loseSupply) (c := c) loseSupply_stands
    (fun p _ => loseSupply_state p c) p.flying m (nodup_flying p) hc (ready c hc)
  have rest (early : List Car) := supplyLost_keeps m early
  have passes := supplyLost_pass p.flying m (nodup_flying p) ready
  have held (c : Car) (hc : c ∈ p.flying) : (m.car c).assessedState = (p.car c).assessedState := by rw [flying c hc]
  refine ⟨fun c hc => ?_, fun c hc other => ?_, fun c hc is port bit => ?_, fun all => ?_, fun ⟨c, hc, free⟩ => ?_⟩
  · obtain ⟨before, same, turned, early, is, -⟩ := own c hc
    have lost : (m.supplyLost p.flying).car c = ((p.car c).supplyCut).assessed p.globals := by
      refine turned.trans ?_
      rw [(loseSupply_turn before c).1, same, flying c hc]
      have g : before.globals = p.globals := by
        rw [is]; exact (congrArg (·.globals) (rest early).1.config).trans globals
      rw [g]
      rfl
    refine (after c ?_).trans lost
    unfold Part.stateOf
    rw [lost, assessed_state]
    exact (CarBlock.assessedState_rest _).2.1
  · have stands : (m.supplyLost p.flying).car c = m.car c :=
      foldl_other (f := Part.loseSupply) loseSupply_stands p.flying m hc
        (by unfold Part.stateOf; rw [cars c other]; exact other)
    refine (after c ?_).trans (stands.trans (cars c other))
    unfold Part.stateOf
    rw [stands, cars c other]
    exact other
  · obtain ⟨l, k, split⟩ := List.append_of_mem hc
    refine grow port _ ?_
    unfold Part.supplyLost
    rw [split, List.foldl_append, List.foldl_cons]
    have nodup := nodup_flying p
    rw [split] at nodup
    have fresh : c ∉ l := fun h => (List.disjoint_of_nodup_append nodup) h List.mem_cons_self
    have stands : (m.supplyLost l).car c = p.car c :=
      (foldl_other (f := Part.loseSupply) loseSupply_stands l m fresh (ready c hc)).trans (flying c hc)
    refine (supplyLost_keeps ((m.supplyLost l).loseSupply c) k).2.2 port _ ?_
    refine ((loseSupply_turn (m.supplyLost l) c).2.1.notices port _).mpr (.inr ⟨?_, ?_⟩)
    · unfold CarBlock.assessedNotices
      rw [stands]
      have heldState : ((p.car c).supplyCut).assessedState.1 = .held := is
      exact (if_pos heldState).symm ▸ List.mem_singleton.mpr rfl
    · rw [(rest l).1.mask, mask]; exact bit
  · have k := passes.1 fun c hc => by rw [held c hc]; exact all c hc
    exact ⟨kept.1.trans (k.1.trans pass.1), kept.2.trans (k.2.trans pass.2)⟩
  · exact PassRequested.of_kept pass ((passes.2 ⟨c, hc, by rw [held c hc]; exact free⟩).kept kept)

end Sys2Proof.Machine
end

