-- ==== Sys2Proof/Proofs/ConverterEvents.lean ====
section
/-!
PROOFS. Demand, the bus feed, and the converter's events (R146 to R151, Table 20).
-/

namespace Sys2Proof.Machine

variable {p q : Part} {s : State} {c : Car} {level : Bool}

/-! ## Demand and the bus feed -/

theorem demand_iff (p : Part) : p.demand = true ↔ ∃ c, p.stateOf c = .ready ∨ p.stateOf c = .probing ∨
    p.stateOf c = .lowering ∨ p.stateOf c = .levelling ∨ p.stateOf c = .driving := by
  have state (x : RescueState) : isDemandState x = true ↔
      x = .ready ∨ x = .probing ∨ x = .lowering ∨ x = .levelling ∨ x = .driving := by cases x <;> decide
  unfold Part.demand
  rw [List.any_eq_true]
  simp only [state]
  exact ⟨fun ⟨c, _, h⟩ => ⟨c, h⟩, fun ⟨c, h⟩ => ⟨c, mem_allCars c, h⟩⟩

theorem busFeed_mains (p : Part) : p.busFeed = .mains ↔
    p.powered = true ∧ p.supply.converter = .off ∧ p.mainsInput.accepted = some true := by
  unfold Part.busFeed
  cases p.powered <;> cases p.supply.converter <;> simp [LevelFilter.isOn]

theorem busFeed_converter (p : Part) : p.busFeed = .converter ↔ p.powered = true ∧ p.supply.converter = .on := by
  unfold Part.busFeed
  cases p.powered <;> cases p.supply.converter <;> simp
  split <;> simp

/-! ## The ready level -/

/-- The part once its ready level is accepted. -/
def Part.converterRead (p : Part) (level : Bool) : Part := { p with converterInput := ⟨level, some level, none⟩ }

theorem execConverterReady_eq (on : s.powered = true) (read : s.converterInput.accepted = some false) :
    execConverterReady s =
      .next (s.withPart (settleDemand s.toPart (s.toPart.converterRead true).converterBecomesReady)) :=
  runPart_settled on (acceptLevel_changed (p := s.toPart) (input := .converter) read)

theorem execFirstReady_eq (on : s.powered = true) (unread : s.converterInput.accepted = none) :
    execFirstLevelAcceptance .converter true s =
      .next (s.withPart (settleDemand s.toPart (s.toPart.converterRead true).converterBecomesReady)) :=
  execFirstLevelAcceptance_first (input := .converter) on unread

theorem execFirstNotReady_eq (on : s.powered = true) (unread : s.converterInput.accepted = none) :
    execFirstLevelAcceptance .converter false s = .next (s.withPart (s.toPart.converterRead false)) := by
  rw [execFirstLevelAcceptance_first (input := .converter) on unread]
  exact congrArg (fun p => Host.Outcome.next (s.withPart p)) (settleDemand_same (setFilter_demand s.toPart .converter _))

theorem execConverterNotReady_eq (on : s.powered = true) (read : s.converterInput.accepted = some true) :
    execConverterNotReady s =
      .next (s.withPart (settleDemand s.toPart (s.toPart.converterRead false).converterBecomesNotReady)) :=
  runPart_settled on (acceptLevel_changed (p := s.toPart) (input := .converter) read)

theorem becomesReady_idle (h : p.supply.converter ≠ .waking) :
    settleDemand p (p.converterRead true).converterBecomesReady = p.converterRead true := by
  have idle : (p.converterRead true).converterBecomesReady = p.converterRead true := if_neg h
  rw [idle]
  exact settleDemand_same rfl

/-- The part as a wake ends in ON (R148), before its selection. -/
def Part.woken (p : Part) : Part := (p.converterRead true).modSupply fun x =>
  { x with converter := .on, wakeTimer := none, wakeFailures := 0
           standbyTimer := if p.demand then none else some (p.globals.standbyDwell * 1000) }

theorem becomesReady_woken (h : p.supply.converter = .waking) :
    settleDemand p (p.converterRead true).converterBecomesReady = p.woken.select := by
  have wakes : (p.converterRead true).converterBecomesReady = p.woken.select := if_pos h
  rw [wakes]
  exact settleDemand_same (Part.select_demand _)

theorem becomesNotReady_idle (h : p.supply.converter ≠ .on) :
    settleDemand p (p.converterRead false).converterBecomesNotReady = p.converterRead false := by
  have idle : (p.converterRead false).converterBecomesNotReady = p.converterRead false := if_neg h
  rw [idle]
  exact settleDemand_same rfl

/-- The part as a run ends in FAULT (R149), before the moves in flight lose their supply. -/
def Part.faulted (p : Part) : Part := (p.converterRead false).converterFault

theorem becomesNotReady_faulted (h : p.supply.converter = .on) :
    settleDemand p (p.converterRead false).converterBecomesNotReady = p.faulted.supplyLost p.flying := by
  have faults : (p.converterRead false).converterBecomesNotReady = p.faulted.supplyLost p.flying := if_pos h
  have converter : (p.faulted.supplyLost p.flying).supply.converter = .fault := by
    rw [(supplyLost_keeps _ _).2.1]; rfl
  rw [faults]
  exact settleDemand_quiet (by rw [converter]; decide) (by rw [converter]; decide)

theorem offer_mem (x : PortState) (n : Notice) (h : maskHolds x.mask n.kind = true) : n ∈ (x.offer n).notices :=
  (x.mem_offer n n).mpr (.inr ⟨rfl, h⟩)

theorem supplyTaken_faulted (p : Part) : SupplyTakenFrom p.flying p (p.faulted.supplyLost p.flying) := by
  refine supplyTaken (m := p.faulted) (fun _ _ => rfl) rfl ⟨rfl, rfl⟩ (fun port => ?_) (fun _ _ => rfl) ⟨rfl, rfl⟩
    fun _ _ h => h
  have offered (x : PortState) : (x.offer ⟨.supplyFault, none⟩).mask = x.mask := by rw [PortState.offer_rest]
  cases port <;> exact offered _

theorem execConverterNotReady_faults (on : s.powered = true) (read : s.converterInput.accepted = some true)
    (h : s.supply.converter = .on) :
    ∃ t, execConverterNotReady s = .next t ∧ KeepsRest (s.toPart.converterRead false) t.toPart ∧
      t.supply = s.toPart.faulted.supply ∧ SupplyTakenFrom s.flying s.toPart t.toPart ∧
      InTurn SupplyLostBy s.flying s.toPart.faulted t.toPart ∧
      (maskHolds s.station.mask .supplyFault = true → (⟨.supplyFault, none⟩ : Notice) ∈ t.station.notices) ∧
      (maskHolds s.panel.mask .supplyFault = true → (⟨.supplyFault, none⟩ : Notice) ∈ t.panel.notices) := by
  obtain ⟨rest, supply, grow⟩ := supplyLost_keeps s.toPart.faulted s.flying
  have first : KeepsRest (s.toPart.converterRead false) s.toPart.faulted :=
    (keepsRest_modSupply _ _).trans (keepsRest_raise _ _)
  refine ⟨_, (execConverterNotReady_eq on read).trans (by rw [becomesNotReady_faulted h]), first.trans rest, supply,
    supplyTaken_faulted s.toPart, inTurn_foldl loseSupply_turn _ _, fun bit => ?_, fun bit => ?_⟩
  · exact grow .station _ (offer_mem _ _ bit)
  · exact grow .panel _ (offer_mem _ _ bit)

/-! ## The wake timer and the dwell -/

theorem execWakeTimeout_idle (on : s.powered = true) (h : s.supply.converter ≠ .waking ∨ s.supply.wakeTimer = none) :
    execWakeTimeout s = .next s := by
  refine runPart_idle on (if_neg ?_)
  rintro ⟨waking, runs⟩
  rcases h with h | h
  · exact h waking
  · rw [h] at runs; cases runs

/-- The part once a wake's failure is counted (R148). -/
def Part.wakeFailed (p : Part) : Part := p.modSupply fun x =>
  { x with wakeErrors := min 255 (x.wakeErrors + 1), wakeFailures := min 3 (x.wakeFailures + 1), wakeTimer := none }

theorem wakeExpires_eq (h : p.supply.converter = .waking) (runs : p.supply.wakeTimer.isSome = true) : p.wakeExpires =
    if p.wakeFailed.supply.wakeFailures = 3 then p.wakeFailed.converterFault else p.wakeFailed.converterStandby :=
  if_pos ⟨h, runs⟩

theorem execWakeTimeout_faults (on : s.powered = true) (h : s.supply.converter = .waking)
    (runs : s.supply.wakeTimer.isSome = true) (third : 2 ≤ s.supply.wakeFailures) :
    execWakeTimeout s = .next (s.withPart s.toPart.wakeFailed.converterFault) := by
  have full : s.toPart.wakeFailed.supply.wakeFailures = 3 := by
    show min 3 (s.supply.wakeFailures + 1) = 3; omega
  refine (runPart_settled on ((wakeExpires_eq h runs).trans (if_pos full))).trans ?_
  rw [settleDemand_quiet]
  · exact fun e => ConverterState.noConfusion e
  · exact fun e => ConverterState.noConfusion e

theorem execWakeTimeout_retries (on : s.powered = true) (h : s.supply.converter = .waking)
    (runs : s.supply.wakeTimer.isSome = true) (early : s.supply.wakeFailures < 2) :
    execWakeTimeout s = .next (s.withPart s.toPart.wakeFailed.converterStandby) := by
  have more : s.toPart.wakeFailed.supply.wakeFailures ≠ 3 := by
    show min 3 (s.supply.wakeFailures + 1) ≠ 3; omega
  refine (runPart_settled on ((wakeExpires_eq h runs).trans (if_neg more))).trans ?_
  have demand : s.toPart.wakeFailed.converterStandby.demand = s.toPart.demand := converterStandby_demand _
  rw [settleDemand_same demand]

theorem execStandbyDwellExpiry_idle (on : s.powered = true) (h : s.supply.converter ≠ .on ∨ s.supply.standbyTimer = none) :
    execStandbyDwellExpiry s = .next s := by
  refine runPart_idle on (if_neg ?_)
  rintro ⟨runs, timer⟩
  rcases h with h | h
  · exact h runs
  · rw [h] at timer; cases timer

theorem execStandbyDwellExpiry_ends (on : s.powered = true) (h : s.supply.converter = .on)
    (runs : s.supply.standbyTimer.isSome = true) :
    execStandbyDwellExpiry s = .next (s.withPart s.toPart.converterStandby) := by
  refine (runPart_settled on (if_pos ⟨h, runs⟩)).trans ?_
  rw [settleDemand_same (converterStandby_demand _)]

/-- Settles O54. -/
theorem converterEvents : Obligations.ConverterEvents := by
  refine ⟨fun p => ⟨demand_iff p, busFeed_mains p, busFeed_converter p⟩, fun s on => ?_⟩
  intro x read
  refine ⟨fun unread => execFirstNotReady_eq on unread, ?_⟩
  intro fault
  refine ⟨fun i hi => ?_, fun accepted => ⟨fun idle => ?_, fun running => ?_⟩, fun idle => execWakeTimeout_idle on idle,
    fun waking runs => ?_, fun idle => execStandbyDwellExpiry_idle on idle, fun running runs => ⟨?_, fun none => ?_⟩⟩
  · have run : exec i s =
        .next (s.withPart (settleDemand s.toPart (s.toPart.converterRead true).converterBecomesReady)) := by
      rcases hi with ⟨rfl, accepted⟩ | ⟨rfl, unread⟩
      · exact execConverterReady_eq on accepted
      · exact execFirstReady_eq on unread
    refine ⟨fun idle => run.trans (by rw [becomesReady_idle idle]; rfl), fun waking => ?_⟩
    intro woken
    rw [becomesReady_woken waking] at run
    have rest : KeepsRest (read true) s.toPart.woken := keepsRest_modSupply _ _
    obtain ⟨pass, request, supply⟩ := keepsPlans_select s.toPart.woken
    exact ⟨_, run, rfl, rest.trans (keepsRest_select _), ⟨pass, request⟩, supply,
      fun c other => Part.select_car (d := c) s.toPart.woken other⟩
  · exact (execConverterNotReady_eq on accepted).trans (by rw [becomesNotReady_idle idle]; rfl)
  · exact execConverterNotReady_faults on accepted running
  · intro errors failures
    refine ⟨fun third => execWakeTimeout_faults on waking runs third, fun early none => ?_,
      fun early demand waits => ?_, fun early demand ready => ?_⟩
    · exact (execWakeTimeout_retries on waking runs early).trans (by rw [converterStandby_idle (p := s.toPart.wakeFailed) none]; rfl)
    · exact (execWakeTimeout_retries on waking runs early).trans
        (by rw [converterStandby_waits (p := s.toPart.wakeFailed) demand waits]; rfl)
    · exact (execWakeTimeout_retries on waking runs early).trans
        (by rw [converterStandby_ready (p := s.toPart.wakeFailed) demand ready]; rfl)
  · exact (execStandbyDwellExpiry_ends on running runs).trans (by rw [converterStandby_eq])
  · exact (execStandbyDwellExpiry_ends on running runs).trans (by rw [converterStandby_idle none]; rfl)

end Sys2Proof.Machine
end

