-- ==== Sys2Proof/Proofs/MainsBelief.lean ====
section
/-!
PROOFS. The mains level and its belief (R142, R147, R151): present starts the stable timer, absent is believed at once, and the
timer's expiry believes the mains present.
-/

namespace Sys2Proof.Machine

variable {p q : Part} {s : State} {c : Car} {level : Bool}

/-! ## The stages -/

/-- The part once its mains level is accepted. -/
def Part.mainsRead (p : Part) (level : Bool) : Part := { p with mainsInput := ⟨level, some level, none⟩ }

/-- The part once the absent mains has stopped the stable timer (R142). -/
def Part.mainsStopped (p : Part) : Part := (p.mainsRead false).modSupply fun x => { x with stableTimer := none }

/-- The part once the mains is believed ABSENT (R147), its converter not yet moved. -/
def Part.absentBelieved (p : Part) : Part := p.mainsStopped.modSupply fun x => { x with belief := .absent }

/-- The part once the converter has left OFF (R147). -/
def Part.absentMoved (p : Part) : Part :=
  if p.supply.converter = .off then p.absentBelieved.standbyEntered else p.absentBelieved

/-- The part once the mains is believed PRESENT (R147), before the cars and the selection. -/
def Part.presentBelieved (p : Part) : Part := p.modSupply fun x =>
  { x with
    belief := .present, stableTimer := none, converter := .off, enable := false, wakeTimer := none
    standbyTimer := none, wakeFailures := 0 }

theorem mainsAccepted_present (p : Part) : settleDemand p ((p.mainsRead true).mainsAccepted true) =
    (p.mainsRead true).modSupply fun x => { x with stableTimer := some (p.globals.mainsStable * 1000) } :=
  settleDemand_same rfl

theorem mainsStopped_demand (p : Part) : p.mainsStopped.demand = p.demand := rfl

theorem mainsAccepted_absent (p : Part) : (p.mainsRead false).mainsAccepted false = p.mainsStopped.believeAbsent := rfl

theorem believeAbsent_already (h : p.supply.belief = .absent) : p.mainsStopped.believeAbsent = p.mainsStopped := if_pos h

theorem believeAbsent_moves (h : p.supply.belief ≠ .absent) : p.mainsStopped.believeAbsent =
    if p.supply.belief = .present then p.absentMoved.supplyLost p.flying else p.absentMoved := by
  have converted : (if p.absentBelieved.supply.converter = .off then p.absentBelieved.converterStandby else p.absentBelieved) =
      p.absentMoved := by
    rw [converterStandby_eq]; rfl
  have moves : p.mainsStopped.believeAbsent = if p.supply.belief = .present then
      (if p.absentBelieved.supply.converter = .off then p.absentBelieved.converterStandby else p.absentBelieved).supplyLost
        p.flying
      else if p.absentBelieved.supply.converter = .off then p.absentBelieved.converterStandby else p.absentBelieved :=
    if_neg h
  rw [moves, converted]

/-! ## What the stages leave -/

/-- The judging of demand moves the converter and its timers alone (R146). -/
structure SupplyLeaves (x y : Supply) : Prop where
  belief : y.belief = x.belief
  stableTimer : y.stableTimer = x.stableTimer
  sample : y.sample = x.sample
  usable : y.usable = x.usable
  wakeFailures : y.wakeFailures ≤ x.wakeFailures

theorem SupplyLeaves.refl (x : Supply) : SupplyLeaves x x := ⟨rfl, rfl, rfl, rfl, le_rfl⟩

theorem SupplyLeaves.trans {x y z : Supply} (h : SupplyLeaves x y) (k : SupplyLeaves y z) : SupplyLeaves x z :=
  ⟨k.belief.trans h.belief, k.stableTimer.trans h.stableTimer, k.sample.trans h.sample, k.usable.trans h.usable,
    k.wakeFailures.trans h.wakeFailures⟩

theorem supplyJudged_leaves (p : Part) (had has : Bool) : SupplyLeaves p.supply (p.supplyJudged had has) := by
  unfold Part.supplyJudged
  dsimp only
  split
  · split
    · exact ⟨rfl, rfl, rfl, rfl, Nat.zero_le _⟩
    · exact ⟨rfl, rfl, rfl, rfl, le_rfl⟩
  · exact ⟨rfl, rfl, rfl, rfl, le_rfl⟩
  · exact ⟨rfl, rfl, rfl, rfl, le_rfl⟩
  · exact .refl _

theorem demandJudged_rest (p : Part) (had : Bool) : KeepsRest p (p.demandJudged had) ∧ PassKept p (p.demandJudged had) ∧
    NoticesGrow p (p.demandJudged had) := by
  have first : KeepsRest p { p with supply := p.supplyJudged had p.demand } := ⟨rfl, rfl, rfl, rfl, rfl, rfl, rfl, rfl, rfl, rfl, rfl, rfl, rfl⟩
  unfold Part.demandJudged
  dsimp only
  split
  · obtain ⟨pass, request, -⟩ := keepsPlans_select { p with supply := p.supplyJudged had p.demand }
    exact ⟨first.trans (keepsRest_select _), ⟨pass, request⟩,
      fun port n h => noticesGrow_select _ port n (by cases port <;> exact h)⟩
  · exact ⟨first, ⟨rfl, rfl⟩, fun port n h => by cases port <;> exact h⟩

theorem standbyEntered_eq (p : Part) : p.standbyEntered = (p.modSupply (·.standby)).demandJudged false := rfl

theorem absentBelieved_rest (p : Part) : KeepsRest (p.mainsRead false) p.absentBelieved :=
  (keepsRest_modSupply _ _).trans (keepsRest_modSupply _ _)

theorem absentMoved_rest (p : Part) : KeepsRest (p.mainsRead false) p.absentMoved ∧ PassKept p p.absentMoved ∧
    (∀ c, p.stateOf c ≠ .ready → p.absentMoved.car c = p.car c) ∧
    SupplyLeaves p.absentBelieved.supply p.absentMoved.supply ∧ p.absentMoved.demand = p.demand := by
  unfold Part.absentMoved
  split
  · obtain ⟨rest, pass, -⟩ := demandJudged_rest (p.absentBelieved.modSupply (·.standby)) false
    refine ⟨(absentBelieved_rest p).trans ((keepsRest_modSupply _ _).trans rest), pass,
      fun c ready => demandJudged_car (p := p.absentBelieved.modSupply (·.standby)) false ready, ?_, ?_⟩
    · rw [standbyEntered_eq, Part.demandJudged_supply]
      exact SupplyLeaves.trans (y := p.absentBelieved.supply.standby) ⟨rfl, rfl, rfl, rfl, le_rfl⟩
        (supplyJudged_leaves (p.absentBelieved.modSupply (·.standby)) _ _)
    · rw [← converterStandby_eq]
      exact converterStandby_demand _
  · exact ⟨absentBelieved_rest p, ⟨rfl, rfl⟩, fun _ _ => rfl, .refl _, rfl⟩

/-- The converter after it has left OFF (R147, R148). -/
theorem absentMoved_converter (off : p.supply.converter = .off) :
    (p.demand = false → p.absentMoved.supply.converter = .standby ∧ p.absentMoved.supply.enable = false) ∧
    (p.demand = true →
      (p.converterInput.accepted = some true →
        p.absentMoved.supply.converter = .on ∧ p.absentMoved.supply.enable = true) ∧
      (p.converterInput.accepted ≠ some true →
        p.absentMoved.supply.converter = .waking ∧ p.absentMoved.supply.enable = true ∧
          p.absentMoved.supply.wakeTimer = some p.globals.wakeLimit)) := by
  have moved : p.absentMoved = p.absentBelieved.converterStandby := by
    rw [converterStandby_eq]; exact if_pos off
  rw [moved]
  refine ⟨fun none => ?_, fun demand => ⟨fun ready => ?_, fun waits => ?_⟩⟩
  · rw [converterStandby_idle (p := p.absentBelieved) none]; exact ⟨rfl, rfl⟩
  · rw [converterStandby_ready (p := p.absentBelieved) demand ready, (keepsPlans_select _).supply]; exact ⟨rfl, rfl⟩
  · rw [converterStandby_waits (p := p.absentBelieved) demand waits]; exact ⟨rfl, rfl, rfl⟩

/-- Demand that there was is judged to end at most: the converter and its wake stand (R146, R149). -/
theorem supplyJudged_had (p : Part) (has : Bool) : (p.supplyJudged true has).converter = p.supply.converter ∧
    (p.supplyJudged true has).enable = p.supply.enable ∧ (p.supplyJudged true has).wakeTimer = p.supply.wakeTimer := by
  unfold Part.supplyJudged
  dsimp only
  split
  · next arisen _ => cases arisen
  · exact ⟨rfl, rfl, rfl⟩
  · exact ⟨rfl, rfl, rfl⟩
  · exact ⟨rfl, rfl, rfl⟩

/-! ## The commands -/

theorem execMainsLevelChange_present (on : s.powered = true) (read : s.mainsInput.accepted = some false) :
    execMainsLevelChange true s = .next (s.withPart ((s.toPart.mainsRead true).modSupply fun x =>
      { x with stableTimer := some (s.globals.mainsStable * 1000) })) :=
  (runPart_settled on (acceptLevel_changed (p := s.toPart) (input := .mains) (level := true) read)).trans
    (congrArg (fun p => Host.Outcome.next (s.withPart p)) (mainsAccepted_present s.toPart))

theorem execFirstMains_present (on : s.powered = true) (unread : s.mainsInput.accepted = none) :
    execFirstLevelAcceptance .mains true s = .next (s.withPart ((s.toPart.mainsRead true).modSupply fun x =>
      { x with stableTimer := some (s.globals.mainsStable * 1000) })) :=
  (execFirstLevelAcceptance_first (input := .mains) on unread).trans
    (congrArg (fun p => Host.Outcome.next (s.withPart p)) (mainsAccepted_present s.toPart))

theorem execMainsLevelChange_absent (on : s.powered = true) (read : s.mainsInput.accepted = some true) :
    execMainsLevelChange false s = .next (s.withPart (settleDemand s.toPart s.toPart.mainsStopped.believeAbsent)) :=
  runPart_settled on (acceptLevel_changed (p := s.toPart) (input := .mains) read)

theorem execFirstMains_absent (on : s.powered = true) (unread : s.mainsInput.accepted = none) :
    execFirstLevelAcceptance .mains false s =
      .next (s.withPart (settleDemand s.toPart s.toPart.mainsStopped.believeAbsent)) :=
  execFirstLevelAcceptance_first (input := .mains) on unread

/-- The part once the absent mains is believed and the cars in flight have had their turns (R151, log 19). -/
def Part.absentTaken (p : Part) : Part :=
  if p.supply.belief = .present then p.absentMoved.supplyLost p.flying else p.absentMoved

theorem absentTaken_rest (p : Part) : KeepsRest (p.mainsRead false) p.absentTaken ∧
    p.absentTaken.supply = p.absentMoved.supply := by
  obtain ⟨rest, -⟩ := absentMoved_rest p
  unfold Part.absentTaken
  split
  · obtain ⟨lost, supply, -⟩ := supplyLost_keeps p.absentMoved p.flying
    exact ⟨rest.trans lost, supply⟩
  · exact ⟨rest, rfl⟩

/-- The supply once the absent mains is believed and demand is judged again. -/
theorem absentTaken_supply (p : Part) : (settleDemand p p.absentTaken).supply =
    p.absentMoved.supplyJudged p.demand p.absentTaken.demand := by
  obtain ⟨rest, supply⟩ := absentTaken_rest p
  obtain ⟨moved, -⟩ := absentMoved_rest p
  rw [settleDemand_eq, Part.demandJudged_supply]
  unfold Part.supplyJudged Part.globals
  rw [supply, rest.config, rest.converterInput, moved.config, moved.converterInput]

theorem flying_none (h : p.demand = false) : p.flying = [] := by
  unfold Part.flying
  rw [List.filter_eq_nil_iff]
  intro c _ flies
  have quiet : isDemandState (p.stateOf c) = false := by
    cases e : isDemandState (p.stateOf c) with
    | false => rfl
    | true =>
      have : p.demand = true := List.any_eq_true.mpr ⟨c, mem_allCars c, e⟩
      rw [h] at this; cases this
  cases state : p.stateOf c <;> rw [state] at flies quiet <;> first | exact absurd flies (by decide) | exact absurd quiet (by decide)

/-- Without demand there is nothing in flight, and the judging of demand changes nothing. -/
theorem absentTaken_idle (h : p.demand = false) : settleDemand p p.absentTaken = p.absentMoved := by
  have taken : p.absentTaken = p.absentMoved := by
    unfold Part.absentTaken
    rw [flying_none h]
    split <;> rfl
  rw [taken, settleDemand_same (absentMoved_rest p).2.2.2.2]

theorem absentTaken_from (p : Part) (present : p.supply.belief = .present) :
    SupplyTakenFrom p.flying p (settleDemand p p.absentTaken) := by
  obtain ⟨rest, pass, cars, -, -⟩ := absentMoved_rest p
  have taken : p.absentTaken = p.absentMoved.supplyLost p.flying := if_pos present
  have mask (port : Port) : (p.absentMoved.port port).mask = (p.port port).mask := by
    rw [rest.mask]; cases port <;> rfl
  obtain ⟨-, samePass, sameRequest, stands⟩ := settleDemand_keeps p p.absentTaken
  rw [taken] at *
  refine supplyTaken cars (congrArg (·.globals) rest.config) pass mask stands ⟨samePass, sameRequest⟩ ?_
  rw [settleDemand_eq]
  exact (demandJudged_rest _ _).2.2

theorem execMainsStableExpiry_idle (on : s.powered = true) (h : s.supply.stableTimer = none) :
    execMainsStableExpiry s = .next s :=
  runPart_idle on (if_neg (by rw [h]; decide))

theorem execMainsStableExpiry_already (on : s.powered = true) (runs : s.supply.stableTimer.isSome = true)
    (h : s.supply.belief = .present) :
    execMainsStableExpiry s = .next (s.withPart (s.toPart.modSupply fun x => { x with stableTimer := none })) := by
  refine (runPart_settled on ((if_pos runs).trans (if_pos h))).trans ?_
  rw [settleDemand_same (Part.modSupply_demand _ _)]

/-- The part once the mains is believed PRESENT and the cars in flight have had their turns. -/
def Part.presentTaken (p : Part) : Part :=
  if p.supply.belief = .absent then p.presentBelieved.supplyLost p.flying else p.presentBelieved

theorem presentTaken_supply (p : Part) : p.presentTaken.supply = p.presentBelieved.supply := by
  unfold Part.presentTaken; split
  · exact (supplyLost_keeps _ _).2.1
  · rfl

theorem execMainsStableExpiry_believes (on : s.powered = true) (runs : s.supply.stableTimer.isSome = true)
    (h : s.supply.belief ≠ .present) : execMainsStableExpiry s = .next (s.withPart s.toPart.presentTaken.select) := by
  refine (runPart_settled on (q := s.toPart.presentTaken.select) ((if_pos runs).trans (if_neg h))).trans ?_
  have converter : s.toPart.presentTaken.select.supply.converter = .off := by
    rw [(keepsPlans_select _).supply, presentTaken_supply]; rfl
  rw [settleDemand_quiet (by rw [converter]; decide) (by rw [converter]; decide)]

theorem presentTaken_from (p : Part) (absent : p.supply.belief = .absent) :
    SupplyTakenFrom p.flying p p.presentTaken.select := by
  have taken : p.presentTaken = p.presentBelieved.supplyLost p.flying := if_pos absent
  obtain ⟨pass, request, -⟩ := keepsPlans_select p.presentTaken
  rw [taken] at *
  exact supplyTaken (m := p.presentBelieved) (fun _ _ => rfl) rfl ⟨rfl, rfl⟩ (fun port => by cases port <;> rfl)
    (fun c ready => Part.select_car (d := c) _ ready) ⟨pass, request⟩ (noticesGrow_select _)

/-- Settles O53. -/
theorem mainsBelieved : Obligations.MainsBelieved := by
  intro s on x read
  refine ⟨fun i hi => ?_, fun i hi => ?_, fun idle => execMainsStableExpiry_idle on idle,
    fun runs present => execMainsStableExpiry_already on runs present, fun runs other => ?_⟩
  · rcases hi with ⟨rfl, accepted⟩ | ⟨rfl, unread⟩
    · exact execMainsLevelChange_present on accepted
    · exact execFirstMains_present on unread
  · have run : exec i s = .next (s.withPart (settleDemand s.toPart s.toPart.mainsStopped.believeAbsent)) := by
      rcases hi with ⟨rfl, accepted⟩ | ⟨rfl, unread⟩
      · exact execMainsLevelChange_absent on accepted
      · exact execFirstMains_absent on unread
    intro stopped believed moved
    refine ⟨fun absent => ?_, fun unknown => ?_, fun other => ?_⟩
    · exact run.trans (by rw [believeAbsent_already absent, settleDemand_same (mainsStopped_demand _)]; rfl)
    · have none : s.supply.belief ≠ .present := fun e => by rw [show s.supply.belief = _ from unknown] at e; cases e
      have other : s.supply.belief ≠ .absent := fun e => by rw [show s.supply.belief = _ from unknown] at e; cases e
      refine run.trans ?_
      rw [believeAbsent_moves other, if_neg none,
        settleDemand_same (absentMoved_rest s.toPart).2.2.2.2]
      rfl
    · rw [believeAbsent_moves other] at run
      change exec i s = .next (s.withPart (settleDemand s.toPart s.toPart.absentTaken)) at run
      obtain ⟨rest, -⟩ := absentTaken_rest s.toPart
      obtain ⟨-, -, cars, leaves, -⟩ := absentMoved_rest s.toPart
      have supply := absentTaken_supply s.toPart
      have all := leaves.trans (supplyJudged_leaves s.toPart.absentMoved s.toPart.demand s.toPart.absentTaken.demand)
      rw [← supply] at all
      obtain ⟨belief, stable, sample, usable, failures⟩ := all
      refine ⟨_, run, rest.trans (settleDemand_keeps _ _).1, belief, stable, sample, usable, failures,
        fun present => ⟨absentTaken_from s.toPart present, ?_⟩, fun unknown c ready => ?_, fun off none => ?_,
        fun off demand => ?_⟩
      · refine ⟨moved.supplyLost s.flying, inTurn_foldl loseSupply_turn _ _, ?_⟩
        have taken : s.toPart.absentTaken = moved.supplyLost s.flying := if_pos present
        rw [taken, settleDemand_eq]
      · have taken : s.toPart.absentTaken = s.toPart.absentMoved := if_neg fun e => by
          rw [show s.supply.belief = _ from unknown] at e; cases e
        show (settleDemand s.toPart s.toPart.absentTaken).car c = _
        rw [taken, settleDemand_same (absentMoved_rest s.toPart).2.2.2.2]
        exact cars c ready
      · show (settleDemand s.toPart s.toPart.absentTaken).supply.converter = _ ∧
          (settleDemand s.toPart s.toPart.absentTaken).supply.enable = _
        rw [absentTaken_idle none]
        exact (absentMoved_converter off).1 none
      · obtain ⟨ready, waits⟩ := (absentMoved_converter off).2 demand
        have had := supplyJudged_had s.toPart.absentMoved s.toPart.absentTaken.demand
        rw [← demand, ← supply] at had
        obtain ⟨converter, enable, timer⟩ := had
        exact ⟨fun h => ⟨converter.trans (ready h).1, enable.trans (ready h).2⟩,
          fun h => ⟨converter.trans (waits h).1, enable.trans (waits h).2.1, timer.trans (waits h).2.2⟩⟩
  · intro off
    have run := execMainsStableExpiry_believes on runs other
    have kept : KeepsRest s.toPart s.toPart.presentTaken := by
      unfold Part.presentTaken
      split
      · exact (keepsRest_modSupply _ _).trans (supplyLost_keeps _ _).1
      · exact keepsRest_modSupply _ _
    refine ⟨_, run, kept.trans (keepsRest_select _), (keepsPlans_select _).supply.trans (presentTaken_supply _),
      fun absent => ⟨presentTaken_from s.toPart absent, ?_⟩, fun unknown => ?_⟩
    · refine ⟨off.supplyLost s.flying, inTurn_foldl loseSupply_turn _ _, ?_⟩
      have taken : s.toPart.presentTaken = off.supplyLost s.flying := if_pos absent
      rw [taken]
    · have taken : s.toPart.presentTaken = off := if_neg fun e => by
        rw [show s.supply.belief = _ from unknown] at e; cases e
      rw [taken]
      exact ⟨rfl, fun c ready => Part.select_car (d := c) off ready⟩

end Sys2Proof.Machine
end

