-- ==== Sys2Proof/Proofs/FrameBoundaries.lean ====
section
/-!
PROOFS. The brake frame boundary (R160): what the turn of a car makes of its blocks, by its channel A and its opening (R165 to
R168), and the turns of the cars one after the other.
-/

namespace Sys2Proof.Machine

variable {s : State} {p q : Part} {c : Car} {b : CarBlock} {e : CarEntry} {g : Globals}

/-! ## The blocks of a car within its turn -/

/-- The blocks of a car whose frame has entered the speed window (R43, R160 step 1). -/
def CarBlock.entered (b : CarBlock) (g : Globals) : CarBlock := { b with inputs := b.inputs.closeFrame g.window }

/-- The blocks of a car whose opening has counted its frame (R165, R166). -/
def CarBlock.framed (b : CarBlock) (g : Globals) : CarBlock :=
  { b.entered g with brake := { b.brake with framesOpen := bump 65535 b.brake.framesOpen } }

/-- The speed that is measured over the window (R166). -/
def CarBlock.speed (b : CarBlock) (e : CarEntry) (g : Globals) : Nat :=
  measuredSpeed e g (b.inputs.closeFrame g.window).window.sum (b.inputs.closeFrame g.window).window.length

/-- The blocks of a car whose speed is recorded (R166). -/
def CarBlock.measured (b : CarBlock) (e : CarEntry) (g : Globals) : CarBlock :=
  { b.framed g with brake := { (b.framed g).brake with lastSpeed := some (min 65535 (b.speed e g)) } }

/-- The blocks of a car whose share is regulated (R167). -/
def CarBlock.regulated (b : CarBlock) (e : CarEntry) (g : Globals) : CarBlock :=
  let share := regulatedShare e g (b.speed e g) b.brake.shadowA
  { b.measured e g with brake :=
    if share = b.brake.shadowA then (b.measured e g).brake else (b.measured e g).brake.setShadow e share }

/-- The blocks of a car whose channels an overspeed has locked (R168). -/
def CarBlock.overspedLocked (b : CarBlock) (e : CarEntry) (g : Globals) : CarBlock :=
  { b.measured e g with brake := (b.measured e g).brake.lock }

/-- The blocks of a car whose probe has ended, closed (R165). -/
def CarBlock.probeClosed (b : CarBlock) (g : Globals) : CarBlock := { b.framed g with brake := (b.framed g).brake.close }

/-- The blocks of a car whose probe is weighed (R61). -/
def CarBlock.probeWeighed (b : CarBlock) (e : CarEntry) (g : Globals) : CarBlock :=
  { b.probeClosed g with record := { b.record with
      probeResult := some (probeVerdict g.probeThreshold (countToMm e.ppm b.inputs.move.travel)) } }

/-- Channel A is OPEN and its opening has started. -/
def CarBlock.Runs (b : CarBlock) : Prop := b.brake.channelA = .open ∧ b.brake.started = true

/-- The probe is at its last frame (R165). -/
def CarBlock.AtLastFrame (b : CarBlock) (g : Globals) : Prop := (b.framed g).brake.framesOpen = g.probeFrames

/-! ## The turn, case by case -/

theorem enteredPart_car (p : Part) (c : Car) : (p.modInputs c (·.closeFrame p.globals.window)).car c =
    (p.car c).entered p.globals := (p.modCar_car c c _).trans (if_pos rfl)

theorem modBrake_modCar (p : Part) (c : Car) (f : CarBlock → CarBlock) (k : CarBrake → CarBrake) :
    (p.modCar c f).modBrake c k = p.modCar c fun b => { f b with brake := k (f b).brake } := Part.modCar_modCar

theorem modCar_own (p : Part) (c : Car) (f : CarBlock → CarBlock) : (p.modCar c f).car c = f (p.car c) :=
  (p.modCar_car c c f).trans (if_pos rfl)

theorem frameEnd_rests (h : ¬(p.car c).Runs) : (p.modInputs c (·.closeFrame p.globals.window)).frameEnd c =
    p.modCar c (·.entered p.globals) := by
  unfold Part.frameEnd
  dsimp only
  rw [enteredPart_car]
  exact if_neg h

/-- The part once a running opening has counted its frame. -/
theorem frameEnd_runs (h : (p.car c).Runs) : (p.modInputs c (·.closeFrame p.globals.window)).frameEnd c =
    match (p.car c).brake.opening with
    | some .lowering => (p.modCar c (·.framed p.globals)).regulate c
    | some .probe => (p.modCar c (·.framed p.globals)).judgeProbe c
    | none => p.modCar c (·.framed p.globals) := by
  have framed : ((p.modInputs c (·.closeFrame p.globals.window)).modBrake c fun b =>
      { b with framesOpen := bump 65535 b.framesOpen }) = p.modCar c (·.framed p.globals) := Part.modCar_modCar
  unfold Part.frameEnd
  dsimp only
  rw [enteredPart_car, framed]
  refine (if_pos h).trans ?_
  show (match (p.car c).brake.opening with | some .lowering => _ | some .probe => _ | none => _) = _
  cases (p.car c).brake.opening with
  | none => rfl
  | some kind => cases kind <;> rfl

theorem regulate_eq (p : Part) (c : Car) : (p.modCar c (·.framed p.globals)).regulate c =
    if (p.entry c).overspeed < (p.car c).speed (p.entry c) p.globals then
      (p.modCar c fun b => b.measured (p.entry c) p.globals).overspeed c
    else p.modCar c fun b => b.regulated (p.entry c) p.globals := by
  have own := modCar_own p c (·.framed p.globals)
  have measured : ((p.modCar c (·.framed p.globals)).modBrake c fun b =>
      { b with lastSpeed := some (min 65535 ((p.car c).speed (p.entry c) p.globals)) }) =
      p.modCar c fun b => b.measured (p.entry c) p.globals := by
    rw [modBrake_modCar]; exact Part.modCar_congr rfl
  unfold Part.regulate
  dsimp only
  rw [own]
  show (if (p.entry c).overspeed < (p.car c).speed (p.entry c) p.globals then
      ((p.modCar c (·.framed p.globals)).modBrake c fun b =>
        { b with lastSpeed := some (min 65535 ((p.car c).speed (p.entry c) p.globals)) }).overspeed c
    else ((p.modCar c (·.framed p.globals)).modBrake c fun b =>
        { b with lastSpeed := some (min 65535 ((p.car c).speed (p.entry c) p.globals)) }).modBrake c fun b =>
      if regulatedShare (p.entry c) p.globals ((p.car c).speed (p.entry c) p.globals) b.shadowA = b.shadowA then b
      else b.setShadow (p.entry c)
        (regulatedShare (p.entry c) p.globals ((p.car c).speed (p.entry c) p.globals) b.shadowA)) = _
  rw [measured, modBrake_modCar]
  split
  · rfl
  · exact Part.modCar_congr rfl

theorem overspeed_eq (p : Part) (c : Car) (f : CarBlock → CarBlock) (state : (f (p.car c)).record.state = p.stateOf c) :
    (p.modCar c f).overspeed c = if p.stateOf c = .lowering then
        (p.modCar c fun b => { f b with brake := (f b).brake.lock }).change c (·.toFailed c .overspeed)
      else p.modCar c fun b => { f b with brake := (f b).brake.lock } := by
  unfold Part.overspeed
  dsimp only
  rw [modBrake_modCar]
  have same : (p.modCar c fun b => { f b with brake := (f b).brake.lock }).stateOf c = p.stateOf c := by
    unfold Part.stateOf; rw [modCar_own]; exact state
  rw [same]

theorem judgeProbe_goes (h : ¬(p.car c).AtLastFrame p.globals) :
    (p.modCar c (·.framed p.globals)).judgeProbe c = p.modCar c (·.framed p.globals) := by
  unfold Part.judgeProbe
  rw [modCar_own]
  exact if_neg h

theorem judgeProbe_ends (h : (p.car c).AtLastFrame p.globals) :
    (p.modCar c (·.framed p.globals)).judgeProbe c = if p.stateOf c = .probing then
        (p.modCar c fun b => b.probeWeighed (p.entry c) p.globals).change c (·.toAssessing c)
      else p.modCar c (·.probeClosed p.globals) := by
  have closed : (p.modCar c (·.framed p.globals)).closeBrake c = p.modCar c (·.probeClosed p.globals) := modBrake_modCar p c _ _
  have own := modCar_own p c (·.probeClosed p.globals)
  have state : (p.modCar c (·.probeClosed p.globals)).stateOf c = p.stateOf c := by unfold Part.stateOf; rw [own]; rfl
  have ended : (p.modCar c (·.framed p.globals)).judgeProbe c = (p.modCar c (·.probeClosed p.globals)).probeEnd c := by
    unfold Part.judgeProbe
    rw [modCar_own, closed]
    exact if_pos h
  rw [ended]
  unfold Part.probeEnd
  rw [state, own]
  split
  · have weighed : ((p.modCar c (·.probeClosed p.globals)).modRecord c fun r =>
          { r with
            probeResult :=
              some (probeVerdict p.globals.probeThreshold (countToMm (p.entry c).ppm (p.car c).inputs.move.travel)) }) =
        p.modCar c fun b => b.probeWeighed (p.entry c) p.globals := by
      refine Part.modCar_modCar.trans (Part.modCar_congr ?_)
      rfl
    exact congrArg (fun q : Part => q.change c (·.toAssessing c)) weighed
  · rfl

/-! ## The frame start -/

theorem frameStart_closed (h : b.brake.channelA ≠ .open) : b.frameStart = b := by
  have brake : b.brake.frameStart = b.brake := if_neg h
  unfold CarBlock.frameStart
  rw [brake, if_neg fun k => h k.1]

theorem frameStart_running (h : b.Runs) : b.frameStart = { b with brake := b.brake.frameStart } := by
  unfold CarBlock.frameStart
  rw [if_neg]
  rintro ⟨-, k⟩
  rw [h.2] at k
  exact absurd k (by decide)

/-- The brake whose shadow shares have become active (R160 step 3). -/
def CarBrake.lit (x : CarBrake) : CarBrake := { x with
    activeA := x.shadowA, insideA := decide (0 < x.shadowA), started := true
    activeB := if x.channelB = .open then x.shadowB else x.activeB
    insideB := decide (x.channelB = .open ∧ 0 < x.shadowB) }

theorem brakeStart_eq {x : CarBrake} (h : x.channelA = .open) : x.frameStart = x.lit := by
  have inside : (x.channelB == .open && decide (0 < if x.channelB = .open then x.shadowB else x.activeB)) =
      decide (x.channelB = .open ∧ 0 < x.shadowB) := by
    by_cases hb : x.channelB = .open <;> simp [hb]
  refine (if_pos h).trans ?_
  show ({ x with
    activeA := x.shadowA, insideA := decide (0 < x.shadowA), started := true
    activeB := if x.channelB = .open then x.shadowB else x.activeB
    insideB := (x.channelB == .open && decide (0 < if x.channelB = .open then x.shadowB else x.activeB)) } : CarBrake) = _
  rw [inside]
  rfl

/-- The turn of a car is the frame end, then the frame start (R160). -/
theorem boundary_eq (p : Part) (c : Car) :
    p.boundary c = ((p.modInputs c (·.closeFrame p.globals.window)).frameEnd c).modCar c (·.frameStart) := rfl

theorem boundary_updates {f : CarBlock → CarBlock}
    (h : (p.modInputs c (·.closeFrame p.globals.window)).frameEnd c = p.modCar c f) :
    p.boundary c = p.modCar c fun b => (f b).frameStart := by
  rw [boundary_eq, h, Part.modCar_modCar]

theorem boundary_ends (h : (p.modInputs c (·.closeFrame p.globals.window)).frameEnd c = q)
    (closed : (q.car c).brake.channelA ≠ .open) : p.boundary c = q := by
  rw [boundary_eq, h]
  exact Part.modCar_self (frameStart_closed closed)

theorem channelA_closed {x : CarBrake} (h : x.anyOpen = false) : x.channelA ≠ .open := by
  intro e; simp [CarBrake.anyOpen, e] at h

/-- An overspeed in LOWERING locks both channels and fails the car (R168, R78). -/
theorem boundary_overspeed (runs : (p.car c).Runs) (lowering : (p.car c).brake.opening = some .lowering)
    (fast : (p.entry c).overspeed < (p.car c).speed (p.entry c) p.globals) :
    p.boundary c = if p.stateOf c = .lowering then
        (p.modCar c fun b => b.overspedLocked (p.entry c) p.globals).change c (·.toFailed c .overspeed)
      else p.modCar c fun b => b.overspedLocked (p.entry c) p.globals := by
  have ended := frameEnd_runs runs
  simp only [lowering] at ended
  rw [regulate_eq, if_pos fast, overspeed_eq _ _ _ rfl] at ended
  refine boundary_ends ended ?_
  split
  · rw [Part.change_toFailed_own, modCar_own]
    show CarBrake.channelA (if _ then _ else _) ≠ _
    split
    · exact channelA_closed (CarBrake.close_anyOpen _)
    · exact ChannelState.noConfusion
  · rw [modCar_own]; exact ChannelState.noConfusion

/-- A probe at its last frame is closed and weighed, and its car goes to ASSESSING (R165, R61). -/
theorem boundary_probe (runs : (p.car c).Runs) (probe : (p.car c).brake.opening = some .probe)
    (last : (p.car c).AtLastFrame p.globals) :
    p.boundary c = if p.stateOf c = .probing then
        (p.modCar c fun b => b.probeWeighed (p.entry c) p.globals).change c (·.toAssessing c)
      else p.modCar c (·.probeClosed p.globals) := by
  have ended := frameEnd_runs runs
  simp only [probe] at ended
  rw [judgeProbe_ends last] at ended
  refine boundary_ends ended ?_
  split
  · rw [Part.change_toAssessing_own, modCar_own]
    show CarBrake.channelA (if _ then _ else _) ≠ _
    split <;> exact channelA_closed (CarBrake.close_anyOpen _)
  · rw [modCar_own]; exact channelA_closed (CarBrake.close_anyOpen _)

theorem boundary_rests (h : ¬(p.car c).Runs) : p.boundary c = p.modCar c fun b => (b.entered p.globals).frameStart :=
  boundary_updates (frameEnd_rests h)

theorem boundary_regulates (runs : (p.car c).Runs) (lowering : (p.car c).brake.opening = some .lowering)
    (slow : ¬(p.entry c).overspeed < (p.car c).speed (p.entry c) p.globals) :
    p.boundary c = p.modCar c fun b => (b.regulated (p.entry c) p.globals).frameStart := by
  have ended := frameEnd_runs runs
  simp only [lowering] at ended
  rw [regulate_eq, if_neg slow] at ended
  exact boundary_updates ended

theorem boundary_probes (runs : (p.car c).Runs) (probe : (p.car c).brake.opening = some .probe)
    (early : ¬(p.car c).AtLastFrame p.globals) :
    p.boundary c = p.modCar c fun b => (b.framed p.globals).frameStart := by
  have ended := frameEnd_runs runs
  simp only [probe] at ended
  rw [judgeProbe_goes early] at ended
  exact boundary_updates ended

theorem boundary_bare (runs : (p.car c).Runs) (bare : (p.car c).brake.opening = none) :
    p.boundary c = p.modCar c fun b => (b.framed p.globals).frameStart := by
  have ended := frameEnd_runs runs
  simp only [bare] at ended
  exact boundary_updates ended

/-! ## Turns of cars -/

theorem carTurn_modCar {f : CarBlock → CarBlock} (h : (f (p.car c)).record.state = (p.car c).record.state) :
    CarTurn c [] p (p.modCar c f) ∧ PassKept p (p.modCar c f) :=
  ⟨(touchesOnly_modCar p c f).turn (.of_eq rfl rfl) fun _ => by unfold Part.stateOf; rw [modCar_own]; exact h, rfl, rfl⟩

/-- The car is updated with its record as it stands. -/
def Updates (p : Part) (c : Car) (q : Part) : Prop :=
  ∃ f : CarBlock → CarBlock, (f (p.car c)).record = (p.car c).record ∧ q = p.modCar c f

theorem frameStart_record (b : CarBlock) : b.frameStart.record = b.record := rfl

theorem framed_record (b : CarBlock) (g : Globals) : (b.framed g).record = b.record := rfl

theorem regulated_record (b : CarBlock) (e : CarEntry) (g : Globals) : (b.regulated e g).record = b.record := rfl

theorem overspedLocked_record (b : CarBlock) (e : CarEntry) (g : Globals) : (b.overspedLocked e g).record = b.record := rfl

theorem updates_of_frameStart {f : CarBlock → CarBlock} (record : (f (p.car c)).record = (p.car c).record)
    (h : q = p.modCar c fun b => (f b).frameStart) : Updates p c q :=
  ⟨fun b => (f b).frameStart, (frameStart_record _).trans record, h⟩

/-- The turn of a car updates its blocks, or fails it for overspeed, or ends its probe. -/
theorem boundary_forms (p : Part) (c : Car) : Updates p c (p.boundary c) ∨
    p.boundary c = (p.modCar c fun b => b.overspedLocked (p.entry c) p.globals).change c (·.toFailed c .overspeed) ∨
    p.boundary c = (p.modCar c fun b => b.probeWeighed (p.entry c) p.globals).change c (·.toAssessing c) := by
  by_cases runs : (p.car c).Runs
  · rcases opening : (p.car c).brake.opening with _ | _ | _
    · exact .inl (updates_of_frameStart (framed_record _ _) (boundary_bare runs opening))
    · by_cases fast : (p.entry c).overspeed < (p.car c).speed (p.entry c) p.globals
      · rw [boundary_overspeed runs opening fast]
        split
        · exact .inr (.inl rfl)
        · exact .inl ⟨fun b => b.overspedLocked (p.entry c) p.globals, overspedLocked_record _ _ _, rfl⟩
      · exact .inl (updates_of_frameStart (regulated_record _ _ _) (boundary_regulates runs opening fast))
    · by_cases last : (p.car c).AtLastFrame p.globals
      · rw [boundary_probe runs opening last]
        split
        · exact .inr (.inr rfl)
        · exact .inl ⟨fun b => b.probeClosed p.globals, rfl, rfl⟩
      · exact .inl (updates_of_frameStart (framed_record _ _) (boundary_probes runs opening last))
  · exact .inl (updates_of_frameStart rfl (boundary_rests runs))

theorem failed_overspeed_turn (p : Part) (c : Car) :
    let q := (p.modCar c fun b => b.overspedLocked (p.entry c) p.globals).change c (·.toFailed c .overspeed)
    CarTurn c [⟨.carFailed, some c⟩] p q ∧
      q.car c = ((p.car c).overspedLocked (p.entry c) p.globals).failed p.globals .overspeed ∧ PassKept p q := by
  have turn := carTurn_toFailed (p := p.modCar c fun b => b.overspedLocked (p.entry c) p.globals) .overspeed
    (prelude_modCar (p := p) (c := c) (f := fun b => b.overspedLocked (p.entry c) p.globals) rfl)
  rw [modCar_own] at turn
  exact turn

theorem probe_turn (p : Part) (c : Car) :
    let q := (p.modCar c fun b => b.probeWeighed (p.entry c) p.globals).change c (·.toAssessing c)
    CarTurn c ((p.car c).assessedNotices c) p q ∧
      q.car c = ((p.car c).probeWeighed (p.entry c) p.globals).assessed p.globals ∧ (p.car c).AssessedPass p q := by
  have turn := carTurn_toAssessing (p := p.modCar c fun b => b.probeWeighed (p.entry c) p.globals)
    (prelude_modCar (p := p) (c := c) (f := fun b => b.probeWeighed (p.entry c) p.globals) rfl)
  rw [modCar_own] at turn
  exact turn

theorem boundary_turn (p : Part) (c : Car) : (∃ l, CarTurn c l p (p.boundary c)) ∧
    (p.stateOf c ≠ .ready → (p.boundary c).stateOf c ≠ .ready) := by
  rcases boundary_forms p c with ⟨f, record, h⟩ | h | h
  · have state : (f (p.car c)).record.state = (p.car c).record.state := congrArg CarRecord.state record
    rw [h]
    exact ⟨⟨_, (carTurn_modCar state).1⟩, fun ready => by unfold Part.stateOf; rw [modCar_own, state]; exact ready⟩
  · rw [h]
    obtain ⟨turn, own, -⟩ := failed_overspeed_turn p c
    exact ⟨⟨_, turn⟩, fun _ => by unfold Part.stateOf; rw [own]; exact RescueState.noConfusion⟩
  · rw [h]
    obtain ⟨turn, own, -⟩ := probe_turn p c
    refine ⟨⟨_, turn⟩, fun _ => ?_⟩
    unfold Part.stateOf
    rw [own, assessed_state]
    exact (CarBlock.assessedState_rest _).2.1

theorem boundary_stands (p : Part) (c d : Car) (hd : d ≠ c) (ready : p.stateOf d ≠ .ready) :
    (p.boundary c).car d = p.car d := by
  obtain ⟨l, turn⟩ := (boundary_turn p c).1
  exact turn.cars.stands hd ready

theorem boundary_rest (p : Part) (c : Car) : KeepsRest p (p.boundary c) := by
  obtain ⟨l, turn⟩ := (boundary_turn p c).1
  exact turn.rest

/-- Turns that keep the settings are taken one after the other with the same settings. -/
theorem inTurn_foldl_of {turn : Car → Part → Part → Prop} {f : Part → Car → Part} {x : Settings}
    (h : ∀ p c, p.config = x → turn c p (f p c)) (kept : ∀ p c, (f p c).config = p.config) :
    ∀ (cars : List Car) (p : Part), p.config = x → InTurn turn cars p (cars.foldl f p)
  | [], _, _ => rfl
  | c :: rest, p, is => ⟨f p c, h p c is, inTurn_foldl_of h kept rest (f p c) ((kept p c).trans is)⟩

/-- A probe that ends is closed once, by its turn or by its entry to ASSESSING (R60, R165). -/
theorem probeWeighed_assessed (probing : b.record.state = .probing) : (b.probeWeighed e g).assessed g =
    ({ b.framed g with record := { b.record with
        probeResult := some (probeVerdict g.probeThreshold (countToMm e.ppm b.inputs.move.travel)) } } : CarBlock).assessed g := by
  have brakes : isBrakeState b.record.state = true := by rw [probing]; rfl
  have brake : (if isBrakeState b.record.state then (b.framed g).brake.close.close else (b.framed g).brake.close) =
      if isBrakeState b.record.state then (b.framed g).brake.close else (b.framed g).brake := by
    rw [if_pos brakes, if_pos brakes, CarBrake.close_close]
  exact CarBlock.eq_of_blocks rfl rfl rfl rfl rfl rfl rfl brake rfl

/-! ## What the turn of a car shows -/

/-- The blocks of a car whose running opening has counted its frame, a LOWERING opening with its speed (R165, R166). -/
def CarBlock.counted (b : CarBlock) (e : CarEntry) (g : Globals) : CarBlock :=
  { b.entered g with brake := { b.brake with
      framesOpen := min 65535 (b.brake.framesOpen + 1)
      lastSpeed := if b.brake.opening = some .lowering then some (min 65535 (b.speed e g)) else b.brake.lastSpeed } }

theorem counted_lowering (h : b.brake.opening = some .lowering) : b.measured e g = b.counted e g := by
  have speed : (if b.brake.opening = some .lowering then some (min 65535 (b.speed e g)) else b.brake.lastSpeed) =
      some (min 65535 (b.speed e g)) := if_pos h
  unfold CarBlock.counted
  rw [speed]
  rfl

theorem counted_probe (h : b.brake.opening = some .probe) : b.framed g = b.counted e g := by
  have speed : (if b.brake.opening = some .lowering then some (min 65535 (b.speed e g)) else b.brake.lastSpeed) =
      b.brake.lastSpeed := if_neg (by rw [h]; decide)
  unfold CarBlock.counted
  rw [speed]
  rfl

/-- The share of channel A after the frame (R167). -/
def CarBlock.share (b : CarBlock) (e : CarEntry) (g : Globals) : Nat := regulatedShare e g (b.speed e g) b.brake.shadowA

/-- The share of channel B after the frame: a share of A that stands leaves it, another sets it by its mode (R164, R167). -/
def CarBlock.otherShare (b : CarBlock) (e : CarEntry) (g : Globals) : Nat :=
  if b.share e g = b.brake.shadowA then b.brake.shadowB else shareB e (b.share e g)

theorem regulated_brake (h : b.brake.opening = some .lowering) : (b.regulated e g).brake =
    { (b.counted e g).brake with shadowA := b.share e g, shadowB := b.otherShare e g } := by
  rw [← counted_lowering h]
  show (if b.share e g = b.brake.shadowA then (b.measured e g).brake
    else (b.measured e g).brake.setShadow e (b.share e g)) = _
  unfold CarBlock.otherShare
  split
  · next same => rw [same]; rfl
  · rfl

/-- The blocks of a car whose channels an overspeed has locked, all else of its brake as counted (R168; log 35). -/
theorem overspedLocked_eq (h : b.brake.opening = some .lowering) : b.overspedLocked e g =
    { b.counted e g with brake := (b.counted e g).brake.lock } := by rw [← counted_lowering h]; rfl

theorem frameStart_starts (opened : b.brake.channelA = .open) (fresh : b.brake.started = false) :
    b.frameStart = { b with brake := b.brake.lit, inputs := { b.inputs with window := [] } } := by
  unfold CarBlock.frameStart
  rw [brakeStart_eq opened, if_pos ⟨opened, by rw [fresh]; rfl⟩]

theorem frameStart_lit (h : b.Runs) : b.frameStart = { b with brake := b.brake.lit } := by
  rw [frameStart_running h, brakeStart_eq h.1]

/-- A car that is updated with its record as it stands has the turn of that update. -/
theorem carTurn_of_updates {f : CarBlock → CarBlock} (h : p.boundary c = p.modCar c f) {now : CarBlock}
    (is : f (p.car c) = now) (record : now.record = (p.car c).record) :
    ((p.boundary c).car c = now ∧ CarTurn c [] p (p.boundary c)) ∧ PassKept p (p.boundary c) := by
  rw [h]
  obtain ⟨turn, pass⟩ := carTurn_modCar (p := p) (c := c) (f := f) (by rw [is, record])
  exact ⟨⟨(modCar_own p c f).trans is, turn⟩, pass⟩

/-- The turn of a car whose channel A is not OPEN (R43, R160). -/
theorem boundary_shut (shut : (p.car c).brake.channelA ≠ .open) :
    ((p.boundary c).car c = (p.car c).entered p.globals ∧ CarTurn c [] p (p.boundary c)) ∧ PassKept p (p.boundary c) :=
  carTurn_of_updates (boundary_rests fun runs => shut runs.1) (frameStart_closed shut) rfl

/-- The turn of a car whose opening starts (R43, R160). -/
theorem boundary_starts (opened : (p.car c).brake.channelA = .open) (fresh : (p.car c).brake.started = false) :
    ((p.boundary c).car c = { p.car c with
        inputs := { (p.car c).inputs with window := [], frameCount := 0 }, brake := (p.car c).brake.lit } ∧
      CarTurn c [] p (p.boundary c)) ∧ PassKept p (p.boundary c) :=
  carTurn_of_updates (boundary_rests fun runs => Bool.noConfusion (fresh.symm.trans runs.2))
    (frameStart_starts (b := (p.car c).entered p.globals) opened fresh) rfl

/-- The turn of a car in a LOWERING opening up to the overspeed limit (R166, R167). -/
theorem boundary_lowers (runs : (p.car c).Runs) (lowering : (p.car c).brake.opening = some .lowering)
    (slow : ¬(p.entry c).overspeed < (p.car c).speed (p.entry c) p.globals) :
    ((p.boundary c).car c = { (p.car c).counted (p.entry c) p.globals with
        brake := CarBrake.lit { ((p.car c).counted (p.entry c) p.globals).brake with
          shadowA := (p.car c).share (p.entry c) p.globals
          shadowB := (p.car c).otherShare (p.entry c) p.globals } } ∧
      CarTurn c [] p (p.boundary c)) ∧ PassKept p (p.boundary c) := by
  have brake := regulated_brake (e := p.entry c) (g := p.globals) lowering
  have still : ((p.car c).regulated (p.entry c) p.globals).Runs := by
    unfold CarBlock.Runs
    rw [brake]
    exact runs
  refine carTurn_of_updates (boundary_regulates runs lowering slow) ((frameStart_lit still).trans ?_) rfl
  rw [brake]
  rfl

/-- The turn of a car in a probe before its last frame (R165). -/
theorem boundary_probing (runs : (p.car c).Runs) (probe : (p.car c).brake.opening = some .probe)
    (early : ¬(p.car c).AtLastFrame p.globals) :
    ((p.boundary c).car c = { (p.car c).counted (p.entry c) p.globals with
        brake := ((p.car c).counted (p.entry c) p.globals).brake.lit } ∧
      CarTurn c [] p (p.boundary c)) ∧ PassKept p (p.boundary c) := by
  refine carTurn_of_updates (boundary_probes runs probe early) ?_ rfl
  have still : ((p.car c).framed p.globals).Runs := runs
  rw [frameStart_lit still, counted_probe probe]

/-- The turn of a car in LOWERING above the overspeed limit (R168, R78). -/
theorem boundary_oversped (runs : (p.car c).Runs) (opening : (p.car c).brake.opening = some .lowering)
    (fast : (p.entry c).overspeed < (p.car c).speed (p.entry c) p.globals)
    (state : (p.car c).record.state = .lowering) :
    let b := (p.car c).counted (p.entry c) p.globals
    ((p.boundary c).car c = CarBlock.failed { b with brake := b.brake.lock } p.globals .overspeed ∧
      CarTurn c [⟨.carFailed, some c⟩] p (p.boundary c)) ∧ PassKept p (p.boundary c) := by
  have ended := boundary_overspeed runs opening fast
  rw [if_pos (show p.stateOf c = .lowering from state)] at ended
  obtain ⟨turn, own, pass⟩ := failed_overspeed_turn p c
  rw [overspedLocked_eq opening] at own
  rw [ended]
  exact ⟨⟨own, turn⟩, pass⟩

/-- The turn of a car in PROBING at the last frame of its probe (R165, R61). -/
theorem boundary_probed (runs : (p.car c).Runs) (opening : (p.car c).brake.opening = some .probe)
    (last : (p.car c).AtLastFrame p.globals) (state : (p.car c).record.state = .probing) :
    ((p.boundary c).car c = CarBlock.assessed { (p.car c).counted (p.entry c) p.globals with
        record := { (p.car c).record with
          probeResult := some (probeVerdict p.globals.probeThreshold
            (countToMm (p.entry c).ppm (p.car c).inputs.move.travel)) } } p.globals ∧
      CarTurn c ((p.car c).assessedNotices c) p (p.boundary c)) ∧ (p.car c).AssessedPass p (p.boundary c) := by
  have ended := boundary_probe runs opening last
  rw [if_pos (show p.stateOf c = .probing from state)] at ended
  obtain ⟨turn, own, pass⟩ := probe_turn p c
  rw [probeWeighed_assessed state, counted_probe (e := p.entry c) opening] at own
  rw [ended]
  exact ⟨⟨own, turn⟩, pass⟩

/-! ## The frame boundary -/

/-- The part once every car has had its turn (R160, log 20). -/
def Part.turned (p : Part) : Part := allCars.foldl (fun p c => p.boundary c) p

theorem boundaries_rest (cars : List Car) (p : Part) : KeepsRest p (cars.foldl (fun p c => p.boundary c) p) :=
  foldl_keeps KeepsRest.refl KeepsRest.trans _ boundary_rest cars p

theorem frameBoundary_eq (on : s.powered = true) : execFrameBoundary s =
    .next (s.withPart ({ s.toPart.turned with time := { s.time with sinceFrame := 0 } }.demandJudged s.demand)) := by
  have time : s.toPart.turned.time = s.time := (boundaries_rest allCars s.toPart).time
  rw [← time]
  exact (runPart_settled on rfl).trans (congrArg (fun q => Host.Outcome.next (s.withPart q)) (settleDemand_eq _ _))

/-- A car that is not READY is as its own turn leaves it (R155). -/
theorem turned_turn (p : Part) (c : Car) (ready : p.stateOf c ≠ .ready) : ∃ before : Part, before.car c = p.car c ∧
    before.config = p.config ∧ p.turned.car c = (before.boundary c).car c ∧ p.turned.stateOf c ≠ .ready := by
  obtain ⟨before, same, own, early, is, -⟩ := foldl_turn (f := fun p c => p.boundary c) boundary_stands
    (fun p => (boundary_turn p c).2) allCars p (List.nodup_finRange 8) (List.mem_finRange c) ready
  refine ⟨before, same, by rw [is]; exact (boundaries_rest early p).config, own, ?_⟩
  have left := (boundary_turn before c).2 (by unfold Part.stateOf; rw [same]; exact ready)
  unfold Part.stateOf Part.turned
  rw [own]
  exact left

/-- The judging of demand, with its selection, leaves a car alone that is not READY. -/
theorem frameBoundary_runs (on : s.powered = true) : ∃ t, exec .frameBoundary s = .next t ∧
    t = s.withPart ({ s.toPart.turned with time := { s.time with sinceFrame := 0 } }.demandJudged s.demand) ∧
    ∀ c, s.toPart.turned.stateOf c ≠ .ready → t.car c = s.toPart.turned.car c := by
  have run : exec .frameBoundary s = execFrameBoundary s := rfl
  refine ⟨_, run.trans (frameBoundary_eq on), rfl, fun c ready => ?_⟩
  generalize s.toPart.turned = p at ready ⊢
  exact demandJudged_car (p := { p with time := { s.time with sinceFrame := 0 } }) s.demand ready

/-- Settles O50. The turn of each car is one of six, by its channel A and its opening; the cars have them in order, each with
the settings of the part before the boundary, and the selections of the releases leave a car alone that is not READY. -/
theorem frameBoundaryActs : Obligations.FrameBoundaryActs := by
  unfold Obligations.FrameBoundaryActs
  intro s on g window speed share otherShare lit running frames overspeeds probeEnds counted locked probed turn
  have acts : ∀ (p : Part) (c : Car), p.config = s.config → turn c p (p.boundary c) := by
    intro p c kept
    have entry : p.entry c = s.entry c := congrArg (fun x : Settings => x.cars[c]) kept
    have globals : p.globals = s.globals := congrArg Settings.globals kept
    refine ⟨fun shut => ?closed, fun opened fresh => ?starting, fun runs opening slow => ?lowering,
      fun runs opening early => ?probing, fun ⟨runs, opening, fast⟩ state => ?overspeed,
      fun ⟨runs, opening, last⟩ state => ?probed⟩
    case closed =>
      have done := boundary_shut shut
      rw [globals] at done
      exact done
    case starting => exact boundary_starts opened fresh
    case lowering =>
      have done := boundary_lowers runs opening (by rw [entry, globals]; exact fun fast => slow ⟨runs, opening, fast⟩)
      rw [entry, globals] at done
      exact done
    case probing =>
      have done := boundary_probing runs opening (by rw [globals]; exact fun last => early ⟨runs, opening, last⟩)
      rw [entry, globals] at done
      exact done
    case overspeed =>
      have done := boundary_oversped runs opening (by rw [entry, globals]; exact fast) state
      rw [entry, globals] at done
      exact done
    case probed =>
      have done := boundary_probed runs opening (by rw [globals]; exact last) state
      rw [entry, globals] at done
      exact done
  have taken : InTurn turn allCars s.toPart s.toPart.turned :=
    inTurn_foldl_of acts (fun p c => (boundary_rest p c).config) allCars s.toPart rfl
  obtain ⟨t, run, is, rests⟩ := frameBoundary_runs on
  refine ⟨t, s.toPart.turned, run, taken, is, fun c ready => ?_⟩
  obtain ⟨before, same, kept, own, left⟩ := turned_turn s.toPart c ready
  exact ⟨before, before.boundary c, acts before c kept, same, (rests c left).trans own⟩

end Sys2Proof.Machine
end
